-- ==== Sys2Proof/Word.lean ====
section
/-! DEFINITION. The data types of the RGBC core that no command defines: bytes, descriptors, pixels,
channel and frame-type names, the eight-fold vectors a block is made of, and binary64 values. -/

namespace Sys2Proof

/-- One byte of a file or buffer, the `u8` of 00_scope.md R10. -/
abbrev Byte := BitVec 8

/-- One command descriptor (30_encoding.md R120). -/
abbrev Desc := BitVec 128

/-- The channel tag of a block (10_state.md R33). -/
inductive Chan where
  | y | cb | cr
  deriving DecidableEq, Repr

/-- The number of a channel: 0 = Y, 1 = Cb, 2 = Cr (R33). -/
def Chan.num : Chan → Nat
  | .y => 0
  | .cb => 1
  | .cr => 2

/-- The frame type of a frame (10_state.md R41). -/
inductive FrameType where
  | key | delta
  deriving DecidableEq, Repr

/-- The stored number of a frame type: 0 = key, 1 = delta (R41, 20_memory.md R90). -/
def FrameType.num : FrameType → Nat
  | .key => 0
  | .delta => 1

/-- Three 8-bit channels of one pixel: R, G, B in RGB, and Y, Cb, Cr in CUR and PREV (10_state.md R42). -/
structure Pixel where
  c0 : Byte
  c1 : Byte
  c2 : Byte
  deriving DecidableEq, Repr

/-- A whole frame, its pixels in row-major order: pixel (y, x) stands at position 352·y + x
(10_state.md R42, 20_memory.md R81). -/
abbrev Frame := List Pixel

/-- Eight like things, indexed 0 to 7: a row or a column of a block. -/
structure Oct (α : Type) where
  e0 : α
  e1 : α
  e2 : α
  e3 : α
  e4 : α
  e5 : α
  e6 : α
  e7 : α
  deriving DecidableEq, Repr, Inhabited

/-- An 8×8 matrix as its eight rows, top to bottom: element `[r][c]` is `(m.get r).get c`
(10_state.md R32). -/
abbrev Mat (α : Type) := Oct (Oct α)

/-- The number of finite binary64 magnitudes: the 63-bit pattern of +infinity. -/
abbrev magBound : Nat := 0x7FF0000000000000

/-- An IEEE 754 binary64 value (00_scope.md R10, 43_dct.md R230). A finite value is its sign and the
63-bit pattern of its magnitude (exponent field, then fraction). A NaN carries no payload: no rule
observes one, so none is chosen (93_implementation_defined.md U9, log 4). -/
inductive F64 where
  | nan
  | inf (neg : Bool)
  | fin (neg : Bool) (mag : Fin magBound)
  deriving DecidableEq, Repr

end Sys2Proof
end

