-- ==== Sys2Proof/Config.lean ====
section
/-! DEFINITION. The constants the spec fixes (00_scope.md R7, R8) and the free values it leaves open. -/

namespace Sys2Proof.Config

/-- Frame width in pixels, also the constant register WIDTH (00_scope.md R7, 10_state.md R40). -/
abbrev cifX : Nat := 352

/-- Frame height in pixels, also the constant register HEIGHT (R7, R40). -/
abbrev cifY : Nat := 288

/-- Pixels of a frame, 352·288. -/
abbrev framePixels : Nat := 101376

/-- FSZ: bytes of a raw frame, samples of a frame, and PAY_CAP (R7, R8). -/
abbrev frameBytes : Nat := 304128

/-- BCOLS: block columns (R7). -/
abbrev blockCols : Nat := 44

/-- NBLK: blocks of a frame (R7). -/
abbrev numBlocks : Nat := 4752

/-- KEY_INTERVAL (R7). -/
abbrev keyInterval : Nat := 32

/-- HDR_BYTES: bytes of the code-length header (R7). -/
abbrev hdrBytes : Nat := 128

/-- MAXLEN: the largest code length a header nibble holds (R7). -/
abbrev maxLen : Nat := 15

/-- FILE_HDR: bytes of the container file header (R7). -/
abbrev fileHdr : Nat := 15

/-- REC_PREFIX: bytes of a frame record before its payload (R7). -/
abbrev recPrefix : Nat := 9

/-- ENC_CAP: the largest compressed payload (R8). -/
abbrev encCap : Nat := 570368

/-- MAGIC: the bytes of "SMP" (R7). -/
def magic : List Byte := [0x53, 0x4D, 0x50]

/-- QT_LUMA, the base luma table. The spec leaves it OPEN (00_scope.md R8, 44_quant.md R260, D15), so
nothing is known of it. Log 3. -/
opaque qtLumaBits : Mat (BitVec 32)

/-- QT_CHROMA, the base chroma table, OPEN like QT_LUMA. Log 3. -/
opaque qtChromaBits : Mat (BitVec 32)

/-- The whole content (bytes and length) of the file that the `n`-th failed write of a run was writing:
"any value" (93_implementation_defined.md U6). Log 5. -/
opaque failedFile : Nat → List Byte

end Sys2Proof.Config
end

