-- ==== Sys2Proof/Syntax.lean ====
section
/-! DEFINITION. The 35 commands of the RGBC command set (30_encoding.md R124). -/

namespace Sys2Proof

/-- One constructor per row of spec/opcode_table.json, carrying the operands of R123 at the width the
descriptor gives them. -/
inductive Instr where
  /-- NOP, 47_system.md R381 -/
  | nop
  /-- RST, 47_system.md R382 -/
  | rst
  /-- SETQ, operand `i32`, 47_system.md R383 -/
  | setq (q : BitVec 32)
  /-- SETN, operand `u32`, 47_system.md R384 -/
  | setn (n : BitVec 32)
  /-- FR.LD, operand `u32` frame number, 47_system.md R386 -/
  | frLd (f : BitVec 32)
  /-- FR.ST, operand `u32` slot number, 47_system.md R387 -/
  | frSt (slot : BitVec 32)
  /-- CSC.FWD, 40_color.md R163 -/
  | cscFwd
  /-- CSC.INV, 40_color.md R166 -/
  | cscInv
  /-- TP.FWD, 41_temporal.md R183 -/
  | tpFwd
  /-- TP.INV, 41_temporal.md R186 -/
  | tpInv
  /-- BLK.LD, operand `blk`, 42_segment.md R203 -/
  | blkLd (i : BitVec 32)
  /-- BLK.ST, operand `blk`, 42_segment.md R205 -/
  | blkSt (i : BitVec 32)
  /-- BLK.PUT, operand `blk`, 42_segment.md R207 -/
  | blkPut (i : BitVec 32)
  /-- BLK.GET, operand `blk`, 42_segment.md R209 -/
  | blkGet (i : BitVec 32)
  /-- BLK.WR, operands `elem` and `f64` (as its bit pattern), 42_segment.md R211 -/
  | blkWr (k : BitVec 8) (v : BitVec 64)
  /-- BLK.CH, operand `ch`, 42_segment.md R212 -/
  | blkCh (t : BitVec 8)
  /-- FDCT, 43_dct.md R236 -/
  | fdct
  /-- IDCT, 43_dct.md R241 -/
  | idct
  /-- QUANT, 44_quant.md R265 -/
  | quant
  /-- DEQUANT, 44_quant.md R268 -/
  | dequant
  /-- PAY.LEN, operand `u32`, 45_entropy.md R283 -/
  | payLen (n : BitVec 32)
  /-- PAY.WR, operand `idxval`, 45_entropy.md R284 -/
  | payWr (k : BitVec 32) (b : Byte)
  /-- HUF.CNT, 45_entropy.md R286 -/
  | hufCnt
  /-- HUF.BLD, 45_entropy.md R288 -/
  | hufBld
  /-- HUF.HDR, 45_entropy.md R296 -/
  | hufHdr
  /-- HUF.PACK, 45_entropy.md R299 -/
  | hufPack
  /-- HUF.LDH, 45_entropy.md R303 -/
  | hufLdh
  /-- HUF.UNP, 45_entropy.md R305 -/
  | hufUnp
  /-- CW.HDR, 46_container.md R333 -/
  | cwHdr
  /-- CW.REC, 46_container.md R335 -/
  | cwRec
  /-- CR.OPEN, 46_container.md R340 -/
  | crOpen
  /-- CR.NEXT, 46_container.md R345 -/
  | crNext
  /-- CR.SEEK, operand `u32`, 46_container.md R353 -/
  | crSeek (n : BitVec 32)
  /-- ENC.FRAME, operand `u32` frame number, 47_system.md R390 -/
  | encFrame (f : BitVec 32)
  /-- DEC.FRAME, operand `u32` slot number, 47_system.md R391 -/
  | decFrame (slot : BitVec 32)
  deriving DecidableEq, Repr

end Sys2Proof
end

