-- ==== Sys2Proof/Decode.lean ====
section
/-! DEFINITION. Byte order, the fields of a descriptor, the decoder and after it the encoder
(30_encoding.md R120 to R126). -/

namespace Sys2Proof

/-- `le16`, `le32`, `le64` (00_scope.md R11): the `n` bytes of a number, least significant first. -/
def leBytes : Nat → Nat → List Byte
  | 0, _ => []
  | n + 1, v => BitVec.ofNat 8 v :: leBytes n (v / 256)

/-- `LE16`, `LE32`, `LE64` (R11): bytes read as a little-endian unsigned number. -/
def leNat : List Byte → Nat
  | [] => 0
  | b :: bs => b.toNat + 256 * leNat bs

/-- OPC, bits [7:0] (R121). -/
def Desc.opc (d : Desc) : BitVec 8 := d.extractLsb' 0 8

/-- IDX, bits [15:8] (R121). -/
def Desc.idx (d : Desc) : BitVec 8 := d.extractLsb' 8 8

/-- RSV, bits [63:16] (R121). -/
def Desc.rsv (d : Desc) : BitVec 48 := d.extractLsb' 16 48

/-- IMM, bits [127:64] (R121). -/
def Desc.imm (d : Desc) : BitVec 64 := d.extractLsb' 64 64

/-- `IMM[31:0]`. -/
def Desc.immLo (d : Desc) : BitVec 32 := d.extractLsb' 64 32

/-- `IMM[63:32]`. -/
def Desc.immHi (d : Desc) : BitVec 32 := d.extractLsb' 96 32

/-- `IMM[39:32]`, the value of an `idxval` operand (R123). -/
def Desc.immVal (d : Desc) : BitVec 8 := d.extractLsb' 96 8

/-- `IMM[63:40]`, zero in an `idxval` operand (R123). -/
def Desc.immTop (d : Desc) : BitVec 24 := d.extractLsb' 104 24

/-- Why bits are no command. -/
inductive DecodeError where
  /-- not 16 bytes: no descriptor at all, the port never delivers it (R120, log 18) -/
  | length
  /-- OPC is none of the 35 (R126): IllegalCommand(OPCODE) -/
  | opcode
  /-- a field that must be 0 is not (R126): IllegalCommand(RESERVED) -/
  | reserved
  deriving DecidableEq, Repr

/-- Form without operands: IDX, RSV and IMM are 0. -/
def formPlain (d : Desc) (i : Instr) : Except DecodeError Instr :=
  if d.rsv = 0 ∧ d.idx = 0 ∧ d.imm = 0 then .ok i else .error .reserved

/-- Forms `u32`, `i32` and `blk`: IDX, RSV and `IMM[63:32]` are 0 (R123). -/
def formImm32 (d : Desc) (mk : BitVec 32 → Instr) : Except DecodeError Instr :=
  if d.rsv = 0 ∧ d.idx = 0 ∧ d.immHi = 0 then .ok (mk d.immLo) else .error .reserved

/-- Form `idxval`: IDX, RSV and `IMM[63:40]` are 0 (R123). -/
def formIdxVal (d : Desc) (mk : BitVec 32 → Byte → Instr) : Except DecodeError Instr :=
  if d.rsv = 0 ∧ d.idx = 0 ∧ d.immTop = 0 then .ok (mk d.immLo d.immVal) else .error .reserved

/-- Form `elem`, `f64`: RSV is 0 (R123). -/
def formElemF64 (d : Desc) (mk : BitVec 8 → BitVec 64 → Instr) : Except DecodeError Instr :=
  if d.rsv = 0 then .ok (mk d.idx d.imm) else .error .reserved

/-- Form `ch`: RSV and IMM are 0 (R123). -/
def formCh (d : Desc) (mk : BitVec 8 → Instr) : Except DecodeError Instr :=
  if d.rsv = 0 ∧ d.imm = 0 then .ok (mk d.idx) else .error .reserved

/-- The decoder: OPC selects the row, then the fields that must be 0 are checked (R124 to R126). Operand
ranges are checked by the command (R445 step 4 comes after step 3). -/
def decode (d : Desc) : Except DecodeError Instr :=
  match d.opc.toNat with
  | 0x00 => formPlain d .nop
  | 0x01 => formPlain d .rst
  | 0x02 => formImm32 d .setq
  | 0x03 => formImm32 d .setn
  | 0x10 => formImm32 d .frLd
  | 0x11 => formImm32 d .frSt
  | 0x20 => formPlain d .cscFwd
  | 0x21 => formPlain d .cscInv
  | 0x30 => formPlain d .tpFwd
  | 0x31 => formPlain d .tpInv
  | 0x40 => formImm32 d .blkLd
  | 0x41 => formImm32 d .blkSt
  | 0x42 => formImm32 d .blkPut
  | 0x43 => formImm32 d .blkGet
  | 0x44 => formElemF64 d .blkWr
  | 0x45 => formCh d .blkCh
  | 0x50 => formPlain d .fdct
  | 0x51 => formPlain d .idct
  | 0x60 => formPlain d .quant
  | 0x61 => formPlain d .dequant
  | 0x70 => formImm32 d .payLen
  | 0x71 => formIdxVal d .payWr
  | 0x72 => formPlain d .hufCnt
  | 0x73 => formPlain d .hufBld
  | 0x74 => formPlain d .hufHdr
  | 0x75 => formPlain d .hufPack
  | 0x76 => formPlain d .hufLdh
  | 0x77 => formPlain d .hufUnp
  | 0x80 => formPlain d .cwHdr
  | 0x81 => formPlain d .cwRec
  | 0x90 => formPlain d .crOpen
  | 0x91 => formPlain d .crNext
  | 0x92 => formImm32 d .crSeek
  | 0xA0 => formImm32 d .encFrame
  | 0xA1 => formImm32 d .decFrame
  | _ => .error .opcode

/-- The descriptor that 16 bytes on the command port make: byte 0 = OPC, little-endian (R121). -/
def decodeBytes (bs : List Byte) : Except DecodeError Instr :=
  if bs.length = 16 then decode (BitVec.ofNat 128 (leNat bs)) else .error .length

/-- The instruction the decoder reads from the opcode-table word `w` of `nbits` bits, laid out as the 16
bytes of the command port. -/
def decodeTableWord (nbits w : Nat) : Option Instr :=
  (decodeBytes (leBytes 16 (w % 2 ^ nbits))).toOption

/-- OPC of a command (R124). -/
def Instr.opc : Instr → BitVec 8
  | .nop => 0x00
  | .rst => 0x01
  | .setq _ => 0x02
  | .setn _ => 0x03
  | .frLd _ => 0x10
  | .frSt _ => 0x11
  | .cscFwd => 0x20
  | .cscInv => 0x21
  | .tpFwd => 0x30
  | .tpInv => 0x31
  | .blkLd _ => 0x40
  | .blkSt _ => 0x41
  | .blkPut _ => 0x42
  | .blkGet _ => 0x43
  | .blkWr _ _ => 0x44
  | .blkCh _ => 0x45
  | .fdct => 0x50
  | .idct => 0x51
  | .quant => 0x60
  | .dequant => 0x61
  | .payLen _ => 0x70
  | .payWr _ _ => 0x71
  | .hufCnt => 0x72
  | .hufBld => 0x73
  | .hufHdr => 0x74
  | .hufPack => 0x75
  | .hufLdh => 0x76
  | .hufUnp => 0x77
  | .cwHdr => 0x80
  | .cwRec => 0x81
  | .crOpen => 0x90
  | .crNext => 0x91
  | .crSeek _ => 0x92
  | .encFrame _ => 0xA0
  | .decFrame _ => 0xA1

/-- IDX of a command (R124): the `elem` or `ch` operand, else 0. -/
def Instr.idxField : Instr → BitVec 8
  | .blkWr k _ => k
  | .blkCh t => t
  | .nop | .rst | .setq _ | .setn _ | .frLd _ | .frSt _ | .cscFwd | .cscInv | .tpFwd | .tpInv
  | .blkLd _ | .blkSt _ | .blkPut _ | .blkGet _ | .fdct | .idct | .quant | .dequant | .payLen _
  | .payWr _ _ | .hufCnt | .hufBld | .hufHdr | .hufPack | .hufLdh | .hufUnp | .cwHdr | .cwRec
  | .crOpen | .crNext | .crSeek _ | .encFrame _ | .decFrame _ => 0

/-- IMM of a command (R123, R124). -/
def Instr.immField : Instr → BitVec 64
  | .setq x | .setn x | .frLd x | .frSt x | .blkLd x | .blkSt x | .blkPut x | .blkGet x
  | .payLen x | .crSeek x | .encFrame x | .decFrame x => 0#32 ++ x
  | .payWr k b => 0#24 ++ b ++ k
  | .blkWr _ v => v
  | .nop | .rst | .cscFwd | .cscInv | .tpFwd | .tpInv | .blkCh _ | .fdct | .idct | .quant | .dequant
  | .hufCnt | .hufBld | .hufHdr | .hufPack | .hufLdh | .hufUnp | .cwHdr | .cwRec | .crOpen
  | .crNext => 0

/-- The encoder: IMM, RSV = 0, IDX, OPC (R121). -/
def encode (i : Instr) : Desc := i.immField ++ 0#48 ++ i.idxField ++ i.opc

end Sys2Proof
end

