-- ==== Sys2Proof/Machine/State.lean ====
section
/-! DEFINITION. The state of the RGBC core as plain data, the causes of its faults, and its reset value
(10_state.md, 60_exceptions.md R422 to R428). -/

namespace Sys2Proof.Machine

/-- Why the model itself would stop with a fault: never. The spec's faults are architectural, they write the
fault registers and set FAULT (60_exceptions.md R440), so they are next states. -/
inductive Fault where
  deriving DecidableEq, Repr

/-- Why the model would refuse a command. -/
inductive Refusal where
  /-- Raised by an arm of `exec` whose command has no meaning yet. No arm does: every command is modelled.
  Safe: the model stops where the hardware goes on. -/
  | notModelled (mnemonic : String)
  deriving DecidableEq, Repr

/-- A file as a byte-addressed memory (20_memory.md R80): its length, and its bytes in canonical form:
addresses strictly rising, all below the length, no byte equal to what an unlisted address reads as. -/
structure Memory where
  len : Nat
  cells : List Host.Cell
  deriving DecidableEq, Repr

/-- What an unlisted address below the length reads as (log 6). A file has no hole (R83), so every byte
below the length was written. The form lists the non-zero ones. -/
abbrev Memory.unlisted : Byte := 0

/-- The canonical form of a file. -/
abbrev Memory.wf (m : Memory) : Prop :=
  m.cells.Pairwise (fun a b => a.1 < b.1) ∧ ∀ c ∈ m.cells, c.1 < m.len ∧ c.2 ≠ Memory.unlisted

/-- A buffer of 304128 elements, each a byte or NONE, as a binary tree over the index's bits, least
significant first: `nil` holds only NONE. WRK and PAY are such buffers (10_state.md R42, R44). -/
inductive Buf where
  | nil
  | leaf (b : Byte)
  | node (even odd : Buf)
  deriving DecidableEq, Repr

/-- The six error kinds (60_exceptions.md R422). -/
inductive Kind where
  | ioError | invalidQuality | formatError | codecInvariantViolation | illegalCommand | sequenceError
  deriving DecidableEq, Repr

/-- The kind and cause of a fault, one constructor per row of R423 to R428. -/
inductive Cause where
  /-- IOError -/
  | rawRd | rawWr | ctrRd | ctrWr | rawShort
  /-- InvalidQuality -/
  | range
  /-- FormatError -/
  | truncHdr | magic | dims | truncRec | ftype | count | linkBack | linkOob | payloadSize | truncPayload
  /-- CodecInvariantViolation -/
  | noCode | badCode | oversubscribed | codelen | blockCount | notByte | nonfinite | ftypeRule
  /-- IllegalCommand -/
  | opcode | reserved | operand
  /-- SequenceError -/
  | uninit | prev | order | writer | reader | channel
  deriving DecidableEq, Repr

/-- What `raise Kind(CAUSE, off)` in a command of unit `stage` carries (00_scope.md R14). -/
structure Trap where
  cause : Cause
  stage : Nat
  off : Nat := 0
  deriving DecidableEq, Repr

/-- One transaction of the host (47_system.md R400, R402, 70_reset_and_hazards.md R470). Log 1. -/
inductive HostEvent where
  /-- a descriptor on the command port, with the two `io_ok` Booleans supplied with it: `ioA` is the `io_ok`
  of a unit command and the first component of a whole-frame command's pair, `ioB` the second component -/
  | command (d : Desc) (ioA ioB : Bool)
  /-- `rst_n` asserted and released -/
  | resetPulse
  /-- the host replaces the content of RAW (R400 c) -/
  | supplyRaw (bytes : List Byte)
  /-- the host replaces the content of CTR (R400 c) -/
  | supplyCtr (bytes : List Byte)
  deriving DecidableEq, Repr

/-- The state of the block, its two files and its inputs. `none` is the spec's NONE (00_scope.md R12). -/
structure State where
  /-- STATUS bit 0, FAULT (R37) -/
  fault : Bool
  /-- STATUS bit 7, writer active (R37) -/
  wact : Bool
  /-- STATUS bit 8, writer complete (R37) -/
  wdone : Bool
  /-- STATUS bit 9, reader open (R37) -/
  ropen : Bool
  /-- STATUS bit 10, end of stream (R37) -/
  eos : Bool
  /-- ERR (R36, R421) -/
  err : BitVec 24
  /-- ERR_OFF (R36) -/
  errOff : Nat
  /-- ERR_CP (R36) -/
  errCp : Nat
  /-- CP, the descriptors retired since reset (R35) -/
  cp : Nat
  /-- QUALITY (R36, R38) -/
  quality : Option (BitVec 32)
  /-- FRAME_COUNT (R36) -/
  frameCount : Option (BitVec 32)
  /-- FIDX (R36, R41) -/
  fidx : Option (BitVec 32)
  /-- FTYPE (R36, R41) -/
  ftype : Option FrameType
  /-- PREV_IDX (R36, R43) -/
  prevIdx : Option (BitVec 32)
  /-- NREC (R36) -/
  nrec : BitVec 32
  /-- WPOS (R36) -/
  wpos : Nat
  /-- RPOS (R36) -/
  rpos : Nat
  /-- RNUM (R36) -/
  rnum : BitVec 32
  /-- IDX, the seek index, IDX_N its length (R49) -/
  idx : List Nat
  /-- PAY_LEN (R36, R44) -/
  payLen : BitVec 32
  /-- BIDX (R34) -/
  bidx : BitVec 16
  /-- BCH, the channel tag of BLK (R33) -/
  bch : Option Chan
  /-- BLK, the block register (R32) -/
  blk : Mat (Option F64)
  /-- RGB (R42) -/
  rgb : Option Frame
  /-- CUR (R42) -/
  cur : Option Frame
  /-- PREV (R42, R43) -/
  prev : Option Frame
  /-- WRK, element `[y][x][ch]` at 3·(352·y + x) + ch (R42) -/
  wrk : Buf
  /-- PAY (R44) -/
  pay : Buf
  /-- FREQ, 256 counters (R45) -/
  freq : Option (List Nat)
  /-- LEN, 256 code lengths (R46) -/
  lens : Option (List (BitVec 4))
  /-- HDR, 128 bytes (R47) -/
  hdr : Option (List Byte)
  /-- ENC with ENC_LEN as its length (R48) -/
  enc : Option (List Byte)
  /-- RAW (20_memory.md R81) -/
  raw : Memory
  /-- CTR (20_memory.md R82) -/
  ctr : Memory
  /-- the `io_ok` input of the command in work, or its first component (R93, R390, R391) -/
  ioA : Bool
  /-- the second component of the `io_ok` pair of a whole-frame command (R390, R391) -/
  ioB : Bool
  /-- the host transactions still to come, first first (log 1) -/
  port : List HostEvent
  /-- the MODEL's own counter of free values used so far (log 5) -/
  freeCount : Nat
  deriving DecidableEq, Repr

/-- All eight entries alike. -/
def octOf {α : Type} (a : α) : Oct α := ⟨a, a, a, a, a, a, a, a⟩

/-- The machine right after `rst_n`, before the host presents anything (10_state.md R52,
70_reset_and_hazards.md R470). RAW and CTR are the host's: here both are empty files (log 6). -/
def State.reset : State where
  fault := false
  wact := false
  wdone := false
  ropen := false
  eos := false
  err := 0
  errOff := 0
  errCp := 0
  cp := 0
  quality := none
  frameCount := none
  fidx := none
  ftype := none
  prevIdx := none
  nrec := 0
  wpos := 0
  rpos := 0
  rnum := 0
  idx := []
  payLen := 0
  bidx := 0
  bch := none
  blk := octOf (octOf none)
  rgb := none
  cur := none
  prev := none
  wrk := .nil
  pay := .nil
  freq := none
  lens := none
  hdr := none
  enc := none
  raw := ⟨0, []⟩
  ctr := ⟨0, []⟩
  ioA := true
  ioB := true
  port := []
  freeCount := 0

end Sys2Proof.Machine
end

