-- ==== Sys2Proof/Machine/Ops.lean ====
section
/-! DEFINITION. The named operations over blocks, files, buffers and frames; fault entry and its codes;
retirement; reset. Every command's meaning is written over these. -/

namespace Sys2Proof

/-! ### Blocks (10_state.md R32) -/

/-- Entry `k`. -/
def Oct.get {α : Type} (o : Oct α) : Fin 8 → α
  | 0 => o.e0
  | 1 => o.e1
  | 2 => o.e2
  | 3 => o.e3
  | 4 => o.e4
  | 5 => o.e5
  | 6 => o.e6
  | 7 => o.e7

/-- The eight values of a function. -/
def Oct.ofFn {α : Type} (f : Fin 8 → α) : Oct α :=
  ⟨f 0, f 1, f 2, f 3, f 4, f 5, f 6, f 7⟩

/-- Entry `k` replaced. -/
def Oct.set {α : Type} (o : Oct α) (k : Fin 8) (a : α) : Oct α :=
  Oct.ofFn fun j => if j = k then a else o.get j

/-- Entry by entry. -/
def Oct.map {α β : Type} (f : α → β) (o : Oct α) : Oct β :=
  ⟨f o.e0, f o.e1, f o.e2, f o.e3, f o.e4, f o.e5, f o.e6, f o.e7⟩

/-- Two vectors entry by entry. -/
def Oct.zip {α β γ : Type} (f : α → β → γ) (o : Oct α) (p : Oct β) : Oct γ :=
  ⟨f o.e0 p.e0, f o.e1 p.e1, f o.e2 p.e2, f o.e3 p.e3, f o.e4 p.e4, f o.e5 p.e5, f o.e6 p.e6,
    f o.e7 p.e7⟩

/-- The entries, first first. -/
def Oct.toList {α : Type} (o : Oct α) : List α :=
  [o.e0, o.e1, o.e2, o.e3, o.e4, o.e5, o.e6, o.e7]

/-- All entries' values, or `none` when one is NONE. -/
def Oct.values? {α : Type} : Oct (Option α) → Option (Oct α)
  | ⟨some a, some b, some c, some d, some e, some f, some g, some h⟩ => some ⟨a, b, c, d, e, f, g, h⟩
  | _ => none

/-- Element `[r][c]`. -/
def Mat.elem {α : Type} (m : Mat α) (r c : Fin 8) : α := (Oct.get m r).get c

/-- The matrix of a function of row and column. -/
def Mat.tabulate {α : Type} (f : Fin 8 → Fin 8 → α) : Mat α := Oct.ofFn fun r => Oct.ofFn fun c => f r c

/-- Element `[r][c]` replaced. -/
def Mat.put {α : Type} (m : Mat α) (r c : Fin 8) (a : α) : Mat α :=
  Oct.set m r ((Oct.get m r).set c a)

/-- Element by element. -/
def Mat.mapElems {α β : Type} (f : α → β) (m : Mat α) : Mat β := Oct.map (Oct.map f) m

/-- Two matrices element by element. -/
def Mat.zipElems {α β γ : Type} (f : α → β → γ) (m : Mat α) (n : Mat β) : Mat γ :=
  Oct.zip (Oct.zip f) m n

/-- All elements, row-major. -/
def Mat.toList {α : Type} (m : Mat α) : List α := (Oct.toList m).flatMap Oct.toList

/-- Every element satisfies `p`. -/
def Mat.every {α : Type} (p : α → Bool) (m : Mat α) : Bool := (Mat.toList m).all p

/-- All elements' values, or `none` when one is NONE. -/
def Mat.values? {α : Type} (m : Mat (Option α)) : Option (Mat α) := (Oct.map Oct.values? m).values?

/-- Rows become columns. -/
def Mat.transpose {α : Type} (m : Mat α) : Mat α := Mat.tabulate fun r c => Mat.elem m c r

/-! ### Pixels and frames (10_state.md R42, 20_memory.md R81) -/

/-- Channel `ch` of a pixel. -/
def Pixel.chan (p : Pixel) : Chan → Byte
  | .y => p.c0
  | .cb => p.c1
  | .cr => p.c2

/-- A pixel's three bytes in the order of the file. -/
def Pixel.bytes (p : Pixel) : List Byte := [p.c0, p.c1, p.c2]

/-- Two pixels channel by channel. -/
def Pixel.zip (f : Byte → Byte → Byte) (p q : Pixel) : Pixel := ⟨f p.c0 q.c0, f p.c1 q.c1, f p.c2 q.c2⟩

/-- The samples of a frame in row-major order, sample (y, x, ch) at 3·(352·y + x) + ch. -/
def Frame.bytes (f : Frame) : List Byte := f.flatMap Pixel.bytes

/-- The frame whose samples are the given bytes. -/
def pixelsOf : List Byte → Frame
  | a :: b :: c :: rest => ⟨a, b, c⟩ :: pixelsOf rest
  | _ => []

namespace Machine

/-! ### Files (20_memory.md R83, R86, R87) -/

/-- The byte a file holds at address `a`, for `a` below its length. -/
def Memory.get (m : Memory) (a : Nat) : Byte :=
  match m.cells.find? (fun c => c.1 == a) with
  | some c => c.2
  | none => Memory.unlisted

/-- Reading one byte: NONE at and beyond the length, where no byte exists. -/
def Memory.byteAt (m : Memory) (a : Nat) : Option Byte := if a < m.len then some (m.get a) else none

/-- `n` bytes from address `a` on, given the listed cells at `a` and above. -/
def readCells : Nat → Nat → List Host.Cell → List Byte
  | 0, _, _ => []
  | n + 1, a, [] => Memory.unlisted :: readCells n (a + 1) []
  | n + 1, a, c :: cs =>
    if c.1 = a then c.2 :: readCells n (a + 1) cs
    else Memory.unlisted :: readCells n (a + 1) (c :: cs)

/-- `MemRead(S, a, n)` (R86). Callers check `a + n ≤ len(S)`. -/
def Memory.read (m : Memory) (a n : Nat) : List Byte :=
  readCells n a (m.cells.filter fun c => a ≤ c.1)

/-- The listed cells of a byte sequence stored from address `a` on. -/
def cellsOf : Nat → List Byte → List Host.Cell
  | _, [] => []
  | a, b :: bs => if b = Memory.unlisted then cellsOf (a + 1) bs else (a, b) :: cellsOf (a + 1) bs

/-- `MemWrite(S, a, n, bs)` with `n` the length of `bs` (R83, R87). Callers ensure `a ≤ len(S)`. -/
def Memory.write (m : Memory) (a : Nat) (bs : List Byte) : Memory where
  len := max m.len (a + bs.length)
  cells := m.cells.filter (fun c => c.1 < a) ++ cellsOf a bs
    ++ m.cells.filter (fun c => a + bs.length ≤ c.1)

/-- The file that holds exactly the given bytes. -/
def Memory.ofBytes (bs : List Byte) : Memory := ⟨bs.length, cellsOf 0 bs⟩

/-- The file of length 0. -/
def Memory.empty : Memory := ⟨0, []⟩

/-! ### Buffers of bytes or NONE (10_state.md R42, R44) -/

/-- Levels of a buffer: 2^19 positions, of which the first 304128 are elements. -/
abbrev Buf.depth : Nat := 19

/-- The element at index `i` of a tree of depth `d`. -/
def Buf.getAt : Nat → Buf → Nat → Option Byte
  | 0, .leaf b, i => if i = 0 then some b else none
  | d + 1, .node e o, i => if i % 2 = 0 then Buf.getAt d e (i / 2) else Buf.getAt d o (i / 2)
  | _, _, _ => none

/-- The tree of depth `d` with the byte `b` at index `i`, for `i` below 2^d. -/
def Buf.setAt : Nat → Buf → Nat → Byte → Buf
  | 0, _, _, b => .leaf b
  | d + 1, .node e o, i, b =>
    if i % 2 = 0 then .node (Buf.setAt d e (i / 2) b) o else .node e (Buf.setAt d o (i / 2) b)
  | d + 1, _, i, b =>
    if i % 2 = 0 then .node (Buf.setAt d .nil (i / 2) b) .nil else .node .nil (Buf.setAt d .nil (i / 2) b)

/-- Element `i`, NONE for an index that is no element. -/
def Buf.get (t : Buf) (i : Nat) : Option Byte :=
  if i < Config.frameBytes then Buf.getAt Buf.depth t i else none

/-- Element `i` written. An index that is no element changes nothing. -/
def Buf.set (t : Buf) (i : Nat) (b : Byte) : Buf :=
  if i < Config.frameBytes then Buf.setAt Buf.depth t i b else t

/-- Elements `i`, `i + 1`, ... written with the given bytes. -/
def Buf.setFrom : Buf → Nat → List Byte → Buf
  | t, _, [] => t
  | t, i, b :: bs => Buf.setFrom (t.set i b) (i + 1) bs

/-- The elements with the given indexes written. -/
def Buf.setAll : Buf → List (Nat × Byte) → Buf
  | t, [] => t
  | t, x :: xs => Buf.setAll (t.set x.1 x.2) xs

/-- Every element below `n` holds a value. -/
def Buf.full (t : Buf) (n : Nat) : Bool := (List.range n).all fun k => (t.get k).isSome

/-- The elements below `n` as bytes, for a buffer that is full below `n` (callers check it: no byte stands
for NONE, R431). -/
def Buf.bytes (t : Buf) (n : Nat) : List Byte := (List.range n).map fun k => (t.get k).getD 0

/-! ### Fault codes (60_exceptions.md R421 to R428) -/

/-- KIND (R422). -/
def Kind.code : Kind → Nat
  | .ioError => 1
  | .invalidQuality => 2
  | .formatError => 3
  | .codecInvariantViolation => 4
  | .illegalCommand => 5
  | .sequenceError => 6

/-- The kind a cause belongs to (R423 to R428). -/
def Cause.kind : Cause → Kind
  | .rawRd | .rawWr | .ctrRd | .ctrWr | .rawShort => .ioError
  | .range => .invalidQuality
  | .truncHdr | .magic | .dims | .truncRec | .ftype | .count | .linkBack | .linkOob | .payloadSize
  | .truncPayload => .formatError
  | .noCode | .badCode | .oversubscribed | .codelen | .blockCount | .notByte | .nonfinite
  | .ftypeRule => .codecInvariantViolation
  | .opcode | .reserved | .operand => .illegalCommand
  | .uninit | .prev | .order | .writer | .reader | .channel => .sequenceError

/-- CAUSE, the number within the kind (R423 to R428). -/
def Cause.code : Cause → Nat
  | .rawRd => 1
  | .rawWr => 2
  | .ctrRd => 3
  | .ctrWr => 4
  | .rawShort => 5
  | .range => 1
  | .truncHdr => 1
  | .magic => 2
  | .dims => 3
  | .truncRec => 4
  | .ftype => 5
  | .count => 6
  | .linkBack => 7
  | .linkOob => 8
  | .payloadSize => 9
  | .truncPayload => 10
  | .noCode => 1
  | .badCode => 2
  | .oversubscribed => 3
  | .codelen => 4
  | .blockCount => 5
  | .notByte => 6
  | .nonfinite => 7
  | .ftypeRule => 8
  | .opcode => 1
  | .reserved => 2
  | .operand => 3
  | .uninit => 1
  | .prev => 2
  | .order => 3
  | .writer => 4
  | .reader => 5
  | .channel => 6

/-- ERR: KIND + 256·STAGE + 65536·CAUSE (R421, R440). -/
def Trap.errWord (e : Trap) : BitVec 24 :=
  BitVec.ofNat 24 (e.cause.kind.code + 256 * e.stage + 65536 * e.cause.code)

/-! ### Taking a fault, retiring, resetting -/

/-- The unfinished container is marked invalid: `if WACT = 1: MemWrite(CTR, 0, 3, 0x00 0x00 0x00)`
(60_exceptions.md R440, 47_system.md R382). -/
def State.spoilMagic (s : State) : State :=
  if s.wact then { s with ctr := s.ctr.write 0 [0, 0, 0] } else s

/-- After IOError(RAW_WR) or IOError(CTR_WR) the file being written holds any bytes and has any length
(93_implementation_defined.md U6): a free value (log 5). Every other fault leaves both files alone. -/
def State.loseFile (s : State) (c : Cause) : State :=
  match c with
  | .rawWr => { s with raw := Memory.ofBytes (Config.failedFile s.freeCount), freeCount := s.freeCount + 1 }
  | .ctrWr => { s with ctr := Memory.ofBytes (Config.failedFile s.freeCount), freeCount := s.freeCount + 1 }
  | _ => s

/-- The fault registers written and FAULT set; CP and everything else stay (R440). -/
def State.recordFault (s : State) (e : Trap) : State :=
  { s with err := e.errWord, errOff := e.off, errCp := s.cp, fault := true }

/-- Fault entry (R440), from the state before the command. -/
def State.enterFault (s : State) (e : Trap) : State :=
  ((s.loseFile e.cause).spoilMagic).recordFault e

/-- The end of a command that began in `s`: it retires with its effect and `CP <- CP + 1`, or it faults and
every effect is discarded (47_system.md R380, 60_exceptions.md R440, R441). -/
def retire (s : State) (r : Except Trap State) : Host.Outcome State Fault Refusal :=
  match r with
  | .ok t => .next { t with cp := s.cp + 1 }
  | .error e => .next (s.enterFault e)

/-- Every element of the block at the reset value of 10_state.md R52. The files, the inputs and the
model's own counter are not elements of the block and stay. -/
def State.clearAll (s : State) : State :=
  { State.reset with
    raw := s.raw, ctr := s.ctr, ioA := s.ioA, ioB := s.ioB, port := s.port, freeCount := s.freeCount }

/-- `FREQ, LEN, CODE, HDR <- NONE` (45_entropy.md R282). CODE is a view of LEN. -/
def State.dropTables (s : State) : State := { s with freq := none, lens := none, hdr := none }

/-- `ftype(i)`: KEY when `i mod 32 = 0`, else DELTA (41_temporal.md R180). -/
def ftypeOf (i : Nat) : FrameType := if i % Config.keyInterval = 0 then .key else .delta

end Machine

end Sys2Proof
end

