-- ==== Sys2Proof/WellFormed.lean ====
section
/-! DEFINITION. Which commands have every operand in the range that needs no state
(30_encoding.md R123, 60_exceptions.md R445 step 4). -/

namespace Sys2Proof

/-- `blk`: 0 to 4751 (R123). -/
abbrev blkLegal (i : BitVec 32) : Prop := i.toNat < Config.numBlocks

/-- `elem`: 0 to 63 (R123). -/
abbrev elemLegal (k : BitVec 8) : Prop := k.toNat < 64

/-- `ch`: 0 to 2 (R123). -/
abbrev chLegal (t : BitVec 8) : Prop := t.toNat < 3

/-- `f64`: finite, that is, the exponent field `IMM[62:52]` is not 0x7FF (42_segment.md R211). -/
abbrev f64Legal (v : BitVec 64) : Prop := v.extractLsb' 52 11 ≠ 0x7FF#11

/-- The PAY.LEN operand: at most 304128 (45_entropy.md R283). -/
abbrev payLenLegal (n : BitVec 32) : Prop := n.toNat ≤ Config.frameBytes

/-- Every operand range that needs no state holds. An ill-formed command decodes and its meaning raises
IllegalCommand(OPERAND). SETQ takes any `i32`, its own rule checks the quality (R123, R383). -/
abbrev Instr.wellFormed : Instr → Prop
  | .blkLd i => blkLegal i
  | .blkSt i => blkLegal i
  | .blkPut i => blkLegal i
  | .blkGet i => blkLegal i
  | .blkWr k v => elemLegal k ∧ f64Legal v
  | .blkCh t => chLegal t
  | .payLen n => payLenLegal n
  | .nop | .rst | .setq _ | .setn _ | .frLd _ | .frSt _ | .cscFwd | .cscInv | .tpFwd | .tpInv
  | .fdct | .idct | .quant | .dequant | .payWr _ _ | .hufCnt | .hufBld | .hufHdr | .hufPack
  | .hufLdh | .hufUnp | .cwHdr | .cwRec | .crOpen | .crNext | .crSeek _ | .encFrame _
  | .decFrame _ => True

end Sys2Proof
end

