-- ==== Sys2Proof/Machine/Operands.lean ====
section
/-! DEFINITION. The operand forms of a command read as values, and the addresses they give
(30_encoding.md R123, 42_segment.md R200, R202, 47_system.md R386, R387). -/

namespace Sys2Proof.Machine

/-- `ch(i)` (R200). -/
def blockChan (i : Nat) : Chan :=
  if i % 3 = 0 then .y else if i % 3 = 1 then .cb else .cr

/-- `br(i)` (R200). -/
def blockRow (i : Nat) : Nat := i / 3 / Config.blockCols

/-- `bc(i)` (R200). -/
def blockCol (i : Nat) : Nat := i / 3 % Config.blockCols

/-- Where sample (y, x, ch) stands in a frame buffer (20_memory.md R81, 10_state.md R42). -/
def sampleIndex (y x ch : Nat) : Nat := 3 * (Config.cifX * y + x) + ch

/-- Where element `[r][c]` of block `i` stands in WRK (R200). -/
def wrkIndex (i : Nat) (r c : Fin 8) : Nat :=
  sampleIndex (8 * blockRow i + r) (8 * blockCol i + c) (blockChan i).num

/-- Where element `[r][c]` of block `i` stands in PAY (R202). -/
def payIndex (i : Nat) (r c : Fin 8) : Nat := 64 * i + 8 * r + c

/-- The row `k div 8` and column `k mod 8` that an `elem` operand names (R123). -/
def elemRow (k : BitVec 8) : Fin 8 := Fin.ofNat 8 (k.toNat / 8)

/-- The column of an `elem` operand. -/
def elemCol (k : BitVec 8) : Fin 8 := Fin.ofNat 8 (k.toNat % 8)

/-- The channel a `ch` operand names (R123). -/
def chanOf (t : BitVec 8) : Chan :=
  if t.toNat = 0 then .y else if t.toNat = 1 then .cb else .cr

/-- The offset in RAW of frame or slot `f`: `f·304128` (R386, R387). -/
def frameOffset (f : BitVec 32) : Nat := f.toNat * Config.frameBytes

/-- IllegalCommand(OPERAND) raised in the given unit (60_exceptions.md R427). -/
def operandTrap (unit : Nat) : Trap := ⟨.operand, unit, 0⟩

/-- SequenceError(UNINIT) raised in the given unit (60_exceptions.md R431). -/
def uninitTrap (unit : Nat) : Trap := ⟨.uninit, unit, 0⟩

end Sys2Proof.Machine
end

