-- ==== Sys2Proof/Machine/Container.lean ====
section
/-! DEFINITION. ContainerWriter and ContainerReader: CW.HDR, CW.REC, CR.OPEN, CR.NEXT, CR.SEEK
(46_container.md R330 to R353). Units 8 and 9. -/

namespace Sys2Proof.Machine

/-! ### Writer (unit 8) -/

/-- The 15 bytes of the file header (R333, 20_memory.md R90). -/
def fileHeader (frames quality : BitVec 32) : List Byte :=
  Config.magic ++ leBytes 2 Config.cifX ++ leBytes 2 Config.cifY ++ leBytes 4 frames.toNat
    ++ leBytes 4 quality.toNat

/-- CW.HDR with the given `io_ok` (R333). -/
def bodyCwHdr (io : Bool) (s : State) : Except Trap State :=
  match s.quality, s.frameCount with
  | some q, some n =>
    if io = false then .error ⟨.ctrWr, 8, 0⟩
    else
      .ok { s with
        ctr := Memory.empty.write 0 (fileHeader n q), nrec := 0, wpos := Config.fileHdr, rpos := 0, rnum := 0,
        idx := [], prev := none, prevIdx := none, wact := decide (0 < n.toNat),
        wdone := decide (n.toNat = 0), ropen := false, eos := false }
  | _, _ => .error (uninitTrap 8)

/-- The bytes of a frame record (R335, 20_memory.md R90). -/
def recordBytes (next : Nat) (t : FrameType) (enc : List Byte) : List Byte :=
  leBytes 8 next ++ [BitVec.ofNat 8 t.num] ++ enc

/-- CW.REC's write and bookkeeping, once every check has passed (R335). -/
def State.appendRecord (s : State) (count : BitVec 32) (t : FrameType) (enc : List Byte) : State :=
  let last := s.nrec.toNat + 1 = count.toNat
  let stop := s.wpos + Config.recPrefix + enc.length
  { s with
    ctr := s.ctr.write s.wpos (recordBytes (if last then 0 else stop) t enc), wpos := stop,
    nrec := s.nrec + 1, wact := if last then false else s.wact, wdone := if last then true else s.wdone }

/-- CW.REC with the given `io_ok` (R335). FRAME_COUNT is read by the effect (R12, log 8). -/
def bodyCwRec (io : Bool) (s : State) : Except Trap State :=
  if s.wact = false then .error ⟨.writer, 8, 0⟩
  else
    match s.enc, s.ftype, s.fidx with
    | some enc, some t, some i =>
      if i ≠ s.nrec then .error ⟨.order, 8, 0⟩
      else if t ≠ ftypeOf s.nrec.toNat then .error ⟨.ftypeRule, 8, 0⟩
      else if s.wpos ≠ s.ctr.len then .error ⟨.writer, 8, 0⟩
      else if io = false then .error ⟨.ctrWr, 8, s.wpos⟩
      else
        match s.frameCount with
        | none => .error (uninitTrap 8)
        | some n => .ok (s.appendRecord n t enc)
    | _, _, _ => .error (uninitTrap 8)

/-! ### Reader (unit 9) -/

/-- The little-endian number of `n` bytes at `a` (00_scope.md R11). -/
def Memory.leAt (m : Memory) (a n : Nat) : Nat := leNat (m.read a n)

/-- CR.OPEN's effect for quality `q` and frame count `n` (R340). -/
def State.openReader (s : State) (q n : BitVec 32) : State :=
  { s with
    quality := some q, frameCount := some n, rpos := Config.fileHdr, rnum := 0,
    idx := if 0 < n.toNat then [Config.fileHdr] else [], prev := none, prevIdx := none, ropen := true,
    eos := decide (n.toNat = 0) }

/-- CR.OPEN with the given `io_ok` (R340). -/
def bodyCrOpen (io : Bool) (s : State) : Except Trap State :=
  let q := BitVec.ofNat 32 (s.ctr.leAt 11 4)
  let n := BitVec.ofNat 32 (s.ctr.leAt 7 4)
  if s.wact then .error ⟨.writer, 9, 0⟩
  else if io = false then .error ⟨.ctrRd, 9, 0⟩
  else if s.ctr.len < Config.fileHdr then .error ⟨.truncHdr, 9, s.ctr.len⟩
  else if s.ctr.read 0 3 ≠ Config.magic then .error ⟨.magic, 9, 0⟩
  else if s.ctr.leAt 3 2 ≠ Config.cifX ∨ s.ctr.leAt 5 2 ≠ Config.cifY then .error ⟨.dims, 9, 3⟩
  else if q.toInt < 1 ∨ 100 < q.toInt then .error ⟨.range, 9, 11⟩
  else if 0 < n.toNat ∧ s.ctr.len < 24 then .error ⟨.truncRec, 9, 15⟩
  else .ok (s.openReader q n)

/-- `link(p, k)` for a file of `count` frames: the next record's offset (0 for none) and the end of this
record, or the cause of the fault (R343). -/
def linkOf (ctr : Memory) (count p k : Nat) : Except Cause (Nat × Nat) :=
  let next := ctr.leAt p 8
  if next = 0 then
    if k + 1 = count then .ok (0, ctr.len) else .error .count
  else if k + 1 = count then .error .count
  else if next < p + Config.recPrefix then .error .linkBack
  else if ctr.len < next + Config.recPrefix then .error .linkOob
  else .ok (next, next)

/-- The frame type a frameType byte names (20_memory.md R90). -/
def frameTypeOf? (b : Byte) : Option FrameType :=
  if b = 0 then some .key else if b = 1 then some .delta else none

/-- CR.NEXT's effect, once every check has passed: the record's payload, type and number, and the reader
moved on (R345). -/
def State.takeRecord (s : State) (t : FrameType) (next stop : Nat) : State :=
  { s with
    enc := some (s.ctr.read (s.rpos + Config.recPrefix) (stop - s.rpos - Config.recPrefix)),
    ftype := some t, fidx := some s.rnum, rnum := s.rnum + 1,
    rpos := next,
    idx := if next ≠ 0 ∧ s.rnum.toNat + 1 = s.idx.length then s.idx ++ [next] else s.idx,
    eos := if next = 0 then true else s.eos }

/-- CR.NEXT with the given `io_ok` (R345). FRAME_COUNT is read by `link` (R12, log 8). -/
def bodyCrNext (io : Bool) (s : State) : Except Trap State :=
  if s.ropen = false ∨ s.eos = true then .error ⟨.reader, 9, 0⟩
  else if io = false then .error ⟨.ctrRd, 9, s.rpos⟩
  else if s.ctr.len < s.rpos + Config.recPrefix then .error ⟨.truncRec, 9, s.rpos⟩
  else
    match s.frameCount with
    | none => .error (uninitTrap 9)
    | some count =>
      match linkOf s.ctr count.toNat s.rpos s.rnum.toNat with
      | .error c => .error ⟨c, 9, s.rpos⟩
      | .ok (next, stop) =>
        if Config.encCap < stop - s.rpos - Config.recPrefix then .error ⟨.payloadSize, 9, s.rpos⟩
        else
          match frameTypeOf? (s.ctr.get (s.rpos + 8)) with
          | none => .error ⟨.ftype, 9, s.rpos + 8⟩
          | some t =>
            if t ≠ ftypeOf s.rnum.toNat then .error ⟨.ftypeRule, 9, s.rpos + 8⟩
            else .ok (s.takeRecord t next stop)

/-- The walk of CR.SEEK: `todo` more entries appended to the seek index, each the validated link of the record
before it (R353). -/
def walkIndex (ctr : Memory) (count : Nat) : Nat → List Nat → Except Trap (List Nat)
  | 0, idx => .ok idx
  | todo + 1, idx =>
    match idx.getLast? with
    | none => .error (uninitTrap 9)
    | some p =>
      if ctr.len < p + Config.recPrefix then .error ⟨.truncRec, 9, p⟩
      else
        match linkOf ctr count p (idx.length - 1) with
        | .error c => .error ⟨c, 9, p⟩
        | .ok (next, _) => walkIndex ctr count todo (idx ++ [next])

/-- CR.SEEK with the given `io_ok` (R353). -/
def bodyCrSeek (io : Bool) (n : BitVec 32) (s : State) : Except Trap State :=
  if s.ropen = false then .error ⟨.reader, 9, 0⟩
  else
    match s.frameCount with
    | none => .error (uninitTrap 9)
    | some count =>
      if count.toNat ≤ n.toNat then .error (operandTrap 9)
      else if s.idx.length ≤ n.toNat ∧ io = false then
        match s.idx.getLast? with
        | none => .error (uninitTrap 9)
        | some p => .error ⟨.ctrRd, 9, p⟩
      else
        match walkIndex s.ctr count.toNat (n.toNat + 1 - s.idx.length) s.idx with
        | .error e => .error e
        | .ok idx => .ok { s with idx := idx, rpos := idx.getD n.toNat 0, rnum := n, eos := false }

/-- CW.HDR (R333). -/
def execCwHdr (s : State) : Host.Outcome State Fault Refusal := retire s (bodyCwHdr s.ioA s)

/-- CW.REC (R335). -/
def execCwRec (s : State) : Host.Outcome State Fault Refusal := retire s (bodyCwRec s.ioA s)

/-- CR.OPEN (R340). -/
def execCrOpen (s : State) : Host.Outcome State Fault Refusal := retire s (bodyCrOpen s.ioA s)

/-- CR.NEXT (R345). -/
def execCrNext (s : State) : Host.Outcome State Fault Refusal := retire s (bodyCrNext s.ioA s)

/-- CR.SEEK (R353). -/
def execCrSeek (n : BitVec 32) (s : State) : Host.Outcome State Fault Refusal :=
  retire s (bodyCrSeek s.ioA n s)

end Sys2Proof.Machine
end

