-- ==== Sys2Proof/Machine/Entropy.lean ====
section
/-! DEFINITION. EntropyCoder: PAY.LEN, PAY.WR, HUF.CNT, HUF.BLD, HUF.HDR, HUF.PACK, HUF.LDH, HUF.UNP
(45_entropy.md R280 to R305). Unit 7. -/

namespace Sys2Proof.Machine

/-! ### The tree and the code lengths (R287 to R291) -/

/-- A Huffman tree over symbols 0 to 255 (R287). -/
inductive HTree where
  | leaf (symbol : Nat)
  | internal (left right : HTree)
  deriving DecidableEq, Repr

/-- An entry of the priority queue: its key is (freq, seq) (R289). -/
structure QEntry where
  freq : Nat
  seq : Nat
  node : HTree
  deriving DecidableEq, Repr

/-- The order of keys: by frequency, then by sequence number (R289). -/
def QEntry.before (a b : QEntry) : Bool := a.freq < b.freq || (a.freq == b.freq && a.seq < b.seq)

/-- An entry put into a queue that is kept least key first. -/
def queueInsert (e : QEntry) : List QEntry → List QEntry
  | [] => [e]
  | x :: xs => if e.before x then e :: x :: xs else x :: queueInsert e xs

/-- The symbols with a positive count, ascending: the set S of R288. -/
def presentSymbols (freq : List Nat) : List Nat := (List.range 256).filter fun s => 0 < freq.getD s 0

/-- The queue of leaves, sequence numbers by ascending symbol (R289). -/
def leafQueue (freq : List Nat) : List Nat → Nat → List QEntry → List QEntry
  | [], _, q => q
  | s :: ss, seq, q => leafQueue freq ss (seq + 1) (queueInsert ⟨freq.getD s 0, seq, .leaf s⟩ q)

/-- The merging loop of R289, at most `fuel` rounds: the two least entries become one, until one is left. -/
def mergeQueue : Nat → Nat → List QEntry → Option HTree
  | _, _, [] => none
  | _, _, [e] => some e.node
  | 0, _, _ :: _ :: _ => none
  | fuel + 1, seq, a :: b :: q =>
    mergeQueue fuel (seq + 1) (queueInsert ⟨a.freq + b.freq, seq, .internal a.node b.node⟩ q)

/-- `build_tree(FREQ)` (R289). With `m` present symbols the loop has `m - 1` rounds. -/
def buildTree (freq : List Nat) : Option HTree :=
  let present := presentSymbols freq
  mergeQueue present.length present.length (leafQueue freq present 0 [])

/-- Every leaf's symbol with its depth below a node of depth `d` (R290). -/
def HTree.depths : HTree → Nat → List (Nat × Nat)
  | .leaf s, d => [(s, d)]
  | .internal l r, d => l.depths (d + 1) ++ r.depths (d + 1)

/-- The depth recorded for a symbol, 0 when there is none. -/
def depthOf (ds : List (Nat × Nat)) (s : Nat) : Nat := (ds.lookup s).getD 0

/-- Symbol and depth of every present symbol: none for no symbol, length 1 for a lone symbol, the tree's
depths otherwise (R288, R291). -/
def symbolDepths (freq : List Nat) : List (Nat × Nat) :=
  match presentSymbols freq with
  | [] => []
  | [s] => [(s, 1)]
  | _ :: _ :: _ =>
    match buildTree freq with
    | none => []
    | some t => t.depths 0

/-- The new LEN of HUF.BLD, or `none` when a depth is above 15 (R288, R294). -/
def buildLens (freq : List Nat) : Option (List (BitVec 4)) :=
  let ds := symbolDepths freq
  if ds.all (fun p => p.2 ≤ Config.maxLen) then
    some ((List.range 256).map fun s => BitVec.ofNat 4 (depthOf ds s))
  else none

/-! ### Canonical codes (R292) -/

/-- `LEN[s]` as a number. -/
def lenOf (lens : List (BitVec 4)) (s : Nat) : Nat := (lens.getD s 0).toNat

/-- `v` as a bit string of exactly `n` bits, most significant first. -/
def bitString (n v : Nat) : List Bool := (List.range n).map fun j => v.testBit (n - 1 - j)

/-- The symbols with a code, sorted by length, then by symbol (R292). -/
def codeOrder (lens : List (BitVec 4)) : List Nat :=
  (List.range Config.maxLen).flatMap fun j => (List.range 256).filter fun s => lenOf lens s = j + 1

/-- The codes of the symbols after the first, given the code and length before them (R292). -/
def canonFrom (lens : List (BitVec 4)) : Nat → Nat → List Nat → List (Nat × List Bool)
  | _, _, [] => []
  | code, prev, s :: ss =>
    let c := (code + 1) * 2 ^ (lenOf lens s - prev)
    (s, bitString (lenOf lens s) c) :: canonFrom lens c (lenOf lens s) ss

/-- `canon(LEN)`: each present symbol with its code, in the order of assignment (R292). A symbol that is not
listed has the empty string. -/
def canon (lens : List (BitVec 4)) : List (Nat × List Bool) :=
  match codeOrder lens with
  | [] => []
  | s :: ss => (s, bitString (lenOf lens s) 0) :: canonFrom lens 0 (lenOf lens s) ss

/-- CODE, always the canonical code of LEN (10_state.md R46). -/
def State.code (s : State) : Option (List (Nat × List Bool)) := s.lens.map canon

/-- `CODE[s]`, the empty string for an absent symbol. -/
def codeOf (table : List (Nat × List Bool)) (s : Nat) : List Bool := (table.lookup s).getD []

/-- `Σ 2^(15 - LEN[s])` over the present symbols: the Kraft sum scaled by 2^15 (R303). -/
def kraftSum (lens : List (BitVec 4)) : Nat :=
  ((lens.filter fun l => l ≠ 0).map fun l => 2 ^ (Config.maxLen - l.toNat)).sum

/-! ### The code-length header (R295) -/

/-- `hdr(LEN)`: symbol 2j in the low nibble of byte j, symbol 2j + 1 in the high nibble. -/
def hdrOf (lens : List (BitVec 4)) : List Byte :=
  (List.range Config.hdrBytes).map fun j => lens.getD (2 * j + 1) 0 ++ lens.getD (2 * j) 0

/-- `unhdr(H)`: the low, then the high nibble of each byte. -/
def unhdr (h : List Byte) : List (BitVec 4) :=
  h.flatMap fun b => [b.extractLsb' 0 4, b.extractLsb' 4 4]

/-! ### Bits (R298) -/

/-- The byte of eight bits, first bit most significant. -/
def byteOfBits (b7 b6 b5 b4 b3 b2 b1 b0 : Bool) : Byte :=
  BitVec.ofNat 8 (128 * b7.toNat + 64 * b6.toNat + 32 * b5.toNat + 16 * b4.toNat + 8 * b3.toNat
    + 4 * b2.toNat + 2 * b1.toNat + b0.toNat)

/-- A bit sequence packed most significant bit first, the last byte padded with zero bits. -/
def packBits : List Bool → List Byte
  | b7 :: b6 :: b5 :: b4 :: b3 :: b2 :: b1 :: b0 :: rest => byteOfBits b7 b6 b5 b4 b3 b2 b1 b0 :: packBits rest
  | [] => []
  | tail =>
    [byteOfBits (tail.getD 0 false) (tail.getD 1 false) (tail.getD 2 false) (tail.getD 3 false)
      (tail.getD 4 false) (tail.getD 5 false) (tail.getD 6 false) (tail.getD 7 false)]

/-- The bits of packed bytes in order: bit `i` of the sequence is bit `7 - (i mod 8)` of byte `i div 8`. -/
def bitsOfBytes (bs : List Byte) : List Bool :=
  bs.flatMap fun b => (List.range 8).map fun j => b.getLsbD (7 - j)

/-! ### Decoding (R305) -/

/-- Reads bits onto `w` until it is a code: the symbol and the bits left, or the cause of the fault (R305's
inner loop). -/
def decodeSymbol (table : List (Nat × List Bool)) : List Bool → List Bool → Except Cause (Nat × List Bool)
  | _, [] => .error .truncPayload
  | w, b :: rest =>
    match table.find? (fun p => p.2 == w ++ [b]) with
    | some p => .ok (p.1, rest)
    | none =>
      if table.any (fun p => (w ++ [b]).isPrefixOf p.2 && (w ++ [b]).length < p.2.length) then
        decodeSymbol table (w ++ [b]) rest
      else .error .badCode

/-- `n` symbols from the bits, or the cause of the fault (R305's outer loop). -/
def decodeSymbols (table : List (Nat × List Bool)) : Nat → List Bool → Except Cause (List Byte)
  | 0, _ => .ok []
  | n + 1, bits =>
    match decodeSymbol table [] bits with
    | .error c => .error c
    | .ok (s, rest) =>
      match decodeSymbols table n rest with
      | .error c => .error c
      | .ok out => .ok (BitVec.ofNat 8 s :: out)

/-! ### Commands -/

/-- The payload in use, or `none` when an element below PAY_LEN holds NONE. -/
def State.payload (s : State) : Option (List Byte) :=
  if s.pay.full s.payLen.toNat then some (s.pay.bytes s.payLen.toNat) else none

/-- PAY.LEN (R283). -/
def bodyPayLen (n : BitVec 32) (s : State) : Except Trap State :=
  if payLenLegal n then .ok { s with payLen := n, pay := .nil }.dropTables else .error (operandTrap 7)

/-- PAY.WR (R284). -/
def bodyPayWr (k : BitVec 32) (b : Byte) (s : State) : Except Trap State :=
  if k.toNat < s.payLen.toNat then .ok { s with pay := s.pay.set k.toNat b }.dropTables
  else .error (operandTrap 7)

/-- The counts of the 256 byte values (R286). -/
def countBytes (bs : List Byte) : List Nat := (List.range 256).map fun s => bs.count (BitVec.ofNat 8 s)

/-- HUF.CNT (R286). -/
def bodyHufCnt (s : State) : Except Trap State :=
  match s.payload with
  | none => .error (uninitTrap 7)
  | some bs => .ok { s with freq := some (countBytes bs), lens := none, hdr := none }

/-- HUF.BLD (R288). -/
def bodyHufBld (s : State) : Except Trap State :=
  match s.freq with
  | none => .error (uninitTrap 7)
  | some freq =>
    match buildLens freq with
    | none => .error ⟨.codelen, 7, 0⟩
    | some lens => .ok { s with lens := some lens, hdr := none }

/-- HUF.HDR (R296). -/
def bodyHufHdr (s : State) : Except Trap State :=
  match s.lens with
  | none => .error (uninitTrap 7)
  | some lens => .ok { s with hdr := some (hdrOf lens) }

/-- The codes of the payload's bytes, joined in payload order (R298). -/
def payloadBits (table : List (Nat × List Bool)) (bs : List Byte) : List Bool :=
  bs.flatMap fun b => codeOf table b.toNat

/-- The compressed payload of a non-empty payload: header, then packed codes (R299). -/
def packedPayload (lens : List (BitVec 4)) (hdr bs : List Byte) : List Byte :=
  hdr ++ packBits (payloadBits (canon lens) bs)

/-- HUF.PACK (R299). -/
def bodyHufPack (s : State) : Except Trap State :=
  match s.payload, s.lens, s.hdr with
  | some bs, some lens, some hdr =>
    if bs.all (fun b => 0 < lenOf lens b.toNat) = false then .error ⟨.noCode, 7, 0⟩
    else if s.payLen.toNat = 0 then .ok { s with enc := some [] }
    else .ok { s with enc := some (packedPayload lens hdr bs) }
  | _, _, _ => .error (uninitTrap 7)

/-- HUF.LDH (R303). -/
def bodyHufLdh (s : State) : Except Trap State :=
  match s.enc with
  | none => .error (uninitTrap 7)
  | some enc =>
    if enc.length = 0 then
      .ok { s with
        hdr := some (List.replicate Config.hdrBytes 0), lens := some (List.replicate 256 0), freq := none }
    else if enc.length < Config.hdrBytes then .error ⟨.truncPayload, 7, 0⟩
    else if 2 ^ Config.maxLen < kraftSum (unhdr (enc.take Config.hdrBytes)) then
      .error ⟨.oversubscribed, 7, 0⟩
    else
      .ok { s with
        hdr := some (enc.take Config.hdrBytes), lens := some (unhdr (enc.take Config.hdrBytes)),
        freq := none }

/-- HUF.UNP (R305). Fewer than 128 bytes in ENC leave no bit to read. -/
def bodyHufUnp (s : State) : Except Trap State :=
  match s.enc, s.lens with
  | some enc, some lens =>
    match decodeSymbols (canon lens) s.payLen.toNat (bitsOfBytes (enc.drop Config.hdrBytes)) with
    | .error c => .error ⟨c, 7, 0⟩
    | .ok out => .ok { s with pay := s.pay.setFrom 0 out }.dropTables
  | _, _ => .error (uninitTrap 7)

/-- PAY.LEN (R283). -/
def execPayLen (n : BitVec 32) (s : State) : Host.Outcome State Fault Refusal := retire s (bodyPayLen n s)

/-- PAY.WR (R284). -/
def execPayWr (k : BitVec 32) (b : Byte) (s : State) : Host.Outcome State Fault Refusal :=
  retire s (bodyPayWr k b s)

/-- HUF.CNT (R286). -/
def execHufCnt (s : State) : Host.Outcome State Fault Refusal := retire s (bodyHufCnt s)

/-- HUF.BLD (R288). -/
def execHufBld (s : State) : Host.Outcome State Fault Refusal := retire s (bodyHufBld s)

/-- HUF.HDR (R296). -/
def execHufHdr (s : State) : Host.Outcome State Fault Refusal := retire s (bodyHufHdr s)

/-- HUF.PACK (R299). -/
def execHufPack (s : State) : Host.Outcome State Fault Refusal := retire s (bodyHufPack s)

/-- HUF.LDH (R303). -/
def execHufLdh (s : State) : Host.Outcome State Fault Refusal := retire s (bodyHufLdh s)

/-- HUF.UNP (R305). -/
def execHufUnp (s : State) : Host.Outcome State Fault Refusal := retire s (bodyHufUnp s)

end Sys2Proof.Machine
end

