-- ==== Sys2Proof/Machine/FrameIo.lean ====
section
/-! DEFINITION. Frame I/O: FR.LD, FR.ST (47_system.md R386, R387). Unit 1. -/

namespace Sys2Proof.Machine

/-- FR.LD with the given `io_ok` (R386). -/
def bodyFrLd (io : Bool) (f : BitVec 32) (s : State) : Except Trap State :=
  if io = false then .error ⟨.rawRd, 1, frameOffset f⟩
  else if s.raw.len < frameOffset f + Config.frameBytes then .error ⟨.rawShort, 1, frameOffset f⟩
  else .ok { s with rgb := some (pixelsOf (s.raw.read (frameOffset f) Config.frameBytes)), fidx := some f }

/-- FR.ST with the given `io_ok` (R387). -/
def bodyFrSt (io : Bool) (slot : BitVec 32) (s : State) : Except Trap State :=
  match s.rgb with
  | none => .error (uninitTrap 1)
  | some rgb =>
    if s.raw.len < frameOffset slot then .error ⟨.order, 1, frameOffset slot⟩
    else if io = false then .error ⟨.rawWr, 1, frameOffset slot⟩
    else .ok { s with raw := s.raw.write (frameOffset slot) (Frame.bytes rgb) }

/-- FR.LD (R386). -/
def execFrLd (f : BitVec 32) (s : State) : Host.Outcome State Fault Refusal := retire s (bodyFrLd s.ioA f s)

/-- FR.ST (R387). -/
def execFrSt (slot : BitVec 32) (s : State) : Host.Outcome State Fault Refusal :=
  retire s (bodyFrSt s.ioA slot s)

end Sys2Proof.Machine
end

