-- ==== Sys2Proof/Machine/Color.lean ====
section
/-! DEFINITION. ColorConverter: CSC.FWD, CSC.INV (40_color.md R160 to R166). Unit 2. -/

namespace Sys2Proof.Machine

/-- `clamp(x, lo, hi)` (00_scope.md R11). -/
def clampInt (x lo hi : Int) : Int := if x < lo then lo else if hi < x then hi else x

/-- A non-negative integer known to be at most 255, as a byte. -/
def byteOfInt (x : Int) : Byte := BitVec.ofNat 8 x.toNat

/-- `rgbToYuv` on integers (R161). -/
def rgbToYuvInt (r g b : Int) : Int × Int × Int :=
  let yn := 299000 * r + 587000 * g + 114000 * b
  let cbn := 128000000 - 168736 * r - 331264 * g + 500000 * b
  let crn := 128000000 + 500000 * r - 418688 * g - 81312 * b
  ((clampInt yn 0 255000000 + 500000) / 1000000,
    (clampInt cbn 0 255000000 + 500000) / 1000000,
    (clampInt crn 0 255000000 + 500000) / 1000000)

/-- `yuvToRgb` on integers (R162). -/
def yuvToRgbInt (y cb cr : Int) : Int × Int × Int :=
  let rn := 1000 * y + 1402 * (cr - 128)
  let gn := 100000 * y - 34414 * (cb - 128) - 71414 * (cr - 128)
  let bn := 1000 * y + 1772 * (cb - 128)
  ((2 * clampInt rn 0 255000 + 1000) / 2000,
    (2 * clampInt gn 0 25500000 + 100000) / 200000,
    (2 * clampInt bn 0 255000 + 1000) / 2000)

/-- A function of three samples applied to a pixel. -/
def mapPixel (f : Int → Int → Int → Int × Int × Int) (p : Pixel) : Pixel :=
  let t := f p.c0.toNat p.c1.toNat p.c2.toNat
  ⟨byteOfInt t.1, byteOfInt t.2.1, byteOfInt t.2.2⟩

/-- `rgbToYuv` (R160, R161). -/
def rgbToYuv (p : Pixel) : Pixel := mapPixel rgbToYuvInt p

/-- `yuvToRgb` (R160, R162). -/
def yuvToRgb (p : Pixel) : Pixel := mapPixel yuvToRgbInt p

/-- CSC.FWD (R163). -/
def bodyCscFwd (s : State) : Except Trap State :=
  match s.rgb with
  | none => .error (uninitTrap 2)
  | some rgb => .ok { s with cur := some (rgb.map rgbToYuv) }

/-- CSC.INV (R166). -/
def bodyCscInv (s : State) : Except Trap State :=
  match s.cur with
  | none => .error (uninitTrap 2)
  | some cur => .ok { s with rgb := some (cur.map yuvToRgb) }

/-- CSC.FWD (R163). -/
def execCscFwd (s : State) : Host.Outcome State Fault Refusal := retire s (bodyCscFwd s)

/-- CSC.INV (R166). -/
def execCscInv (s : State) : Host.Outcome State Fault Refusal := retire s (bodyCscInv s)

end Sys2Proof.Machine
end

