-- ==== Sys2Proof/Machine/Float.lean ====
section
/-! DEFINITION. IEEE 754 binary64 arithmetic, round to nearest, ties to even (43_dct.md R230), by exact
arithmetic on integers that count units of 2^-1074, the smallest positive value, and one rounding. -/

namespace Sys2Proof

/-- The number of units in 1. -/
abbrev unitsPerOne : Nat := 2 ^ 1074

/-- The exact magnitude, in units, of the finite value with magnitude pattern `mag`: exponent field
`mag / 2^52`, fraction `mag % 2^52`. -/
def magUnits (mag : Nat) : Nat :=
  if mag / 2 ^ 52 = 0 then mag else (2 ^ 52 + mag % 2 ^ 52) * 2 ^ (mag / 2 ^ 52 - 1)

/-- `n / d` rounded to the nearest natural, ties to even. -/
def roundNearestEven (n d : Nat) : Nat :=
  if 2 * (n % d) < d then n / d
  else if d < 2 * (n % d) then n / d + 1
  else n / d + n / d % 2

/-- The value nearest to `± n / d` units. The quantum is 2^k units with `k` the place by which the integer part
exceeds 53 bits; a magnitude pattern that reaches that of infinity is an overflow. -/
def F64.nearest (neg : Bool) (n d : Nat) : F64 :=
  let k := (n / d).log2 - 52
  let p := k * 2 ^ 52 + roundNearestEven n (d * 2 ^ k)
  if h : p < magBound then .fin neg ⟨p, h⟩ else .inf neg

/-- Zero of the given sign. -/
def F64.zero (neg : Bool) : F64 := .fin neg ⟨0, by decide⟩

/-- `bits_f64(w)` (00_scope.md R10). -/
def F64.ofBits (w : BitVec 64) : F64 :=
  let m := w.toNat % 2 ^ 63
  if h : m < magBound then .fin w.msb ⟨m, h⟩ else if m = magBound then .inf w.msb else .nan

/-- `f64(n)` for a natural number (R10), exact for `n` below 2^53. -/
def F64.ofNat (n : Nat) : F64 := F64.nearest false (n * unitsPerOne) 1

/-- Infinities and NaNs are not finite. -/
def F64.isFinite : F64 → Bool
  | .fin _ _ => true
  | .inf _ => false
  | .nan => false

/-- The exact value in units, for a finite value. -/
def F64.units : F64 → Int
  | .fin true m => -(magUnits m : Int)
  | .fin false m => magUnits m
  | .inf _ => 0
  | .nan => 0

/-- Unary minus. -/
def F64.neg : F64 → F64
  | .fin s m => .fin (!s) m
  | .inf s => .inf (!s)
  | .nan => .nan

/-- Addition. An exact zero sum is +0 unless both operands are -0. -/
def F64.add : F64 → F64 → F64
  | .nan, _ => .nan
  | _, .nan => .nan
  | .inf s, .inf t => if s = t then .inf s else .nan
  | .inf s, .fin _ _ => .inf s
  | .fin _ _, .inf t => .inf t
  | .fin s m, .fin t n =>
    let sum := (F64.fin s m).units + (F64.fin t n).units
    if sum = 0 then F64.zero (s && t) else F64.nearest (decide (sum < 0)) sum.natAbs 1

/-- Subtraction. -/
def F64.sub (a b : F64) : F64 := a.add b.neg

/-- Multiplication. -/
def F64.mul : F64 → F64 → F64
  | .nan, _ => .nan
  | _, .nan => .nan
  | .inf s, .inf t => .inf (s != t)
  | .inf s, .fin t n => if n.val = 0 then .nan else .inf (s != t)
  | .fin s m, .inf t => if m.val = 0 then .nan else .inf (s != t)
  | .fin s m, .fin t n => F64.nearest (s != t) (magUnits m * magUnits n) unitsPerOne

/-- Division. -/
def F64.div : F64 → F64 → F64
  | .nan, _ => .nan
  | _, .nan => .nan
  | .inf _, .inf _ => .nan
  | .inf s, .fin t _ => .inf (s != t)
  | .fin s _, .inf t => F64.zero (s != t)
  | .fin s m, .fin t n =>
    if n.val = 0 then (if m.val = 0 then .nan else .inf (s != t))
    else F64.nearest (s != t) (magUnits m * unitsPerOne) (magUnits n)

end Sys2Proof
end

