-- ==== Sys2Proof/Machine/Segment.lean ====
section
/-! DEFINITION. BlockSegmenter and block register access: BLK.LD, BLK.ST, BLK.PUT, BLK.GET, BLK.WR, BLK.CH
(42_segment.md R200 to R212). Unit 4. -/

namespace Sys2Proof.Machine

/-- `pix(v) = rhu(clamp(v, 0, 255))` on the exact value of a finite `v` (R205). -/
def pix (v : F64) : Byte :=
  byteOfInt ((2 * clampInt v.units 0 (255 * unitsPerOne) + unitsPerOne) / (2 * unitsPerOne))

/-- A finite value that is an integer in 0 to 255, as that integer (R207). -0.0 is the integer 0. -/
def byteValue? (v : F64) : Option Byte :=
  if v.isFinite = true ∧ 0 ≤ v.units ∧ v.units ≤ 255 * unitsPerOne ∧ v.units % unitsPerOne = 0 then
    some (byteOfInt (v.units / unitsPerOne))
  else none

/-- The 64 samples of block `i` in WRK, or `none` when one is NONE (R200). -/
def State.wrkBlock (s : State) (i : Nat) : Option (Mat Byte) :=
  (Mat.tabulate fun r c => s.wrk.get (wrkIndex i r c)).values?

/-- The 64 bytes of block `i` in PAY, or `none` when one is NONE (R202). -/
def State.payBlock (s : State) (i : Nat) : Option (Mat Byte) :=
  (Mat.tabulate fun r c => s.pay.get (payIndex i r c)).values?

/-- The 64 values of BLK, or `none` when one is NONE. -/
def State.blkValues (s : State) : Option (Mat F64) := Mat.values? s.blk

/-- The elements of a matrix paired with where each goes. -/
def placed (index : Fin 8 → Fin 8 → Nat) (m : Mat Byte) : List (Nat × Byte) :=
  Mat.toList (Mat.tabulate fun r c => (index r c, Mat.elem m r c))

/-- BLK, BCH and BIDX set from 64 bytes of block `i` (R203, R209). -/
def State.takeBlock (s : State) (i : Nat) (m : Mat Byte) : State :=
  { s with
    blk := Mat.mapElems (fun b : Byte => some (F64.ofNat b.toNat)) m
    bch := some (blockChan i)
    bidx := BitVec.ofNat 16 i }

/-- BLK.LD (R203). -/
def bodyBlkLd (i : BitVec 32) (s : State) : Except Trap State :=
  if ¬ blkLegal i then .error (operandTrap 4)
  else
    match s.wrkBlock i.toNat with
    | none => .error (uninitTrap 4)
    | some m => .ok (s.takeBlock i.toNat m)

/-- BLK.ST (R205). -/
def bodyBlkSt (i : BitVec 32) (s : State) : Except Trap State :=
  if ¬ blkLegal i then .error (operandTrap 4)
  else
    match s.blkValues, s.bch with
    | some m, some ch =>
      if ch ≠ blockChan i.toNat then .error ⟨.channel, 4, 0⟩
      else if Mat.every F64.isFinite m = false then .error ⟨.nonfinite, 4, 0⟩
      else .ok { s with wrk := s.wrk.setAll (placed (wrkIndex i.toNat) (Mat.mapElems pix m)) }
    | _, _ => .error (uninitTrap 4)

/-- BLK.PUT (R207). -/
def bodyBlkPut (i : BitVec 32) (s : State) : Except Trap State :=
  if ¬ blkLegal i then .error (operandTrap 4)
  else if s.payLen.toNat ≤ 64 * i.toNat + 63 then .error (operandTrap 4)
  else
    match s.blkValues, s.bch with
    | some m, some ch =>
      if ch ≠ blockChan i.toNat then .error ⟨.channel, 4, 0⟩
      else
        match Mat.values? (Mat.mapElems byteValue? m) with
        | none => .error ⟨.notByte, 4, 0⟩
        | some bytes =>
          .ok { s with pay := s.pay.setAll (placed (payIndex i.toNat) bytes) }.dropTables
    | _, _ => .error (uninitTrap 4)

/-- BLK.GET (R209). -/
def bodyBlkGet (i : BitVec 32) (s : State) : Except Trap State :=
  if ¬ blkLegal i then .error (operandTrap 4)
  else if s.payLen.toNat ≤ 64 * i.toNat + 63 then .error (operandTrap 4)
  else
    match s.payBlock i.toNat with
    | none => .error (uninitTrap 4)
    | some m => .ok (s.takeBlock i.toNat m)

/-- BLK.WR (R211). -/
def bodyBlkWr (k : BitVec 8) (v : BitVec 64) (s : State) : Except Trap State :=
  if elemLegal k ∧ f64Legal v then
    .ok { s with blk := Mat.put s.blk (elemRow k) (elemCol k) (some (F64.ofBits v)) }
  else .error (operandTrap 4)

/-- BLK.CH (R212). -/
def bodyBlkCh (t : BitVec 8) (s : State) : Except Trap State :=
  if chLegal t then .ok { s with bch := some (chanOf t) } else .error (operandTrap 4)

/-- BLK.LD (R203). -/
def execBlkLd (i : BitVec 32) (s : State) : Host.Outcome State Fault Refusal := retire s (bodyBlkLd i s)

/-- BLK.ST (R205). -/
def execBlkSt (i : BitVec 32) (s : State) : Host.Outcome State Fault Refusal := retire s (bodyBlkSt i s)

/-- BLK.PUT (R207). -/
def execBlkPut (i : BitVec 32) (s : State) : Host.Outcome State Fault Refusal := retire s (bodyBlkPut i s)

/-- BLK.GET (R209). -/
def execBlkGet (i : BitVec 32) (s : State) : Host.Outcome State Fault Refusal := retire s (bodyBlkGet i s)

/-- BLK.WR (R211). -/
def execBlkWr (k : BitVec 8) (v : BitVec 64) (s : State) : Host.Outcome State Fault Refusal :=
  retire s (bodyBlkWr k v s)

/-- BLK.CH (R212). -/
def execBlkCh (t : BitVec 8) (s : State) : Host.Outcome State Fault Refusal := retire s (bodyBlkCh t s)

end Sys2Proof.Machine
end

