-- ==== Sys2Proof/Machine/Transform.lean ====
section
/-! DEFINITION. Transform: FDCT, IDCT (43_dct.md R230 to R241). Unit 5. -/

namespace Sys2Proof.Machine

/-! ### Constants, by their normative bit patterns (R231) -/

/-- K0 = 2·√2 -/
def dctK0 : F64 := F64.ofBits 0x4006A09E667F3BCD
/-- K1 = 4·c1 -/
def dctK1 : F64 := F64.ofBits 0x400F6297CFF75CB0
/-- K2 = 4·c2 -/
def dctK2 : F64 := F64.ofBits 0x400D906BCF328D46
/-- K3 = 4·c3 -/
def dctK3 : F64 := F64.ofBits 0x400A9B66290EA1A3
/-- K4 = 4·c4 -/
def dctK4 : F64 := F64.ofBits 0x4006A09E667F3BCD
/-- K5 = 4·c5 -/
def dctK5 : F64 := F64.ofBits 0x4001C73B39AE68C8
/-- K6 = 4·c6 -/
def dctK6 : F64 := F64.ofBits 0x3FF87DE2A6AEA963
/-- K7 = 4·c7 -/
def dctK7 : F64 := F64.ofBits 0x3FE8F8B83C69A60B
/-- A1 = c4 -/
def dctA1 : F64 := F64.ofBits 0x3FE6A09E667F3BCD
/-- A2 = c2 - c6 -/
def dctA2 : F64 := F64.ofBits 0x3FE1517A7BDB3894
/-- A3 = c4 -/
def dctA3 : F64 := F64.ofBits 0x3FE6A09E667F3BCD
/-- A4 = c2 + c6 -/
def dctA4 : F64 := F64.ofBits 0x3FF4E7AE9144F0FC
/-- A5 = c6 -/
def dctA5 : F64 := F64.ofBits 0x3FD87DE2A6AEA963
/-- 2.0, the divisor of the inverse pass (R238) -/
def dctTwo : F64 := F64.ofBits 0x4000000000000000

/-- `x / 2` (R238). -/
def half (x : F64) : F64 := x.div dctTwo

/-- FDCT8, the forward pass, stage by stage in the order of R233. -/
def fdct8 (x : Oct F64) : Oct F64 :=
  let v0 := x.e0.add x.e7
  let v1 := x.e1.add x.e6
  let v2 := x.e2.add x.e5
  let v3 := x.e3.add x.e4
  let v4 := x.e3.sub x.e4
  let v5 := x.e2.sub x.e5
  let v6 := x.e1.sub x.e6
  let v7 := x.e0.sub x.e7
  let v8 := v0.add v3
  let v9 := v1.add v2
  let v10 := v1.sub v2
  let v11 := v0.sub v3
  let v12 := v4.neg.sub v5
  let v13 := (v5.add v6).mul dctA3
  let v14 := v6.add v7
  let v15 := v8.add v9
  let v16 := v8.sub v9
  let v17 := (v10.add v11).mul dctA1
  let v18 := (v12.add v14).mul dctA5
  let v19 := (v12.neg.mul dctA2).sub v18
  let v20 := (v14.mul dctA4).sub v18
  let v21 := v17.add v11
  let v22 := v11.sub v17
  let v23 := v13.add v7
  let v24 := v7.sub v13
  let v25 := v19.add v24
  let v26 := v23.add v20
  let v27 := v23.sub v20
  let v28 := v24.sub v19
  ⟨v15.div dctK0, v26.div dctK1, v21.div dctK2, v28.div dctK3,
    v16.div dctK4, v25.div dctK5, v22.div dctK6, v27.div dctK7⟩

/-- IDCT8, the inverse pass, in the order of R238. -/
def idct8 (x : Oct F64) : Oct F64 :=
  let v15 := x.e0.mul dctK0
  let v26 := x.e1.mul dctK1
  let v21 := x.e2.mul dctK2
  let v28 := x.e3.mul dctK3
  let v16 := x.e4.mul dctK4
  let v25 := x.e5.mul dctK5
  let v22 := x.e6.mul dctK6
  let v27 := x.e7.mul dctK7
  let v19 := half (v25.sub v28)
  let v20 := half (v26.sub v27)
  let v23 := half (v26.add v27)
  let v24 := half (v25.add v28)
  let v7 := half (v23.add v24)
  let v11 := half (v21.add v22)
  let v13 := half (v23.sub v24)
  let v17 := half (v21.sub v22)
  let v8 := half (v15.add v16)
  let v9 := half (v15.sub v16)
  let v18 := (v19.sub v20).mul dctA5
  let v12 := v18.sub (v19.mul dctA4)
  let v14 := (v20.mul dctA2).sub v18
  let v6 := v14.sub v7
  let v5 := (v13.div dctA3).sub v6
  let v4 := v5.neg.sub v12
  let v10 := (v17.div dctA1).sub v11
  let v0 := half (v8.add v11)
  let v1 := half (v9.add v10)
  let v2 := half (v9.sub v10)
  let v3 := half (v8.sub v11)
  ⟨half (v0.add v7), half (v1.add v6), half (v2.add v5), half (v3.add v4),
    half (v3.sub v4), half (v2.sub v5), half (v1.sub v6), half (v0.sub v7)⟩

/-- FDCT2D: each row, then each column (R234). -/
def fdct2d (b : Mat F64) : Mat F64 :=
  Mat.transpose (Oct.map fdct8 (Mat.transpose (Oct.map fdct8 b)))

/-- IDCT2D: each column, then each row (R239). -/
def idct2d (f : Mat F64) : Mat F64 :=
  Oct.map idct8 (Mat.transpose (Oct.map idct8 (Mat.transpose f)))

/-- BLK replaced by values. -/
def State.setBlk (s : State) (m : Mat F64) : State := { s with blk := Mat.mapElems some m }

/-- FDCT (R236). -/
def bodyFdct (s : State) : Except Trap State :=
  match s.blkValues with
  | none => .error (uninitTrap 5)
  | some m => .ok (s.setBlk (fdct2d m))

/-- IDCT (R241). -/
def bodyIdct (s : State) : Except Trap State :=
  match s.blkValues with
  | none => .error (uninitTrap 5)
  | some m => .ok (s.setBlk (idct2d m))

/-- FDCT (R236). -/
def execFdct (s : State) : Host.Outcome State Fault Refusal := retire s (bodyFdct s)

/-- IDCT (R241). -/
def execIdct (s : State) : Host.Outcome State Fault Refusal := retire s (bodyIdct s)

end Sys2Proof.Machine
end

