-- ==== Sys2Proof/Machine/Quant.lean ====
section
/-! DEFINITION. Quantizer and Dequantizer: QUANT, DEQUANT, and the local quant tables (44_quant.md R260 to
R268, 10_state.md R39). Unit 6. -/

namespace Sys2Proof.Machine

/-- An entry of a base table: any integer in 1 to 2^32 - 1 (R260). The opaque bits give every such value. -/
def baseEntry (w : BitVec 32) : Nat := max 1 w.toNat

/-- QT_LUMA (R260). -/
def qtLuma : Mat Nat := Mat.mapElems baseEntry Config.qtLumaBits

/-- QT_CHROMA (R260). -/
def qtChroma : Mat Nat := Mat.mapElems baseEntry Config.qtChromaBits

/-- One entry of the local quant table of base entry `t` at quality `q` (R262). -/
def localEntry (q t : Nat) : Nat :=
  if q < 50 then max 1 (t * 5000 / q)
  else if q = 50 then t
  else max 1 (t * (200 - 2 * q))

/-- `lqt(T, q)` (R262). -/
def lqt (table : Mat Nat) (q : Nat) : Mat Nat := Mat.mapElems (localEntry q) table

/-- LQ_LUMA, NONE while QUALITY is (10_state.md R39). -/
def State.lqLuma (s : State) : Option (Mat Nat) := s.quality.map fun q => lqt qtLuma q.toNat

/-- LQ_CHROMA, NONE while QUALITY is (R39). -/
def State.lqChroma (s : State) : Option (Mat Nat) := s.quality.map fun q => lqt qtChroma q.toNat

/-- The local table for a channel: luma for Y, chroma for Cb and Cr (R260, R265). -/
def State.localTable (s : State) (ch : Chan) : Option (Mat Nat) :=
  match ch with
  | .y => s.lqLuma
  | .cb => s.lqChroma
  | .cr => s.lqChroma

/-- `rha(n / d)`: the quotient rounded half away from zero, for `d > 0` (00_scope.md R11). -/
def roundHalfAway (n : Int) (d : Nat) : Int :=
  if 0 ≤ n then (2 * n + d) / (2 * d) else -((2 * (-n) + d) / (2 * d))

/-- `qz(v, l)` for a finite `v` (R263). -/
def qz (v : F64) (l : Nat) : Nat := (clampInt (roundHalfAway v.units (l * unitsPerOne)) 8 255).toNat

/-- `dq(v, l)` (R264). -/
def dq (v : F64) (l : Nat) : F64 := v.mul (F64.ofNat l)

/-- QUANT's new block (R265). -/
def quantBlock (table : Mat Nat) (m : Mat F64) : Mat F64 :=
  Mat.zipElems (fun v l => F64.ofNat (qz v l)) m table

/-- DEQUANT's new block (R268). -/
def dequantBlock (table : Mat Nat) (m : Mat F64) : Mat F64 := Mat.zipElems dq m table

/-- The operands of QUANT and DEQUANT: BLK's values, and the table BCH and QUALITY choose, or `none` when one
of the three holds NONE. -/
def State.quantOperands (s : State) : Option (Mat F64 × Mat Nat) :=
  match s.blkValues, s.bch with
  | some m, some ch => (s.localTable ch).map fun t => (m, t)
  | _, _ => none

/-- QUANT (R265). -/
def bodyQuant (s : State) : Except Trap State :=
  match s.quantOperands with
  | none => .error (uninitTrap 6)
  | some (m, t) =>
    if Mat.every F64.isFinite m = false then .error ⟨.nonfinite, 6, 0⟩
    else .ok (s.setBlk (quantBlock t m))

/-- DEQUANT (R268). -/
def bodyDequant (s : State) : Except Trap State :=
  match s.quantOperands with
  | none => .error (uninitTrap 6)
  | some (m, t) => .ok (s.setBlk (dequantBlock t m))

/-- QUANT (R265). -/
def execQuant (s : State) : Host.Outcome State Fault Refusal := retire s (bodyQuant s)

/-- DEQUANT (R268). -/
def execDequant (s : State) : Host.Outcome State Fault Refusal := retire s (bodyDequant s)

end Sys2Proof.Machine
end

