-- ==== Sys2Proof/Machine/System.lean ====
section
/-! DEFINITION. System commands: NOP, RST, SETQ, SETN (47_system.md R381 to R384). Unit 0. -/

namespace Sys2Proof.Machine

/-- RST's effect but for CP: the unfinished container is marked invalid, then every element is reset (R382). -/
def bodyRst (s : State) : Except Trap State := .ok s.spoilMagic.clearAll

/-- SETQ: the range first, then no active writer (R383). -/
def bodySetq (q : BitVec 32) (s : State) : Except Trap State :=
  if q.toInt < 1 ∨ 100 < q.toInt then .error ⟨.range, 0, 0⟩
  else if s.wact then .error ⟨.writer, 0, 0⟩
  else .ok { s with quality := some q, ropen := false, eos := false }

/-- SETN (R384). -/
def bodySetn (n : BitVec 32) (s : State) : Except Trap State :=
  if s.wact then .error ⟨.writer, 0, 0⟩
  else .ok { s with frameCount := some n, ropen := false, eos := false }

/-- NOP (R381). -/
def execNop (s : State) : Host.Outcome State Fault Refusal := retire s (.ok s)

/-- RST (R382). -/
def execRst (s : State) : Host.Outcome State Fault Refusal := retire s (bodyRst s)

/-- SETQ (R383). -/
def execSetq (q : BitVec 32) (s : State) : Host.Outcome State Fault Refusal := retire s (bodySetq q s)

/-- SETN (R384). -/
def execSetn (n : BitVec 32) (s : State) : Host.Outcome State Fault Refusal := retire s (bodySetn n s)

end Sys2Proof.Machine
end

