-- ==== Sys2Proof/Machine/Temporal.lean ====
section
/-! DEFINITION. TemporalPredictor: TP.FWD, TP.INV (41_temporal.md R180 to R186). Unit 3. -/

namespace Sys2Proof.Machine

/-- `dpcm_fwd(cur, prev)` (R181). -/
def dpcmFwd (cur prev : Byte) : Byte := byteOfInt (clampInt ((cur.toNat : Int) - prev.toNat + 128) 0 255)

/-- `dpcm_inv(d, prev)` (R182). -/
def dpcmInv (d prev : Byte) : Byte := byteOfInt (clampInt ((prev.toNat : Int) + d.toNat - 128) 0 255)

/-- A buffer that holds exactly the samples of a frame. -/
def bufOfFrame (f : Frame) : Buf := Buf.setFrom .nil 0 (Frame.bytes f)

/-- PREV when it holds the frame just before frame `i`: `PREV_V = 1` and `PREV_IDX + 1 = i` (R183, R186). -/
def State.prevFor (s : State) (i : BitVec 32) : Option Frame :=
  match s.prev, s.prevIdx with
  | some p, some k => if k.toNat + 1 = i.toNat then some p else none
  | _, _ => none

/-- TP.FWD (R183). -/
def bodyTpFwd (s : State) : Except Trap State :=
  match s.cur, s.fidx with
  | some cur, some i =>
    match ftypeOf i.toNat with
    | .key =>
      .ok { s with
        wrk := bufOfFrame cur, ftype := some .key, prev := some cur, prevIdx := some i }
    | .delta =>
      match s.prevFor i with
      | none => .error ⟨.prev, 3, 0⟩
      | some p =>
        .ok { s with
          wrk := bufOfFrame (List.zipWith (Pixel.zip dpcmFwd) cur p), ftype := some .delta,
          prev := some cur, prevIdx := some i }
  | _, _ => .error (uninitTrap 3)

/-- TP.INV's frame update once the new current frame is known (R186). -/
def State.acceptFrame (s : State) (cur : Frame) (i : BitVec 32) : State :=
  { s with cur := some cur, prev := some cur, prevIdx := some i, wrk := .nil }

/-- TP.INV (R186). -/
def bodyTpInv (s : State) : Except Trap State :=
  match s.ftype, s.fidx with
  | some t, some i =>
    if s.wrk.full Config.frameBytes = false then .error ⟨.blockCount, 3, 0⟩
    else
      match t with
      | .key => .ok (s.acceptFrame (pixelsOf (s.wrk.bytes Config.frameBytes)) i)
      | .delta =>
        match s.prevFor i with
        | none => .error ⟨.prev, 3, 0⟩
        | some p =>
          .ok (s.acceptFrame
            (List.zipWith (Pixel.zip dpcmInv) (pixelsOf (s.wrk.bytes Config.frameBytes)) p) i)
  | _, _ => .error (uninitTrap 3)

/-- TP.FWD (R183). -/
def execTpFwd (s : State) : Host.Outcome State Fault Refusal := retire s (bodyTpFwd s)

/-- TP.INV (R186). -/
def execTpInv (s : State) : Host.Outcome State Fault Refusal := retire s (bodyTpInv s)

end Sys2Proof.Machine
end

