-- ==== Sys2Proof/Machine/WholeFrame.lean ====
section
/-! DEFINITION. Whole-frame commands: ENC.FRAME, DEC.FRAME (47_system.md R390 to R392). -/

namespace Sys2Proof.Machine

/-- `BLK.LD i ; FDCT ; QUANT ; BLK.PUT i` (R390). -/
def encodeBlock (s : State) (i : Nat) : Except Trap State := do
  let s ← bodyBlkLd (BitVec.ofNat 32 i) s
  let s ← bodyFdct s
  let s ← bodyQuant s
  bodyBlkPut (BitVec.ofNat 32 i) s

/-- `BLK.GET i ; DEQUANT ; IDCT ; BLK.ST i` (R391). -/
def decodeBlock (s : State) (i : Nat) : Except Trap State := do
  let s ← bodyBlkGet (BitVec.ofNat 32 i) s
  let s ← bodyDequant s
  let s ← bodyIdct s
  bodyBlkSt (BitVec.ofNat 32 i) s

/-- The expansion of `ENC.FRAME f`, `io1` the `io_ok` of FR.LD and `io2` that of CW.REC (R390). -/
def bodyEncFrame (io1 io2 : Bool) (f : BitVec 32) (s : State) : Except Trap State := do
  let s ← bodyFrLd io1 f s
  let s ← bodyCscFwd s
  let s ← bodyTpFwd s
  let s ← bodyPayLen (BitVec.ofNat 32 Config.frameBytes) s
  let s ← (List.range Config.numBlocks).foldlM encodeBlock s
  let s ← bodyHufCnt s
  let s ← bodyHufBld s
  let s ← bodyHufHdr s
  let s ← bodyHufPack s
  bodyCwRec io2 s

/-- The expansion of `DEC.FRAME slot`, `io1` the `io_ok` of CR.NEXT and `io2` that of FR.ST (R391). -/
def bodyDecFrame (io1 io2 : Bool) (slot : BitVec 32) (s : State) : Except Trap State := do
  let s ← bodyCrNext io1 s
  let s ← bodyPayLen (BitVec.ofNat 32 Config.frameBytes) s
  let s ← bodyHufLdh s
  let s ← bodyHufUnp s
  let s ← (List.range Config.numBlocks).foldlM decodeBlock s
  let s ← bodyTpInv s
  let s ← bodyCscInv s
  bodyFrSt io2 slot s

/-- ENC.FRAME: one command, CP advances by 1; a fault of any part discards every effect and carries that
part's unit as its stage (R390, R392). -/
def execEncFrame (f : BitVec 32) (s : State) : Host.Outcome State Fault Refusal :=
  retire s (bodyEncFrame s.ioA s.ioB f s)

/-- DEC.FRAME (R391, R392). -/
def execDecFrame (slot : BitVec 32) (s : State) : Host.Outcome State Fault Refusal :=
  retire s (bodyDecFrame s.ioA s.ioB slot s)

end Sys2Proof.Machine
end

