-- ==== Sys2Proof/Machine/Dispatch.lean ====
section
/-! DEFINITION. One arm per command: its meaning. -/

namespace Sys2Proof.Machine

def exec (i : Instr) (s : State) : Host.Outcome State Fault Refusal :=
  match i with
  | .nop => Sys2Proof.Machine.execNop s
  | .rst => Sys2Proof.Machine.execRst s
  | .setq q => Sys2Proof.Machine.execSetq q s
  | .setn n => Sys2Proof.Machine.execSetn n s
  | .frLd f => Sys2Proof.Machine.execFrLd f s
  | .frSt slot => Sys2Proof.Machine.execFrSt slot s
  | .cscFwd => Sys2Proof.Machine.execCscFwd s
  | .cscInv => Sys2Proof.Machine.execCscInv s
  | .tpFwd => Sys2Proof.Machine.execTpFwd s
  | .tpInv => Sys2Proof.Machine.execTpInv s
  | .blkLd k => Sys2Proof.Machine.execBlkLd k s
  | .blkSt k => Sys2Proof.Machine.execBlkSt k s
  | .blkPut k => Sys2Proof.Machine.execBlkPut k s
  | .blkGet k => Sys2Proof.Machine.execBlkGet k s
  | .blkWr k v => Sys2Proof.Machine.execBlkWr k v s
  | .blkCh t => Sys2Proof.Machine.execBlkCh t s
  | .fdct => Sys2Proof.Machine.execFdct s
  | .idct => Sys2Proof.Machine.execIdct s
  | .quant => Sys2Proof.Machine.execQuant s
  | .dequant => Sys2Proof.Machine.execDequant s
  | .payLen n => Sys2Proof.Machine.execPayLen n s
  | .payWr k b => Sys2Proof.Machine.execPayWr k b s
  | .hufCnt => Sys2Proof.Machine.execHufCnt s
  | .hufBld => Sys2Proof.Machine.execHufBld s
  | .hufHdr => Sys2Proof.Machine.execHufHdr s
  | .hufPack => Sys2Proof.Machine.execHufPack s
  | .hufLdh => Sys2Proof.Machine.execHufLdh s
  | .hufUnp => Sys2Proof.Machine.execHufUnp s
  | .cwHdr => Sys2Proof.Machine.execCwHdr s
  | .cwRec => Sys2Proof.Machine.execCwRec s
  | .crOpen => Sys2Proof.Machine.execCrOpen s
  | .crNext => Sys2Proof.Machine.execCrNext s
  | .crSeek n => Sys2Proof.Machine.execCrSeek n s
  | .encFrame f => Sys2Proof.Machine.execEncFrame f s
  | .decFrame slot => Sys2Proof.Machine.execDecFrame slot s

end Sys2Proof.Machine
end

