-- ==== Sys2Proof/Machine/Flags.lean ====
section
/-! DEFINITION. The STATUS word, the status read port, and the answer of the command port
(10_state.md R36, R37, 47_system.md R401, R402). -/

namespace Sys2Proof.Machine

/-- PREV_V: PREV and PREV_IDX hold a frame (R37 bit 5). -/
def State.prevValid (s : State) : Bool := s.prev.isSome && s.prevIdx.isSome

/-- The bits of STATUS, bit 0 first (R37). A flag X_V is 1 exactly when X is not NONE. -/
def State.statusBits (s : State) : List Bool :=
  [s.fault, s.quality.isSome, s.frameCount.isSome, s.fidx.isSome, s.ftype.isSome, s.prevValid,
    s.bch.isSome, s.wact, s.wdone, s.ropen, s.eos, s.enc.isSome]

/-- The number whose bit `i` is entry `i`. -/
def bitsValue : List Bool → Nat
  | [] => 0
  | b :: bs => b.toNat + 2 * bitsValue bs

/-- STATUS (R36 number 0, R37). -/
def State.statusWord (s : State) : BitVec 12 := BitVec.ofNat 12 (bitsValue s.statusBits)

/-- ENC_LEN (R36 number 18, R48). -/
def State.encLen (s : State) : Option Nat := s.enc.map List.length

/-- IDX_N (R36 number 16, R49). -/
def State.idxN (s : State) : Nat := s.idx.length

/-- A register that can hold NONE reads as 0 then (R36, R401). -/
def orZero (o : Option Nat) : Nat := o.getD 0

/-- The value of status register `n` (R36), before it is cut to the port's 64 bits. -/
def State.statusValue (s : State) : Nat → Nat
  | 0 => s.statusWord.toNat
  | 1 => s.err.toNat
  | 2 => s.errOff
  | 3 => s.errCp
  | 4 => s.cp
  | 5 => orZero (s.quality.map BitVec.toNat)
  | 6 => Config.cifX
  | 7 => Config.cifY
  | 8 => orZero (s.frameCount.map BitVec.toNat)
  | 9 => orZero (s.fidx.map BitVec.toNat)
  | 10 => orZero (s.ftype.map FrameType.num)
  | 11 => orZero (s.prevIdx.map BitVec.toNat)
  | 12 => s.nrec.toNat
  | 13 => s.wpos
  | 14 => s.rpos
  | 15 => s.rnum.toNat
  | 16 => s.idxN
  | 17 => s.payLen.toNat
  | 18 => orZero s.encLen
  | 19 => s.bidx.toNat
  | 20 => orZero (s.bch.map Chan.num)
  | 21 => s.raw.len
  | 22 => s.ctr.len
  | _ => 0

/-- The status read port: register number in, 64-bit value out, no side effect (R401). -/
def State.statusRead (s : State) (n : Nat) : BitVec 64 := BitVec.ofNat 64 (s.statusValue n)

/-- The answer to a descriptor (R402). -/
inductive Answer where
  | retired | faulted
  deriving DecidableEq, Repr

/-- The answer the host sees after a descriptor, read off FAULT (log 13). -/
def State.answer (after : State) : Answer := if after.fault then .faulted else .retired

end Sys2Proof.Machine
end

