-- ==== Sys2Proof/Machine/Port.lean ====
section
/-! DEFINITION. What the block takes from the host in one step: a descriptor, `rst_n`, or a file the host
replaces (47_system.md R380, R400, R402, 70_reset_and_hazards.md R470). Log 1. -/

namespace Sys2Proof.Machine

/-- What one step has to do. -/
inductive Turn where
  /-- nothing is left to run, the step ends in this state -/
  | done (s : State)
  /-- a command to run from this state -/
  | run (i : Instr) (s : State)

/-- The cause of the fault of an undecodable descriptor (R126). -/
def DecodeError.cause : DecodeError → Cause
  | .length => .opcode
  | .opcode => .opcode
  | .reserved => .reserved

/-- The fault of an undecodable descriptor: STAGE is `OPC[7:4]` (30_encoding.md R122, 60_exceptions.md R421),
ERR_OFF is 0 (R427). -/
def illegalTrap (d : Desc) (e : DecodeError) : Trap := ⟨DecodeError.cause e, d.opc.toNat / 16, 0⟩

/-- `rst_n`: every element of the block at its reset value, CP and the fault registers included; nothing is
written to the files (70_reset_and_hazards.md R470). -/
def State.hardReset (s : State) : State := s.clearAll

/-- A descriptor with its `io_ok` inputs, the rest of the port already in `s.port`: dropped while FAULT = 1,
a fault when it is no command, else a command to run (R380, R445 steps 1 to 3). -/
def State.acceptCommand (s : State) (d : Desc) (ioA ioB : Bool) : Turn :=
  if s.fault then .done s
  else
    match decode d with
    | .error e => .done ({ s with ioA := ioA, ioB := ioB }.enterFault (illegalTrap d e))
    | .ok i => .run i { s with ioA := ioA, ioB := ioB }

/-- The next host transaction, or nothing to do when the host presents none (log 1). -/
def State.takeTurn (s : State) : Turn :=
  match s.port with
  | [] => .done s
  | .resetPulse :: rest => .done { s with port := rest }.hardReset
  | .supplyRaw bytes :: rest => .done { s with port := rest, raw := Memory.ofBytes bytes }
  | .supplyCtr bytes :: rest => .done { s with port := rest, ctr := Memory.ofBytes bytes }
  | .command d ioA ioB :: rest => { s with port := rest }.acceptCommand d ioA ioB

/-- The port with one more descriptor in front, the bits above `nbits` zero. -/
def State.present (s : State) (nbits w : Nat) : State :=
  { s with port := .command (BitVec.ofNat 128 (w % 2 ^ nbits)) s.ioA s.ioB :: s.port }

end Sys2Proof.Machine
end

