-- ==== Sys2Proof/Machine/Step.lean ====
section
/-! DEFINITION. One step of the RGBC core (47_system.md R380). -/

namespace Sys2Proof.Machine

/-- One step: the next host transaction, and the command it carries. -/
def step (s : State) : Host.Outcome State Fault Refusal :=
  match s.takeTurn with
  | .done t => .next t
  | .run i t => exec i t

/-- The state with the instruction of the opcode-table word `w` presented next on the command port. The
`io_ok` inputs supplied with it are those the lines carry in `s` (log 2). -/
def State.withFetchWord (s : State) (nbits w : Nat) : State := s.present nbits w

end Sys2Proof.Machine
end

