-- ==== Sys2Proof/Safety.lean ====
section
/-! DEFINITION. What a sound state of the block is: the invariants the spec states of its elements. Also the
terms in which claims speak of frames and of a whole-frame command's expansion. -/

namespace Sys2Proof

/-- Sample (y, x, ch) of a frame (10_state.md R42), for y below 288 and x below 352. -/
def Frame.sample (f : Frame) (y x : Nat) (ch : Chan) : Option Byte := (f[Config.cifX * y + x]?).map fun p => p.chan ch

/-- `3·(352·y + x) + ch`: where sample (y, x, ch) stands in the bytes of a frame (20_memory.md R81). -/
def sampleOffset (y x : Nat) (ch : Chan) : Nat := 3 * (352 * y + x) + ch.num

/-- Where element `[r][c]` of block `i` stands in the bytes of a frame: channel `i mod 3`, pixel row `8·br + r`, pixel
column `8·bc + c` with `br = (i div 3) div 44` and `bc = (i div 3) mod 44` (42_segment.md R200). -/
def blockOffset (i : Nat) (r c : Fin 8) : Nat :=
  3 * (352 * (8 * (i / 3 / 44) + r) + (8 * (i / 3 % 44) + c)) + i % 3

/-- The finite value `v` is exactly the integer `n`. -/
def F64.isInteger (v : F64) (n : Int) : Prop := v.isFinite = true ∧ v.units = n * unitsPerOne

/-- `r` is `± n / d` units rounded to binary64 (43_dct.md R230): infinite from half a unit in the last place beyond
the largest finite value on, and below that a finite value that no finite value is nearer than, whose pattern is
even on a tie. -/
def F64.isNearest (r : F64) (neg : Bool) (n d : Nat) : Prop :=
  (r = .inf neg ∧ (2 ^ 54 - 1) * 2 ^ 2044 * d ≤ n) ∨
  ∃ m : Fin magBound, r = .fin neg m ∧ n < (2 ^ 54 - 1) * 2 ^ 2044 * d ∧
    ∀ k : Fin magBound,
      |(n : Int) - magUnits m * d| ≤ |(n : Int) - magUnits k * d| ∧
      (|(n : Int) - magUnits m * d| = |(n : Int) - magUnits k * d| → k ≠ m → (m : Nat) % 2 = 0)

namespace Machine

/-! ### Files and buffers in canonical form -/

/-- No subtree that holds only NONE is written as a node, and leaves stand at depth 0 only. -/
def Buf.compact : Nat → Buf → Bool
  | _, .nil => true
  | 0, .leaf _ => true
  | d + 1, .node e o => Buf.compact d e && Buf.compact d o && !(decide (e = .nil) && decide (o = .nil))
  | _, _ => false

/-- The canonical form of a buffer: compact, and nothing beyond its last element. -/
def Buf.wf (t : Buf) : Prop :=
  Buf.compact Buf.depth t = true ∧ ∀ i, Config.frameBytes ≤ i → i < 2 ^ Buf.depth → Buf.getAt Buf.depth t i = none

/-- Both files are in canonical form (20_memory.md R83: no hole, nothing beyond the length). -/
structure State.FilesOk (s : State) : Prop where
  raw : s.raw.wf
  ctr : s.ctr.wf

/-- Every element has the size and range 10_state.md gives it (R34, R42, R44 to R48). -/
structure State.ShapesOk (s : State) : Prop where
  rgb : ∀ f, s.rgb = some f → f.length = Config.framePixels
  cur : ∀ f, s.cur = some f → f.length = Config.framePixels
  prev : ∀ f, s.prev = some f → f.length = Config.framePixels
  wrk : s.wrk.wf
  pay : s.pay.wf
  payLen : s.payLen.toNat ≤ Config.frameBytes
  bidx : s.bidx.toNat < Config.numBlocks
  freq : ∀ f, s.freq = some f → f.length = 256
  lens : ∀ l, s.lens = some l → l.length = 256
  hdr : ∀ h, s.hdr = some h → h.length = Config.hdrBytes
  enc : ∀ e, s.enc = some e → e.length ≤ Config.encCap

/-! ### Control -/

/-- QUALITY stays in its range (R38), PREV and PREV_IDX hold a frame together (R37 bit 5), the fault registers
are 0 until a fault and then describe it (60_exceptions.md R420, R442), a writer and a reader are never active
together (70_reset_and_hazards.md R483), an active writer has records to write (R37 bit 7), and an open reader's
index fits its file (46_container.md R352). -/
structure State.ControlOk (s : State) : Prop where
  quality : ∀ q, s.quality = some q → 1 ≤ q.toInt ∧ q.toInt ≤ 100
  prevPaired : s.prev.isSome = s.prevIdx.isSome
  running : s.fault = false → s.err = 0 ∧ s.errOff = 0 ∧ s.errCp = 0
  faulted : s.fault = true → s.errCp = s.cp ∧ 1 ≤ s.err.toNat % 256 ∧ s.err.toNat % 256 ≤ 6
  writer : s.wact = true → s.ropen = false ∧ s.wdone = false ∧ s.quality.isSome = true ∧
    ∃ n, s.frameCount = some n ∧ s.nrec.toNat < n.toNat
  reader : s.ropen = true → s.quality.isSome = true ∧
    ∃ n, s.frameCount = some n ∧ s.idx.length ≤ n.toNat ∧ (0 < n.toNat → 1 ≤ s.idx.length) ∧
      (s.eos = false → s.rnum.toNat < s.idx.length)
  atEnd : s.eos = true → s.ropen = true

/-- Every element of the block at the value of the reset table, with the given CP (10_state.md R52). -/
structure State.ResetValues (s : State) (cp : Nat) : Prop where
  status : s.statusWord = 0
  errors : s.err = 0 ∧ s.errOff = 0 ∧ s.errCp = 0
  pointer : s.cp = cp
  scalars : s.quality = none ∧ s.frameCount = none ∧ s.fidx = none ∧ s.ftype = none ∧ s.prevIdx = none ∧ s.bch = none ∧
    s.encLen = none
  tables : s.lqLuma = none ∧ s.lqChroma = none ∧ s.freq = none ∧ s.lens = none ∧ s.code = none ∧ s.hdr = none ∧ s.enc = none
  counters : s.nrec = 0 ∧ s.wpos = 0 ∧ s.rpos = 0 ∧ s.rnum = 0 ∧ s.idxN = 0 ∧ s.idx = [] ∧ s.payLen = 0 ∧ s.bidx = 0
  blk : ∀ r c, Mat.elem s.blk r c = none
  frames : s.rgb = none ∧ s.cur = none ∧ s.prev = none ∧ ∀ k, s.wrk.get k = none
  pay : ∀ k, s.pay.get k = none
  constants : s.statusValue 6 = 352 ∧ s.statusValue 7 = 288
  lengths : s.statusValue 21 = s.raw.len ∧ s.statusValue 22 = s.ctr.len

/-! ### Entropy tables and seek index -/

/-- "whenever FREQ holds a value it is the count of the present PAY, and whenever HDR holds a value it is the
header of the present LEN" (45_entropy.md R282). LEN beside FREQ is the result of HUF.BLD on it (R288), and any
LEN has a Kraft sum of at most 1 (R292, R303), which makes its codes prefix-free (R293). -/
structure State.TablesOk (s : State) : Prop where
  freq : ∀ f, s.freq = some f → ∃ bs, s.payload = some bs ∧ f = countBytes bs
  lens : ∀ f l, s.freq = some f → s.lens = some l → buildLens f = some l
  hdr : ∀ h, s.hdr = some h → ∃ l, s.lens = some l ∧ h = hdrOf l
  kraft : ∀ l, s.lens = some l → kraftSum l ≤ 2 ^ Config.maxLen

/-- Entry 0 of the seek index is the first record's offset (10_state.md R49), and while a reader is open every later
entry is the link of the record before it, at least 9 bytes on and with its prefix inside the file, and the
reader stands at entry RNUM (46_container.md R352). -/
structure State.SeekOk (s : State) : Prop where
  first : ∀ p, s.idx[0]? = some p → p = Config.fileHdr
  links : s.fault = false → s.ropen = true → ∀ k p q, s.idx[k]? = some p → s.idx[k + 1]? = some q →
    s.ctr.leAt p 8 = q ∧ p + Config.recPrefix ≤ q ∧ q + Config.recPrefix ≤ s.ctr.len
  here : s.fault = false → s.ropen = true → s.eos = false → s.idx[s.rnum.toNat]? = some s.rpos

/-- Everything above. -/
structure State.Inv (s : State) : Prop where
  files : s.FilesOk
  shapes : s.ShapesOk
  control : s.ControlOk
  tables : s.TablesOk
  seek : s.SeekOk

/-! ### The tree of R289, as a relation -/

/-- The symbols that occur, ascending: the set `S` of 45_entropy.md R288. -/
def occurring (f : List Nat) : List Nat := (List.range 256).filter fun s => 0 < f.getD s 0

/-- "keys compare by frequency, then by seq" (45_entropy.md R289). -/
def KeyBefore (a b : QEntry) : Prop := a.freq < b.freq ∨ a.freq = b.freq ∧ a.seq < b.seq

/-- The entries of Q before the loop: the leaves get the sequence numbers 0, 1, 2, ... by ascending symbol (R289). -/
def firstEntries (f : List Nat) : List QEntry := (occurring f).zipIdx.map fun p => ⟨f.getD p.1 0, p.2, .leaf p.1⟩

/-- One round of R289's loop takes Q from the entries `q` to the entries `r`: the two with the least keys leave it, the
first becomes the left child and the second the right, and their node joins it with the summed frequency and sequence
number `seq`. The order in which the two lists name the entries means nothing. -/
def MergeRound (seq : Nat) (q r : List QEntry) : Prop :=
  ∃ a b rest, q.Perm (a :: b :: rest) ∧ KeyBefore a b ∧ (∀ e ∈ rest, KeyBefore b e) ∧
    r.Perm (⟨a.freq + b.freq, seq, .internal a.node b.node⟩ :: rest)

/-- `t` is what R289's loop makes of FREQ: from the leaves of the `m` symbols that occur, `m - 1` rounds whose nodes
get the sequence numbers `m`, `m + 1`, ... leave the one entry `t`. -/
def IsTreeOf (f : List Nat) (t : HTree) : Prop :=
  ∃ q : Nat → List QEntry, (q 0).Perm (firstEntries f) ∧
    (∀ k, k + 1 < (occurring f).length → MergeRound ((occurring f).length + k) (q k) (q (k + 1))) ∧
    ∃ e, q ((occurring f).length - 1) = [e] ∧ e.node = t

/-- The node that a bit string leads to from the root, `false` to the left and `true` to the right (R290). -/
def nodeAt : List Bool → HTree → Option HTree
  | [], t => some t
  | _ :: _, .leaf _ => none
  | false :: path, .internal l _ => nodeAt path l
  | true :: path, .internal _ r => nodeAt path r

/-! ### The expansion of a whole-frame command as separate descriptors (47_system.md R390, R391, R393) -/

/-- One unit command issued as its own descriptor with the given `io_ok`: the state after it retired, or the
state in which it left the block when it faulted. -/
def State.issue (s : State) (i : Instr) (io : Bool) : Except State State :=
  match exec i { s with ioA := io } with
  | .next t => if t.fault then .error t else .ok t
  | .fault _ => .error s
  | .refused _ => .error s

/-- Unit commands issued one after the other, until one faults. -/
def State.issueAll : List (Instr × Bool) → State → Except State State
  | [], s => .ok s
  | u :: us, s =>
    match s.issue u.1 u.2 with
    | .ok t => State.issueAll us t
    | .error t => .error t

/-- `BLK.LD i ; FDCT ; QUANT ; BLK.PUT i` -/
def encodeUnits (i : Nat) : List (Instr × Bool) :=
  [(.blkLd (BitVec.ofNat 32 i), true), (.fdct, true), (.quant, true), (.blkPut (BitVec.ofNat 32 i), true)]

/-- `BLK.GET i ; DEQUANT ; IDCT ; BLK.ST i` -/
def decodeUnits (i : Nat) : List (Instr × Bool) :=
  [(.blkGet (BitVec.ofNat 32 i), true), (.dequant, true), (.idct, true), (.blkSt (BitVec.ofNat 32 i), true)]

/-- The unit commands of ENC.FRAME in order, with the `io_ok` of FR.LD and of CW.REC (R390). -/
def encFrameUnits (f : BitVec 32) (io1 io2 : Bool) : List (Instr × Bool) :=
  [(.frLd f, io1), (.cscFwd, true), (.tpFwd, true), (.payLen (BitVec.ofNat 32 Config.frameBytes), true)]
    ++ (List.range Config.numBlocks).flatMap encodeUnits
    ++ [(.hufCnt, true), (.hufBld, true), (.hufHdr, true), (.hufPack, true), (.cwRec, io2)]

/-- The unit commands of DEC.FRAME in order, with the `io_ok` of CR.NEXT and of FR.ST (R391). -/
def decFrameUnits (slot : BitVec 32) (io1 io2 : Bool) : List (Instr × Bool) :=
  [(.crNext, io1), (.payLen (BitVec.ofNat 32 Config.frameBytes), true), (.hufLdh, true), (.hufUnp, true)]
    ++ (List.range Config.numBlocks).flatMap decodeUnits
    ++ [(.tpInv, true), (.cscInv, true), (.frSt slot, io2)]

/-! ### What a whole-frame command computes (47_system.md R390, R391) -/

/-- The frame that FR.LD f and CSC.FWD make of RAW (R386, R163). -/
def State.frameIn (s : State) (f : BitVec 32) : Frame :=
  (pixelsOf (s.raw.read (frameOffset f) Config.frameBytes)).map rgbToYuv

/-- A frame against the one before it by `op`, or alone for a key frame (R183, R186). A delta frame needs frame
`i - 1` in PREV. -/
def State.predicted (s : State) (op : Byte → Byte → Byte) (i : BitVec 32) (w : Frame) : Option Frame :=
  match ftypeOf i.toNat with
  | .key => some w
  | .delta => (s.prevFor i).map fun p => List.zipWith (Pixel.zip op) w p

/-- The base table of block `i`'s channel (R200, R260). -/
def tableOf (i : Nat) : Mat Nat := if i % 3 = 0 then qtLuma else qtChroma

/-- Block `i` after BLK.LD, FDCT and QUANT at quality `q`, as bytes, with `b` the bytes of WRK. -/
def codedBlock (q : BitVec 32) (b : List Byte) (i : Nat) : Mat Byte :=
  Mat.zipElems (fun v l => BitVec.ofNat 8 (qz v l))
    (fdct2d (Mat.tabulate fun r c => F64.ofNat (b.getD (blockOffset i r c) 0).toNat)) (lqt (tableOf i) q.toNat)

/-- PAY after ENC.FRAME's loop: the coded blocks in order, each row-major (R202, R390). -/
def codedPayload (q : BitVec 32) (w : Frame) : List Byte :=
  (List.range Config.numBlocks).flatMap fun i => Mat.toList (codedBlock q (Frame.bytes w) i)

/-- Block `i` after BLK.GET, DEQUANT and IDCT at quality `q`, with `b` the bytes of PAY. -/
def decodedBlock (q : BitVec 32) (b : List Byte) (i : Nat) : Mat F64 :=
  idct2d (dequantBlock (lqt (tableOf i) q.toNat)
    (Mat.tabulate fun r c => F64.ofNat (b.getD (64 * i + 8 * r + c) 0).toNat))

end Machine

end Sys2Proof
end

