-- ==== Sys2Proof/Certificates/Slice0/Obligations.lean ====
section
/-! DEFINITION. The statements about the RGBC core that are to be proved. `s.enterFault e` in a conclusion is fault
entry, and `FaultEntryIsPrecise` says what it leaves. A conclusion `t = { s with ... }` is the frame: every element
not named, both files and the port included, is as in `s`. -/

open Sys2Proof Sys2Proof.Machine

/-! ### Encoding (30_encoding.md) -/

/-- Decoding an encoded command gives it back, for every command and every operand value (R121, R123, R124). -/
def Obligations.EncodeThenDecode : Prop := ∀ i : Instr, decode (encode i) = .ok i

/-- A descriptor that decodes is the encoding of the command it decodes to: every bit is accounted for, and each
command has one descriptor (R123, R125). -/
def Obligations.DecodeThenEncode : Prop := ∀ (d : Desc) (i : Instr), decode d = .ok i → encode i = d

/-- R126: a descriptor whose OPC is none of the 35 raises IllegalCommand(OPCODE). One whose OPC is known but that
is no command's encoding (a non-zero RSV or unused IDX or IMM part) raises IllegalCommand(RESERVED). Stage is
OPC[7:4], ERR_OFF is 0. -/
def Obligations.IllegalDescriptorsFault : Prop :=
  ∀ (s : State) (d : Desc) (a b : Bool) (rest : List HostEvent),
    s.fault = false → s.port = .command d a b :: rest →
    if d.opc.toNat ∉ [0x00, 0x01, 0x02, 0x03, 0x10, 0x11, 0x20, 0x21, 0x30, 0x31, 0x40, 0x41, 0x42, 0x43, 0x44, 0x45,
        0x50, 0x51, 0x60, 0x61, 0x70, 0x71, 0x72, 0x73, 0x74, 0x75, 0x76, 0x77, 0x80, 0x81, 0x90, 0x91, 0x92, 0xA0, 0xA1] then
      step s = .next ({ s with port := rest, ioA := a, ioB := b }.enterFault ⟨.opcode, d.opc.toNat / 16, 0⟩)
    else
      (¬ ∃ i, encode i = d) →
        step s = .next ({ s with port := rest, ioA := a, ioB := b }.enterFault ⟨.reserved, d.opc.toNat / 16, 0⟩)

/-- R121: the 16 bytes on the command port are OPC, IDX, six bytes of RSV and eight of IMM, least significant first,
and the decoder reads the descriptor back from them. -/
def Obligations.DescriptorBytesLittleEndian : Prop :=
  ∀ d : Desc,
    decodeBytes (leBytes 16 d.toNat) = decode d ∧
    (leBytes 16 d.toNat)[0]? = some d.opc ∧ (leBytes 16 d.toNat)[1]? = some d.idx ∧
    (∀ k, k < 6 → (leBytes 16 d.toNat)[2 + k]? = some (d.rsv.extractLsb' (8 * k) 8)) ∧
    ∀ k, k < 8 → (leBytes 16 d.toNat)[8 + k]? = some (d.imm.extractLsb' (8 * k) 8)

/-- A few descriptors written out from R121 and R124. -/
def Obligations.SampleDescriptorsDecode : Prop :=
  decode 0x00000000000000000000000000000000 = .ok .nop ∧
  decode 0x00000000000000500000000000000002 = .ok (.setq 80) ∧
  decode 0x00000000000000850000000000000040 = .ok (.blkLd 133) ∧
  decode 0x40600000000000000000000000000944 = .ok (.blkWr 9 0x4060000000000000) ∧
  decode 0x000000C8000000030000000000000071 = .ok (.payWr 3 200) ∧
  decode 0x00000000000000000000000000000245 = .ok (.blkCh 2) ∧
  decode 0x00000000000000200000000000000092 = .ok (.crSeek 32) ∧
  decode 0x000000000000000100000000000000A1 = .ok (.decFrame 1)

/-! ### The step (47_system.md R380, 60_exceptions.md R440 to R442, 70_reset_and_hazards.md R470) -/

/-- One step runs the command that the descriptor at the head of the port decodes to, with the `io_ok` inputs
presented with it. A table word presented by `withFetchWord` is run exactly so (log 2). -/
def Obligations.StepRunsDecodedCommand : Prop :=
  (∀ (s : State) (d : Desc) (a b : Bool) (rest : List HostEvent) (i : Instr),
    s.port = .command d a b :: rest → s.fault = false → decode d = .ok i →
    step s = exec i { s with port := rest, ioA := a, ioB := b }) ∧
  ∀ (s : State) (i : Instr), s.fault = false → step (s.withFetchWord 128 (encode i).toNat) = exec i s

/-- R380, R442: once FAULT is set, every descriptor is dropped and nothing in the block changes, however many
transactions the host makes, until `rst_n`. Each file changes only where the host replaces that file. -/
def Obligations.FaultIsSticky : Prop :=
  ∀ (n : Nat) (s : State), s.fault = true → (∀ e ∈ s.port.take n, e ≠ .resetPulse) →
    ∃ t : State, Host.Core.run Sys2Proof.core n s = .next t ∧
      t = { s with port := s.port.drop n, raw := t.raw, ctr := t.ctr } ∧
      ((∀ bytes, HostEvent.supplyRaw bytes ∉ s.port.take n) → t.raw = s.raw) ∧
      ((∀ bytes, HostEvent.supplyCtr bytes ∉ s.port.take n) → t.ctr = s.ctr)

/-- R52, R470: after `rst_n`, whatever the block held and also while FAULT = 1, every element has its reset value and CP
is 0. The files keep their content. After a retired RST every element has its reset value and CP is the old CP + 1. -/
def Obligations.ResetGivesTheResetValues : Prop :=
  (∀ (s : State) (rest : List HostEvent), s.port = .resetPulse :: rest →
    ∃ t, step s = .next t ∧ t.ResetValues 0 ∧ t.raw = s.raw ∧ t.ctr = s.ctr ∧ t.port = rest) ∧
  (∀ s : State, ∃ t, exec .rst s = .next t ∧ t.ResetValues (s.cp + 1)) ∧
  State.reset.ResetValues 0

/-- R400 (c): the host replaces a file, which then holds exactly the supplied bytes, and nothing else changes. -/
def Obligations.HostReplacesAFile : Prop :=
  ∀ (s : State) (bytes : List Byte) (rest : List HostEvent),
    (s.port = .supplyRaw bytes :: rest →
      ∃ t, step s = .next t ∧ t = { s with port := rest, raw := t.raw } ∧ t.raw.wf ∧ t.raw.len = bytes.length ∧
        ∀ a, t.raw.byteAt a = bytes[a]?) ∧
    (s.port = .supplyCtr bytes :: rest →
      ∃ t, step s = .next t ∧ t = { s with port := rest, ctr := t.ctr } ∧ t.ctr.wf ∧ t.ctr.len = bytes.length ∧
        ∀ a, t.ctr.byteAt a = bytes[a]?)

/-- R440, R441: every command of a block without a fault either retires (CP advances by one, FAULT stays 0, inputs
and port untouched) or takes fault entry from the state before it. Fault entry writes ERR = KIND + 256·STAGE +
65536·CAUSE, ERR_OFF, ERR_CP = CP and FAULT, zeroes the first three bytes of CTR when WACT = 1, and does nothing
else, but for a file whose write failed (93_implementation_defined.md U6). KIND and CAUSE have the numbers of R422 to
R428. -/
def Obligations.FaultEntryIsPrecise : Prop :=
  (∀ (i : Instr) (s : State), s.fault = false →
    ∃ t, exec i s = .next t ∧
      ((t.fault = false ∧ t.cp = s.cp + 1 ∧ t.port = s.port ∧ t.ioA = s.ioA ∧ t.ioB = s.ioB) ∨
        ∃ e : Trap, t = s.enterFault e)) ∧
  (∀ (s : State) (e : Trap), ∃ t, s.enterFault e = t ∧
    t = { s with
      fault := true, err := BitVec.ofNat 24 (e.cause.kind.code + 256 * e.stage + 65536 * e.cause.code), errOff := e.off,
      errCp := s.cp, raw := t.raw, ctr := t.ctr, freeCount := t.freeCount } ∧
    (e.cause ≠ .rawWr → t.raw = s.raw) ∧
    (e.cause ≠ .ctrWr → s.wact = false → t.ctr = s.ctr) ∧
    (e.cause ≠ .ctrWr → s.wact = true →
      t.ctr.len = max s.ctr.len 3 ∧ ∀ a, t.ctr.byteAt a = if a < 3 then some 0 else s.ctr.byteAt a)) ∧
  ∀ c : Cause, (c.kind.code, c.code) =
    match c with
    | .rawRd => (1, 1) | .rawWr => (1, 2) | .ctrRd => (1, 3) | .ctrWr => (1, 4) | .rawShort => (1, 5)
    | .range => (2, 1)
    | .truncHdr => (3, 1) | .magic => (3, 2) | .dims => (3, 3) | .truncRec => (3, 4) | .ftype => (3, 5) | .count => (3, 6)
    | .linkBack => (3, 7) | .linkOob => (3, 8) | .payloadSize => (3, 9) | .truncPayload => (3, 10)
    | .noCode => (4, 1) | .badCode => (4, 2) | .oversubscribed => (4, 3) | .codelen => (4, 4) | .blockCount => (4, 5)
    | .notByte => (4, 6) | .nonfinite => (4, 7) | .ftypeRule => (4, 8)
    | .opcode => (5, 1) | .reserved => (5, 2) | .operand => (5, 3)
    | .uninit => (6, 1) | .prev => (6, 2) | .order => (6, 3) | .writer => (6, 4) | .reader => (6, 5) | .channel => (6, 6)

/-- Every invariant holds right after reset (R52). -/
def Obligations.ResetSatisfiesInvariants : Prop := State.reset.Inv

/-- Every step keeps both files in canonical form: no hole, nothing listed beyond the length (R83). -/
def Obligations.StepKeepsFilesCanonical : Prop :=
  ∀ s t : State, s.FilesOk → step s = .next t → t.FilesOk

/-- Every step keeps every element at the size and in the range 10_state.md gives it (R34, R42, R44 to R48). -/
def Obligations.StepKeepsElementShapes : Prop :=
  ∀ s t : State, s.ShapesOk → step s = .next t → t.ShapesOk

/-- R282, R481, R293: every step keeps FREQ the count of the present payload, HDR the header of the present LEN, and the
Kraft sum of any LEN at most 1. -/
def Obligations.StepKeepsTablesFresh : Prop :=
  ∀ s t : State, s.TablesOk → step s = .next t → t.TablesOk

/-- Every step keeps QUALITY in range, PREV with PREV_IDX, the fault registers silent until a fault, writer and
reader apart, and the reader inside its index (R37, R38, R420, R483, R352). -/
def Obligations.StepKeepsControlSound : Prop :=
  ∀ s t : State, s.ControlOk → step s = .next t → t.ControlOk

/-- R352: unless the host replaces CTR, every step keeps all invariants, the seek index among them: its entries are
the links of the records before them, strictly increasing, inside the file, and the reader stands at entry RNUM. -/
def Obligations.StepKeepsSeekIndexLinked : Prop :=
  ∀ s t : State, s.Inv → (∀ bytes rest, s.port ≠ .supplyCtr bytes :: rest) → step s = .next t → t.Inv

/-- R36, R37, R401: what the status read port answers for every register number. -/
def Obligations.StatusPortReadsRegisters : Prop :=
  ∀ s : State,
    (∀ n, 22 < n → s.statusRead n = 0) ∧
    (s.statusRead 0).getLsbD 0 = s.fault ∧ (s.statusRead 0).getLsbD 1 = s.quality.isSome ∧
    (s.statusRead 0).getLsbD 2 = s.frameCount.isSome ∧ (s.statusRead 0).getLsbD 3 = s.fidx.isSome ∧
    (s.statusRead 0).getLsbD 4 = s.ftype.isSome ∧ (s.statusRead 0).getLsbD 5 = (s.prev.isSome && s.prevIdx.isSome) ∧
    (s.statusRead 0).getLsbD 6 = s.bch.isSome ∧ (s.statusRead 0).getLsbD 7 = s.wact ∧
    (s.statusRead 0).getLsbD 8 = s.wdone ∧ (s.statusRead 0).getLsbD 9 = s.ropen ∧
    (s.statusRead 0).getLsbD 10 = s.eos ∧ (s.statusRead 0).getLsbD 11 = s.enc.isSome ∧
    (∀ k, 12 ≤ k → (s.statusRead 0).getLsbD k = false) ∧
    s.statusRead 1 = s.err.setWidth 64 ∧ s.statusRead 2 = BitVec.ofNat 64 s.errOff ∧
    s.statusRead 3 = BitVec.ofNat 64 s.errCp ∧ s.statusRead 4 = BitVec.ofNat 64 s.cp ∧
    s.statusRead 5 = (s.quality.getD 0).setWidth 64 ∧ s.statusRead 6 = 352 ∧ s.statusRead 7 = 288 ∧
    s.statusRead 8 = (s.frameCount.getD 0).setWidth 64 ∧ s.statusRead 9 = (s.fidx.getD 0).setWidth 64 ∧
    s.statusRead 10 = (if s.ftype = some .delta then 1 else 0) ∧ s.statusRead 11 = (s.prevIdx.getD 0).setWidth 64 ∧
    s.statusRead 12 = s.nrec.setWidth 64 ∧ s.statusRead 13 = BitVec.ofNat 64 s.wpos ∧
    s.statusRead 14 = BitVec.ofNat 64 s.rpos ∧ s.statusRead 15 = s.rnum.setWidth 64 ∧
    s.statusRead 16 = BitVec.ofNat 64 s.idx.length ∧ s.statusRead 17 = s.payLen.setWidth 64 ∧
    s.statusRead 18 = BitVec.ofNat 64 (s.enc.getD []).length ∧ s.statusRead 19 = s.bidx.setWidth 64 ∧
    s.statusRead 20 = (if s.bch = some .cb then 1 else if s.bch = some .cr then 2 else 0) ∧
    s.statusRead 21 = BitVec.ofNat 64 s.raw.len ∧ s.statusRead 22 = BitVec.ofNat 64 s.ctr.len

/-! ### System commands (47_system.md R381 to R384) -/

/-- R381: NOP retires and changes CP only. -/
def Obligations.NopRetires : Prop := ∀ s : State, exec .nop s = .next { s with cp := s.cp + 1 }

/-- R382: RST retires in every state. Every element takes its reset value except CP, which advances. An unfinished
container has its first three bytes zeroed, and RAW and CTR are otherwise unchanged, as are the inputs. -/
def Obligations.RstResetsAllButFiles : Prop :=
  ∀ s : State, ∃ t, exec .rst s = .next t ∧
    t = { State.reset with
      cp := s.cp + 1, raw := s.raw, ctr := t.ctr, ioA := s.ioA, ioB := s.ioB, port := s.port, freeCount := s.freeCount } ∧
    (s.wact = false → t.ctr = s.ctr) ∧
    (s.wact = true →
      t.ctr.len = max s.ctr.len 3 ∧ ∀ a, t.ctr.byteAt a = if a < 3 then some 0 else s.ctr.byteAt a)

/-- R383: SETQ takes 1 to 100 while no writer is active, and closes the reader. -/
def Obligations.SetqSetsQuality : Prop :=
  ∀ (q : BitVec 32) (s : State),
    if q.toInt < 1 ∨ 100 < q.toInt then exec (.setq q) s = .next (s.enterFault ⟨.range, 0, 0⟩)
    else if s.wact = true then exec (.setq q) s = .next (s.enterFault ⟨.writer, 0, 0⟩)
    else ∃ t, exec (.setq q) s = .next t ∧
      t = { s with quality := some q, ropen := false, eos := false, cp := s.cp + 1 } ∧
      t.lqLuma = some (lqt qtLuma q.toNat) ∧ t.lqChroma = some (lqt qtChroma q.toNat)

/-- R384: SETN takes any frame count while no writer is active, and closes the reader. -/
def Obligations.SetnSetsFrameCount : Prop :=
  ∀ (n : BitVec 32) (s : State),
    if s.wact = true then exec (.setn n) s = .next (s.enterFault ⟨.writer, 0, 0⟩)
    else exec (.setn n) s = .next { s with frameCount := some n, ropen := false, eos := false, cp := s.cp + 1 }

/-! ### Frame I/O (R386, R387) -/

/-- R386: FR.LD reads frame `f` of RAW into RGB, sample (y, x, ch) from offset `f·304128 + 3·(352·y + x) + ch`. -/
def Obligations.FrLdLoadsFrame : Prop :=
  ∀ (f : BitVec 32) (s : State), s.raw.wf →
    if s.ioA = false then exec (.frLd f) s = .next (s.enterFault ⟨.rawRd, 1, f.toNat * 304128⟩)
    else if s.raw.len < f.toNat * 304128 + 304128 then
      exec (.frLd f) s = .next (s.enterFault ⟨.rawShort, 1, f.toNat * 304128⟩)
    else ∃ t g, exec (.frLd f) s = .next t ∧ t = { s with rgb := some g, fidx := some f, cp := s.cp + 1 } ∧
      g.length = 352 * 288 ∧
      ∀ y x ch, y < 288 → x < 352 → g.sample y x ch = s.raw.byteAt (f.toNat * 304128 + sampleOffset y x ch)

/-- R387: FR.ST writes RGB to slot `f` of RAW, appending or overwriting, never beyond the end. Every byte outside the
slot keeps its value. -/
def Obligations.FrStStoresFrame : Prop :=
  ∀ (f : BitVec 32) (s : State), s.ShapesOk →
    match s.rgb with
    | none => exec (.frSt f) s = .next (s.enterFault ⟨.uninit, 1, 0⟩)
    | some g =>
      if s.raw.len < f.toNat * 304128 then exec (.frSt f) s = .next (s.enterFault ⟨.order, 1, f.toNat * 304128⟩)
      else if s.ioA = false then exec (.frSt f) s = .next (s.enterFault ⟨.rawWr, 1, f.toNat * 304128⟩)
      else ∃ t, exec (.frSt f) s = .next t ∧ t = { s with raw := t.raw, cp := s.cp + 1 } ∧
        t.raw.len = max s.raw.len (f.toNat * 304128 + 304128) ∧
        (∀ y x ch, y < 288 → x < 352 → t.raw.byteAt (f.toNat * 304128 + sampleOffset y x ch) = g.sample y x ch) ∧
        ∀ a, a < f.toNat * 304128 ∨ f.toNat * 304128 + 304128 ≤ a → t.raw.byteAt a = s.raw.byteAt a

/-! ### Colour converter (40_color.md) -/

/-- R161, R163: CSC.FWD puts into CUR, for every pixel of RGB, the three clamped and rounded integer formulas. -/
def Obligations.CscFwdConverts : Prop :=
  ∀ s : State,
    match s.rgb with
    | none => exec .cscFwd s = .next (s.enterFault ⟨.uninit, 2, 0⟩)
    | some g => ∃ t f, exec .cscFwd s = .next t ∧ t = { s with cur := some f, cp := s.cp + 1 } ∧ f.length = g.length ∧
      ∀ (k : Nat) (p : Pixel), g[k]? = some p → ∃ q : Pixel, f[k]? = some q ∧
        (q.c0.toNat : Int) =
          (max 0 (min (299000 * (p.c0.toNat : Int) + 587000 * p.c1.toNat + 114000 * p.c2.toNat) 255000000) + 500000)
            / 1000000 ∧
        (q.c1.toNat : Int) =
          (max 0 (min (128000000 - 168736 * (p.c0.toNat : Int) - 331264 * p.c1.toNat + 500000 * p.c2.toNat) 255000000)
            + 500000) / 1000000 ∧
        (q.c2.toNat : Int) =
          (max 0 (min (128000000 + 500000 * (p.c0.toNat : Int) - 418688 * p.c1.toNat - 81312 * p.c2.toNat) 255000000)
            + 500000) / 1000000

/-- R162, R166: CSC.INV puts into RGB, for every pixel of CUR, the three clamped and rounded integer formulas. -/
def Obligations.CscInvConverts : Prop :=
  ∀ s : State,
    match s.cur with
    | none => exec .cscInv s = .next (s.enterFault ⟨.uninit, 2, 0⟩)
    | some g => ∃ t f, exec .cscInv s = .next t ∧ t = { s with rgb := some f, cp := s.cp + 1 } ∧ f.length = g.length ∧
      ∀ (k : Nat) (p : Pixel), g[k]? = some p → ∃ q : Pixel, f[k]? = some q ∧
        (q.c0.toNat : Int) =
          (2 * max 0 (min (1000 * (p.c0.toNat : Int) + 1402 * ((p.c2.toNat : Int) - 128)) 255000) + 1000) / 2000 ∧
        (q.c1.toNat : Int) =
          (2 * max 0 (min (100000 * (p.c0.toNat : Int) - 34414 * ((p.c1.toNat : Int) - 128)
            - 71414 * ((p.c2.toNat : Int) - 128)) 25500000) + 100000) / 200000 ∧
        (q.c2.toNat : Int) =
          (2 * max 0 (min (1000 * (p.c0.toNat : Int) + 1772 * ((p.c1.toNat : Int) - 128)) 255000) + 1000) / 2000

/-- R168, R169: the colour round trip moves no channel by more than 1, and grey is a fixed point of both functions. -/
def Obligations.ColourRoundTrip : Prop :=
  (∀ p : Pixel, ∀ ch : Chan,
    ((yuvToRgb (rgbToYuv p)).chan ch).toNat ≤ (p.chan ch).toNat + 1 ∧
    (p.chan ch).toNat ≤ ((yuvToRgb (rgbToYuv p)).chan ch).toNat + 1) ∧
  ∀ v : Byte, rgbToYuv ⟨v, v, v⟩ = ⟨v, 128, 128⟩ ∧ yuvToRgb ⟨v, 128, 128⟩ = ⟨v, v, v⟩

/-! ### Temporal predictor (41_temporal.md) -/

/-- R180, R181, R183: TP.FWD. A key frame (index a multiple of 32) is passed to WRK as it is, a delta frame as the
clamped biased differences from PREV, which must hold the frame before. CUR becomes PREV. -/
def Obligations.TpFwdPredicts : Prop :=
  ∀ s : State, s.ShapesOk →
    match s.cur, s.fidx with
    | some f, some i =>
      if i.toNat % 32 = 0 then
        ∃ t, exec .tpFwd s = .next t ∧
          t = { s with
            wrk := t.wrk, ftype := some .key, prev := some f, prevIdx := some i, cp := s.cp + 1 } ∧
          ∀ y x ch, y < 288 → x < 352 → t.wrk.get (sampleOffset y x ch) = f.sample y x ch
      else
        match s.prev, s.prevIdx with
        | some p, some k =>
          if k.toNat + 1 = i.toNat then
            ∃ t, exec .tpFwd s = .next t ∧
              t = { s with
                wrk := t.wrk, ftype := some .delta, prev := some f, prevIdx := some i, cp := s.cp + 1 } ∧
              ∀ y x ch, y < 288 → x < 352 → ∃ c q v : Byte, f.sample y x ch = some c ∧ p.sample y x ch = some q ∧
                t.wrk.get (sampleOffset y x ch) = some v ∧
                (v.toNat : Int) = max 0 (min ((c.toNat : Int) - q.toNat + 128) 255)
          else exec .tpFwd s = .next (s.enterFault ⟨.prev, 3, 0⟩)
        | _, _ => exec .tpFwd s = .next (s.enterFault ⟨.prev, 3, 0⟩)
    | _, _ => exec .tpFwd s = .next (s.enterFault ⟨.uninit, 3, 0⟩)

/-- R182, R186: TP.INV. WRK must be whole. CUR is WRK for a key frame, and the clamped sum with PREV for a delta
frame, whose PREV must hold the frame before. CUR becomes PREV and all of WRK becomes NONE. -/
def Obligations.TpInvReconstructs : Prop :=
  ∀ s : State, s.ShapesOk →
    match s.ftype, s.fidx with
    | some ty, some i =>
      if ∃ k, k < 304128 ∧ s.wrk.get k = none then exec .tpInv s = .next (s.enterFault ⟨.blockCount, 3, 0⟩)
      else if ty = .key then
        ∃ t f, exec .tpInv s = .next t ∧
          t = { s with cur := some f, prev := some f, prevIdx := some i, wrk := .nil, cp := s.cp + 1 } ∧
          f.length = 352 * 288 ∧
          ∀ y x ch, y < 288 → x < 352 → f.sample y x ch = s.wrk.get (sampleOffset y x ch)
      else
        match s.prev, s.prevIdx with
        | some p, some k =>
          if k.toNat + 1 = i.toNat then
            ∃ t f, exec .tpInv s = .next t ∧
              t = { s with cur := some f, prev := some f, prevIdx := some i, wrk := .nil, cp := s.cp + 1 } ∧
              f.length = 352 * 288 ∧
              ∀ y x ch, y < 288 → x < 352 → ∃ c d q : Byte, f.sample y x ch = some c ∧
                s.wrk.get (sampleOffset y x ch) = some d ∧ p.sample y x ch = some q ∧
                (c.toNat : Int) = max 0 (min ((q.toNat : Int) + d.toNat - 128) 255)
          else exec .tpInv s = .next (s.enterFault ⟨.prev, 3, 0⟩)
        | _, _ => exec .tpInv s = .next (s.enterFault ⟨.prev, 3, 0⟩)
    | _, _ => exec .tpInv s = .next (s.enterFault ⟨.uninit, 3, 0⟩)

/-- R181, R182, R188: the inverse difference undoes the forward one whenever it did not clamp, and equal samples give
128. -/
def Obligations.DpcmInverts : Prop :=
  ∀ c p : Byte,
    (-128 ≤ (c.toNat : Int) - p.toNat → (c.toNat : Int) - p.toNat ≤ 127 → dpcmInv (dpcmFwd c p) p = c) ∧
    dpcmFwd c c = 128 ∧ dpcmInv 128 p = p

/-! ### Segmenter (42_segment.md) -/

/-- R203: BLK.LD cuts block `i` out of WRK, each sample as the exact binary64 integer. -/
def Obligations.BlkLdCutsBlock : Prop :=
  ∀ (i : BitVec 32) (s : State),
    if 4751 < i.toNat then exec (.blkLd i) s = .next (s.enterFault ⟨.operand, 4, 0⟩)
    else if ∃ r c, s.wrk.get (blockOffset i.toNat r c) = none then
      exec (.blkLd i) s = .next (s.enterFault ⟨.uninit, 4, 0⟩)
    else ∃ t ch, exec (.blkLd i) s = .next t ∧
      t = { s with blk := t.blk, bch := some ch, bidx := i.setWidth 16, cp := s.cp + 1 } ∧ ch.num = i.toNat % 3 ∧
      ∀ r c, ∃ (b : Byte) (v : F64), s.wrk.get (blockOffset i.toNat r c) = some b ∧ Mat.elem t.blk r c = some v ∧
        v = F64.ofNat b.toNat ∧ v.isInteger b.toNat

/-- R205: BLK.ST puts BLK into WRK as block `i`, each value clamped to 0 to 255 and rounded half up on its exact
value. BLK must be whole and finite, and tagged with the channel of `i`. -/
def Obligations.BlkStPutsBlockBack : Prop :=
  ∀ (i : BitVec 32) (s : State),
    if 4751 < i.toNat then exec (.blkSt i) s = .next (s.enterFault ⟨.operand, 4, 0⟩)
    else
      match Mat.values? s.blk, s.bch with
      | some m, some ch =>
        if ch.num ≠ i.toNat % 3 then exec (.blkSt i) s = .next (s.enterFault ⟨.channel, 4, 0⟩)
        else if ∃ r c, (Mat.elem m r c).isFinite = false then exec (.blkSt i) s = .next (s.enterFault ⟨.nonfinite, 4, 0⟩)
        else ∃ t, exec (.blkSt i) s = .next t ∧ t = { s with wrk := t.wrk, cp := s.cp + 1 } ∧
          (∀ r c, ∃ b : Byte, t.wrk.get (blockOffset i.toNat r c) = some b ∧
            (b.toNat : Int) =
              (2 * max 0 (min (Mat.elem m r c).units (255 * unitsPerOne)) + unitsPerOne) / (2 * unitsPerOne)) ∧
          ∀ k, (∀ r c, blockOffset i.toNat r c ≠ k) → t.wrk.get k = s.wrk.get k
      | _, _ => exec (.blkSt i) s = .next (s.enterFault ⟨.uninit, 4, 0⟩)

/-- R207: BLK.PUT writes BLK, whose elements must be integers in 0 to 255, to PAY[64·i .. 64·i + 63] row-major, and
drops the tables. -/
def Obligations.BlkPutFlattensBlock : Prop :=
  ∀ (i : BitVec 32) (s : State),
    if 4751 < i.toNat ∨ s.payLen.toNat ≤ 64 * i.toNat + 63 then
      exec (.blkPut i) s = .next (s.enterFault ⟨.operand, 4, 0⟩)
    else
      match Mat.values? s.blk, s.bch with
      | some m, some ch =>
        if ch.num ≠ i.toNat % 3 then exec (.blkPut i) s = .next (s.enterFault ⟨.channel, 4, 0⟩)
        else
          ((¬ ∀ r c, ∃ n : Nat, n ≤ 255 ∧ (Mat.elem m r c).isInteger n) →
            exec (.blkPut i) s = .next (s.enterFault ⟨.notByte, 4, 0⟩)) ∧
          ((∀ r c, ∃ n : Nat, n ≤ 255 ∧ (Mat.elem m r c).isInteger n) →
            ∃ t, exec (.blkPut i) s = .next t ∧
              t = { s with pay := t.pay, freq := none, lens := none, hdr := none, cp := s.cp + 1 } ∧
              (∀ r c : Fin 8, ∃ b : Byte,
                t.pay.get (64 * i.toNat + 8 * r + c) = some b ∧ (Mat.elem m r c).isInteger b.toNat) ∧
              ∀ k, k < 64 * i.toNat ∨ 64 * i.toNat + 63 < k → t.pay.get k = s.pay.get k)
      | _, _ => exec (.blkPut i) s = .next (s.enterFault ⟨.uninit, 4, 0⟩)

/-- R209: BLK.GET takes block `i` out of PAY, each byte as the exact binary64 integer. -/
def Obligations.BlkGetTakesBlock : Prop :=
  ∀ (i : BitVec 32) (s : State),
    if 4751 < i.toNat ∨ s.payLen.toNat ≤ 64 * i.toNat + 63 then
      exec (.blkGet i) s = .next (s.enterFault ⟨.operand, 4, 0⟩)
    else if ∃ k : Fin 64, s.pay.get (64 * i.toNat + k) = none then
      exec (.blkGet i) s = .next (s.enterFault ⟨.uninit, 4, 0⟩)
    else ∃ t ch, exec (.blkGet i) s = .next t ∧
      t = { s with blk := t.blk, bch := some ch, bidx := i.setWidth 16, cp := s.cp + 1 } ∧ ch.num = i.toNat % 3 ∧
      ∀ r c : Fin 8, ∃ (b : Byte) (v : F64), s.pay.get (64 * i.toNat + 8 * r + c) = some b ∧
        Mat.elem t.blk r c = some v ∧ v = F64.ofNat b.toNat ∧ v.isInteger b.toNat

/-- R211, R212, R10: BLK.WR writes one element of BLK with the finite binary64 value of its 64 bits (the sign of bit 63,
and in units of 2^-1074 the fraction, with the leading 1 added and shifted by the exponent field less 1 when that is not
0), BLK.CH sets the channel tag. How 64 bits encode a value is IEEE 754's, which the spec names and takes from general
knowledge (log 16). -/
def Obligations.BlkWrAndBlkChWrite : Prop :=
  (∀ (k : BitVec 8) (v : BitVec 64) (s : State),
    if 63 < k.toNat ∨ v.extractLsb' 52 11 = 0x7FF#11 then
      exec (.blkWr k v) s = .next (s.enterFault ⟨.operand, 4, 0⟩)
    else ∃ t, exec (.blkWr k v) s = .next t ∧ t = { s with blk := t.blk, cp := s.cp + 1 } ∧
      (∃ m : Fin magBound, F64.ofBits v = .fin v.msb m ∧
        magUnits m = if v.extractLsb' 52 11 = 0 then (v.extractLsb' 0 52).toNat
          else (2 ^ 52 + (v.extractLsb' 0 52).toNat) * 2 ^ ((v.extractLsb' 52 11).toNat - 1)) ∧
      ∀ r c : Fin 8, Mat.elem t.blk r c =
        if (r : Nat) = k.toNat / 8 ∧ (c : Nat) = k.toNat % 8 then some (F64.ofBits v) else Mat.elem s.blk r c) ∧
  ∀ (k : BitVec 8) (s : State),
    if 2 < k.toNat then exec (.blkCh k) s = .next (s.enterFault ⟨.operand, 4, 0⟩)
    else ∃ ch, exec (.blkCh k) s = .next { s with bch := some ch, cp := s.cp + 1 } ∧ ch.num = k.toNat

/-- R214: BLK.LD then BLK.ST of the same block leaves WRK as it was, BLK.GET then BLK.PUT leaves PAY as it was. -/
def Obligations.SegmentAndReassemble : Prop :=
  ∀ (i : BitVec 32) (s : State), i.toNat ≤ 4751 →
    ((∀ r c, (s.wrk.get (blockOffset i.toNat r c)).isSome = true) →
      ∃ t u, exec (.blkLd i) s = .next t ∧ exec (.blkSt i) t = .next u ∧ u.cp = s.cp + 2 ∧
        ∀ k, u.wrk.get k = s.wrk.get k) ∧
    (64 * i.toNat + 63 < s.payLen.toNat → (∀ k, k < 64 → (s.pay.get (64 * i.toNat + k)).isSome = true) →
      ∃ t u, exec (.blkGet i) s = .next t ∧ exec (.blkPut i) t = .next u ∧ u.cp = s.cp + 2 ∧
        (∀ k, u.pay.get k = s.pay.get k) ∧ u.freq = none ∧ u.lens = none ∧ u.hdr = none)

/-- R200, R201: every sample of a frame is element `[r][c]` of exactly one block. -/
def Obligations.BlocksPartitionFrame : Prop :=
  (∀ j, j < 304128 → ∃ i r c, i ≤ 4751 ∧ blockOffset i r c = j ∧
    ∀ i' r' c', i' ≤ 4751 → blockOffset i' r' c' = j → i' = i ∧ r' = r ∧ c' = c) ∧
  ∀ i r c, i ≤ 4751 → blockOffset i r c < 304128

/-! ### Transform (43_dct.md) -/

/-- R233, R234, R236: FDCT replaces BLK by pass 1 on each row and pass 2 on each column of the eight-point pass, and that
pass is the seven stages of R233 with the constants' normative bit patterns (R231). -/
def Obligations.FdctTransforms : Prop :=
  (∀ s : State,
    match Mat.values? s.blk with
    | none => exec .fdct s = .next (s.enterFault ⟨.uninit, 5, 0⟩)
    | some m => ∃ t p : Mat F64, exec .fdct s = .next { s with blk := Mat.mapElems some t, cp := s.cp + 1 } ∧
      (∀ r, Oct.get p r = fdct8 (Oct.get m r)) ∧
      ∀ c, (Oct.ofFn fun r => Mat.elem t r c) = fdct8 (Oct.ofFn fun r => Mat.elem p r c)) ∧
  ∀ x : Oct F64, ∃ v0 v1 v2 v3 v4 v5 v6 v7 v8 v9 v10 v11 v12 v13 v14 v15 v16 v17 v18 v19 v20 v21 v22 v23 v24 v25 v26 v27
      v28 : F64,
    v0 = x.e0.add x.e7 ∧ v1 = x.e1.add x.e6 ∧ v2 = x.e2.add x.e5 ∧ v3 = x.e3.add x.e4 ∧
    v4 = x.e3.sub x.e4 ∧ v5 = x.e2.sub x.e5 ∧ v6 = x.e1.sub x.e6 ∧ v7 = x.e0.sub x.e7 ∧
    v8 = v0.add v3 ∧ v9 = v1.add v2 ∧ v10 = v1.sub v2 ∧ v11 = v0.sub v3 ∧ v12 = v4.neg.sub v5 ∧
    v13 = (v5.add v6).mul (F64.ofBits 0x3FE6A09E667F3BCD) ∧ v14 = v6.add v7 ∧
    v15 = v8.add v9 ∧ v16 = v8.sub v9 ∧ v17 = (v10.add v11).mul (F64.ofBits 0x3FE6A09E667F3BCD) ∧
    v18 = (v12.add v14).mul (F64.ofBits 0x3FD87DE2A6AEA963) ∧
    v19 = (v12.neg.mul (F64.ofBits 0x3FE1517A7BDB3894)).sub v18 ∧
    v20 = (v14.mul (F64.ofBits 0x3FF4E7AE9144F0FC)).sub v18 ∧
    v21 = v17.add v11 ∧ v22 = v11.sub v17 ∧ v23 = v13.add v7 ∧ v24 = v7.sub v13 ∧
    v25 = v19.add v24 ∧ v26 = v23.add v20 ∧ v27 = v23.sub v20 ∧ v28 = v24.sub v19 ∧
    (fdct8 x).e0 = v15.div (F64.ofBits 0x4006A09E667F3BCD) ∧ (fdct8 x).e1 = v26.div (F64.ofBits 0x400F6297CFF75CB0) ∧
    (fdct8 x).e2 = v21.div (F64.ofBits 0x400D906BCF328D46) ∧ (fdct8 x).e3 = v28.div (F64.ofBits 0x400A9B66290EA1A3) ∧
    (fdct8 x).e4 = v16.div (F64.ofBits 0x4006A09E667F3BCD) ∧ (fdct8 x).e5 = v25.div (F64.ofBits 0x4001C73B39AE68C8) ∧
    (fdct8 x).e6 = v22.div (F64.ofBits 0x3FF87DE2A6AEA963) ∧ (fdct8 x).e7 = v27.div (F64.ofBits 0x3FE8F8B83C69A60B)

/-- R238, R239, R241: IDCT replaces BLK by pass 1 on each column and pass 2 on each row of the inverse eight-point pass,
and that pass undoes the stages as R238 says, with the constants' normative bit patterns (R231). `/ 2` divides by 2.0. -/
def Obligations.IdctTransforms : Prop :=
  (∀ s : State,
    match Mat.values? s.blk with
    | none => exec .idct s = .next (s.enterFault ⟨.uninit, 5, 0⟩)
    | some m => ∃ t p : Mat F64, exec .idct s = .next { s with blk := Mat.mapElems some t, cp := s.cp + 1 } ∧
      (∀ c, (Oct.ofFn fun r => Mat.elem p r c) = idct8 (Oct.ofFn fun r => Mat.elem m r c)) ∧
      ∀ r, Oct.get t r = idct8 (Oct.get p r)) ∧
  ∀ x : Oct F64, ∃ (two v0 v1 v2 v3 v4 v5 v6 v7 v8 v9 v10 v11 v12 v13 v14 v15 v16 v17 v18 v19 v20 v21 v22 v23 v24 v25 v26 v27
      v28 : F64), two = F64.ofBits 0x4000000000000000 ∧
    v15 = x.e0.mul (F64.ofBits 0x4006A09E667F3BCD) ∧ v26 = x.e1.mul (F64.ofBits 0x400F6297CFF75CB0) ∧
    v21 = x.e2.mul (F64.ofBits 0x400D906BCF328D46) ∧ v28 = x.e3.mul (F64.ofBits 0x400A9B66290EA1A3) ∧
    v16 = x.e4.mul (F64.ofBits 0x4006A09E667F3BCD) ∧ v25 = x.e5.mul (F64.ofBits 0x4001C73B39AE68C8) ∧
    v22 = x.e6.mul (F64.ofBits 0x3FF87DE2A6AEA963) ∧ v27 = x.e7.mul (F64.ofBits 0x3FE8F8B83C69A60B) ∧
    v19 = (v25.sub v28).div two ∧ v20 = (v26.sub v27).div two ∧ v23 = (v26.add v27).div two ∧ v24 = (v25.add v28).div two ∧
    v7 = (v23.add v24).div two ∧ v11 = (v21.add v22).div two ∧ v13 = (v23.sub v24).div two ∧ v17 = (v21.sub v22).div two ∧
    v8 = (v15.add v16).div two ∧ v9 = (v15.sub v16).div two ∧
    v18 = (v19.sub v20).mul (F64.ofBits 0x3FD87DE2A6AEA963) ∧
    v12 = v18.sub (v19.mul (F64.ofBits 0x3FF4E7AE9144F0FC)) ∧ v14 = (v20.mul (F64.ofBits 0x3FE1517A7BDB3894)).sub v18 ∧
    v6 = v14.sub v7 ∧ v5 = (v13.div (F64.ofBits 0x3FE6A09E667F3BCD)).sub v6 ∧ v4 = v5.neg.sub v12 ∧
    v10 = (v17.div (F64.ofBits 0x3FE6A09E667F3BCD)).sub v11 ∧
    v0 = (v8.add v11).div two ∧ v1 = (v9.add v10).div two ∧ v2 = (v9.sub v10).div two ∧ v3 = (v8.sub v11).div two ∧
    (idct8 x).e0 = (v0.add v7).div two ∧ (idct8 x).e1 = (v1.add v6).div two ∧ (idct8 x).e2 = (v2.add v5).div two ∧
    (idct8 x).e3 = (v3.add v4).div two ∧ (idct8 x).e4 = (v3.sub v4).div two ∧ (idct8 x).e5 = (v2.sub v5).div two ∧
    (idct8 x).e6 = (v1.sub v6).div two ∧ (idct8 x).e7 = (v0.sub v7).div two

/-- R230: binary64 arithmetic. `+`, `-`, `*` and `/` of finite values give the exact result rounded to nearest, ties to
even, of either sign (`isNearest`), an exact zero sum or difference with IEEE 754's sign; infinities and NaNs propagate
as IEEE 754 says; unary minus flips the sign. Integers below 2^53 are exact. -/
def Obligations.RoundingIsNearestEven : Prop :=
  (∀ (neg : Bool) (n d : Nat), 0 < d → (F64.nearest neg n d).isNearest neg n d) ∧
  (∀ n : Nat, n < 2 ^ 53 → (F64.ofNat n).isInteger n) ∧
  (∀ (s t : Bool) (a b : Fin magBound) (x y : F64), x = .fin s a → y = .fin t b →
    (x.units + y.units ≠ 0 → (x.add y).isNearest (decide (x.units + y.units < 0)) (x.units + y.units).natAbs 1) ∧
    (x.units + y.units = 0 → x.add y = .fin (s && t) ⟨0, by decide⟩) ∧
    (x.units - y.units ≠ 0 → (x.sub y).isNearest (decide (x.units - y.units < 0)) (x.units - y.units).natAbs 1) ∧
    (x.units - y.units = 0 → x.sub y = .fin (s && !t) ⟨0, by decide⟩) ∧
    (x.mul y).isNearest (s != t) (magUnits a * magUnits b) unitsPerOne ∧
    ((b : Nat) ≠ 0 → (x.div y).isNearest (s != t) (magUnits a * unitsPerOne) (magUnits b)) ∧
    ((b : Nat) = 0 → x.div y = if (a : Nat) = 0 then .nan else .inf (s != t)) ∧
    x.neg = .fin (!s) a ∧ x.neg.units = -x.units) ∧
  (∀ (s t : Bool) (b : Fin magBound) (x y z : F64), x = .inf s → y = .inf t → z = .fin t b →
    x.add y = (if s = t then .inf s else .nan) ∧ x.sub y = (if s = t then .nan else .inf s) ∧
    x.add z = .inf s ∧ z.add x = .inf s ∧ x.sub z = .inf s ∧ z.sub x = .inf (!s) ∧
    x.mul y = .inf (s != t) ∧ x.mul z = (if (b : Nat) = 0 then .nan else .inf (s != t)) ∧ z.mul x = x.mul z ∧
    x.div y = .nan ∧ x.div z = .inf (s != t) ∧ z.div x = .fin (t != s) ⟨0, by decide⟩ ∧ x.neg = .inf (!s)) ∧
  ∀ x : F64, F64.add .nan x = .nan ∧ x.add .nan = .nan ∧ F64.sub .nan x = .nan ∧ x.sub .nan = .nan ∧
    F64.mul .nan x = .nan ∧ x.mul .nan = .nan ∧ F64.div .nan x = .nan ∧ x.div .nan = .nan ∧ F64.neg .nan = .nan

/-! ### Quantizer (44_quant.md) -/

/-- R262, R263, R265, R271: QUANT replaces each element of a whole, finite, tagged BLK by the exact quotient with the
local table entry, rounded to nearest and clamped to 8 to 255. Below 8.5 it is 8, from 254.5 on it is 255. -/
def Obligations.QuantQuantizes : Prop :=
  ∀ s : State,
    match Mat.values? s.blk, s.bch, s.quality with
    | some m, some ch, some q =>
      if ∃ r c, (Mat.elem m r c).isFinite = false then exec .quant s = .next (s.enterFault ⟨.nonfinite, 6, 0⟩)
      else ∃ t, exec .quant s = .next t ∧ t = { s with blk := t.blk, cp := s.cp + 1 } ∧
        ∀ r c, ∃ n l T : Nat, Mat.elem t.blk r c = some (F64.ofNat n) ∧ 8 ≤ n ∧ n ≤ 255 ∧
          T = Mat.elem (if ch = .y then qtLuma else qtChroma) r c ∧
          l = (if q.toNat < 50 then max 1 (T * 5000 / q.toNat) else if q.toNat = 50 then T
            else max 1 (T * (200 - 2 * q.toNat))) ∧
          (2 * (Mat.elem m r c).units < 17 * (l * unitsPerOne) → n = 8) ∧
          (509 * (l * unitsPerOne) ≤ 2 * (Mat.elem m r c).units → n = 255) ∧
          (17 * (l * unitsPerOne) ≤ 2 * (Mat.elem m r c).units → 2 * (Mat.elem m r c).units < 509 * (l * unitsPerOne) →
            (2 * (n : Int) - 1) * (l * unitsPerOne) ≤ 2 * (Mat.elem m r c).units ∧
              2 * (Mat.elem m r c).units < (2 * (n : Int) + 1) * (l * unitsPerOne))
    | _, _, _ => exec .quant s = .next (s.enterFault ⟨.uninit, 6, 0⟩)

/-- R264, R268: DEQUANT multiplies each element of a whole, tagged BLK by the local table entry, in one binary64
multiplication, without a clamp. -/
def Obligations.DequantMultiplies : Prop :=
  ∀ s : State,
    match Mat.values? s.blk, s.bch, s.quality with
    | some m, some ch, some q =>
      ∃ t, exec .dequant s = .next t ∧ t = { s with blk := t.blk, cp := s.cp + 1 } ∧
        ∀ r c, Mat.elem t.blk r c = some ((Mat.elem m r c).mul
          (F64.ofNat (Mat.elem (lqt (if ch = .y then qtLuma else qtChroma) q.toNat) r c)))
    | _, _, _ => exec .dequant s = .next (s.enterFault ⟨.uninit, 6, 0⟩)

/-- R270: at quality 50 the local table is the base table, and at any quality QUANT then DEQUANT returns a block of exact
multiples `k·l`, `k` in 8 to 255, of the local table's entries. -/
def Obligations.QuantizeLosslessOnMultiples : Prop :=
  (∀ table : Mat Nat, lqt table 50 = table) ∧
  ∀ (s : State) (ch : Chan) (q : BitVec 32) (k : Fin 8 → Fin 8 → Nat),
    s.quality = some q → 1 ≤ q.toNat → q.toNat ≤ 100 → s.bch = some ch → (∀ r c, 8 ≤ k r c ∧ k r c ≤ 255) →
    s.blk = (Mat.tabulate fun r c =>
      some (F64.ofNat (k r c * Mat.elem (lqt (if ch = .y then qtLuma else qtChroma) q.toNat) r c))) →
    ∃ t u, exec .quant s = .next t ∧ exec .dequant t = .next u ∧ u = { s with cp := s.cp + 2 }

/-! ### Entropy coder (45_entropy.md) -/

/-- R283, R284: PAY.LEN sets the length and clears PAY, PAY.WR writes one byte below the length. Both drop the
tables. -/
def Obligations.PayLenAndPayWrWrite : Prop :=
  (∀ (n : BitVec 32) (s : State),
    if 304128 < n.toNat then exec (.payLen n) s = .next (s.enterFault ⟨.operand, 7, 0⟩)
    else ∃ t, exec (.payLen n) s = .next t ∧
      t = { s with payLen := n, pay := t.pay, freq := none, lens := none, hdr := none, cp := s.cp + 1 } ∧
      ∀ k, t.pay.get k = none) ∧
  ∀ (k : BitVec 32) (b : Byte) (s : State), s.ShapesOk →
    if s.payLen.toNat ≤ k.toNat then exec (.payWr k b) s = .next (s.enterFault ⟨.operand, 7, 0⟩)
    else ∃ t, exec (.payWr k b) s = .next t ∧
      t = { s with pay := t.pay, freq := none, lens := none, hdr := none, cp := s.cp + 1 } ∧
      ∀ j, t.pay.get j = if j = k.toNat then some b else s.pay.get j

/-- R286: HUF.CNT counts how often each byte value occurs in the payload in use. -/
def Obligations.HufCntCounts : Prop :=
  ∀ s : State,
    if ∃ k, k < s.payLen.toNat ∧ s.pay.get k = none then exec .hufCnt s = .next (s.enterFault ⟨.uninit, 7, 0⟩)
    else ∃ t f, exec .hufCnt s = .next t ∧
      t = { s with freq := some f, lens := none, hdr := none, cp := s.cp + 1 } ∧ f.length = 256 ∧
      (∀ b : Byte, f[b.toNat]? =
        some ((List.range s.payLen.toNat).countP fun k => s.pay.get k = some b)) ∧
      f.sum = s.payLen.toNat

/-- R288 to R291, R294: with FREQ present, HUF.BLD raises CODELEN when a depth is above 15, and else retires. The depths
are the lengths of the paths to the leaves of the tree of R289, whose every round merges the two entries with the least
(frequency, sequence number) into one with the summed frequency and the next number. A lone symbol has depth 1. Each
symbol's length is its depth, or 0 when it does not occur, and with two or more symbols the Kraft sum is exactly 1. -/
def Obligations.HufBldBuildsLengths : Prop :=
  ∀ s : State,
    match s.freq with
    | none => exec .hufBld s = .next (s.enterFault ⟨.uninit, 7, 0⟩)
    | some f =>
      (occurring f = [] → symbolDepths f = []) ∧
      (∀ n, occurring f = [n] → symbolDepths f = [(n, 1)]) ∧
      (2 ≤ (occurring f).length → ∃ tree, buildTree f = some tree ∧ IsTreeOf f tree ∧ symbolDepths f = tree.depths 0 ∧
        ∀ n d, (n, d) ∈ symbolDepths f ↔ ∃ path, path.length = d ∧ nodeAt path tree = some (.leaf n)) ∧
      if ∃ p ∈ symbolDepths f, 15 < p.2 then exec .hufBld s = .next (s.enterFault ⟨.codelen, 7, 0⟩)
      else ∃ l, exec .hufBld s = .next { s with lens := some l, hdr := none, cp := s.cp + 1 } ∧ l.length = 256 ∧
        (∀ n, n < 256 → lenOf l n = depthOf (symbolDepths f) n) ∧
        (∀ p ∈ symbolDepths f, p.1 < 256 ∧ lenOf l p.1 = p.2) ∧
        (∀ n, n < 256 → (lenOf l n = 0 ↔ f.getD n 0 = 0)) ∧
        (∀ n, occurring f = [n] → lenOf l n = 1) ∧
        (2 ≤ (occurring f).length → kraftSum l = 2 ^ 15)

/-- R295, R296: HUF.HDR writes the 128 header bytes, symbol 2j in the low nibble of byte j, 2j + 1 in the high. -/
def Obligations.HufHdrEmitsHeader : Prop :=
  ∀ s : State,
    match s.lens with
    | none => exec .hufHdr s = .next (s.enterFault ⟨.uninit, 7, 0⟩)
    | some l => ∃ h, exec .hufHdr s = .next { s with hdr := some h, cp := s.cp + 1 } ∧ h.length = 128 ∧
      ∀ j, j < 128 → ∃ b : Byte, h[j]? = some b ∧ b.toNat = lenOf l (2 * j) + 16 * lenOf l (2 * j + 1)

/-- R295: `unhdr` and `hdr` are inverse to each other on 256 lengths and on 128 bytes, and `unhdr` reads the low nibble
for an even symbol and the high one for an odd symbol. -/
def Obligations.HeaderRoundTrip : Prop :=
  (∀ l : List (BitVec 4), l.length = 256 → unhdr (hdrOf l) = l ∧
    ∀ j, j < 128 → ∃ b : Byte, (hdrOf l)[j]? = some b ∧ b.toNat = lenOf l (2 * j) + 16 * lenOf l (2 * j + 1)) ∧
  ∀ h : List Byte, h.length = 128 → hdrOf (unhdr h) = h ∧
    ∀ n, n < 256 → ∃ b : Byte, h[n / 2]? = some b ∧
      lenOf (unhdr h) n = if n % 2 = 0 then b.toNat % 16 else b.toNat / 16

/-- R292, R293: the canonical code. Each symbol's code has as many bits as its length says. When the Kraft sum is at most
1, codes are assigned in increasing length, then by symbol, each right after the one before: a code read as a number,
scaled to 15 bits, is the sum of `2^(15 - LEN[m])` over the present symbols `m` before it (so the first is all zeros),
and no code is the beginning of another symbol's code. -/
def Obligations.CanonicalCodesPrefixFree : Prop :=
  ∀ l : List (BitVec 4), l.length = 256 →
    (∀ n, n < 256 → (codeOf (canon l) n).length = lenOf l n) ∧
    (kraftSum l ≤ 2 ^ 15 → ∀ m n, m < 256 → n < 256 → m ≠ n → 0 < lenOf l m → 0 < lenOf l n →
      ¬ codeOf (canon l) m <+: codeOf (canon l) n) ∧
    (kraftSum l ≤ 2 ^ 15 → ∀ n, n < 256 → 0 < lenOf l n →
      bitsValue (codeOf (canon l) n).reverse * 2 ^ (15 - lenOf l n) =
        (((List.range 256).filter fun m =>
            0 < lenOf l m ∧ (lenOf l m < lenOf l n ∨ lenOf l m = lenOf l n ∧ m < n)).map fun m => 2 ^ (15 - lenOf l m)).sum)

/-- R298, R299: HUF.PACK writes to ENC nothing for an empty payload, and else HDR followed by the codes of the payload's
bytes, most significant bit first, the last byte padded with zero bits. -/
def Obligations.HufPackPacksBits : Prop :=
  ∀ s : State,
    match s.payload, s.lens, s.hdr with
    | some bs, some l, some h =>
      if ∃ b ∈ bs, lenOf l b.toNat = 0 then exec .hufPack s = .next (s.enterFault ⟨.noCode, 7, 0⟩)
      else ∃ t e, exec .hufPack s = .next t ∧ t = { s with enc := some e, cp := s.cp + 1 } ∧
        if s.payLen.toNat = 0 then e = []
        else ∃ packed, e = h ++ packed ∧
          packed.length = ((bs.map fun b => (codeOf (canon l) b.toNat).length).sum + 7) / 8 ∧
          ∀ i, i < 8 * packed.length → ∃ b : Byte, packed[i / 8]? = some b ∧
            b.getLsbD (7 - i % 8) = (payloadBits (canon l) bs).getD i false
    | _, _, _ => exec .hufPack s = .next (s.enterFault ⟨.uninit, 7, 0⟩)

/-- R303: HUF.LDH takes the lengths from the first 128 bytes of ENC, refusing 1 to 127 bytes and a Kraft sum above 1. -/
def Obligations.HufLdhLoadsHeader : Prop :=
  ∀ s : State,
    match s.enc with
    | none => exec .hufLdh s = .next (s.enterFault ⟨.uninit, 7, 0⟩)
    | some e =>
      if e.length = 0 then
        ∃ t h l, exec .hufLdh s = .next t ∧
          t = { s with hdr := some h, lens := some l, freq := none, cp := s.cp + 1 } ∧
          h.length = 128 ∧ l.length = 256 ∧ (∀ b ∈ h, b = 0) ∧ ∀ x ∈ l, x = 0
      else if e.length < 128 then exec .hufLdh s = .next (s.enterFault ⟨.truncPayload, 7, 0⟩)
      else if 2 ^ 15 < kraftSum (unhdr (e.take 128)) then
        exec .hufLdh s = .next (s.enterFault ⟨.oversubscribed, 7, 0⟩)
      else exec .hufLdh s = .next
        { s with hdr := some (e.take 128), lens := some (unhdr (e.take 128)), freq := none, cp := s.cp + 1 }

/-- R305: HUF.UNP. When the bits after the header begin with the codes of `PAY_LEN` bytes, PAY receives those bytes and
the rest of the bits is ignored. When they are the codes of fewer bytes and then run out inside (or before) a code, it
raises TRUNC_PAYLOAD. When a word follows that no code begins with, it raises BAD_CODE. -/
def Obligations.HufUnpDecodes : Prop :=
  ∀ s : State, s.ShapesOk →
    match s.enc, s.lens with
    | some e, some l => kraftSum l ≤ 2 ^ 15 →
      ∀ (out : List Byte) (rest : List Bool), (∀ b ∈ out, 0 < lenOf l b.toNat) →
        bitsOfBytes (e.drop 128) = payloadBits (canon l) out ++ rest →
        (out.length = s.payLen.toNat →
          ∃ t, exec .hufUnp s = .next t ∧
            t = { s with pay := t.pay, freq := none, lens := none, hdr := none, cp := s.cp + 1 } ∧
            ∀ k, t.pay.get k = if k < s.payLen.toNat then out[k]? else s.pay.get k) ∧
        (out.length < s.payLen.toNat →
          (rest = [] ∨ ∃ n, n < 256 ∧ rest <+: codeOf (canon l) n ∧ rest.length < lenOf l n) →
          exec .hufUnp s = .next (s.enterFault ⟨.truncPayload, 7, 0⟩)) ∧
        (out.length < s.payLen.toNat → rest ≠ [] →
          (∀ w, w <+: rest → w ≠ [] → w.length ≤ 15 → ∀ n, n < 256 → 0 < lenOf l n → w ≠ codeOf (canon l) n) →
          (∃ w, w <+: rest ∧ ∀ n, n < 256 → 0 < lenOf l n → ¬ w <+: codeOf (canon l) n) →
          exec .hufUnp s = .next (s.enterFault ⟨.badCode, 7, 0⟩))
    | _, _ => exec .hufUnp s = .next (s.enterFault ⟨.uninit, 7, 0⟩)

/-- R307, R308: for any payload, the empty one included, whose tree is at most 15 deep, HUF.CNT, HUF.BLD, HUF.HDR,
HUF.PACK, HUF.LDH, HUF.UNP all retire, HUF.LDH gives back the lengths, codes and header that HUF.BLD and HUF.HDR made,
and PAY ends as it began. -/
def Obligations.HuffmanRoundTrip : Prop :=
  ∀ (s : State) (bs : List Byte), s.ShapesOk → s.fault = false → s.payload = some bs →
    (∀ p ∈ symbolDepths (countBytes bs), p.2 ≤ 15) →
    ∃ l s4 s5 s6,
      s.issueAll [(.hufCnt, true), (.hufBld, true), (.hufHdr, true), (.hufPack, true)] = .ok s4 ∧
      exec .hufLdh s4 = .next s5 ∧ exec .hufUnp s5 = .next s6 ∧
      s4.lens = some l ∧ s5.lens = some l ∧ s5.code = s4.code ∧ s4.hdr = some (hdrOf l) ∧ s5.hdr = s4.hdr ∧
      s5.fault = false ∧ s6.fault = false ∧
      s6.payLen = s.payLen ∧ s6.payload = some bs ∧ ∀ k, s6.pay.get k = s.pay.get k

/-! ### Container (46_container.md) -/

/-- R333, R90: CW.HDR truncates CTR and writes the 15 header bytes, all fields little-endian, resets the writer's and
reader's positions and drops PREV. -/
def Obligations.CwHdrStartsContainer : Prop :=
  ∀ s : State,
    match s.quality, s.frameCount with
    | some q, some n =>
      if s.ioA = false then exec .cwHdr s = .next (s.enterFault ⟨.ctrWr, 8, 0⟩)
      else ∃ t, exec .cwHdr s = .next t ∧
        t = { s with
          ctr := t.ctr, nrec := 0, wpos := 15, rpos := 0, rnum := 0, idx := [], prev := none, prevIdx := none,
          wact := decide (0 < n.toNat), wdone := decide (n.toNat = 0), ropen := false, eos := false, cp := s.cp + 1 } ∧
        t.ctr.len = 15 ∧ t.ctr.byteAt 0 = some 0x53 ∧ t.ctr.byteAt 1 = some 0x4D ∧ t.ctr.byteAt 2 = some 0x50 ∧
        t.ctr.byteAt 3 = some 0x60 ∧ t.ctr.byteAt 4 = some 0x01 ∧ t.ctr.byteAt 5 = some 0x20 ∧ t.ctr.byteAt 6 = some 0x01 ∧
        (∀ k, k < 4 → t.ctr.byteAt (7 + k) = some (n.extractLsb' (8 * k) 8)) ∧
        ∀ k, k < 4 → t.ctr.byteAt (11 + k) = some (q.extractLsb' (8 * k) 8)
    | _, _ => exec .cwHdr s = .next (s.enterFault ⟨.uninit, 8, 0⟩)

/-- R335, R90: CW.REC appends one record at WPOS: the next record's offset (0 for the last record) as 8 bytes
little-endian, the frame type, and ENC. Every byte before WPOS keeps its value. -/
def Obligations.CwRecAppendsRecord : Prop :=
  ∀ s : State, s.ControlOk →
    if s.wact = false then exec .cwRec s = .next (s.enterFault ⟨.writer, 8, 0⟩)
    else
      match s.enc, s.ftype, s.fidx, s.frameCount with
      | some e, some ty, some i, some n =>
        if i ≠ s.nrec then exec .cwRec s = .next (s.enterFault ⟨.order, 8, 0⟩)
        else if ty ≠ (if s.nrec.toNat % 32 = 0 then FrameType.key else FrameType.delta) then
          exec .cwRec s = .next (s.enterFault ⟨.ftypeRule, 8, 0⟩)
        else if s.wpos ≠ s.ctr.len then exec .cwRec s = .next (s.enterFault ⟨.writer, 8, 0⟩)
        else if s.ioA = false then exec .cwRec s = .next (s.enterFault ⟨.ctrWr, 8, s.wpos⟩)
        else ∃ t, exec .cwRec s = .next t ∧
          t = { s with
            ctr := t.ctr, wpos := s.wpos + 9 + e.length, nrec := t.nrec,
            wact := decide (s.nrec.toNat + 1 ≠ n.toNat), wdone := decide (s.nrec.toNat + 1 = n.toNat), cp := s.cp + 1 } ∧
          t.nrec.toNat = s.nrec.toNat + 1 ∧ t.ctr.len = s.wpos + 9 + e.length ∧
          (∀ a, a < s.wpos → t.ctr.byteAt a = s.ctr.byteAt a) ∧
          (∀ k, k < 8 → t.ctr.byteAt (s.wpos + k) = some ((BitVec.ofNat 64
            (if s.nrec.toNat + 1 = n.toNat then 0 else s.wpos + 9 + e.length)).extractLsb' (8 * k) 8)) ∧
          t.ctr.byteAt (s.wpos + 8) = some (if ty = .key then 0 else 1) ∧
          ∀ k, k < e.length → t.ctr.byteAt (s.wpos + 9 + k) = e[k]?
      | _, _, _, some _ => exec .cwRec s = .next (s.enterFault ⟨.uninit, 8, 0⟩)
      | _, _, _, none => True

/-- R340: CR.OPEN checks writer, `io_ok`, length, magic, dimensions, quality and the first record in this order, then
takes quality and frame count from the header and stands at the first record. -/
def Obligations.CrOpenReadsHeader : Prop :=
  ∀ s : State, s.ctr.wf →
    if s.wact = true then exec .crOpen s = .next (s.enterFault ⟨.writer, 9, 0⟩)
    else if s.ioA = false then exec .crOpen s = .next (s.enterFault ⟨.ctrRd, 9, 0⟩)
    else if s.ctr.len < 15 then exec .crOpen s = .next (s.enterFault ⟨.truncHdr, 9, s.ctr.len⟩)
    else if ¬ (s.ctr.get 0 = 0x53 ∧ s.ctr.get 1 = 0x4D ∧ s.ctr.get 2 = 0x50) then
      exec .crOpen s = .next (s.enterFault ⟨.magic, 9, 0⟩)
    else if ¬ (s.ctr.get 3 = 0x60 ∧ s.ctr.get 4 = 0x01 ∧ s.ctr.get 5 = 0x20 ∧ s.ctr.get 6 = 0x01) then
      exec .crOpen s = .next (s.enterFault ⟨.dims, 9, 3⟩)
    else ∃ q n : BitVec 32, (∀ k, k < 4 → n.extractLsb' (8 * k) 8 = s.ctr.get (7 + k)) ∧
      (∀ k, k < 4 → q.extractLsb' (8 * k) 8 = s.ctr.get (11 + k)) ∧
      if q.toInt < 1 ∨ 100 < q.toInt then exec .crOpen s = .next (s.enterFault ⟨.range, 9, 11⟩)
      else if 0 < n.toNat ∧ s.ctr.len < 24 then exec .crOpen s = .next (s.enterFault ⟨.truncRec, 9, 15⟩)
      else exec .crOpen s = .next
        { s with
          quality := some q, frameCount := some n, rpos := 15, rnum := 0, idx := if n.toNat = 0 then [] else [15],
          prev := none, prevIdx := none, ropen := true, eos := decide (n.toNat = 0), cp := s.cp + 1 }

/-- R343, R345: CR.NEXT checks reader, `io_ok`, the record's place, its link, its size and its type in this order, then
takes payload and type into ENC and FTYPE and moves to the next record, or to the end of the stream. -/
def Obligations.CrNextReadsRecord : Prop :=
  ∀ s : State, s.ctr.wf → s.ControlOk →
    if s.ropen = false ∨ s.eos = true then exec .crNext s = .next (s.enterFault ⟨.reader, 9, 0⟩)
    else if s.ioA = false then exec .crNext s = .next (s.enterFault ⟨.ctrRd, 9, s.rpos⟩)
    else if s.ctr.len < s.rpos + 9 then exec .crNext s = .next (s.enterFault ⟨.truncRec, 9, s.rpos⟩)
    else ∃ (n : BitVec 32) (next : BitVec 64), s.frameCount = some n ∧
      (∀ k, k < 8 → next.extractLsb' (8 * k) 8 = s.ctr.get (s.rpos + k)) ∧
      if (next = 0 ∧ s.rnum.toNat + 1 ≠ n.toNat) ∨ (next ≠ 0 ∧ s.rnum.toNat + 1 = n.toNat) then
        exec .crNext s = .next (s.enterFault ⟨.count, 9, s.rpos⟩)
      else if next ≠ 0 ∧ next.toNat < s.rpos + 9 then exec .crNext s = .next (s.enterFault ⟨.linkBack, 9, s.rpos⟩)
      else if next ≠ 0 ∧ s.ctr.len < next.toNat + 9 then exec .crNext s = .next (s.enterFault ⟨.linkOob, 9, s.rpos⟩)
      else ∃ stop, stop = (if next = 0 then s.ctr.len else next.toNat) ∧
        if 570368 < stop - s.rpos - 9 then exec .crNext s = .next (s.enterFault ⟨.payloadSize, 9, s.rpos⟩)
        else if s.ctr.get (s.rpos + 8) ≠ 0 ∧ s.ctr.get (s.rpos + 8) ≠ 1 then
          exec .crNext s = .next (s.enterFault ⟨.ftype, 9, s.rpos + 8⟩)
        else if s.ctr.get (s.rpos + 8) ≠ (if s.rnum.toNat % 32 = 0 then 0 else 1) then
          exec .crNext s = .next (s.enterFault ⟨.ftypeRule, 9, s.rpos + 8⟩)
        else ∃ t e, exec .crNext s = .next t ∧
          t = { s with
            enc := some e, ftype := some (if s.rnum.toNat % 32 = 0 then .key else .delta), fidx := some s.rnum,
            rnum := s.rnum + 1, rpos := next.toNat, eos := decide (next = 0),
            idx := if next ≠ 0 ∧ s.rnum.toNat + 1 = s.idx.length then s.idx ++ [next.toNat] else s.idx,
            cp := s.cp + 1 } ∧
          e.length = stop - s.rpos - 9 ∧ ∀ k, k < e.length → e[k]? = s.ctr.byteAt (s.rpos + 9 + k)

/-- R353: CR.SEEK to a record that the index holds touches no file. To a later one it follows the links from the last
entry: with `chain` the entries the walk visits, it stands at record `n` when every link is valid, and raises the fault
of the first that is not, keeping nothing it learned. -/
def Obligations.CrSeekPositionsReader : Prop :=
  ∀ (n : BitVec 32) (s : State), s.ControlOk →
    if s.ropen = false then exec (.crSeek n) s = .next (s.enterFault ⟨.reader, 9, 0⟩)
    else ∃ count : BitVec 32, s.frameCount = some count ∧
      if count.toNat ≤ n.toNat then exec (.crSeek n) s = .next (s.enterFault ⟨.operand, 9, 0⟩)
      else if h : n.toNat < s.idx.length then
        exec (.crSeek n) s = .next { s with rpos := s.idx[n.toNat], rnum := n, eos := false, cp := s.cp + 1 }
      else ∃ p0, s.idx.getLast? = some p0 ∧
        if s.ioA = false then exec (.crSeek n) s = .next (s.enterFault ⟨.ctrRd, 9, p0⟩)
        else ∀ chain : List Nat, chain.take s.idx.length = s.idx → s.idx.length ≤ chain.length →
          (∀ k p q, s.idx.length ≤ k + 1 → chain[k]? = some p → chain[k + 1]? = some q →
            p + 9 ≤ s.ctr.len ∧ ∃ stop, linkOf s.ctr count.toNat p k = .ok (q, stop)) →
          (chain.length = n.toNat + 1 → ∃ p, chain.getLast? = some p ∧
            exec (.crSeek n) s = .next { s with idx := chain, rpos := p, rnum := n, eos := false, cp := s.cp + 1 }) ∧
          (chain.length ≤ n.toNat → ∃ p, chain.getLast? = some p ∧
            (s.ctr.len < p + 9 → exec (.crSeek n) s = .next (s.enterFault ⟨.truncRec, 9, p⟩)) ∧
            ∀ c, p + 9 ≤ s.ctr.len → linkOf s.ctr count.toNat p (chain.length - 1) = .error c →
              exec (.crSeek n) s = .next (s.enterFault ⟨c, 9, p⟩))

/-- R360: what CW.REC appended, CR.NEXT reads back. A reader that stands at the offset where CW.REC wrote, at the same
record number, in a file that agrees with the writer's on the bytes written (and, for the last record, ends there, for
another has the next record's prefix), gets the same payload and type, and moves to the writer's next offset. -/
def Obligations.ContainerRecordRoundTrip : Prop :=
  ∀ s t u : State, s.FilesOk → s.ShapesOk → s.ControlOk → s.fault = false → exec .cwRec s = .next t → t.fault = false → s.wpos + 9 + 570368 < 2 ^ 64 →
    u.FilesOk → u.ControlOk → u.ropen = true → u.eos = false → u.ioA = true → u.rpos = s.wpos → u.rnum = s.nrec →
    u.frameCount = s.frameCount → (∀ a, a < t.ctr.len → u.ctr.byteAt a = t.ctr.byteAt a) →
    (if t.wdone = true then u.ctr.len = t.ctr.len else t.ctr.len + 9 ≤ u.ctr.len) →
    ∃ v, exec .crNext u = .next v ∧ v.fault = u.fault ∧ v.enc = s.enc ∧ v.ftype = s.ftype ∧ v.fidx = s.fidx ∧
      v.rpos = (if t.wdone = true then 0 else t.wpos) ∧ v.eos = t.wdone ∧ v.rnum.toNat = s.nrec.toNat + 1

/-! ### Whole-frame commands (47_system.md R390 to R393) -/

/-- R390, R392, R393: ENC.FRAME. When its 19017 unit commands, issued one after the other, all retire, it retires with
their files and state, CP advanced by 1 only. When one of them faults, it faults with that command's ERR and ERR_OFF,
at its own CP, from the state before it. It completes when both its `io_ok` are 1, frame `f` lies in RAW, QUALITY and
FRAME_COUNT hold values, a delta frame has frame `f - 1` in PREV, the writer is active and stands at record `f` at the
end of CTR, and no symbol of the coded payload is deeper than 15 in its tree. Then RGB is the frame read, CUR and PREV
are its conversion, WRK is the key or difference frame `w`, PAY its coded blocks, FREQ, LEN, HDR and ENC what the entropy
commands make of them, and CTR has the record appended. -/
def Obligations.EncFrameIsItsExpansion : Prop :=
  (∀ (f : BitVec 32) (s : State), s.fault = false →
    (∀ u, s.issueAll (encFrameUnits f s.ioA s.ioB) = .ok u →
      u.cp = s.cp + 19017 ∧ exec (.encFrame f) s = .next { u with cp := s.cp + 1, ioA := s.ioA }) ∧
    ∀ v, s.issueAll (encFrameUnits f s.ioA s.ioB) = .error v →
      ∃ e : Trap, exec (.encFrame f) s = .next (s.enterFault e) ∧ e.errWord = v.err ∧ e.off = v.errOff ∧
        1 ≤ e.stage ∧ e.stage ≤ 9) ∧
  ∀ (f q n : BitVec 32) (s : State) (w : Frame), s.ShapesOk → s.ioA = true → s.ioB = true →
    frameOffset f + 304128 ≤ s.raw.len → s.quality = some q → s.frameCount = some n →
    s.predicted dpcmFwd f (s.frameIn f) = some w → s.wact = true → s.nrec = f → s.wpos = s.ctr.len →
    (∀ p ∈ symbolDepths (countBytes (codedPayload q w)), p.2 ≤ 15) →
    ∃ t l packed, exec (.encFrame f) s = .next t ∧
      buildLens (countBytes (codedPayload q w)) = some l ∧
      packed = packBits (payloadBits (canon l) (codedPayload q w)) ∧
      t = { s with
        rgb := some (pixelsOf (s.raw.read (frameOffset f) 304128)), fidx := some f, cur := some (s.frameIn f),
        wrk := t.wrk, ftype := some (ftypeOf f.toNat), prev := some (s.frameIn f), prevIdx := some f,
        payLen := 304128, pay := t.pay, blk := t.blk, bch := some .cr, bidx := 4751,
        freq := some (countBytes (codedPayload q w)), lens := some l, hdr := some (hdrOf l),
        enc := some (hdrOf l ++ packed), wpos := s.wpos + 9 + (128 + packed.length), nrec := f + 1,
        ctr := s.ctr.write s.wpos (recordBytes
          (if f.toNat + 1 = n.toNat then 0 else s.wpos + 9 + (128 + packed.length)) (ftypeOf f.toNat) (hdrOf l ++ packed)),
        wact := decide (f.toNat + 1 ≠ n.toNat), wdone := s.wdone || decide (f.toNat + 1 = n.toNat), cp := s.cp + 1 } ∧
      (∀ k, t.wrk.get k = (Frame.bytes w)[k]?) ∧ (∀ k, t.pay.get k = (codedPayload q w)[k]?) ∧
      ∀ r c, Mat.elem t.blk r c = some (F64.ofNat (Mat.elem (codedBlock q (Frame.bytes w) 4751) r c).toNat)

/-- R391, R392, R393: DEC.FRAME, likewise, for its 19015 unit commands. It completes when both its `io_ok` are 1, the
reader is open and not at the end, the record at RPOS passes CR.NEXT's checks and holds a header within the Kraft bound
and the codes of 304128 bytes `out`, QUALITY and FRAME_COUNT hold values, a delta record has frame RNUM - 1 in PREV, and
the slot is not beyond the end of RAW. Then PAY is `out`, CUR and PREV are the frame whose blocks are the decoded blocks
of `out` (added to PREV for a delta record), RGB is its conversion and stands in the slot, and the reader has moved on. -/
def Obligations.DecFrameIsItsExpansion : Prop :=
  (∀ (slot : BitVec 32) (s : State), s.fault = false →
    (∀ u, s.issueAll (decFrameUnits slot s.ioA s.ioB) = .ok u →
      u.cp = s.cp + 19015 ∧ exec (.decFrame slot) s = .next { u with cp := s.cp + 1, ioA := s.ioA }) ∧
    ∀ v, s.issueAll (decFrameUnits slot s.ioA s.ioB) = .error v →
      ∃ e : Trap, exec (.decFrame slot) s = .next (s.enterFault e) ∧ e.errWord = v.err ∧ e.off = v.errOff ∧
        1 ≤ e.stage ∧ e.stage ≤ 9) ∧
  ∀ (slot q n : BitVec 32) (s : State) (next stop : Nat) (l : List (BitVec 4)) (e out : List Byte) (rest : List Bool),
    s.ShapesOk → s.ioA = true → s.ioB = true → s.ropen = true → s.eos = false → s.rpos + 9 ≤ s.ctr.len →
    s.quality = some q → s.frameCount = some n → linkOf s.ctr n.toNat s.rpos s.rnum.toNat = .ok (next, stop) →
    s.ctr.get (s.rpos + 8) = (if s.rnum.toNat % 32 = 0 then 0 else 1) →
    e = s.ctr.read (s.rpos + 9) (stop - s.rpos - 9) → 128 ≤ e.length → e.length ≤ 570368 →
    l = unhdr (e.take 128) → kraftSum l ≤ 2 ^ 15 →
    bitsOfBytes (e.drop 128) = payloadBits (canon l) out ++ rest → out.length = 304128 → (∀ b ∈ out, 0 < lenOf l b.toNat) →
    (s.rnum.toNat % 32 ≠ 0 → (s.prevFor s.rnum).isSome = true) → frameOffset slot ≤ s.raw.len →
    ∃ t w c, exec (.decFrame slot) s = .next t ∧
      w.length = 101376 ∧ s.predicted dpcmInv s.rnum w = some c ∧
      (∀ i r k, i < 4752 → (Frame.bytes w)[blockOffset i r k]? = some (pix (Mat.elem (decodedBlock q out i) r k))) ∧
      t = { s with
        enc := some e, ftype := some (ftypeOf s.rnum.toNat), fidx := some s.rnum, rnum := s.rnum + 1, rpos := next,
        eos := decide (next = 0),
        idx := if next ≠ 0 ∧ s.rnum.toNat + 1 = s.idx.length then s.idx ++ [next] else s.idx,
        payLen := 304128, pay := t.pay, freq := none, lens := none, hdr := none,
        blk := Mat.mapElems some (decodedBlock q out 4751), bch := some .cr, bidx := 4751, wrk := .nil,
        cur := some c, prev := some c, prevIdx := some s.rnum, rgb := some (c.map yuvToRgb),
        raw := s.raw.write (frameOffset slot) (Frame.bytes (c.map yuvToRgb)), cp := s.cp + 1 } ∧
      ∀ k, t.pay.get k = out[k]?
end

