-- ==== Sys2Proof/Laws/Buffer.lean ====
section
/-! SUPPORT. The buffers WRK and PAY: reading after writing, the canonical form, and that buffers in canonical
form with the same elements are equal data (10_state.md R42, R44). -/

namespace Sys2Proof.Machine

/-! ### One element -/

theorem frameBytes_lt : Config.frameBytes < 2 ^ Buf.depth := by decide

@[simp] theorem Buf.getAt_nil (d i : Nat) : Buf.getAt d .nil i = none := by cases d <;> rfl

theorem Buf.setAt_ne_nil (d : Nat) (t : Buf) (i : Nat) (b : Byte) : Buf.setAt d t i b ≠ .nil := by
  cases d with
  | zero => simp [Buf.setAt]
  | succ d => cases t <;> simp only [Buf.setAt] <;> split <;> simp

theorem Buf.getAt_setAt (d : Nat) (t : Buf) (i j : Nat) (b : Byte) (hi : i < 2 ^ d) (hj : j < 2 ^ d) :
    Buf.getAt d (Buf.setAt d t i b) j = if j = i then some b else Buf.getAt d t j := by
  induction d generalizing t i j with
  | zero =>
    have : i = 0 := by simpa using hi
    have : j = 0 := by simpa using hj
    subst i; subst j; simp [Buf.setAt, Buf.getAt]
  | succ d ih =>
    have hi2 : i / 2 < 2 ^ d := by rw [Nat.pow_succ] at hi; omega
    have hj2 : j / 2 < 2 ^ d := by rw [Nat.pow_succ] at hj; omega
    by_cases hij : j = i
    · subst hij
      rw [if_pos rfl]
      cases t <;> simp only [Buf.setAt] <;> split <;> simp [Buf.getAt, *]
    · rw [if_neg hij]
      cases t <;> simp only [Buf.setAt] <;> split <;> by_cases hp : j % 2 = 0 <;>
        simp [Buf.getAt, hp, ih _ _ _ hi2 hj2] <;> omega

/-- Reading an element after one is written (10_state.md R42, R44). -/
theorem Buf.get_set (t : Buf) (i j : Nat) (b : Byte) :
    (t.set i b).get j = if j = i ∧ i < Config.frameBytes then some b else t.get j := by
  unfold Buf.get Buf.set
  by_cases hi : i < Config.frameBytes
  · by_cases hj : j < Config.frameBytes
    · rw [if_pos hj, if_pos hj, if_pos hi, Buf.getAt_setAt _ _ _ _ _ (Nat.lt_trans hi frameBytes_lt) (Nat.lt_trans hj frameBytes_lt)]
      simp [hi]
    · rw [if_neg hj, if_neg hj, if_neg (by omega)]
  · rw [if_neg hi, if_neg (fun h : j = i ∧ i < Config.frameBytes => hi h.2)]

@[simp] theorem Buf.get_nil (j : Nat) : Buf.get .nil j = none := by simp [Buf.get]

/-! ### Several elements -/

theorem Buf.get_setFrom (t : Buf) (i : Nat) (bs : List Byte) (j : Nat) :
    (t.setFrom i bs).get j =
      if i ≤ j ∧ j < i + bs.length ∧ j < Config.frameBytes then bs[j - i]? else t.get j := by
  induction bs generalizing t i with
  | nil => rw [Buf.setFrom, if_neg (by simp; omega)]
  | cons b bs ih =>
    rw [Buf.setFrom, ih, Buf.get_set]
    by_cases h1 : i + 1 ≤ j ∧ j < i + 1 + bs.length ∧ j < Config.frameBytes
    · rw [if_pos h1, if_pos (by simp only [List.length_cons]; omega), show j - i = j - (i + 1) + 1 by omega, List.getElem?_cons_succ]
    · rw [if_neg h1]
      by_cases h2 : j = i ∧ i < Config.frameBytes
      · rw [if_pos h2, if_pos (by simp only [List.length_cons]; omega), show j - i = 0 by omega]; rfl
      · rw [if_neg h2, if_neg (by simp only [List.length_cons]; omega)]

/-- An element no entry names keeps its content. -/
theorem Buf.get_setAll_other (t : Buf) (xs : List (Nat × Byte)) (j : Nat) (h : ∀ x ∈ xs, x.1 ≠ j) :
    (t.setAll xs).get j = t.get j := by
  induction xs generalizing t with
  | nil => rfl
  | cons x xs ih =>
    rw [Buf.setAll, ih _ (fun y hy => h y (by simp [hy])), Buf.get_set, if_neg]
    rintro ⟨rfl, -⟩
    exact h x (by simp) rfl

/-- An element some entry names holds the value of one such entry. -/
theorem Buf.get_setAll_named (t : Buf) (xs : List (Nat × Byte)) (j : Nat) (hj : j < Config.frameBytes) (h : ∃ x ∈ xs, x.1 = j) :
    ∃ x ∈ xs, x.1 = j ∧ (t.setAll xs).get j = some x.2 := by
  induction xs generalizing t with
  | nil => simp at h
  | cons x xs ih =>
    rw [Buf.setAll]
    by_cases h' : ∃ y ∈ xs, y.1 = j
    · obtain ⟨y, hy, h1, h2⟩ := ih (t.set x.1 x.2) h'
      exact ⟨y, by simp [hy], h1, h2⟩
    · have hx : x.1 = j := by
        obtain ⟨y, hy, rfl⟩ := h
        rcases List.mem_cons.mp hy with rfl | hy
        · rfl
        · exact absurd ⟨y, hy, rfl⟩ h'
      refine ⟨x, by simp, hx, ?_⟩
      rw [Buf.get_setAll_other _ _ _ (fun y hy e => h' ⟨y, hy, e⟩), Buf.get_set, if_pos (by omega)]

/-! ### The canonical form is kept -/

theorem Buf.compact_setAt (d : Nat) (t : Buf) (i : Nat) (b : Byte) (h : Buf.compact d t = true) :
    Buf.compact d (Buf.setAt d t i b) = true := by
  induction d generalizing t i with
  | zero => simp [Buf.setAt, Buf.compact]
  | succ d ih =>
    have hn : Buf.compact d .nil = true := by cases d <;> rfl
    cases t <;> simp only [Buf.setAt] <;> split <;>
      simp_all [Buf.compact, Buf.setAt_ne_nil]

theorem Buf.set_wf (t : Buf) (i : Nat) (b : Byte) (h : t.wf) : (t.set i b).wf := by
  unfold Buf.set
  split
  · rename_i hi
    refine ⟨Buf.compact_setAt _ _ _ _ h.1, fun j hj hj2 => ?_⟩
    rw [Buf.getAt_setAt _ _ _ _ _ (Nat.lt_trans hi frameBytes_lt) hj2, if_neg (by omega)]
    exact h.2 j hj hj2
  · exact h

theorem Buf.nil_wf : Buf.wf .nil := ⟨rfl, fun i _ _ => Buf.getAt_nil _ i⟩

theorem Buf.setFrom_wf (t : Buf) (i : Nat) (bs : List Byte) (h : t.wf) : (t.setFrom i bs).wf := by
  induction bs generalizing t i with
  | nil => exact h
  | cons b bs ih => exact ih _ _ (Buf.set_wf _ _ _ h)

theorem Buf.setAll_wf (t : Buf) (xs : List (Nat × Byte)) (h : t.wf) : (t.setAll xs).wf := by
  induction xs generalizing t with
  | nil => exact h
  | cons x xs ih => exact ih _ (Buf.set_wf _ _ _ h)

/-- A compact tree that is not nil holds some element. -/
theorem Buf.compact_nonempty (d : Nat) (t : Buf) (h : Buf.compact d t = true) (hn : t ≠ .nil) :
    ∃ i, i < 2 ^ d ∧ Buf.getAt d t i ≠ none := by
  induction d generalizing t with
  | zero => cases t <;> simp_all [Buf.compact, Buf.getAt]
  | succ d ih =>
    cases t with
    | nil => exact absurd rfl hn
    | leaf b => simp [Buf.compact] at h
    | node e o =>
      simp only [Buf.compact, Bool.and_eq_true, Bool.not_eq_true', Bool.and_eq_false_iff, decide_eq_false_iff_not] at h
      obtain ⟨⟨he, ho⟩, h | h⟩ := h
      · obtain ⟨i, hi, hg⟩ := ih e he h
        refine ⟨2 * i, by rw [Nat.pow_succ]; omega, ?_⟩
        rw [Buf.getAt, if_pos (by omega), show 2 * i / 2 = i by omega]; exact hg
      · obtain ⟨i, hi, hg⟩ := ih o ho h
        refine ⟨2 * i + 1, by rw [Nat.pow_succ]; omega, ?_⟩
        rw [Buf.getAt, if_neg (by omega), show (2 * i + 1) / 2 = i by omega]; exact hg

/-- Compact trees with the same elements are the same tree. -/
theorem Buf.compact_ext (d : Nat) (t u : Buf) (ht : Buf.compact d t = true) (hu : Buf.compact d u = true)
    (h : ∀ i, i < 2 ^ d → Buf.getAt d t i = Buf.getAt d u i) : t = u := by
  by_cases htn : t = .nil
  · by_cases hun : u = .nil
    · rw [htn, hun]
    · obtain ⟨i, hi, hg⟩ := Buf.compact_nonempty d u hu hun
      rw [← h i hi, htn, Buf.getAt_nil] at hg; exact absurd rfl hg
  · by_cases hun : u = .nil
    · obtain ⟨i, hi, hg⟩ := Buf.compact_nonempty d t ht htn
      rw [h i hi, hun, Buf.getAt_nil] at hg; exact absurd rfl hg
    · induction d generalizing t u with
      | zero =>
        cases t <;> cases u <;> simp_all [Buf.compact, Buf.getAt]
      | succ d ih =>
        cases t with
        | nil => exact absurd rfl htn
        | leaf b => simp [Buf.compact] at ht
        | node e o =>
          cases u with
          | nil => exact absurd rfl hun
          | leaf b => simp [Buf.compact] at hu
          | node e' o' =>
            simp only [Buf.compact, Bool.and_eq_true] at ht hu
            have he : ∀ i, i < 2 ^ d → Buf.getAt d e i = Buf.getAt d e' i := by
              intro i hi
              have := h (2 * i) (by rw [Nat.pow_succ]; omega)
              simpa [Buf.getAt] using this
            have ho : ∀ i, i < 2 ^ d → Buf.getAt d o i = Buf.getAt d o' i := by
              intro i hi
              have := h (2 * i + 1) (by rw [Nat.pow_succ]; omega)
              simpa [Buf.getAt, show (2 * i + 1) % 2 = 1 by omega, show (2 * i + 1) / 2 = i by omega] using this
            have key : ∀ a b : Buf, Buf.compact d a = true → Buf.compact d b = true →
                (∀ i, i < 2 ^ d → Buf.getAt d a i = Buf.getAt d b i) → a = b := by
              intro a b ha hb hab
              by_cases ha' : a = .nil
              · by_cases hb' : b = .nil
                · rw [ha', hb']
                · obtain ⟨i, hi, hg⟩ := Buf.compact_nonempty d b hb hb'
                  rw [← hab i hi, ha', Buf.getAt_nil] at hg; exact absurd rfl hg
              · by_cases hb' : b = .nil
                · obtain ⟨i, hi, hg⟩ := Buf.compact_nonempty d a ha ha'
                  rw [hab i hi, hb', Buf.getAt_nil] at hg; exact absurd rfl hg
                · exact ih a b ha hb hab ha' hb'
            rw [key e e' ht.1.1 hu.1.1 he, key o o' ht.1.2 hu.1.2 ho]

/-- Buffers in canonical form with the same elements are equal data. -/
theorem Buf.wf_ext (t u : Buf) (ht : t.wf) (hu : u.wf) (h : ∀ i, t.get i = u.get i) : t = u := by
  refine Buf.compact_ext _ _ _ ht.1 hu.1 fun i hi => ?_
  by_cases hb : i < Config.frameBytes
  · simpa only [Buf.get, if_pos hb] using h i
  · rw [ht.2 i (by omega) hi, hu.2 i (by omega) hi]

/-! ### Fullness -/

theorem Buf.full_iff (t : Buf) (n : Nat) : t.full n = true ↔ ∀ k, k < n → (t.get k).isSome = true := by
  simp [Buf.full, List.all_eq_true]

@[simp] theorem Buf.bytes_length (t : Buf) (n : Nat) : (t.bytes n).length = n := by simp [Buf.bytes]

theorem Buf.bytes_getElem (t : Buf) (n k : Nat) (h : t.full n = true) (hk : k < n) : (t.bytes n)[k]? = t.get k := by
  have := (Buf.full_iff t n).mp h k hk
  obtain ⟨b, hb⟩ := Option.isSome_iff_exists.mp this
  simp [Buf.bytes, hk, hb]

end Sys2Proof.Machine
end

