-- ==== Sys2Proof/Laws/Blocks.lean ====
section
/-! SUPPORT. Blocks element by element, frames and their bytes, and where block elements go in WRK and PAY
(10_state.md R32, 20_memory.md R81, 42_segment.md R200 to R202). -/

namespace Sys2Proof

/-! ### Rows and blocks entry by entry -/

@[simp] theorem Oct.get_ofFn {α : Type} (f : Fin 8 → α) (k : Fin 8) : (Oct.ofFn f).get k = f k := by
  fin_cases k <;> rfl

theorem Oct.ext_get {α : Type} (o p : Oct α) (h : ∀ k, o.get k = p.get k) : o = p := by
  cases o; cases p
  have h0 := h 0; have h1 := h 1; have h2 := h 2; have h3 := h 3
  have h4 := h 4; have h5 := h 5; have h6 := h 6; have h7 := h 7
  simp only [Oct.get] at h0 h1 h2 h3 h4 h5 h6 h7
  simp [*]

@[simp] theorem Oct.get_map {α β : Type} (f : α → β) (o : Oct α) (k : Fin 8) : (Oct.map f o).get k = f (o.get k) := by
  fin_cases k <;> rfl

@[simp] theorem Oct.get_zip {α β γ : Type} (f : α → β → γ) (o : Oct α) (p : Oct β) (k : Fin 8) :
    (Oct.zip f o p).get k = f (o.get k) (p.get k) := by
  fin_cases k <;> rfl

@[simp] theorem Oct.get_set {α : Type} (o : Oct α) (k : Fin 8) (a : α) (j : Fin 8) :
    (o.set k a).get j = if j = k then a else o.get j := by
  simp [Oct.set]

theorem Oct.values?_eq_some {α : Type} (o : Oct (Option α)) (v : Oct α) :
    o.values? = some v ↔ ∀ k, o.get k = some (v.get k) := by
  constructor
  · intro h k
    obtain ⟨a, b, c, d, e, f, g, i⟩ := o
    cases a <;> cases b <;> cases c <;> cases d <;> cases e <;> cases f <;> cases g <;> cases i <;>
      simp only [Oct.values?, Option.some.injEq, reduceCtorEq] at h
    subst h
    fin_cases k <;> rfl
  · intro h
    have h0 := h 0; have h1 := h 1; have h2 := h 2; have h3 := h 3
    have h4 := h 4; have h5 := h 5; have h6 := h 6; have h7 := h 7
    obtain ⟨a, b, c, d, e, f, g, i⟩ := o
    obtain ⟨a', b', c', d', e', f', g', i'⟩ := v
    simp only [Oct.get] at h0 h1 h2 h3 h4 h5 h6 h7
    subst h0 h1 h2 h3 h4 h5 h6 h7
    rfl

theorem Oct.mem_toList {α : Type} (o : Oct α) (a : α) : a ∈ o.toList ↔ ∃ k, o.get k = a := by
  constructor
  · intro h
    simp only [Oct.toList, List.mem_cons, List.not_mem_nil, or_false] at h
    rcases h with h | h | h | h | h | h | h | h
    exacts [⟨0, h.symm⟩, ⟨1, h.symm⟩, ⟨2, h.symm⟩, ⟨3, h.symm⟩, ⟨4, h.symm⟩, ⟨5, h.symm⟩, ⟨6, h.symm⟩, ⟨7, h.symm⟩]
  · rintro ⟨k, rfl⟩
    fin_cases k <;> simp [Oct.toList, Oct.get]

theorem Mat.ext_elem {α : Type} (m n : Mat α) (h : ∀ r c, Mat.elem m r c = Mat.elem n r c) : m = n :=
  Oct.ext_get _ _ fun r => Oct.ext_get _ _ fun c => h r c

@[simp] theorem Mat.elem_tabulate {α : Type} (f : Fin 8 → Fin 8 → α) (r c : Fin 8) : Mat.elem (Mat.tabulate f) r c = f r c := by
  simp [Mat.elem, Mat.tabulate]

@[simp] theorem Mat.elem_mapElems {α β : Type} (f : α → β) (m : Mat α) (r c : Fin 8) :
    Mat.elem (Mat.mapElems f m) r c = f (Mat.elem m r c) := by
  simp [Mat.elem, Mat.mapElems]

@[simp] theorem Mat.elem_zipElems {α β γ : Type} (f : α → β → γ) (m : Mat α) (n : Mat β) (r c : Fin 8) :
    Mat.elem (Mat.zipElems f m n) r c = f (Mat.elem m r c) (Mat.elem n r c) := by
  simp [Mat.elem, Mat.zipElems]

@[simp] theorem Mat.elem_transpose {α : Type} (m : Mat α) (r c : Fin 8) : Mat.elem (Mat.transpose m) r c = Mat.elem m c r := by
  simp [Mat.transpose]

/-- Writing one element (42_segment.md R211). -/
theorem Mat.elem_put {α : Type} (m : Mat α) (r c : Fin 8) (a : α) (r' c' : Fin 8) :
    Mat.elem (Mat.put m r c a) r' c' = if r' = r ∧ c' = c then a else Mat.elem m r' c' := by
  by_cases hr : r' = r
  · subst hr; simp [Mat.elem, Mat.put]
  · simp [Mat.elem, Mat.put, hr]

theorem Mat.values?_eq_some {α : Type} (m : Mat (Option α)) (v : Mat α) :
    Mat.values? m = some v ↔ ∀ r c, Mat.elem m r c = some (Mat.elem v r c) := by
  simp [Mat.values?, Mat.elem, Oct.values?_eq_some]

theorem Mat.mem_toList {α : Type} (m : Mat α) (a : α) : a ∈ Mat.toList m ↔ ∃ r c, Mat.elem m r c = a := by
  simp only [Mat.toList, List.mem_flatMap, Oct.mem_toList, Mat.elem]
  constructor
  · rintro ⟨o, ⟨r, rfl⟩, c, h⟩; exact ⟨r, c, h⟩
  · rintro ⟨r, c, h⟩; exact ⟨_, ⟨r, rfl⟩, c, h⟩

theorem Mat.every_iff {α : Type} (p : α → Bool) (m : Mat α) : Mat.every p m = true ↔ ∀ r c, p (Mat.elem m r c) = true := by
  simp only [Mat.every, List.all_eq_true, Mat.mem_toList]
  constructor
  · intro h r c; exact h _ ⟨r, c, rfl⟩
  · rintro h _ ⟨r, c, rfl⟩; exact h r c

/-! ### Frames and their bytes -/

theorem Frame.bytes_length (f : Frame) : (Frame.bytes f).length = 3 * f.length := by
  induction f with
  | nil => rfl
  | cons p f ih => simp only [Frame.bytes, List.flatMap_cons, List.length_append, List.length_cons] at *; rw [ih]; simp [Pixel.bytes]; omega

theorem Frame.bytes_cons (p : Pixel) (f : Frame) : Frame.bytes (p :: f) = p.c0 :: p.c1 :: p.c2 :: Frame.bytes f := rfl

theorem pixelsOf_bytes (f : Frame) : pixelsOf (Frame.bytes f) = f := by
  induction f with
  | nil => rfl
  | cons p f ih => rw [Frame.bytes_cons, pixelsOf, ih]

theorem Frame.bytes_getElem (f : Frame) (k : Nat) (ch : Chan) :
    (Frame.bytes f)[3 * k + ch.num]? = (f[k]?).map fun p => p.chan ch := by
  induction f generalizing k with
  | nil => simp [Frame.bytes]
  | cons p f ih =>
    rw [Frame.bytes_cons]
    cases k with
    | zero => cases ch <;> rfl
    | succ k =>
      rw [show 3 * (k + 1) + ch.num = 3 * k + ch.num + 1 + 1 + 1 by ring]
      simp only [List.getElem?_cons_succ]
      exact ih k

theorem pixelsOf_length (n : Nat) : ∀ bs : List Byte, bs.length = 3 * n → (pixelsOf bs).length = n := by
  induction n with
  | zero => intro bs h; obtain rfl := List.length_eq_zero_iff.mp (show bs.length = 0 by omega); rfl
  | succ n ih =>
    intro bs h
    match bs, h with
    | a :: b :: c :: rest, h => rw [pixelsOf, List.length_cons, ih rest (by simp at h; omega)]
    | [], h => simp at h
    | [_], h => simp at h; omega
    | [_, _], h => simp at h; omega

/-- A frame made of whole pixels has the samples of its bytes (20_memory.md R81). -/
theorem bytes_pixelsOf (n : Nat) : ∀ bs : List Byte, bs.length = 3 * n → Frame.bytes (pixelsOf bs) = bs := by
  induction n with
  | zero => intro bs h; obtain rfl := List.length_eq_zero_iff.mp (show bs.length = 0 by omega); rfl
  | succ n ih =>
    intro bs h
    match bs, h with
    | a :: b :: c :: rest, h => rw [pixelsOf, Frame.bytes_cons, ih rest (by simp at h; omega)]
    | [], h => simp at h
    | [_], h => simp at h; omega
    | [_, _], h => simp at h; omega

namespace Machine

/-! ### Where block elements go -/

theorem mem_placed (index : Fin 8 → Fin 8 → Nat) (m : Mat Byte) (x : Nat × Byte) :
    x ∈ placed index m ↔ ∃ r c, x = (index r c, Mat.elem m r c) := by
  simp only [placed, Mat.mem_toList, Mat.elem_tabulate]
  constructor
  · rintro ⟨r, c, h⟩; exact ⟨r, c, h.symm⟩
  · rintro ⟨r, c, h⟩; exact ⟨r, c, h.symm⟩

/-- 64 elements written, at different places below the end of the buffer: each holds its value. -/
theorem Buf.get_placed (t : Buf) (index : Fin 8 → Fin 8 → Nat) (m : Mat Byte) (r c : Fin 8)
    (inj : ∀ r' c', index r' c' = index r c → r' = r ∧ c' = c) (h : index r c < Config.frameBytes) :
    (t.setAll (placed index m)).get (index r c) = some (Mat.elem m r c) := by
  obtain ⟨x, hx, h1, h2⟩ := Buf.get_setAll_named t (placed index m) (index r c) h
    ⟨_, (mem_placed _ _ _).mpr ⟨r, c, rfl⟩, rfl⟩
  obtain ⟨r', c', rfl⟩ := (mem_placed _ _ _).mp hx
  obtain ⟨rfl, rfl⟩ := inj r' c' h1
  exact h2

/-- Elements at other places keep their content. -/
theorem Buf.get_placed_other (t : Buf) (index : Fin 8 → Fin 8 → Nat) (m : Mat Byte) (j : Nat)
    (h : ∀ r c, index r c ≠ j) : (t.setAll (placed index m)).get j = t.get j := by
  refine Buf.get_setAll_other _ _ _ fun x hx => ?_
  obtain ⟨r, c, rfl⟩ := (mem_placed _ _ _).mp hx
  exact h r c

theorem payIndex_inj (i : Nat) (r c r' c' : Fin 8) (h : payIndex i r' c' = payIndex i r c) : r' = r ∧ c' = c := by
  simp only [payIndex] at h
  constructor <;> apply Fin.ext <;> omega

theorem payIndex_lt (i : Nat) (r c : Fin 8) (h : i < Config.numBlocks) : payIndex i r c < Config.frameBytes := by
  simp only [payIndex, Config.numBlocks, Config.frameBytes] at *; omega

theorem Chan.num_inj (a b : Chan) (h : a.num = b.num) : a = b := by cases a <;> cases b <;> simp_all [Chan.num]

theorem Chan.num_lt (a : Chan) : a.num < 3 := by cases a <;> simp [Chan.num]

theorem blockChan_num (i : Nat) : (blockChan i).num = i % 3 := by
  have : i % 3 < 3 := Nat.mod_lt _ (by decide)
  simp only [blockChan]
  split
  · simp [Chan.num, *]
  · split
    · simp [Chan.num, *]
    · simp [Chan.num]; omega

theorem wrkIndex_eq (i : Nat) (r c : Fin 8) :
    wrkIndex i r c = 3 * (352 * (8 * (i / 3 / 44) + r) + (8 * (i / 3 % 44) + c)) + i % 3 := by
  simp [wrkIndex, sampleIndex, blockRow, blockCol, blockChan_num]

theorem wrkIndex_inj (i : Nat) (r c r' c' : Fin 8) (h : wrkIndex i r' c' = wrkIndex i r c) : r' = r ∧ c' = c := by
  rw [wrkIndex_eq, wrkIndex_eq] at h
  have := Nat.mod_lt (i / 3) (show 0 < 44 by decide)
  constructor <;> apply Fin.ext <;> omega

theorem wrkIndex_lt (i : Nat) (r c : Fin 8) (h : i < Config.numBlocks) : wrkIndex i r c < Config.frameBytes := by
  rw [wrkIndex_eq]
  simp only [Config.numBlocks, Config.frameBytes] at *
  have := Nat.mod_lt (i / 3) (show 0 < 44 by decide)
  omega

/-- Every sample of a frame belongs to some block (42_segment.md R201). -/
theorem wrkIndex_onto (j : Nat) (h : j < Config.frameBytes) :
    ∃ i r c, i < Config.numBlocks ∧ wrkIndex i r c = j := by
  simp only [Config.frameBytes] at h
  refine ⟨3 * (44 * (j / 3 / 352 / 8) + j / 3 % 352 / 8) + j % 3, ⟨j / 3 / 352 % 8, by omega⟩, ⟨j / 3 % 352 % 8, by omega⟩, ?_, ?_⟩
  · simp only [Config.numBlocks]; omega
  · rw [wrkIndex_eq]; simp only; omega

end Machine
end Sys2Proof
end

