-- ==== Sys2Proof/Laws/State.lean ====
section
/-! SUPPORT. What each update of the state leaves in each field, by definition, so that no proof unfolds one. -/

namespace Sys2Proof.Machine

/-! ### The fault registers written (60_exceptions.md R440) -/

@[simp] theorem State.recordFault_fault (s : State) (e : Trap) : (s.recordFault e).fault = true := rfl
@[simp] theorem State.recordFault_wact (s : State) (e : Trap) : (s.recordFault e).wact = s.wact := rfl
@[simp] theorem State.recordFault_wdone (s : State) (e : Trap) : (s.recordFault e).wdone = s.wdone := rfl
@[simp] theorem State.recordFault_ropen (s : State) (e : Trap) : (s.recordFault e).ropen = s.ropen := rfl
@[simp] theorem State.recordFault_eos (s : State) (e : Trap) : (s.recordFault e).eos = s.eos := rfl
@[simp] theorem State.recordFault_err (s : State) (e : Trap) : (s.recordFault e).err = e.errWord := rfl
@[simp] theorem State.recordFault_errOff (s : State) (e : Trap) : (s.recordFault e).errOff = e.off := rfl
@[simp] theorem State.recordFault_errCp (s : State) (e : Trap) : (s.recordFault e).errCp = s.cp := rfl
@[simp] theorem State.recordFault_cp (s : State) (e : Trap) : (s.recordFault e).cp = s.cp := rfl
@[simp] theorem State.recordFault_quality (s : State) (e : Trap) : (s.recordFault e).quality = s.quality := rfl
@[simp] theorem State.recordFault_frameCount (s : State) (e : Trap) : (s.recordFault e).frameCount = s.frameCount := rfl
@[simp] theorem State.recordFault_fidx (s : State) (e : Trap) : (s.recordFault e).fidx = s.fidx := rfl
@[simp] theorem State.recordFault_ftype (s : State) (e : Trap) : (s.recordFault e).ftype = s.ftype := rfl
@[simp] theorem State.recordFault_prevIdx (s : State) (e : Trap) : (s.recordFault e).prevIdx = s.prevIdx := rfl
@[simp] theorem State.recordFault_nrec (s : State) (e : Trap) : (s.recordFault e).nrec = s.nrec := rfl
@[simp] theorem State.recordFault_wpos (s : State) (e : Trap) : (s.recordFault e).wpos = s.wpos := rfl
@[simp] theorem State.recordFault_rpos (s : State) (e : Trap) : (s.recordFault e).rpos = s.rpos := rfl
@[simp] theorem State.recordFault_rnum (s : State) (e : Trap) : (s.recordFault e).rnum = s.rnum := rfl
@[simp] theorem State.recordFault_idx (s : State) (e : Trap) : (s.recordFault e).idx = s.idx := rfl
@[simp] theorem State.recordFault_payLen (s : State) (e : Trap) : (s.recordFault e).payLen = s.payLen := rfl
@[simp] theorem State.recordFault_bidx (s : State) (e : Trap) : (s.recordFault e).bidx = s.bidx := rfl
@[simp] theorem State.recordFault_bch (s : State) (e : Trap) : (s.recordFault e).bch = s.bch := rfl
@[simp] theorem State.recordFault_blk (s : State) (e : Trap) : (s.recordFault e).blk = s.blk := rfl
@[simp] theorem State.recordFault_rgb (s : State) (e : Trap) : (s.recordFault e).rgb = s.rgb := rfl
@[simp] theorem State.recordFault_cur (s : State) (e : Trap) : (s.recordFault e).cur = s.cur := rfl
@[simp] theorem State.recordFault_prev (s : State) (e : Trap) : (s.recordFault e).prev = s.prev := rfl
@[simp] theorem State.recordFault_wrk (s : State) (e : Trap) : (s.recordFault e).wrk = s.wrk := rfl
@[simp] theorem State.recordFault_pay (s : State) (e : Trap) : (s.recordFault e).pay = s.pay := rfl
@[simp] theorem State.recordFault_freq (s : State) (e : Trap) : (s.recordFault e).freq = s.freq := rfl
@[simp] theorem State.recordFault_lens (s : State) (e : Trap) : (s.recordFault e).lens = s.lens := rfl
@[simp] theorem State.recordFault_hdr (s : State) (e : Trap) : (s.recordFault e).hdr = s.hdr := rfl
@[simp] theorem State.recordFault_enc (s : State) (e : Trap) : (s.recordFault e).enc = s.enc := rfl
@[simp] theorem State.recordFault_raw (s : State) (e : Trap) : (s.recordFault e).raw = s.raw := rfl
@[simp] theorem State.recordFault_ctr (s : State) (e : Trap) : (s.recordFault e).ctr = s.ctr := rfl
@[simp] theorem State.recordFault_ioA (s : State) (e : Trap) : (s.recordFault e).ioA = s.ioA := rfl
@[simp] theorem State.recordFault_ioB (s : State) (e : Trap) : (s.recordFault e).ioB = s.ioB := rfl
@[simp] theorem State.recordFault_port (s : State) (e : Trap) : (s.recordFault e).port = s.port := rfl
@[simp] theorem State.recordFault_freeCount (s : State) (e : Trap) : (s.recordFault e).freeCount = s.freeCount := rfl

/-! ### Every element at its reset value (10_state.md R52) -/

@[simp] theorem State.clearAll_fault (s : State) : (s.clearAll).fault = State.reset.fault := rfl
@[simp] theorem State.clearAll_wact (s : State) : (s.clearAll).wact = State.reset.wact := rfl
@[simp] theorem State.clearAll_wdone (s : State) : (s.clearAll).wdone = State.reset.wdone := rfl
@[simp] theorem State.clearAll_ropen (s : State) : (s.clearAll).ropen = State.reset.ropen := rfl
@[simp] theorem State.clearAll_eos (s : State) : (s.clearAll).eos = State.reset.eos := rfl
@[simp] theorem State.clearAll_err (s : State) : (s.clearAll).err = State.reset.err := rfl
@[simp] theorem State.clearAll_errOff (s : State) : (s.clearAll).errOff = State.reset.errOff := rfl
@[simp] theorem State.clearAll_errCp (s : State) : (s.clearAll).errCp = State.reset.errCp := rfl
@[simp] theorem State.clearAll_cp (s : State) : (s.clearAll).cp = State.reset.cp := rfl
@[simp] theorem State.clearAll_quality (s : State) : (s.clearAll).quality = State.reset.quality := rfl
@[simp] theorem State.clearAll_frameCount (s : State) : (s.clearAll).frameCount = State.reset.frameCount := rfl
@[simp] theorem State.clearAll_fidx (s : State) : (s.clearAll).fidx = State.reset.fidx := rfl
@[simp] theorem State.clearAll_ftype (s : State) : (s.clearAll).ftype = State.reset.ftype := rfl
@[simp] theorem State.clearAll_prevIdx (s : State) : (s.clearAll).prevIdx = State.reset.prevIdx := rfl
@[simp] theorem State.clearAll_nrec (s : State) : (s.clearAll).nrec = State.reset.nrec := rfl
@[simp] theorem State.clearAll_wpos (s : State) : (s.clearAll).wpos = State.reset.wpos := rfl
@[simp] theorem State.clearAll_rpos (s : State) : (s.clearAll).rpos = State.reset.rpos := rfl
@[simp] theorem State.clearAll_rnum (s : State) : (s.clearAll).rnum = State.reset.rnum := rfl
@[simp] theorem State.clearAll_idx (s : State) : (s.clearAll).idx = State.reset.idx := rfl
@[simp] theorem State.clearAll_payLen (s : State) : (s.clearAll).payLen = State.reset.payLen := rfl
@[simp] theorem State.clearAll_bidx (s : State) : (s.clearAll).bidx = State.reset.bidx := rfl
@[simp] theorem State.clearAll_bch (s : State) : (s.clearAll).bch = State.reset.bch := rfl
@[simp] theorem State.clearAll_blk (s : State) : (s.clearAll).blk = State.reset.blk := rfl
@[simp] theorem State.clearAll_rgb (s : State) : (s.clearAll).rgb = State.reset.rgb := rfl
@[simp] theorem State.clearAll_cur (s : State) : (s.clearAll).cur = State.reset.cur := rfl
@[simp] theorem State.clearAll_prev (s : State) : (s.clearAll).prev = State.reset.prev := rfl
@[simp] theorem State.clearAll_wrk (s : State) : (s.clearAll).wrk = State.reset.wrk := rfl
@[simp] theorem State.clearAll_pay (s : State) : (s.clearAll).pay = State.reset.pay := rfl
@[simp] theorem State.clearAll_freq (s : State) : (s.clearAll).freq = State.reset.freq := rfl
@[simp] theorem State.clearAll_lens (s : State) : (s.clearAll).lens = State.reset.lens := rfl
@[simp] theorem State.clearAll_hdr (s : State) : (s.clearAll).hdr = State.reset.hdr := rfl
@[simp] theorem State.clearAll_enc (s : State) : (s.clearAll).enc = State.reset.enc := rfl
@[simp] theorem State.clearAll_raw (s : State) : (s.clearAll).raw = s.raw := rfl
@[simp] theorem State.clearAll_ctr (s : State) : (s.clearAll).ctr = s.ctr := rfl
@[simp] theorem State.clearAll_ioA (s : State) : (s.clearAll).ioA = s.ioA := rfl
@[simp] theorem State.clearAll_ioB (s : State) : (s.clearAll).ioB = s.ioB := rfl
@[simp] theorem State.clearAll_port (s : State) : (s.clearAll).port = s.port := rfl
@[simp] theorem State.clearAll_freeCount (s : State) : (s.clearAll).freeCount = s.freeCount := rfl

/-! ### Tables dropped (45_entropy.md R282) -/

@[simp] theorem State.dropTables_fault (s : State) : (s.dropTables).fault = s.fault := rfl
@[simp] theorem State.dropTables_wact (s : State) : (s.dropTables).wact = s.wact := rfl
@[simp] theorem State.dropTables_wdone (s : State) : (s.dropTables).wdone = s.wdone := rfl
@[simp] theorem State.dropTables_ropen (s : State) : (s.dropTables).ropen = s.ropen := rfl
@[simp] theorem State.dropTables_eos (s : State) : (s.dropTables).eos = s.eos := rfl
@[simp] theorem State.dropTables_err (s : State) : (s.dropTables).err = s.err := rfl
@[simp] theorem State.dropTables_errOff (s : State) : (s.dropTables).errOff = s.errOff := rfl
@[simp] theorem State.dropTables_errCp (s : State) : (s.dropTables).errCp = s.errCp := rfl
@[simp] theorem State.dropTables_cp (s : State) : (s.dropTables).cp = s.cp := rfl
@[simp] theorem State.dropTables_quality (s : State) : (s.dropTables).quality = s.quality := rfl
@[simp] theorem State.dropTables_frameCount (s : State) : (s.dropTables).frameCount = s.frameCount := rfl
@[simp] theorem State.dropTables_fidx (s : State) : (s.dropTables).fidx = s.fidx := rfl
@[simp] theorem State.dropTables_ftype (s : State) : (s.dropTables).ftype = s.ftype := rfl
@[simp] theorem State.dropTables_prevIdx (s : State) : (s.dropTables).prevIdx = s.prevIdx := rfl
@[simp] theorem State.dropTables_nrec (s : State) : (s.dropTables).nrec = s.nrec := rfl
@[simp] theorem State.dropTables_wpos (s : State) : (s.dropTables).wpos = s.wpos := rfl
@[simp] theorem State.dropTables_rpos (s : State) : (s.dropTables).rpos = s.rpos := rfl
@[simp] theorem State.dropTables_rnum (s : State) : (s.dropTables).rnum = s.rnum := rfl
@[simp] theorem State.dropTables_idx (s : State) : (s.dropTables).idx = s.idx := rfl
@[simp] theorem State.dropTables_payLen (s : State) : (s.dropTables).payLen = s.payLen := rfl
@[simp] theorem State.dropTables_bidx (s : State) : (s.dropTables).bidx = s.bidx := rfl
@[simp] theorem State.dropTables_bch (s : State) : (s.dropTables).bch = s.bch := rfl
@[simp] theorem State.dropTables_blk (s : State) : (s.dropTables).blk = s.blk := rfl
@[simp] theorem State.dropTables_rgb (s : State) : (s.dropTables).rgb = s.rgb := rfl
@[simp] theorem State.dropTables_cur (s : State) : (s.dropTables).cur = s.cur := rfl
@[simp] theorem State.dropTables_prev (s : State) : (s.dropTables).prev = s.prev := rfl
@[simp] theorem State.dropTables_wrk (s : State) : (s.dropTables).wrk = s.wrk := rfl
@[simp] theorem State.dropTables_pay (s : State) : (s.dropTables).pay = s.pay := rfl
@[simp] theorem State.dropTables_freq (s : State) : (s.dropTables).freq = none := rfl
@[simp] theorem State.dropTables_lens (s : State) : (s.dropTables).lens = none := rfl
@[simp] theorem State.dropTables_hdr (s : State) : (s.dropTables).hdr = none := rfl
@[simp] theorem State.dropTables_enc (s : State) : (s.dropTables).enc = s.enc := rfl
@[simp] theorem State.dropTables_raw (s : State) : (s.dropTables).raw = s.raw := rfl
@[simp] theorem State.dropTables_ctr (s : State) : (s.dropTables).ctr = s.ctr := rfl
@[simp] theorem State.dropTables_ioA (s : State) : (s.dropTables).ioA = s.ioA := rfl
@[simp] theorem State.dropTables_ioB (s : State) : (s.dropTables).ioB = s.ioB := rfl
@[simp] theorem State.dropTables_port (s : State) : (s.dropTables).port = s.port := rfl
@[simp] theorem State.dropTables_freeCount (s : State) : (s.dropTables).freeCount = s.freeCount := rfl

/-! ### BLK replaced -/

@[simp] theorem State.setBlk_fault (s : State) (m : Mat F64) : (s.setBlk m).fault = s.fault := rfl
@[simp] theorem State.setBlk_wact (s : State) (m : Mat F64) : (s.setBlk m).wact = s.wact := rfl
@[simp] theorem State.setBlk_wdone (s : State) (m : Mat F64) : (s.setBlk m).wdone = s.wdone := rfl
@[simp] theorem State.setBlk_ropen (s : State) (m : Mat F64) : (s.setBlk m).ropen = s.ropen := rfl
@[simp] theorem State.setBlk_eos (s : State) (m : Mat F64) : (s.setBlk m).eos = s.eos := rfl
@[simp] theorem State.setBlk_err (s : State) (m : Mat F64) : (s.setBlk m).err = s.err := rfl
@[simp] theorem State.setBlk_errOff (s : State) (m : Mat F64) : (s.setBlk m).errOff = s.errOff := rfl
@[simp] theorem State.setBlk_errCp (s : State) (m : Mat F64) : (s.setBlk m).errCp = s.errCp := rfl
@[simp] theorem State.setBlk_cp (s : State) (m : Mat F64) : (s.setBlk m).cp = s.cp := rfl
@[simp] theorem State.setBlk_quality (s : State) (m : Mat F64) : (s.setBlk m).quality = s.quality := rfl
@[simp] theorem State.setBlk_frameCount (s : State) (m : Mat F64) : (s.setBlk m).frameCount = s.frameCount := rfl
@[simp] theorem State.setBlk_fidx (s : State) (m : Mat F64) : (s.setBlk m).fidx = s.fidx := rfl
@[simp] theorem State.setBlk_ftype (s : State) (m : Mat F64) : (s.setBlk m).ftype = s.ftype := rfl
@[simp] theorem State.setBlk_prevIdx (s : State) (m : Mat F64) : (s.setBlk m).prevIdx = s.prevIdx := rfl
@[simp] theorem State.setBlk_nrec (s : State) (m : Mat F64) : (s.setBlk m).nrec = s.nrec := rfl
@[simp] theorem State.setBlk_wpos (s : State) (m : Mat F64) : (s.setBlk m).wpos = s.wpos := rfl
@[simp] theorem State.setBlk_rpos (s : State) (m : Mat F64) : (s.setBlk m).rpos = s.rpos := rfl
@[simp] theorem State.setBlk_rnum (s : State) (m : Mat F64) : (s.setBlk m).rnum = s.rnum := rfl
@[simp] theorem State.setBlk_idx (s : State) (m : Mat F64) : (s.setBlk m).idx = s.idx := rfl
@[simp] theorem State.setBlk_payLen (s : State) (m : Mat F64) : (s.setBlk m).payLen = s.payLen := rfl
@[simp] theorem State.setBlk_bidx (s : State) (m : Mat F64) : (s.setBlk m).bidx = s.bidx := rfl
@[simp] theorem State.setBlk_bch (s : State) (m : Mat F64) : (s.setBlk m).bch = s.bch := rfl
@[simp] theorem State.setBlk_blk (s : State) (m : Mat F64) : (s.setBlk m).blk = Mat.mapElems some m := rfl
@[simp] theorem State.setBlk_rgb (s : State) (m : Mat F64) : (s.setBlk m).rgb = s.rgb := rfl
@[simp] theorem State.setBlk_cur (s : State) (m : Mat F64) : (s.setBlk m).cur = s.cur := rfl
@[simp] theorem State.setBlk_prev (s : State) (m : Mat F64) : (s.setBlk m).prev = s.prev := rfl
@[simp] theorem State.setBlk_wrk (s : State) (m : Mat F64) : (s.setBlk m).wrk = s.wrk := rfl
@[simp] theorem State.setBlk_pay (s : State) (m : Mat F64) : (s.setBlk m).pay = s.pay := rfl
@[simp] theorem State.setBlk_freq (s : State) (m : Mat F64) : (s.setBlk m).freq = s.freq := rfl
@[simp] theorem State.setBlk_lens (s : State) (m : Mat F64) : (s.setBlk m).lens = s.lens := rfl
@[simp] theorem State.setBlk_hdr (s : State) (m : Mat F64) : (s.setBlk m).hdr = s.hdr := rfl
@[simp] theorem State.setBlk_enc (s : State) (m : Mat F64) : (s.setBlk m).enc = s.enc := rfl
@[simp] theorem State.setBlk_raw (s : State) (m : Mat F64) : (s.setBlk m).raw = s.raw := rfl
@[simp] theorem State.setBlk_ctr (s : State) (m : Mat F64) : (s.setBlk m).ctr = s.ctr := rfl
@[simp] theorem State.setBlk_ioA (s : State) (m : Mat F64) : (s.setBlk m).ioA = s.ioA := rfl
@[simp] theorem State.setBlk_ioB (s : State) (m : Mat F64) : (s.setBlk m).ioB = s.ioB := rfl
@[simp] theorem State.setBlk_port (s : State) (m : Mat F64) : (s.setBlk m).port = s.port := rfl
@[simp] theorem State.setBlk_freeCount (s : State) (m : Mat F64) : (s.setBlk m).freeCount = s.freeCount := rfl

/-! ### A block taken in (42_segment.md R203, R209) -/

@[simp] theorem State.takeBlock_fault (s : State) (i : Nat) (m : Mat Byte) : (s.takeBlock i m).fault = s.fault := rfl
@[simp] theorem State.takeBlock_wact (s : State) (i : Nat) (m : Mat Byte) : (s.takeBlock i m).wact = s.wact := rfl
@[simp] theorem State.takeBlock_wdone (s : State) (i : Nat) (m : Mat Byte) : (s.takeBlock i m).wdone = s.wdone := rfl
@[simp] theorem State.takeBlock_ropen (s : State) (i : Nat) (m : Mat Byte) : (s.takeBlock i m).ropen = s.ropen := rfl
@[simp] theorem State.takeBlock_eos (s : State) (i : Nat) (m : Mat Byte) : (s.takeBlock i m).eos = s.eos := rfl
@[simp] theorem State.takeBlock_err (s : State) (i : Nat) (m : Mat Byte) : (s.takeBlock i m).err = s.err := rfl
@[simp] theorem State.takeBlock_errOff (s : State) (i : Nat) (m : Mat Byte) : (s.takeBlock i m).errOff = s.errOff := rfl
@[simp] theorem State.takeBlock_errCp (s : State) (i : Nat) (m : Mat Byte) : (s.takeBlock i m).errCp = s.errCp := rfl
@[simp] theorem State.takeBlock_cp (s : State) (i : Nat) (m : Mat Byte) : (s.takeBlock i m).cp = s.cp := rfl
@[simp] theorem State.takeBlock_quality (s : State) (i : Nat) (m : Mat Byte) : (s.takeBlock i m).quality = s.quality := rfl
@[simp] theorem State.takeBlock_frameCount (s : State) (i : Nat) (m : Mat Byte) : (s.takeBlock i m).frameCount = s.frameCount := rfl
@[simp] theorem State.takeBlock_fidx (s : State) (i : Nat) (m : Mat Byte) : (s.takeBlock i m).fidx = s.fidx := rfl
@[simp] theorem State.takeBlock_ftype (s : State) (i : Nat) (m : Mat Byte) : (s.takeBlock i m).ftype = s.ftype := rfl
@[simp] theorem State.takeBlock_prevIdx (s : State) (i : Nat) (m : Mat Byte) : (s.takeBlock i m).prevIdx = s.prevIdx := rfl
@[simp] theorem State.takeBlock_nrec (s : State) (i : Nat) (m : Mat Byte) : (s.takeBlock i m).nrec = s.nrec := rfl
@[simp] theorem State.takeBlock_wpos (s : State) (i : Nat) (m : Mat Byte) : (s.takeBlock i m).wpos = s.wpos := rfl
@[simp] theorem State.takeBlock_rpos (s : State) (i : Nat) (m : Mat Byte) : (s.takeBlock i m).rpos = s.rpos := rfl
@[simp] theorem State.takeBlock_rnum (s : State) (i : Nat) (m : Mat Byte) : (s.takeBlock i m).rnum = s.rnum := rfl
@[simp] theorem State.takeBlock_idx (s : State) (i : Nat) (m : Mat Byte) : (s.takeBlock i m).idx = s.idx := rfl
@[simp] theorem State.takeBlock_payLen (s : State) (i : Nat) (m : Mat Byte) : (s.takeBlock i m).payLen = s.payLen := rfl
@[simp] theorem State.takeBlock_bidx (s : State) (i : Nat) (m : Mat Byte) : (s.takeBlock i m).bidx = BitVec.ofNat 16 i := rfl
@[simp] theorem State.takeBlock_bch (s : State) (i : Nat) (m : Mat Byte) : (s.takeBlock i m).bch = some (blockChan i) := rfl
@[simp] theorem State.takeBlock_blk (s : State) (i : Nat) (m : Mat Byte) : (s.takeBlock i m).blk = Mat.mapElems (fun b : Byte => some (F64.ofNat b.toNat)) m := rfl
@[simp] theorem State.takeBlock_rgb (s : State) (i : Nat) (m : Mat Byte) : (s.takeBlock i m).rgb = s.rgb := rfl
@[simp] theorem State.takeBlock_cur (s : State) (i : Nat) (m : Mat Byte) : (s.takeBlock i m).cur = s.cur := rfl
@[simp] theorem State.takeBlock_prev (s : State) (i : Nat) (m : Mat Byte) : (s.takeBlock i m).prev = s.prev := rfl
@[simp] theorem State.takeBlock_wrk (s : State) (i : Nat) (m : Mat Byte) : (s.takeBlock i m).wrk = s.wrk := rfl
@[simp] theorem State.takeBlock_pay (s : State) (i : Nat) (m : Mat Byte) : (s.takeBlock i m).pay = s.pay := rfl
@[simp] theorem State.takeBlock_freq (s : State) (i : Nat) (m : Mat Byte) : (s.takeBlock i m).freq = s.freq := rfl
@[simp] theorem State.takeBlock_lens (s : State) (i : Nat) (m : Mat Byte) : (s.takeBlock i m).lens = s.lens := rfl
@[simp] theorem State.takeBlock_hdr (s : State) (i : Nat) (m : Mat Byte) : (s.takeBlock i m).hdr = s.hdr := rfl
@[simp] theorem State.takeBlock_enc (s : State) (i : Nat) (m : Mat Byte) : (s.takeBlock i m).enc = s.enc := rfl
@[simp] theorem State.takeBlock_raw (s : State) (i : Nat) (m : Mat Byte) : (s.takeBlock i m).raw = s.raw := rfl
@[simp] theorem State.takeBlock_ctr (s : State) (i : Nat) (m : Mat Byte) : (s.takeBlock i m).ctr = s.ctr := rfl
@[simp] theorem State.takeBlock_ioA (s : State) (i : Nat) (m : Mat Byte) : (s.takeBlock i m).ioA = s.ioA := rfl
@[simp] theorem State.takeBlock_ioB (s : State) (i : Nat) (m : Mat Byte) : (s.takeBlock i m).ioB = s.ioB := rfl
@[simp] theorem State.takeBlock_port (s : State) (i : Nat) (m : Mat Byte) : (s.takeBlock i m).port = s.port := rfl
@[simp] theorem State.takeBlock_freeCount (s : State) (i : Nat) (m : Mat Byte) : (s.takeBlock i m).freeCount = s.freeCount := rfl

/-! ### A decoded frame accepted (41_temporal.md R186) -/

@[simp] theorem State.acceptFrame_fault (s : State) (f : Frame) (i : BitVec 32) : (s.acceptFrame f i).fault = s.fault := rfl
@[simp] theorem State.acceptFrame_wact (s : State) (f : Frame) (i : BitVec 32) : (s.acceptFrame f i).wact = s.wact := rfl
@[simp] theorem State.acceptFrame_wdone (s : State) (f : Frame) (i : BitVec 32) : (s.acceptFrame f i).wdone = s.wdone := rfl
@[simp] theorem State.acceptFrame_ropen (s : State) (f : Frame) (i : BitVec 32) : (s.acceptFrame f i).ropen = s.ropen := rfl
@[simp] theorem State.acceptFrame_eos (s : State) (f : Frame) (i : BitVec 32) : (s.acceptFrame f i).eos = s.eos := rfl
@[simp] theorem State.acceptFrame_err (s : State) (f : Frame) (i : BitVec 32) : (s.acceptFrame f i).err = s.err := rfl
@[simp] theorem State.acceptFrame_errOff (s : State) (f : Frame) (i : BitVec 32) : (s.acceptFrame f i).errOff = s.errOff := rfl
@[simp] theorem State.acceptFrame_errCp (s : State) (f : Frame) (i : BitVec 32) : (s.acceptFrame f i).errCp = s.errCp := rfl
@[simp] theorem State.acceptFrame_cp (s : State) (f : Frame) (i : BitVec 32) : (s.acceptFrame f i).cp = s.cp := rfl
@[simp] theorem State.acceptFrame_quality (s : State) (f : Frame) (i : BitVec 32) : (s.acceptFrame f i).quality = s.quality := rfl
@[simp] theorem State.acceptFrame_frameCount (s : State) (f : Frame) (i : BitVec 32) : (s.acceptFrame f i).frameCount = s.frameCount := rfl
@[simp] theorem State.acceptFrame_fidx (s : State) (f : Frame) (i : BitVec 32) : (s.acceptFrame f i).fidx = s.fidx := rfl
@[simp] theorem State.acceptFrame_ftype (s : State) (f : Frame) (i : BitVec 32) : (s.acceptFrame f i).ftype = s.ftype := rfl
@[simp] theorem State.acceptFrame_prevIdx (s : State) (f : Frame) (i : BitVec 32) : (s.acceptFrame f i).prevIdx = some i := rfl
@[simp] theorem State.acceptFrame_nrec (s : State) (f : Frame) (i : BitVec 32) : (s.acceptFrame f i).nrec = s.nrec := rfl
@[simp] theorem State.acceptFrame_wpos (s : State) (f : Frame) (i : BitVec 32) : (s.acceptFrame f i).wpos = s.wpos := rfl
@[simp] theorem State.acceptFrame_rpos (s : State) (f : Frame) (i : BitVec 32) : (s.acceptFrame f i).rpos = s.rpos := rfl
@[simp] theorem State.acceptFrame_rnum (s : State) (f : Frame) (i : BitVec 32) : (s.acceptFrame f i).rnum = s.rnum := rfl
@[simp] theorem State.acceptFrame_idx (s : State) (f : Frame) (i : BitVec 32) : (s.acceptFrame f i).idx = s.idx := rfl
@[simp] theorem State.acceptFrame_payLen (s : State) (f : Frame) (i : BitVec 32) : (s.acceptFrame f i).payLen = s.payLen := rfl
@[simp] theorem State.acceptFrame_bidx (s : State) (f : Frame) (i : BitVec 32) : (s.acceptFrame f i).bidx = s.bidx := rfl
@[simp] theorem State.acceptFrame_bch (s : State) (f : Frame) (i : BitVec 32) : (s.acceptFrame f i).bch = s.bch := rfl
@[simp] theorem State.acceptFrame_blk (s : State) (f : Frame) (i : BitVec 32) : (s.acceptFrame f i).blk = s.blk := rfl
@[simp] theorem State.acceptFrame_rgb (s : State) (f : Frame) (i : BitVec 32) : (s.acceptFrame f i).rgb = s.rgb := rfl
@[simp] theorem State.acceptFrame_cur (s : State) (f : Frame) (i : BitVec 32) : (s.acceptFrame f i).cur = some f := rfl
@[simp] theorem State.acceptFrame_prev (s : State) (f : Frame) (i : BitVec 32) : (s.acceptFrame f i).prev = some f := rfl
@[simp] theorem State.acceptFrame_wrk (s : State) (f : Frame) (i : BitVec 32) : (s.acceptFrame f i).wrk = .nil := rfl
@[simp] theorem State.acceptFrame_pay (s : State) (f : Frame) (i : BitVec 32) : (s.acceptFrame f i).pay = s.pay := rfl
@[simp] theorem State.acceptFrame_freq (s : State) (f : Frame) (i : BitVec 32) : (s.acceptFrame f i).freq = s.freq := rfl
@[simp] theorem State.acceptFrame_lens (s : State) (f : Frame) (i : BitVec 32) : (s.acceptFrame f i).lens = s.lens := rfl
@[simp] theorem State.acceptFrame_hdr (s : State) (f : Frame) (i : BitVec 32) : (s.acceptFrame f i).hdr = s.hdr := rfl
@[simp] theorem State.acceptFrame_enc (s : State) (f : Frame) (i : BitVec 32) : (s.acceptFrame f i).enc = s.enc := rfl
@[simp] theorem State.acceptFrame_raw (s : State) (f : Frame) (i : BitVec 32) : (s.acceptFrame f i).raw = s.raw := rfl
@[simp] theorem State.acceptFrame_ctr (s : State) (f : Frame) (i : BitVec 32) : (s.acceptFrame f i).ctr = s.ctr := rfl
@[simp] theorem State.acceptFrame_ioA (s : State) (f : Frame) (i : BitVec 32) : (s.acceptFrame f i).ioA = s.ioA := rfl
@[simp] theorem State.acceptFrame_ioB (s : State) (f : Frame) (i : BitVec 32) : (s.acceptFrame f i).ioB = s.ioB := rfl
@[simp] theorem State.acceptFrame_port (s : State) (f : Frame) (i : BitVec 32) : (s.acceptFrame f i).port = s.port := rfl
@[simp] theorem State.acceptFrame_freeCount (s : State) (f : Frame) (i : BitVec 32) : (s.acceptFrame f i).freeCount = s.freeCount := rfl

/-! ### A reader opened (46_container.md R340) -/

@[simp] theorem State.openReader_fault (s : State) (q n : BitVec 32) : (s.openReader q n).fault = s.fault := rfl
@[simp] theorem State.openReader_wact (s : State) (q n : BitVec 32) : (s.openReader q n).wact = s.wact := rfl
@[simp] theorem State.openReader_wdone (s : State) (q n : BitVec 32) : (s.openReader q n).wdone = s.wdone := rfl
@[simp] theorem State.openReader_ropen (s : State) (q n : BitVec 32) : (s.openReader q n).ropen = true := rfl
@[simp] theorem State.openReader_eos (s : State) (q n : BitVec 32) : (s.openReader q n).eos = decide (n.toNat = 0) := rfl
@[simp] theorem State.openReader_err (s : State) (q n : BitVec 32) : (s.openReader q n).err = s.err := rfl
@[simp] theorem State.openReader_errOff (s : State) (q n : BitVec 32) : (s.openReader q n).errOff = s.errOff := rfl
@[simp] theorem State.openReader_errCp (s : State) (q n : BitVec 32) : (s.openReader q n).errCp = s.errCp := rfl
@[simp] theorem State.openReader_cp (s : State) (q n : BitVec 32) : (s.openReader q n).cp = s.cp := rfl
@[simp] theorem State.openReader_quality (s : State) (q n : BitVec 32) : (s.openReader q n).quality = some q := rfl
@[simp] theorem State.openReader_frameCount (s : State) (q n : BitVec 32) : (s.openReader q n).frameCount = some n := rfl
@[simp] theorem State.openReader_fidx (s : State) (q n : BitVec 32) : (s.openReader q n).fidx = s.fidx := rfl
@[simp] theorem State.openReader_ftype (s : State) (q n : BitVec 32) : (s.openReader q n).ftype = s.ftype := rfl
@[simp] theorem State.openReader_prevIdx (s : State) (q n : BitVec 32) : (s.openReader q n).prevIdx = none := rfl
@[simp] theorem State.openReader_nrec (s : State) (q n : BitVec 32) : (s.openReader q n).nrec = s.nrec := rfl
@[simp] theorem State.openReader_wpos (s : State) (q n : BitVec 32) : (s.openReader q n).wpos = s.wpos := rfl
@[simp] theorem State.openReader_rpos (s : State) (q n : BitVec 32) : (s.openReader q n).rpos = Config.fileHdr := rfl
@[simp] theorem State.openReader_rnum (s : State) (q n : BitVec 32) : (s.openReader q n).rnum = 0 := rfl
@[simp] theorem State.openReader_idx (s : State) (q n : BitVec 32) : (s.openReader q n).idx = if 0 < n.toNat then [Config.fileHdr] else [] := rfl
@[simp] theorem State.openReader_payLen (s : State) (q n : BitVec 32) : (s.openReader q n).payLen = s.payLen := rfl
@[simp] theorem State.openReader_bidx (s : State) (q n : BitVec 32) : (s.openReader q n).bidx = s.bidx := rfl
@[simp] theorem State.openReader_bch (s : State) (q n : BitVec 32) : (s.openReader q n).bch = s.bch := rfl
@[simp] theorem State.openReader_blk (s : State) (q n : BitVec 32) : (s.openReader q n).blk = s.blk := rfl
@[simp] theorem State.openReader_rgb (s : State) (q n : BitVec 32) : (s.openReader q n).rgb = s.rgb := rfl
@[simp] theorem State.openReader_cur (s : State) (q n : BitVec 32) : (s.openReader q n).cur = s.cur := rfl
@[simp] theorem State.openReader_prev (s : State) (q n : BitVec 32) : (s.openReader q n).prev = none := rfl
@[simp] theorem State.openReader_wrk (s : State) (q n : BitVec 32) : (s.openReader q n).wrk = s.wrk := rfl
@[simp] theorem State.openReader_pay (s : State) (q n : BitVec 32) : (s.openReader q n).pay = s.pay := rfl
@[simp] theorem State.openReader_freq (s : State) (q n : BitVec 32) : (s.openReader q n).freq = s.freq := rfl
@[simp] theorem State.openReader_lens (s : State) (q n : BitVec 32) : (s.openReader q n).lens = s.lens := rfl
@[simp] theorem State.openReader_hdr (s : State) (q n : BitVec 32) : (s.openReader q n).hdr = s.hdr := rfl
@[simp] theorem State.openReader_enc (s : State) (q n : BitVec 32) : (s.openReader q n).enc = s.enc := rfl
@[simp] theorem State.openReader_raw (s : State) (q n : BitVec 32) : (s.openReader q n).raw = s.raw := rfl
@[simp] theorem State.openReader_ctr (s : State) (q n : BitVec 32) : (s.openReader q n).ctr = s.ctr := rfl
@[simp] theorem State.openReader_ioA (s : State) (q n : BitVec 32) : (s.openReader q n).ioA = s.ioA := rfl
@[simp] theorem State.openReader_ioB (s : State) (q n : BitVec 32) : (s.openReader q n).ioB = s.ioB := rfl
@[simp] theorem State.openReader_port (s : State) (q n : BitVec 32) : (s.openReader q n).port = s.port := rfl
@[simp] theorem State.openReader_freeCount (s : State) (q n : BitVec 32) : (s.openReader q n).freeCount = s.freeCount := rfl

/-! ### A record taken (46_container.md R345) -/

@[simp] theorem State.takeRecord_fault (s : State) (t : FrameType) (next stop : Nat) : (s.takeRecord t next stop).fault = s.fault := rfl
@[simp] theorem State.takeRecord_wact (s : State) (t : FrameType) (next stop : Nat) : (s.takeRecord t next stop).wact = s.wact := rfl
@[simp] theorem State.takeRecord_wdone (s : State) (t : FrameType) (next stop : Nat) : (s.takeRecord t next stop).wdone = s.wdone := rfl
@[simp] theorem State.takeRecord_ropen (s : State) (t : FrameType) (next stop : Nat) : (s.takeRecord t next stop).ropen = s.ropen := rfl
@[simp] theorem State.takeRecord_eos (s : State) (t : FrameType) (next stop : Nat) : (s.takeRecord t next stop).eos = if next = 0 then true else s.eos := rfl
@[simp] theorem State.takeRecord_err (s : State) (t : FrameType) (next stop : Nat) : (s.takeRecord t next stop).err = s.err := rfl
@[simp] theorem State.takeRecord_errOff (s : State) (t : FrameType) (next stop : Nat) : (s.takeRecord t next stop).errOff = s.errOff := rfl
@[simp] theorem State.takeRecord_errCp (s : State) (t : FrameType) (next stop : Nat) : (s.takeRecord t next stop).errCp = s.errCp := rfl
@[simp] theorem State.takeRecord_cp (s : State) (t : FrameType) (next stop : Nat) : (s.takeRecord t next stop).cp = s.cp := rfl
@[simp] theorem State.takeRecord_quality (s : State) (t : FrameType) (next stop : Nat) : (s.takeRecord t next stop).quality = s.quality := rfl
@[simp] theorem State.takeRecord_frameCount (s : State) (t : FrameType) (next stop : Nat) : (s.takeRecord t next stop).frameCount = s.frameCount := rfl
@[simp] theorem State.takeRecord_fidx (s : State) (t : FrameType) (next stop : Nat) : (s.takeRecord t next stop).fidx = some s.rnum := rfl
@[simp] theorem State.takeRecord_ftype (s : State) (t : FrameType) (next stop : Nat) : (s.takeRecord t next stop).ftype = some t := rfl
@[simp] theorem State.takeRecord_prevIdx (s : State) (t : FrameType) (next stop : Nat) : (s.takeRecord t next stop).prevIdx = s.prevIdx := rfl
@[simp] theorem State.takeRecord_nrec (s : State) (t : FrameType) (next stop : Nat) : (s.takeRecord t next stop).nrec = s.nrec := rfl
@[simp] theorem State.takeRecord_wpos (s : State) (t : FrameType) (next stop : Nat) : (s.takeRecord t next stop).wpos = s.wpos := rfl
@[simp] theorem State.takeRecord_rpos (s : State) (t : FrameType) (next stop : Nat) : (s.takeRecord t next stop).rpos = next := rfl
@[simp] theorem State.takeRecord_rnum (s : State) (t : FrameType) (next stop : Nat) : (s.takeRecord t next stop).rnum = s.rnum + 1 := rfl
@[simp] theorem State.takeRecord_idx (s : State) (t : FrameType) (next stop : Nat) : (s.takeRecord t next stop).idx = if next ≠ 0 ∧ s.rnum.toNat + 1 = s.idx.length then s.idx ++ [next] else s.idx := rfl
@[simp] theorem State.takeRecord_payLen (s : State) (t : FrameType) (next stop : Nat) : (s.takeRecord t next stop).payLen = s.payLen := rfl
@[simp] theorem State.takeRecord_bidx (s : State) (t : FrameType) (next stop : Nat) : (s.takeRecord t next stop).bidx = s.bidx := rfl
@[simp] theorem State.takeRecord_bch (s : State) (t : FrameType) (next stop : Nat) : (s.takeRecord t next stop).bch = s.bch := rfl
@[simp] theorem State.takeRecord_blk (s : State) (t : FrameType) (next stop : Nat) : (s.takeRecord t next stop).blk = s.blk := rfl
@[simp] theorem State.takeRecord_rgb (s : State) (t : FrameType) (next stop : Nat) : (s.takeRecord t next stop).rgb = s.rgb := rfl
@[simp] theorem State.takeRecord_cur (s : State) (t : FrameType) (next stop : Nat) : (s.takeRecord t next stop).cur = s.cur := rfl
@[simp] theorem State.takeRecord_prev (s : State) (t : FrameType) (next stop : Nat) : (s.takeRecord t next stop).prev = s.prev := rfl
@[simp] theorem State.takeRecord_wrk (s : State) (t : FrameType) (next stop : Nat) : (s.takeRecord t next stop).wrk = s.wrk := rfl
@[simp] theorem State.takeRecord_pay (s : State) (t : FrameType) (next stop : Nat) : (s.takeRecord t next stop).pay = s.pay := rfl
@[simp] theorem State.takeRecord_freq (s : State) (t : FrameType) (next stop : Nat) : (s.takeRecord t next stop).freq = s.freq := rfl
@[simp] theorem State.takeRecord_lens (s : State) (t : FrameType) (next stop : Nat) : (s.takeRecord t next stop).lens = s.lens := rfl
@[simp] theorem State.takeRecord_hdr (s : State) (t : FrameType) (next stop : Nat) : (s.takeRecord t next stop).hdr = s.hdr := rfl
@[simp] theorem State.takeRecord_enc (s : State) (t : FrameType) (next stop : Nat) : (s.takeRecord t next stop).enc = some (s.ctr.read (s.rpos + Config.recPrefix) (stop - s.rpos - Config.recPrefix)) := rfl
@[simp] theorem State.takeRecord_raw (s : State) (t : FrameType) (next stop : Nat) : (s.takeRecord t next stop).raw = s.raw := rfl
@[simp] theorem State.takeRecord_ctr (s : State) (t : FrameType) (next stop : Nat) : (s.takeRecord t next stop).ctr = s.ctr := rfl
@[simp] theorem State.takeRecord_ioA (s : State) (t : FrameType) (next stop : Nat) : (s.takeRecord t next stop).ioA = s.ioA := rfl
@[simp] theorem State.takeRecord_ioB (s : State) (t : FrameType) (next stop : Nat) : (s.takeRecord t next stop).ioB = s.ioB := rfl
@[simp] theorem State.takeRecord_port (s : State) (t : FrameType) (next stop : Nat) : (s.takeRecord t next stop).port = s.port := rfl
@[simp] theorem State.takeRecord_freeCount (s : State) (t : FrameType) (next stop : Nat) : (s.takeRecord t next stop).freeCount = s.freeCount := rfl

/-! ### Fault entry as one update (R440) -/

/-- The magic bytes of an unfinished container are zeroed, nothing else changes. -/
theorem State.spoilMagic_eq (s : State) :
    s.spoilMagic = { s with ctr := if s.wact then s.ctr.write 0 [0, 0, 0] else s.ctr } := by
  unfold State.spoilMagic
  by_cases h : s.wact = true
  · rw [if_pos h, if_pos h]
  · rw [if_neg h, if_neg h]

/-- Only a failed write changes a file before the magic bytes are zeroed. -/
theorem State.loseFile_eq (s : State) (c : Cause) :
    s.loseFile c = { s with
      raw := if c = .rawWr then Memory.ofBytes (Config.failedFile s.freeCount) else s.raw
      ctr := if c = .ctrWr then Memory.ofBytes (Config.failedFile s.freeCount) else s.ctr
      freeCount := if c = .rawWr ∨ c = .ctrWr then s.freeCount + 1 else s.freeCount } := by
  cases c <;> rfl

/-- RAW after a fault. -/
def State.faultRaw (s : State) (e : Trap) : Memory :=
  if e.cause = .rawWr then Memory.ofBytes (Config.failedFile s.freeCount) else s.raw

/-- CTR after a fault. -/
def State.faultCtr (s : State) (e : Trap) : Memory :=
  let m := if e.cause = .ctrWr then Memory.ofBytes (Config.failedFile s.freeCount) else s.ctr
  if s.wact then m.write 0 [0, 0, 0] else m

/-- All that fault entry does. -/
theorem State.enterFault_eq (s : State) (e : Trap) :
    s.enterFault e = { s with
      raw := s.faultRaw e, ctr := s.faultCtr e,
      freeCount := if e.cause = .rawWr ∨ e.cause = .ctrWr then s.freeCount + 1 else s.freeCount
      err := e.errWord, errOff := e.off, errCp := s.cp, fault := true } := by
  rw [State.enterFault, State.spoilMagic_eq, State.loseFile_eq]
  rfl

@[simp] theorem State.enterFault_fault (s : State) (e : Trap) : (s.enterFault e).fault = true := by
  rw [State.enterFault_eq]
@[simp] theorem State.enterFault_wact (s : State) (e : Trap) : (s.enterFault e).wact = s.wact := by
  rw [State.enterFault_eq]
@[simp] theorem State.enterFault_wdone (s : State) (e : Trap) : (s.enterFault e).wdone = s.wdone := by
  rw [State.enterFault_eq]
@[simp] theorem State.enterFault_ropen (s : State) (e : Trap) : (s.enterFault e).ropen = s.ropen := by
  rw [State.enterFault_eq]
@[simp] theorem State.enterFault_eos (s : State) (e : Trap) : (s.enterFault e).eos = s.eos := by
  rw [State.enterFault_eq]
@[simp] theorem State.enterFault_err (s : State) (e : Trap) : (s.enterFault e).err = e.errWord := by
  rw [State.enterFault_eq]
@[simp] theorem State.enterFault_errOff (s : State) (e : Trap) : (s.enterFault e).errOff = e.off := by
  rw [State.enterFault_eq]
@[simp] theorem State.enterFault_errCp (s : State) (e : Trap) : (s.enterFault e).errCp = s.cp := by
  rw [State.enterFault_eq]
@[simp] theorem State.enterFault_cp (s : State) (e : Trap) : (s.enterFault e).cp = s.cp := by
  rw [State.enterFault_eq]
@[simp] theorem State.enterFault_quality (s : State) (e : Trap) : (s.enterFault e).quality = s.quality := by
  rw [State.enterFault_eq]
@[simp] theorem State.enterFault_frameCount (s : State) (e : Trap) : (s.enterFault e).frameCount = s.frameCount := by
  rw [State.enterFault_eq]
@[simp] theorem State.enterFault_fidx (s : State) (e : Trap) : (s.enterFault e).fidx = s.fidx := by
  rw [State.enterFault_eq]
@[simp] theorem State.enterFault_ftype (s : State) (e : Trap) : (s.enterFault e).ftype = s.ftype := by
  rw [State.enterFault_eq]
@[simp] theorem State.enterFault_prevIdx (s : State) (e : Trap) : (s.enterFault e).prevIdx = s.prevIdx := by
  rw [State.enterFault_eq]
@[simp] theorem State.enterFault_nrec (s : State) (e : Trap) : (s.enterFault e).nrec = s.nrec := by
  rw [State.enterFault_eq]
@[simp] theorem State.enterFault_wpos (s : State) (e : Trap) : (s.enterFault e).wpos = s.wpos := by
  rw [State.enterFault_eq]
@[simp] theorem State.enterFault_rpos (s : State) (e : Trap) : (s.enterFault e).rpos = s.rpos := by
  rw [State.enterFault_eq]
@[simp] theorem State.enterFault_rnum (s : State) (e : Trap) : (s.enterFault e).rnum = s.rnum := by
  rw [State.enterFault_eq]
@[simp] theorem State.enterFault_idx (s : State) (e : Trap) : (s.enterFault e).idx = s.idx := by
  rw [State.enterFault_eq]
@[simp] theorem State.enterFault_payLen (s : State) (e : Trap) : (s.enterFault e).payLen = s.payLen := by
  rw [State.enterFault_eq]
@[simp] theorem State.enterFault_bidx (s : State) (e : Trap) : (s.enterFault e).bidx = s.bidx := by
  rw [State.enterFault_eq]
@[simp] theorem State.enterFault_bch (s : State) (e : Trap) : (s.enterFault e).bch = s.bch := by
  rw [State.enterFault_eq]
@[simp] theorem State.enterFault_blk (s : State) (e : Trap) : (s.enterFault e).blk = s.blk := by
  rw [State.enterFault_eq]
@[simp] theorem State.enterFault_rgb (s : State) (e : Trap) : (s.enterFault e).rgb = s.rgb := by
  rw [State.enterFault_eq]
@[simp] theorem State.enterFault_cur (s : State) (e : Trap) : (s.enterFault e).cur = s.cur := by
  rw [State.enterFault_eq]
@[simp] theorem State.enterFault_prev (s : State) (e : Trap) : (s.enterFault e).prev = s.prev := by
  rw [State.enterFault_eq]
@[simp] theorem State.enterFault_wrk (s : State) (e : Trap) : (s.enterFault e).wrk = s.wrk := by
  rw [State.enterFault_eq]
@[simp] theorem State.enterFault_pay (s : State) (e : Trap) : (s.enterFault e).pay = s.pay := by
  rw [State.enterFault_eq]
@[simp] theorem State.enterFault_freq (s : State) (e : Trap) : (s.enterFault e).freq = s.freq := by
  rw [State.enterFault_eq]
@[simp] theorem State.enterFault_lens (s : State) (e : Trap) : (s.enterFault e).lens = s.lens := by
  rw [State.enterFault_eq]
@[simp] theorem State.enterFault_hdr (s : State) (e : Trap) : (s.enterFault e).hdr = s.hdr := by
  rw [State.enterFault_eq]
@[simp] theorem State.enterFault_enc (s : State) (e : Trap) : (s.enterFault e).enc = s.enc := by
  rw [State.enterFault_eq]
@[simp] theorem State.enterFault_raw (s : State) (e : Trap) : (s.enterFault e).raw = s.faultRaw e := by
  rw [State.enterFault_eq]
@[simp] theorem State.enterFault_ctr (s : State) (e : Trap) : (s.enterFault e).ctr = s.faultCtr e := by
  rw [State.enterFault_eq]
@[simp] theorem State.enterFault_ioA (s : State) (e : Trap) : (s.enterFault e).ioA = s.ioA := by
  rw [State.enterFault_eq]
@[simp] theorem State.enterFault_ioB (s : State) (e : Trap) : (s.enterFault e).ioB = s.ioB := by
  rw [State.enterFault_eq]
@[simp] theorem State.enterFault_port (s : State) (e : Trap) : (s.enterFault e).port = s.port := by
  rw [State.enterFault_eq]
@[simp] theorem State.enterFault_freeCount (s : State) (e : Trap) : (s.enterFault e).freeCount = if e.cause = .rawWr ∨ e.cause = .ctrWr then s.freeCount + 1 else s.freeCount := by
  rw [State.enterFault_eq]

end Sys2Proof.Machine
end

