-- ==== Sys2Proof/Laws/Operations.lean ====
section
/-! SUPPORT. What each shared operation and each command can do, said once: if it succeeds, then ... -/

namespace Sys2Proof.Machine

/-! ### Retirement and the turn -/

@[simp] theorem retire_ok (s t : State) : retire s (.ok t) = .next { t with cp := s.cp + 1 } := rfl

@[simp] theorem retire_error (s : State) (e : Trap) : retire s (.error e) = .next (s.enterFault e) := rfl

/-- A command retires or faults, and nothing else (60_exceptions.md R440, R441). -/
theorem retire_cases {s t : State} {r : Except Trap State} (h : retire s r = .next t) :
    (∃ u, r = .ok u ∧ t = { u with cp := s.cp + 1 }) ∨ ∃ e, r = .error e ∧ t = s.enterFault e := by
  cases r with
  | ok u => exact .inl ⟨u, rfl, by simpa using h.symm⟩
  | error e => exact .inr ⟨e, rfl, by simpa using h.symm⟩

/-- What a step can do: the port's turn decides (47_system.md R380). -/
theorem step_cases {s t : State} (h : step s = .next t) :
    s.takeTurn = .done t ∨ ∃ i u, s.takeTurn = .run i u ∧ exec i u = .next t := by
  unfold step at h
  cases hT : s.takeTurn with
  | done u => rw [hT] at h; exact .inl (by simpa using h)
  | run i u => rw [hT] at h; exact .inr ⟨i, u, rfl, h⟩

/-- A command runs only when the port presents its descriptor and no fault stands (R380). -/
theorem State.takeTurn_run {s u : State} {i : Instr} (h : s.takeTurn = .run i u) :
    ∃ d a b rest, s.port = .command d a b :: rest ∧ s.fault = false ∧ decode d = .ok i ∧
      u = { s with port := rest, ioA := a, ioB := b } := by
  unfold State.takeTurn at h
  split at h <;> try simp at h
  rename_i d a b rest hp
  unfold State.acceptCommand at h
  split at h
  · simp at h
  · rename_i hf
    split at h
    · simp at h
    · rename_i j hd
      simp only [Turn.run.injEq] at h
      obtain ⟨rfl, rfl⟩ := h
      exact ⟨d, a, b, rest, hp, by simpa using hf, hd, rfl⟩

/-- A turn that runs no command: nothing presented, `rst_n`, a file replaced, a descriptor dropped, or an
undecodable descriptor's fault (R380, R400, 70_reset_and_hazards.md R470). -/
theorem State.takeTurn_done {s t : State} (h : s.takeTurn = .done t) :
    (s.port = [] ∧ t = s) ∨
    (∃ rest, s.port = .resetPulse :: rest ∧ t = { s with port := rest }.clearAll) ∨
    (∃ bs rest, s.port = .supplyRaw bs :: rest ∧ t = { s with port := rest, raw := Memory.ofBytes bs }) ∨
    (∃ bs rest, s.port = .supplyCtr bs :: rest ∧ t = { s with port := rest, ctr := Memory.ofBytes bs }) ∨
    (∃ d a b rest, s.port = .command d a b :: rest ∧ s.fault = true ∧ t = { s with port := rest }) ∨
    ∃ d a b rest e, s.port = .command d a b :: rest ∧ s.fault = false ∧ decode d = .error e ∧
      t = { s with port := rest, ioA := a, ioB := b }.enterFault (illegalTrap d e) := by
  unfold State.takeTurn at h
  split at h
  · rename_i hp; exact .inl ⟨hp, by simpa using h.symm⟩
  · rename_i rest hp; exact .inr (.inl ⟨rest, hp, by simpa [State.hardReset] using h.symm⟩)
  · rename_i bs rest hp; exact .inr (.inr (.inl ⟨bs, rest, hp, by simpa using h.symm⟩))
  · rename_i bs rest hp; exact .inr (.inr (.inr (.inl ⟨bs, rest, hp, by simpa using h.symm⟩)))
  · rename_i d a b rest hp
    unfold State.acceptCommand at h
    split at h
    · rename_i hf; exact .inr (.inr (.inr (.inr (.inl ⟨d, a, b, rest, hp, hf, by simpa using h.symm⟩))))
    · rename_i hf
      split at h
      · rename_i e hd
        exact .inr (.inr (.inr (.inr (.inr ⟨d, a, b, rest, e, hp, by simpa using hf, hd, by simpa using h.symm⟩))))
      · simp at h

/-! ### Operand reads -/

/-- The values of BLK are all there or UNINIT is raised (60_exceptions.md R431). -/
theorem State.blkValues_eq_some {s : State} {m : Mat F64} :
    s.blkValues = some m ↔ ∀ r c, Mat.elem s.blk r c = some (Mat.elem m r c) := Mat.values?_eq_some _ _

/-- Block `i` of WRK (42_segment.md R200). -/
theorem State.wrkBlock_eq_some {s : State} {i : Nat} {m : Mat Byte} :
    s.wrkBlock i = some m ↔ ∀ r c, s.wrk.get (wrkIndex i r c) = some (Mat.elem m r c) := by
  simp [State.wrkBlock, Mat.values?_eq_some]

/-- Block `i` of PAY (R202). -/
theorem State.payBlock_eq_some {s : State} {i : Nat} {m : Mat Byte} :
    s.payBlock i = some m ↔ ∀ r c, s.pay.get (payIndex i r c) = some (Mat.elem m r c) := by
  simp [State.payBlock, Mat.values?_eq_some]

/-- PREV for frame `i` (41_temporal.md R183, R186). -/
theorem State.prevFor_eq_some {s : State} {i : BitVec 32} {p : Frame} :
    s.prevFor i = some p ↔ s.prev = some p ∧ ∃ k, s.prevIdx = some k ∧ k.toNat + 1 = i.toNat := by
  unfold State.prevFor
  split
  · rename_i q k hq hk
    rw [hq, hk]
    by_cases h : k.toNat + 1 = i.toNat <;> simp [h]
  · rename_i h
    constructor
    · intro h'; simp at h'
    · rintro ⟨hp, k, hk, -⟩; exact absurd hk (h p k hp)

/-- The operands of QUANT and DEQUANT (44_quant.md R265, R268). -/
theorem State.quantOperands_eq_some {s : State} {m : Mat F64} {t : Mat Nat} :
    s.quantOperands = some (m, t) ↔
      s.blkValues = some m ∧ ∃ ch q, s.bch = some ch ∧ s.quality = some q ∧
        t = lqt (if ch = .y then qtLuma else qtChroma) q.toNat := by
  unfold State.quantOperands
  cases hb : s.blkValues with
  | none => simp
  | some m' =>
    cases hc : s.bch with
    | none => simp
    | some ch =>
      cases hq : s.quality <;> cases ch <;>
        simp [State.localTable, State.lqLuma, State.lqChroma, hq, eq_comm]

/-- The payload in use (45_entropy.md R286, R299). -/
theorem State.payload_eq_some {s : State} {bs : List Byte} :
    s.payload = some bs ↔
      bs.length = s.payLen.toNat ∧ ∀ k, k < s.payLen.toNat → s.pay.get k = bs[k]? := by
  unfold State.payload
  constructor
  · intro h
    split at h
    · rename_i hf
      obtain rfl : s.pay.bytes s.payLen.toNat = bs := by simpa using h
      exact ⟨Buf.bytes_length _ _, fun k hk => (Buf.bytes_getElem _ _ _ hf hk).symm⟩
    · simp at h
  · rintro ⟨hl, hg⟩
    have hf : s.pay.full s.payLen.toNat = true :=
      (Buf.full_iff _ _).mpr fun k hk => by rw [hg k hk, List.getElem?_eq_getElem (by omega)]; rfl
    rw [if_pos hf]
    congr 1
    apply List.ext_getElem?
    intro k
    by_cases hk : k < s.payLen.toNat
    · rw [Buf.bytes_getElem _ _ _ hf hk, hg k hk]
    · rw [List.getElem?_eq_none (by simp; omega), List.getElem?_eq_none (by omega)]

/-! ### Links (46_container.md R343, R353) -/

/-- What a valid link gives. -/
theorem linkOf_ok {m : Memory} {count p k next stop : Nat} (h : linkOf m count p k = .ok (next, stop)) :
    next = m.leAt p 8 ∧
    ((next = 0 ∧ k + 1 = count ∧ stop = m.len) ∨
      (next ≠ 0 ∧ k + 1 ≠ count ∧ p + Config.recPrefix ≤ next ∧ next + Config.recPrefix ≤ m.len ∧ stop = next)) := by
  unfold linkOf at h
  simp only at h
  split at h
  · rename_i h0
    split at h
    · rename_i hk
      obtain ⟨rfl, rfl⟩ : 0 = next ∧ m.len = stop := by simpa using h
      exact ⟨h0.symm, .inl ⟨rfl, hk, rfl⟩⟩
    · simp at h
  · rename_i h0
    split at h
    · simp at h
    · rename_i hk
      split at h
      · simp at h
      · rename_i h1
        split at h
        · simp at h
        · rename_i h2
          simp only [Except.ok.injEq, Prod.mk.injEq] at h
          obtain ⟨h3, rfl⟩ := h
          subst h3
          exact ⟨rfl, .inr ⟨h0, hk, by omega, by omega, rfl⟩⟩

/-- What a walk that raises nothing gives: the old entries, `todo` more, each the valid link of the one before. -/
theorem walkIndex_ok {m : Memory} {count todo : Nat} {idx out : List Nat} (h : walkIndex m count todo idx = .ok out) :
    out.length = idx.length + todo ∧ (∀ k, k < idx.length → out[k]? = idx[k]?) ∧
    ∀ k p q, idx.length ≤ k + 1 → out[k]? = some p → out[k + 1]? = some q →
      linkOf m count p k = .ok (q, q) ∨ ∃ stop, linkOf m count p k = .ok (q, stop) := by
  induction todo generalizing idx with
  | zero =>
    obtain rfl : idx = out := by simpa [walkIndex] using h
    refine ⟨rfl, fun _ _ => rfl, fun k p q hk _ hq => ?_⟩
    have := (List.getElem?_eq_some_iff.mp hq).1
    omega
  | succ todo ih =>
    rw [walkIndex] at h
    split at h
    · simp at h
    · rename_i p0 hp0
      split at h
      · simp at h
      · split at h
        · simp at h
        · rename_i next stop hl
          obtain ⟨h1, h2, h3⟩ := ih h
          simp only [List.length_append, List.length_singleton] at h1 h2 h3
          have hne : idx ≠ [] := by rintro rfl; simp at hp0
          have hlen : 0 < idx.length := List.length_pos_iff.mpr hne
          refine ⟨by omega, fun k hk => ?_, fun k p q hk hp hq => ?_⟩
          · rw [h2 k (by omega), List.getElem?_append_left hk]
          · by_cases hk' : idx.length = k + 1
            · have hpk : out[k]? = some p0 := by
                rw [h2 k (by omega), List.getElem?_append_left (by omega), ← hp0, List.getLast?_eq_getElem?]
                congr 1; omega
              have hqk : out[k + 1]? = some next := by
                rw [h2 (k + 1) (by omega), List.getElem?_append_right (by omega)]
                simp [hk']
              rw [hp] at hpk; rw [hq] at hqk
              obtain rfl : p = p0 := by simpa using hpk
              obtain rfl : q = next := by simpa using hqk
              exact .inr ⟨stop, by rwa [show idx.length - 1 = k by omega] at hl⟩
            · exact h3 k p q (by omega) hp hq

/-! ### Decoding (45_entropy.md R305) -/

/-- A decoded payload has the length asked for. -/
theorem decodeSymbols_length {table : List (Nat × List Bool)} {n : Nat} {bits : List Bool} {out : List Byte}
    (h : decodeSymbols table n bits = .ok out) : out.length = n := by
  induction n generalizing bits out with
  | zero => obtain rfl : [] = out := by simpa [decodeSymbols] using h
            rfl
  | succ n ih =>
    rw [decodeSymbols] at h
    split at h
    · simp at h
    · split at h
      · simp at h
      · rename_i rest _ out' h'
        obtain rfl := (by simpa using h : _ :: out' = out)
        simp [ih h']

end Sys2Proof.Machine
end

