-- ==== Sys2Proof/Laws/Commands.lean ====
section
/-! SUPPORT. What each command's effect is, said once: if its checks pass it answers this state. -/

namespace Sys2Proof.Machine

/-! ### System and frame I/O (47_system.md R383 to R387) -/

theorem bodySetq_ok {q : BitVec 32} {s t : State} (h : bodySetq q s = .ok t) :
    1 ≤ q.toInt ∧ q.toInt ≤ 100 ∧ s.wact = false ∧ t = { s with quality := some q, ropen := false, eos := false } := by
  unfold bodySetq at h
  split at h
  · simp at h
  · split at h
    · simp at h
    · rename_i h1 h2
      exact ⟨by omega, by omega, by simpa using h2, by simpa using h.symm⟩

theorem bodySetn_ok {n : BitVec 32} {s t : State} (h : bodySetn n s = .ok t) :
    s.wact = false ∧ t = { s with frameCount := some n, ropen := false, eos := false } := by
  unfold bodySetn at h
  split at h
  · simp at h
  · rename_i h2
    exact ⟨by simpa using h2, by simpa using h.symm⟩

theorem bodyFrLd_ok {io : Bool} {f : BitVec 32} {s t : State} (h : bodyFrLd io f s = .ok t) :
    io = true ∧ frameOffset f + Config.frameBytes ≤ s.raw.len ∧
      t = { s with rgb := some (pixelsOf (s.raw.read (frameOffset f) Config.frameBytes)), fidx := some f } := by
  unfold bodyFrLd at h
  split at h
  · simp at h
  · split at h
    · simp at h
    · rename_i h1 h2
      exact ⟨by simpa using h1, by omega, by simpa using h.symm⟩

theorem bodyFrSt_ok {io : Bool} {f : BitVec 32} {s t : State} (h : bodyFrSt io f s = .ok t) :
    ∃ rgb, s.rgb = some rgb ∧ frameOffset f ≤ s.raw.len ∧ io = true ∧
      t = { s with raw := s.raw.write (frameOffset f) (Frame.bytes rgb) } := by
  unfold bodyFrSt at h
  split at h
  · simp at h
  · rename_i rgb hr
    split at h
    · simp at h
    · split at h
      · simp at h
      · rename_i h1 h2
        exact ⟨rgb, hr, by omega, by simpa using h2, by simpa using h.symm⟩

/-! ### Colour and temporal units (40_color.md R163, R166, 41_temporal.md R183, R186) -/

theorem bodyCscFwd_ok {s t : State} (h : bodyCscFwd s = .ok t) :
    ∃ rgb, s.rgb = some rgb ∧ t = { s with cur := some (rgb.map rgbToYuv) } := by
  unfold bodyCscFwd at h
  split at h
  · simp at h
  · rename_i rgb hr; exact ⟨rgb, hr, by simpa using h.symm⟩

theorem bodyCscInv_ok {s t : State} (h : bodyCscInv s = .ok t) :
    ∃ cur, s.cur = some cur ∧ t = { s with rgb := some (cur.map yuvToRgb) } := by
  unfold bodyCscInv at h
  split at h
  · simp at h
  · rename_i cur hr; exact ⟨cur, hr, by simpa using h.symm⟩

theorem bodyTpFwd_ok {s t : State} (h : bodyTpFwd s = .ok t) :
    ∃ cur i, s.cur = some cur ∧ s.fidx = some i ∧
      ((ftypeOf i.toNat = .key ∧
          t = { s with wrk := bufOfFrame cur, ftype := some .key, prev := some cur, prevIdx := some i }) ∨
        (ftypeOf i.toNat = .delta ∧ ∃ p, s.prevFor i = some p ∧
          t = { s with
            wrk := bufOfFrame (List.zipWith (Pixel.zip dpcmFwd) cur p), ftype := some .delta, prev := some cur,
            prevIdx := some i })) := by
  unfold bodyTpFwd at h
  split at h
  · rename_i cur i hc hi
    refine ⟨cur, i, hc, hi, ?_⟩
    split at h
    · rename_i hf; exact .inl ⟨hf, by simpa using h.symm⟩
    · rename_i hf
      split at h
      · simp at h
      · rename_i p hp; exact .inr ⟨hf, p, hp, by simpa using h.symm⟩
  · simp at h

theorem bodyTpInv_ok {s t : State} (h : bodyTpInv s = .ok t) :
    ∃ ty i, s.ftype = some ty ∧ s.fidx = some i ∧ s.wrk.full Config.frameBytes = true ∧
      ((ty = .key ∧ t = s.acceptFrame (pixelsOf (s.wrk.bytes Config.frameBytes)) i) ∨
        (ty = .delta ∧ ∃ p, s.prevFor i = some p ∧
          t = s.acceptFrame (List.zipWith (Pixel.zip dpcmInv) (pixelsOf (s.wrk.bytes Config.frameBytes)) p) i)) := by
  unfold bodyTpInv at h
  split at h
  · rename_i ty i ht hi
    split at h
    · simp at h
    · rename_i hf
      refine ⟨ty, i, ht, hi, by simpa using hf, ?_⟩
      split at h
      · exact .inl ⟨rfl, by simpa using h.symm⟩
      · split at h
        · simp at h
        · rename_i p hp; exact .inr ⟨rfl, p, hp, by simpa using h.symm⟩
  · simp at h

/-! ### Segmenter (42_segment.md R203 to R212) -/

theorem bodyBlkLd_ok {i : BitVec 32} {s t : State} (h : bodyBlkLd i s = .ok t) :
    i.toNat < Config.numBlocks ∧ ∃ m, s.wrkBlock i.toNat = some m ∧ t = s.takeBlock i.toNat m := by
  unfold bodyBlkLd at h
  split at h
  · simp at h
  · rename_i hi
    split at h
    · simp at h
    · rename_i m hm; exact ⟨by simpa using hi, m, hm, by simpa using h.symm⟩

theorem bodyBlkSt_ok {i : BitVec 32} {s t : State} (h : bodyBlkSt i s = .ok t) :
    i.toNat < Config.numBlocks ∧ ∃ m, s.blkValues = some m ∧ s.bch = some (blockChan i.toNat) ∧
      (∀ r c, (Mat.elem m r c).isFinite = true) ∧
      t = { s with wrk := s.wrk.setAll (placed (wrkIndex i.toNat) (Mat.mapElems pix m)) } := by
  unfold bodyBlkSt at h
  split at h
  · simp at h
  · rename_i hi
    split at h
    · rename_i m ch hm hc
      split at h
      · simp at h
      · rename_i hch
        split at h
        · simp at h
        · rename_i hf
          refine ⟨by simpa using hi, m, hm, ?_, ?_, by simpa using h.symm⟩
          · rw [hc, not_not.mp hch]
          · exact (Mat.every_iff _ _).mp (by simpa using hf)
    · simp at h

theorem bodyBlkPut_ok {i : BitVec 32} {s t : State} (h : bodyBlkPut i s = .ok t) :
    i.toNat < Config.numBlocks ∧ 64 * i.toNat + 63 < s.payLen.toNat ∧
      ∃ m bytes, s.blkValues = some m ∧ s.bch = some (blockChan i.toNat) ∧
        (∀ r c, byteValue? (Mat.elem m r c) = some (Mat.elem bytes r c)) ∧
        t = { s with
          pay := s.pay.setAll (placed (payIndex i.toNat) bytes), freq := none, lens := none, hdr := none } := by
  unfold bodyBlkPut at h
  split at h
  · simp at h
  · rename_i hi
    split at h
    · simp at h
    · rename_i hp
      split at h
      · rename_i m ch hm hc
        split at h
        · simp at h
        · rename_i hch
          split at h
          · simp at h
          · rename_i bytes hb
            refine ⟨by simpa using hi, by omega, m, bytes, hm, ?_, ?_, by simpa [State.dropTables] using h.symm⟩
            · rw [hc, not_not.mp hch]
            · intro r c; simpa using (Mat.values?_eq_some _ _).mp hb r c
      · simp at h

theorem bodyBlkGet_ok {i : BitVec 32} {s t : State} (h : bodyBlkGet i s = .ok t) :
    i.toNat < Config.numBlocks ∧ 64 * i.toNat + 63 < s.payLen.toNat ∧
      ∃ m, s.payBlock i.toNat = some m ∧ t = s.takeBlock i.toNat m := by
  unfold bodyBlkGet at h
  split at h
  · simp at h
  · rename_i hi
    split at h
    · simp at h
    · rename_i hp
      split at h
      · simp at h
      · rename_i m hm; exact ⟨by simpa using hi, by omega, m, hm, by simpa using h.symm⟩

theorem bodyBlkWr_ok {k : BitVec 8} {v : BitVec 64} {s t : State} (h : bodyBlkWr k v s = .ok t) :
    elemLegal k ∧ f64Legal v ∧
      t = { s with blk := Mat.put s.blk (elemRow k) (elemCol k) (some (F64.ofBits v)) } := by
  unfold bodyBlkWr at h
  split at h
  · rename_i hl; exact ⟨hl.1, hl.2, by simpa using h.symm⟩
  · simp at h

theorem bodyBlkCh_ok {k : BitVec 8} {s t : State} (h : bodyBlkCh k s = .ok t) :
    chLegal k ∧ t = { s with bch := some (chanOf k) } := by
  unfold bodyBlkCh at h
  split at h
  · rename_i hl; exact ⟨hl, by simpa using h.symm⟩
  · simp at h

/-! ### Transform and quantizer (43_dct.md R236, R241, 44_quant.md R265, R268) -/

theorem bodyFdct_ok {s t : State} (h : bodyFdct s = .ok t) :
    ∃ m, s.blkValues = some m ∧ t = s.setBlk (fdct2d m) := by
  unfold bodyFdct at h
  split at h
  · simp at h
  · rename_i m hm; exact ⟨m, hm, by simpa using h.symm⟩

theorem bodyIdct_ok {s t : State} (h : bodyIdct s = .ok t) :
    ∃ m, s.blkValues = some m ∧ t = s.setBlk (idct2d m) := by
  unfold bodyIdct at h
  split at h
  · simp at h
  · rename_i m hm; exact ⟨m, hm, by simpa using h.symm⟩

theorem bodyQuant_ok {s t : State} (h : bodyQuant s = .ok t) :
    ∃ m tab, s.quantOperands = some (m, tab) ∧ (∀ r c, (Mat.elem m r c).isFinite = true) ∧
      t = s.setBlk (quantBlock tab m) := by
  unfold bodyQuant at h
  split at h
  · simp at h
  · rename_i m tab hm
    split at h
    · simp at h
    · rename_i hf
      exact ⟨m, tab, hm, (Mat.every_iff _ _).mp (by simpa using hf), by simpa using h.symm⟩

theorem bodyDequant_ok {s t : State} (h : bodyDequant s = .ok t) :
    ∃ m tab, s.quantOperands = some (m, tab) ∧ t = s.setBlk (dequantBlock tab m) := by
  unfold bodyDequant at h
  split at h
  · simp at h
  · rename_i m tab hm; exact ⟨m, tab, hm, by simpa using h.symm⟩

/-! ### Entropy unit (45_entropy.md R283 to R305) -/

theorem bodyPayLen_ok {n : BitVec 32} {s t : State} (h : bodyPayLen n s = .ok t) :
    n.toNat ≤ Config.frameBytes ∧ t = { s with payLen := n, pay := .nil, freq := none, lens := none, hdr := none } := by
  unfold bodyPayLen at h
  split at h
  · rename_i hn; exact ⟨hn, by simpa [State.dropTables] using h.symm⟩
  · simp at h

theorem bodyPayWr_ok {k : BitVec 32} {b : Byte} {s t : State} (h : bodyPayWr k b s = .ok t) :
    k.toNat < s.payLen.toNat ∧
      t = { s with pay := s.pay.set k.toNat b, freq := none, lens := none, hdr := none } := by
  unfold bodyPayWr at h
  split at h
  · rename_i hn; exact ⟨hn, by simpa [State.dropTables] using h.symm⟩
  · simp at h

theorem bodyHufCnt_ok {s t : State} (h : bodyHufCnt s = .ok t) :
    ∃ bs, s.payload = some bs ∧ t = { s with freq := some (countBytes bs), lens := none, hdr := none } := by
  unfold bodyHufCnt at h
  split at h
  · simp at h
  · rename_i bs hb; exact ⟨bs, hb, by simpa using h.symm⟩

theorem bodyHufBld_ok {s t : State} (h : bodyHufBld s = .ok t) :
    ∃ f l, s.freq = some f ∧ buildLens f = some l ∧ t = { s with lens := some l, hdr := none } := by
  unfold bodyHufBld at h
  split at h
  · simp at h
  · rename_i f hf
    split at h
    · simp at h
    · rename_i l hl; exact ⟨f, l, hf, hl, by simpa using h.symm⟩

theorem bodyHufHdr_ok {s t : State} (h : bodyHufHdr s = .ok t) :
    ∃ l, s.lens = some l ∧ t = { s with hdr := some (hdrOf l) } := by
  unfold bodyHufHdr at h
  split at h
  · simp at h
  · rename_i l hl; exact ⟨l, hl, by simpa using h.symm⟩

theorem bodyHufPack_ok {s t : State} (h : bodyHufPack s = .ok t) :
    ∃ bs l hd, s.payload = some bs ∧ s.lens = some l ∧ s.hdr = some hd ∧ (∀ b ∈ bs, 0 < lenOf l b.toNat) ∧
      t = { s with enc := some (if s.payLen.toNat = 0 then [] else packedPayload l hd bs) } := by
  unfold bodyHufPack at h
  split at h
  · rename_i bs l hd hb hl hh
    split at h
    · simp at h
    · rename_i hc
      refine ⟨bs, l, hd, hb, hl, hh, ?_, ?_⟩
      · intro b hb
        rw [Bool.not_eq_false] at hc
        simpa using List.all_eq_true.mp hc b hb
      · split at h <;> rename_i h0
        · rw [if_pos h0]; simpa using h.symm
        · rw [if_neg h0]; simpa using h.symm
  · simp at h

theorem bodyHufLdh_ok {s t : State} (h : bodyHufLdh s = .ok t) :
    ∃ e, s.enc = some e ∧
      ((e.length = 0 ∧
          t = { s with
            hdr := some (List.replicate Config.hdrBytes 0), lens := some (List.replicate 256 0), freq := none }) ∨
        (Config.hdrBytes ≤ e.length ∧ kraftSum (unhdr (e.take Config.hdrBytes)) ≤ 2 ^ Config.maxLen ∧
          t = { s with
            hdr := some (e.take Config.hdrBytes), lens := some (unhdr (e.take Config.hdrBytes)), freq := none })) := by
  unfold bodyHufLdh at h
  split at h
  · simp at h
  · rename_i e he
    refine ⟨e, he, ?_⟩
    split at h
    · rename_i h0; exact .inl ⟨h0, (Except.ok.inj h).symm⟩
    · split at h
      · simp at h
      · split at h
        · simp at h
        · rename_i h1 h2; exact .inr ⟨by omega, by omega, (Except.ok.inj h).symm⟩

theorem bodyHufUnp_ok {s t : State} (h : bodyHufUnp s = .ok t) :
    ∃ e l out, s.enc = some e ∧ s.lens = some l ∧
      decodeSymbols (canon l) s.payLen.toNat (bitsOfBytes (e.drop Config.hdrBytes)) = .ok out ∧
      t = { s with pay := s.pay.setFrom 0 out, freq := none, lens := none, hdr := none } := by
  unfold bodyHufUnp at h
  split at h
  · rename_i e l he hl
    split at h
    · simp at h
    · rename_i out ho; exact ⟨e, l, out, he, hl, ho, by simpa [State.dropTables] using h.symm⟩
  · simp at h

/-! ### Container (46_container.md R333 to R353) -/

theorem bodyCwHdr_ok {io : Bool} {s t : State} (h : bodyCwHdr io s = .ok t) :
    ∃ q n, s.quality = some q ∧ s.frameCount = some n ∧ io = true ∧
      t = { s with
        ctr := Memory.empty.write 0 (fileHeader n q), nrec := 0, wpos := Config.fileHdr, rpos := 0, rnum := 0,
        idx := [], prev := none, prevIdx := none, wact := decide (0 < n.toNat), wdone := decide (n.toNat = 0),
        ropen := false, eos := false } := by
  unfold bodyCwHdr at h
  split at h
  · rename_i q n hq hn
    split at h
    · simp at h
    · rename_i hio; exact ⟨q, n, hq, hn, by simpa using hio, by simpa using h.symm⟩
  · simp at h

theorem bodyCwRec_ok {io : Bool} {s t : State} (h : bodyCwRec io s = .ok t) :
    ∃ e ty n, s.wact = true ∧ s.enc = some e ∧ s.ftype = some ty ∧ s.fidx = some s.nrec ∧
      ty = ftypeOf s.nrec.toNat ∧ s.wpos = s.ctr.len ∧ io = true ∧ s.frameCount = some n ∧
      t = s.appendRecord n ty e := by
  unfold bodyCwRec at h
  split at h
  · simp at h
  · rename_i hw
    split at h
    · rename_i e ty i he ht hi
      split at h
      · simp at h
      · rename_i h1
        split at h
        · simp at h
        · rename_i h2
          split at h
          · simp at h
          · rename_i h3
            split at h
            · simp at h
            · rename_i h4
              split at h
              · simp at h
              · rename_i n hn
                exact ⟨e, ty, n, by simpa using hw, he, ht, by rw [hi, not_not.mp h1], not_not.mp h2, not_not.mp h3,
                  by simpa using h4, hn, by simpa using h.symm⟩
    · simp at h

theorem bodyCrOpen_ok {io : Bool} {s t : State} (h : bodyCrOpen io s = .ok t) :
    ∃ q n : BitVec 32, q = BitVec.ofNat 32 (s.ctr.leAt 11 4) ∧ n = BitVec.ofNat 32 (s.ctr.leAt 7 4) ∧
      s.wact = false ∧ io = true ∧ Config.fileHdr ≤ s.ctr.len ∧ s.ctr.read 0 3 = Config.magic ∧
      s.ctr.leAt 3 2 = Config.cifX ∧ s.ctr.leAt 5 2 = Config.cifY ∧ 1 ≤ q.toInt ∧ q.toInt ≤ 100 ∧
      (0 < n.toNat → 24 ≤ s.ctr.len) ∧ t = s.openReader q n := by
  unfold bodyCrOpen at h
  simp only at h
  refine ⟨_, _, rfl, rfl, ?_⟩
  split at h
  · simp at h
  · rename_i h1
    split at h
    · simp at h
    · rename_i h2
      split at h
      · simp at h
      · rename_i h3
        split at h
        · simp at h
        · rename_i h4
          split at h
          · simp at h
          · rename_i h5
            split at h
            · simp at h
            · rename_i h6
              split at h
              · simp at h
              · rename_i h7
                rw [not_or, not_not, not_not] at h5
                exact ⟨by simpa using h1, by simpa using h2, by omega, not_not.mp h4, h5.1, h5.2, by omega, by omega,
                  by omega, by simpa using h.symm⟩

theorem bodyCrNext_ok {io : Bool} {s t : State} (h : bodyCrNext io s = .ok t) :
    ∃ n next stop ty, s.ropen = true ∧ s.eos = false ∧ io = true ∧ s.rpos + Config.recPrefix ≤ s.ctr.len ∧
      s.frameCount = some n ∧ linkOf s.ctr n.toNat s.rpos s.rnum.toNat = .ok (next, stop) ∧
      stop - s.rpos - Config.recPrefix ≤ Config.encCap ∧ frameTypeOf? (s.ctr.get (s.rpos + 8)) = some ty ∧
      ty = ftypeOf s.rnum.toNat ∧ t = s.takeRecord ty next stop := by
  unfold bodyCrNext at h
  split at h
  · simp at h
  · rename_i h1
    split at h
    · simp at h
    · rename_i h2
      split at h
      · simp at h
      · rename_i h3
        split at h
        · simp at h
        · rename_i n hn
          split at h
          · simp at h
          · rename_i next stop hl
            split at h
            · simp at h
            · rename_i h4
              split at h
              · simp at h
              · rename_i ty ht
                split at h
                · simp at h
                · rename_i h5
                  rw [not_or] at h1
                  exact ⟨n, next, stop, ty, by simpa using h1.1, by simpa using h1.2, by simpa using h2, by omega, hn, hl,
                    by omega, ht, not_not.mp h5, by simpa using h.symm⟩

theorem bodyCrSeek_ok {io : Bool} {n : BitVec 32} {s t : State} (h : bodyCrSeek io n s = .ok t) :
    ∃ count idx, s.ropen = true ∧ s.frameCount = some count ∧ n.toNat < count.toNat ∧
      (s.idx.length ≤ n.toNat → io = true) ∧
      walkIndex s.ctr count.toNat (n.toNat + 1 - s.idx.length) s.idx = .ok idx ∧
      t = { s with idx := idx, rpos := idx.getD n.toNat 0, rnum := n, eos := false } := by
  unfold bodyCrSeek at h
  split at h
  · simp at h
  · rename_i h1
    split at h
    · simp at h
    · rename_i count hc
      split at h
      · simp at h
      · rename_i h2
        split at h
        · split at h <;> simp at h
        · rename_i h3
          split at h
          · simp at h
          · rename_i idx hi
            refine ⟨count, idx, by simpa using h1, hc, by omega, fun hl => ?_, hi, by simpa using h.symm⟩
            rw [not_and] at h3
            simpa using h3 hl

end Sys2Proof.Machine
end

