-- ==== Sys2Proof/Laws/Entropy.lean ====
section
/-! SUPPORT. The Huffman tree and the lengths read from it: which symbols the tree of FREQ holds, how deep they stand,
that each round of the loop merges the two least entries, when HUF.BLD has a LEN to give, and its Kraft sum. -/

namespace Sys2Proof.Machine

/-! ### Depths of a tree -/

/-- The symbols of a tree's leaves, left to right. -/
def HTree.symbols : HTree → List Nat
  | .leaf s => [s]
  | .internal l r => l.symbols ++ r.symbols

theorem HTree.map_fst_depths (t : HTree) (d : Nat) : (t.depths d).map Prod.fst = t.symbols := by
  induction t generalizing d with
  | leaf s => rfl
  | internal l r hl hr => rw [depths, List.map_append, hl, hr, symbols]

/-- A leaf's depth is the length of the path to it (R290). -/
theorem HTree.mem_depths (t : HTree) (d n k : Nat) :
    (n, k) ∈ t.depths d ↔ ∃ path, d + path.length = k ∧ nodeAt path t = some (.leaf n) := by
  induction t generalizing d with
  | leaf s =>
    rw [depths, List.mem_singleton, Prod.mk.injEq]
    constructor
    · rintro ⟨rfl, rfl⟩; exact ⟨[], rfl, rfl⟩
    · rintro ⟨path, h1, h2⟩
      cases path with
      | nil => cases h2; exact ⟨rfl, h1.symm⟩
      | cons b path => cases h2
  | internal l r hl hr =>
    rw [depths, List.mem_append, hl, hr]
    constructor
    · rintro (⟨path, h1, h2⟩ | ⟨path, h1, h2⟩)
      · exact ⟨false :: path, by rw [List.length_cons]; omega, h2⟩
      · exact ⟨true :: path, by rw [List.length_cons]; omega, h2⟩
    · rintro ⟨path, h1, h2⟩
      match path, h1, h2 with
      | false :: path, h1, h2 => exact .inl ⟨path, by rw [List.length_cons] at h1; omega, h2⟩
      | true :: path, h1, h2 => exact .inr ⟨path, by rw [List.length_cons] at h1; omega, h2⟩

theorem HTree.symbols_ne_nil (t : HTree) : t.symbols ≠ [] := by
  induction t with
  | leaf s => simp [symbols]
  | internal l r hl _ => simp [symbols, hl]

theorem HTree.depths_ge (t : HTree) (d : Nat) : ∀ p ∈ t.depths d, d ≤ p.2 := by
  induction t generalizing d with
  | leaf s => simp [depths]
  | internal l r hl hr =>
    intro p hp
    rcases List.mem_append.mp hp with h | h
    · have := hl _ p h; omega
    · have := hr _ p h; omega

theorem HTree.depths_ne_nil (t : HTree) (d : Nat) : t.depths d ≠ [] := fun h =>
  t.symbols_ne_nil (by rw [← t.map_fst_depths d, h]; rfl)

/-- The Kraft sum of a tree's depths is that of its root. -/
theorem HTree.kraft_depths (t : HTree) (d m : Nat) (h : ∀ p ∈ t.depths d, p.2 ≤ m) :
    ((t.depths d).map fun p => 2 ^ (m - p.2)).sum = 2 ^ (m - d) := by
  induction t generalizing d with
  | leaf s => simp [depths]
  | internal l r hl hr =>
    have h1 : ∀ p ∈ l.depths (d + 1), p.2 ≤ m := fun p hp => h p (List.mem_append_left _ hp)
    have h2 : ∀ p ∈ r.depths (d + 1), p.2 ≤ m := fun p hp => h p (List.mem_append_right _ hp)
    obtain ⟨p, hp⟩ := List.exists_mem_of_ne_nil _ (l.depths_ne_nil (d + 1))
    have hd : d + 1 ≤ m := le_trans (l.depths_ge _ p hp) (h1 p hp)
    rw [depths, List.map_append, List.sum_append, hl _ h1, hr _ h2, ← Nat.two_mul, ← Nat.pow_succ']
    congr 1; omega

/-! ### The merging loop -/

theorem queueInsert_perm (e : QEntry) (q : List QEntry) : (queueInsert e q).Perm (e :: q) := by
  induction q with
  | nil => exact List.Perm.refl _
  | cons x xs ih =>
    rw [queueInsert]
    split
    · exact List.Perm.refl _
    · exact (ih.cons x).trans (List.Perm.swap e x xs)

theorem QEntry.before_iff (a b : QEntry) : a.before b = true ↔ KeyBefore a b := by
  simp [before, KeyBefore]

theorem keyBefore_trans {a b c : QEntry} (h1 : KeyBefore a b) (h2 : KeyBefore b c) : KeyBefore a c := by
  unfold KeyBefore at *; omega

/-- Keys with different sequence numbers are never equal (R289). -/
theorem keyBefore_total {a b : QEntry} (h : a.seq ≠ b.seq) : KeyBefore a b ∨ KeyBefore b a := by
  unfold KeyBefore; omega

/-- A queue as the loop keeps it: least key first, and every sequence number given out is below the next one. -/
structure QueueSorted (seq : Nat) (q : List QEntry) : Prop where
  sorted : q.Pairwise KeyBefore
  fresh : ∀ e ∈ q, e.seq < seq

theorem queueInsert_pairwise {e : QEntry} {q : List QEntry} (hq : q.Pairwise KeyBefore) (he : ∀ x ∈ q, x.seq ≠ e.seq) :
    (queueInsert e q).Pairwise KeyBefore := by
  induction q with
  | nil => exact List.pairwise_singleton _ _
  | cons x xs ih =>
    obtain ⟨h1, h2⟩ := List.pairwise_cons.mp hq
    rw [queueInsert]
    split
    · rename_i h
      have hx := (QEntry.before_iff e x).mp h
      refine List.pairwise_cons.mpr ⟨fun y hy => ?_, hq⟩
      rcases List.mem_cons.mp hy with rfl | hy
      · exact hx
      · exact keyBefore_trans hx (h1 y hy)
    · rename_i h
      have hx : KeyBefore x e := (keyBefore_total (he x (by simp))).resolve_right fun h' => h ((QEntry.before_iff e x).mpr h')
      refine List.pairwise_cons.mpr ⟨fun y hy => ?_, ih h2 fun y hy => he y (by simp [hy])⟩
      rcases List.mem_cons.mp ((queueInsert_perm e xs).mem_iff.mp hy) with rfl | hy
      · exact hx
      · exact h1 y hy

/-- An entry with the next sequence number goes to its place. -/
theorem QueueSorted.insert {seq : Nat} {q : List QEntry} (h : QueueSorted seq q) {e : QEntry} (he : e.seq = seq) :
    QueueSorted (seq + 1) (queueInsert e q) where
  sorted := queueInsert_pairwise h.sorted fun x hx => by have := h.fresh x hx; omega
  fresh := fun x hx => by
    rcases List.mem_cons.mp ((queueInsert_perm e q).mem_iff.mp hx) with rfl | hx
    · omega
    · have := h.fresh x hx; omega

theorem leafQueue_sorted (freq ss : List Nat) (seq : Nat) (q : List QEntry) (h : QueueSorted seq q) :
    QueueSorted (seq + ss.length) (leafQueue freq ss seq q) := by
  induction ss generalizing seq q with
  | nil => exact h
  | cons s ss ih =>
    rw [leafQueue, List.length_cons, show seq + (ss.length + 1) = seq + 1 + ss.length by omega]
    exact ih _ _ (h.insert rfl)

theorem leafQueue_perm (freq ss : List Nat) (seq : Nat) (q : List QEntry) :
    (leafQueue freq ss seq q).Perm (((ss.zipIdx seq).map fun p => ⟨freq.getD p.1 0, p.2, .leaf p.1⟩) ++ q) := by
  induction ss generalizing seq q with
  | nil => exact List.Perm.refl _
  | cons s ss ih =>
    rw [leafQueue]
    refine (ih _ _).trans (((queueInsert_perm _ q).append_left _).trans ?_)
    rw [List.zipIdx_cons, List.map_cons, List.cons_append]
    exact List.perm_middle

/-- What the loop does (R289): each round merges the two entries with the least keys, until one is left. -/
theorem mergeQueue_rounds {fuel seq : Nat} {q : List QEntry} {t : HTree} (hs : QueueSorted seq q)
    (h : mergeQueue fuel seq q = some t) : ∃ r : Nat → List QEntry, r 0 = q ∧
      (∀ k, k + 1 < q.length → MergeRound (seq + k) (r k) (r (k + 1))) ∧ ∃ e, r (q.length - 1) = [e] ∧ e.node = t := by
  induction fuel generalizing seq q with
  | zero =>
    match q, h with
    | [e], h => exact ⟨fun _ => [e], rfl, fun k hk => by simp at hk, e, rfl, Option.some.inj h⟩
  | succ fuel ih =>
    match q, hs, h with
    | [e], _, h => exact ⟨fun _ => [e], rfl, fun k hk => by simp at hk, e, rfl, Option.some.inj h⟩
    | a :: b :: q, hs, h =>
      have hp := queueInsert_perm ⟨a.freq + b.freq, seq, .internal a.node b.node⟩ q
      have hlen : (queueInsert ⟨a.freq + b.freq, seq, .internal a.node b.node⟩ q).length = q.length + 1 := hp.length_eq
      obtain ⟨h1, h2⟩ := List.pairwise_cons.mp hs.sorted
      obtain ⟨h3, h4⟩ := List.pairwise_cons.mp h2
      obtain ⟨r, r0, r1, e, r2, r3⟩ := ih (QueueSorted.insert (e := ⟨a.freq + b.freq, seq, .internal a.node b.node⟩)
        ⟨h4, fun e he => hs.fresh e (by simp [he])⟩ rfl) h
      rw [hlen] at r1 r2
      refine ⟨fun k => match k with | 0 => a :: b :: q | k + 1 => r k, rfl, fun k hk => ?_, e, ?_, r3⟩
      · match k with
        | 0 => exact ⟨a, b, q, List.Perm.refl _, h1 b (by simp), h3, by show (r 0).Perm _; rw [r0]; exact hp⟩
        | k + 1 =>
          rw [show seq + (k + 1) = seq + 1 + k by omega]
          exact r1 k (by simp only [List.length_cons] at hk; omega)
      · exact r2

/-- The symbols of a queue's trees. -/
def queueSymbols (q : List QEntry) : List Nat := q.flatMap fun e => e.node.symbols

theorem queueSymbols_insert (e : QEntry) (q : List QEntry) :
    (queueSymbols (queueInsert e q)).Perm (e.node.symbols ++ queueSymbols q) :=
  (queueInsert_perm e q).flatMap_right _

theorem leafQueue_symbols (freq ss : List Nat) (seq : Nat) (q : List QEntry) :
    (queueSymbols (leafQueue freq ss seq q)).Perm (ss ++ queueSymbols q) := by
  induction ss generalizing seq q with
  | nil => exact List.Perm.refl _
  | cons s ss ih =>
    rw [leafQueue]
    refine (ih _ _).trans (((queueSymbols_insert _ q).append_left ss).trans ?_)
    rw [HTree.symbols, List.singleton_append]
    exact List.perm_middle

theorem leafQueue_length (freq ss : List Nat) (seq : Nat) (q : List QEntry) :
    (leafQueue freq ss seq q).length = ss.length + q.length := by
  induction ss generalizing seq q with
  | nil => simp [leafQueue]
  | cons s ss ih =>
    rw [leafQueue, ih, (queueInsert_perm _ q).length_eq, List.length_cons, List.length_cons]; omega

/-- With enough rounds the loop ends in one tree, which holds the symbols of the queue. -/
theorem mergeQueue_some (fuel seq : Nat) (q : List QEntry) (h0 : q ≠ []) (hf : q.length ≤ fuel + 1) :
    ∃ t, mergeQueue fuel seq q = some t ∧ t.symbols.Perm (queueSymbols q) := by
  induction fuel generalizing seq q with
  | zero =>
    match q, h0, hf with
    | [e], _, _ => exact ⟨e.node, rfl, by simp [queueSymbols]⟩
  | succ fuel ih =>
    match q, h0, hf with
    | [e], _, _ => exact ⟨e.node, rfl, by simp [queueSymbols]⟩
    | a :: b :: q, _, hf =>
      have hp := queueInsert_perm ⟨a.freq + b.freq, seq, .internal a.node b.node⟩ q
      obtain ⟨t, h1, h2⟩ := ih (seq + 1) (queueInsert ⟨a.freq + b.freq, seq, .internal a.node b.node⟩ q)
        (fun h => by rw [h] at hp; exact absurd hp.length_eq (by simp))
        (by rw [hp.length_eq]; simp only [List.length_cons] at hf ⊢; omega)
      refine ⟨t, h1, h2.trans ((queueSymbols_insert _ q).trans (List.Perm.of_eq ?_))⟩
      simp [queueSymbols, HTree.symbols]

theorem presentSymbols_nodup (f : List Nat) : (presentSymbols f).Nodup := List.nodup_range.filter _

theorem mem_presentSymbols {f : List Nat} {n : Nat} : n ∈ presentSymbols f ↔ n < 256 ∧ 0 < f.getD n 0 := by
  simp only [presentSymbols, List.mem_filter, List.mem_range, decide_eq_true_eq]

/-- The tree of FREQ (R289): it exists when a symbol occurs, and its leaves are the symbols that occur. -/
theorem buildTree_some {f : List Nat} (h : presentSymbols f ≠ []) :
    ∃ t, buildTree f = some t ∧ t.symbols.Perm (presentSymbols f) := by
  have hl := leafQueue_length f (presentSymbols f) 0 []
  obtain ⟨t, h1, h2⟩ := mergeQueue_some (presentSymbols f).length (presentSymbols f).length
    (leafQueue f (presentSymbols f) 0 []) (fun h' => h (List.length_eq_zero_iff.mp (by rw [h'] at hl; simpa using hl.symm)))
    (by rw [hl]; simp)
  exact ⟨t, h1, h2.trans ((leafQueue_symbols f _ 0 []).trans (by simp [queueSymbols]))⟩

/-- `buildTree` is the loop of R289. -/
theorem buildTree_isTreeOf {f : List Nat} {t : HTree} (h : buildTree f = some t) : IsTreeOf f t := by
  have hl : (leafQueue f (presentSymbols f) 0 []).length = (occurring f).length := leafQueue_length f _ 0 []
  have hs : QueueSorted (presentSymbols f).length (leafQueue f (presentSymbols f) 0 []) := by
    have := leafQueue_sorted f (presentSymbols f) 0 [] ⟨List.Pairwise.nil, by simp⟩
    rwa [Nat.zero_add] at this
  obtain ⟨r, r0, r1, r2⟩ := mergeQueue_rounds hs h
  rw [hl] at r1 r2
  refine ⟨r, ?_, r1, r2⟩
  rw [r0]
  exact (leafQueue_perm f _ 0 []).trans (List.Perm.of_eq (List.append_nil _))

/-! ### Symbols with their depths -/

/-- Two or more symbols that occur: their depths are those of the tree. -/
theorem symbolDepths_tree {f : List Nat} (h : 2 ≤ (presentSymbols f).length) :
    ∃ t, buildTree f = some t ∧ symbolDepths f = t.depths 0 := by
  obtain ⟨t, h1, -⟩ := buildTree_some (f := f) (fun h' => by rw [h'] at h; simp at h)
  refine ⟨t, h1, ?_⟩
  unfold symbolDepths
  match hp : presentSymbols f, h with
  | _ :: _ :: _, _ => simp only [h1]

/-- Exactly the symbols that occur have a depth. -/
theorem symbolDepths_perm (f : List Nat) : ((symbolDepths f).map Prod.fst).Perm (presentSymbols f) := by
  unfold symbolDepths
  match hp : presentSymbols f with
  | [] => simp
  | [s] => simp
  | _ :: _ :: _ =>
    obtain ⟨t, h1, h2⟩ := buildTree_some (f := f) (by rw [hp]; simp)
    simp only [h1]
    rw [t.map_fst_depths, ← hp]; exact h2

/-- No symbol that occurs has depth 0. -/
theorem symbolDepths_pos (f : List Nat) : ∀ p ∈ symbolDepths f, 1 ≤ p.2 := by
  intro p h
  by_cases h2 : 2 ≤ (presentSymbols f).length
  · obtain ⟨t, ht, hd⟩ := symbolDepths_tree h2
    rw [hd] at h
    match t, ht, h with
    | .internal l r, _, h =>
      rcases List.mem_append.mp h with h | h
      · exact l.depths_ge 1 p h
      · exact r.depths_ge 1 p h
    | .leaf s, ht, _ =>
      obtain ⟨t', h1, h3⟩ := buildTree_some (f := f) (fun h' => by rw [h'] at h2; simp at h2)
      rw [ht] at h1
      obtain rfl := Option.some.inj h1
      rw [← h3.length_eq] at h2
      simp [HTree.symbols] at h2
  · unfold symbolDepths at h
    match hp : presentSymbols f with
    | [] => simp [hp] at h
    | [s] => simp [hp] at h; simp [h]
    | _ :: _ :: _ => simp [hp] at h2

theorem depthOf_of_mem {ds : List (Nat × Nat)} (hn : (ds.map Prod.fst).Nodup) {p : Nat × Nat} (hp : p ∈ ds) :
    depthOf ds p.1 = p.2 := by
  induction ds with
  | nil => cases hp
  | cons x xs ih =>
    obtain ⟨h1, h2⟩ := List.nodup_cons.mp hn
    rcases List.mem_cons.mp hp with rfl | h
    · simp [depthOf, List.lookup]
    · have hne : p.1 ≠ x.1 := fun e => h1 (e ▸ List.mem_map_of_mem h)
      rw [← ih h2 h, depthOf, depthOf]
      obtain ⟨a, b⟩ := x
      rw [List.lookup_cons, beq_eq_false_iff_ne.mpr hne]

theorem depthOf_of_not_mem {ds : List (Nat × Nat)} {n : Nat} (h : n ∉ ds.map Prod.fst) : depthOf ds n = 0 := by
  induction ds with
  | nil => rfl
  | cons x xs ih =>
    simp only [List.map_cons, List.mem_cons, not_or] at h
    obtain ⟨a, b⟩ := x
    rw [← ih h.2, depthOf, depthOf, List.lookup_cons, beq_eq_false_iff_ne.mpr h.1]

theorem symbolDepths_nodup (f : List Nat) : ((symbolDepths f).map Prod.fst).Nodup :=
  (symbolDepths_perm f).nodup_iff.mpr (presentSymbols_nodup f)

/-! ### LEN as HUF.BLD gives it -/

theorem buildLens_eq_some {f : List Nat} {l : List (BitVec 4)} : buildLens f = some l ↔
    (∀ p ∈ symbolDepths f, p.2 ≤ Config.maxLen) ∧
      l = (List.range 256).map fun s => BitVec.ofNat 4 (depthOf (symbolDepths f) s) := by
  unfold buildLens
  simp only [List.all_eq_true, decide_eq_true_eq]
  split
  · rename_i h; constructor
    · rintro ⟨⟩; exact ⟨h, rfl⟩
    · rintro ⟨-, rfl⟩; rfl
  · rename_i h; constructor
    · rintro ⟨⟩
    · rintro ⟨h', -⟩; exact absurd h' h

theorem buildLens_length {f : List Nat} {l : List (BitVec 4)} (h : buildLens f = some l) : l.length = 256 := by
  rw [(buildLens_eq_some.mp h).2]; simp

theorem depthOf_symbolDepths_le {f : List Nat} (h : ∀ p ∈ symbolDepths f, p.2 ≤ Config.maxLen) (n : Nat) :
    depthOf (symbolDepths f) n ≤ Config.maxLen := by
  by_cases hn : n ∈ (symbolDepths f).map Prod.fst
  · obtain ⟨p, hp, rfl⟩ := List.mem_map.mp hn
    rw [depthOf_of_mem (symbolDepths_nodup f) hp]; exact h p hp
  · rw [depthOf_of_not_mem hn]; exact Nat.zero_le _

/-- Each symbol's length is its depth. -/
theorem lenOf_buildLens {f : List Nat} {l : List (BitVec 4)} (h : buildLens f = some l) {n : Nat} (hn : n < 256) :
    lenOf l n = depthOf (symbolDepths f) n := by
  obtain ⟨h1, rfl⟩ := buildLens_eq_some.mp h
  have := depthOf_symbolDepths_le h1 n
  rw [lenOf, List.getD_eq_getElem _ _ (by simpa using hn), List.getElem_map, List.getElem_range, BitVec.toNat_ofNat]
  exact Nat.mod_eq_of_lt (by simp only [Config.maxLen] at this; omega)

/-- Exactly the symbols that occur have a length. -/
theorem lenOf_buildLens_pos {f : List Nat} {l : List (BitVec 4)} (h : buildLens f = some l) {n : Nat} (hn : n < 256) :
    0 < lenOf l n ↔ 0 < f.getD n 0 := by
  rw [lenOf_buildLens h hn]
  have hp := symbolDepths_perm f
  by_cases hm : n ∈ (symbolDepths f).map Prod.fst
  · obtain ⟨p, hp', rfl⟩ := List.mem_map.mp hm
    rw [depthOf_of_mem (symbolDepths_nodup f) hp']
    have h1 := symbolDepths_pos f p hp'
    have h2 := mem_presentSymbols.mp (hp.mem_iff.mp hm)
    simp only [h2.2, iff_true]; omega
  · rw [depthOf_of_not_mem hm]
    have : ¬ 0 < f.getD n 0 := fun h' => hm (hp.mem_iff.mpr (mem_presentSymbols.mpr ⟨hn, h'⟩))
    simp only [this, iff_false]; omega

/-! ### The Kraft sum -/

/-- The Kraft sum of a full LEN, symbol by symbol. -/
theorem kraftSum_eq {l : List (BitVec 4)} (h : l.length = 256) :
    kraftSum l = ((List.range 256).map fun n => if lenOf l n = 0 then 0 else 2 ^ (Config.maxLen - lenOf l n)).sum := by
  have key : ∀ l : List (BitVec 4), kraftSum l = (l.map fun x => if x.toNat = 0 then 0 else 2 ^ (Config.maxLen - x.toNat)).sum := by
    intro l
    induction l with
    | nil => rfl
    | cons x xs ih =>
      rw [List.map_cons, List.sum_cons, ← ih, kraftSum, kraftSum, List.filter_cons]
      by_cases hx : x = 0
      · subst hx; simp
      · have : x.toNat ≠ 0 := fun h => hx (BitVec.eq_of_toNat_eq (by simpa using h))
        simp [show ¬ x = 0#4 from hx, this]
  rw [key]
  congr 1
  apply List.ext_getElem
  · simp [h]
  · intro i h1 h2
    simp only [List.length_map, List.length_range] at h1 h2
    simp [lenOf, h1]

theorem sum_range_ite (a v k : Nat) : ((List.range k).map fun n => if n = a then v else 0).sum = if a < k then v else 0 := by
  induction k with
  | zero => rfl
  | succ k ih =>
    rw [List.range_succ, List.map_append, List.sum_append, ih, List.map_singleton, List.sum_singleton]
    by_cases h : k = a
    · rw [if_neg (by omega), if_pos h, if_pos (by omega), Nat.zero_add]
    · rw [if_neg h, Nat.add_zero]
      by_cases h' : a < k
      · rw [if_pos h', if_pos (by omega)]
      · rw [if_neg h', if_neg (by omega)]

/-- What is listed once for each symbol, summed symbol by symbol. -/
theorem sum_depthOf {ds : List (Nat × Nat)} {k : Nat} (hn : (ds.map Prod.fst).Nodup) (hlt : ∀ p ∈ ds, p.1 < k)
    (h1 : ∀ p ∈ ds, 1 ≤ p.2) (m : Nat) :
    ((List.range k).map fun n => if depthOf ds n = 0 then 0 else 2 ^ (m - depthOf ds n)).sum =
      (ds.map fun p => 2 ^ (m - p.2)).sum := by
  induction ds with
  | nil =>
    show ((List.range k).map fun _ => 0).sum = 0
    rw [List.map_const', List.sum_replicate, smul_zero]
  | cons x xs ih =>
    obtain ⟨a, b⟩ := x
    obtain ⟨g1, g2⟩ := List.nodup_cons.mp hn
    have hb : 1 ≤ b := h1 (a, b) (by simp)
    have hx : depthOf xs a = 0 := depthOf_of_not_mem g1
    have step : ∀ n, (if depthOf ((a, b) :: xs) n = 0 then 0 else 2 ^ (m - depthOf ((a, b) :: xs) n)) =
        (if n = a then 2 ^ (m - b) else 0) + (if depthOf xs n = 0 then 0 else 2 ^ (m - depthOf xs n)) := by
      intro n
      by_cases hna : n = a
      · subst hna
        have : depthOf ((n, b) :: xs) n = b := by simp [depthOf]
        rw [this, hx, if_neg (by omega), if_pos rfl, if_pos rfl, Nat.add_zero]
      · have : depthOf ((a, b) :: xs) n = depthOf xs n := by
          rw [depthOf, depthOf, List.lookup_cons, beq_eq_false_iff_ne.mpr hna]
        rw [this, if_neg hna, Nat.zero_add]
    simp only [step]
    rw [List.sum_map_add, sum_range_ite, if_pos (hlt (a, b) (by simp)), ih g2 (fun p hp => hlt p (by simp [hp]))
      (fun p hp => h1 p (by simp [hp]))]
    rfl

/-- The Kraft sum of HUF.BLD's LEN is that of the depths. -/
theorem kraftSum_depths {f : List Nat} {l : List (BitVec 4)} (h : buildLens f = some l) :
    kraftSum l = ((symbolDepths f).map fun p => 2 ^ (Config.maxLen - p.2)).sum := by
  have hlt : ∀ p ∈ symbolDepths f, p.1 < 256 := fun p hp =>
    (mem_presentSymbols.mp ((symbolDepths_perm f).mem_iff.mp (List.mem_map_of_mem hp))).1
  rw [kraftSum_eq (buildLens_length h), ← sum_depthOf (symbolDepths_nodup f) hlt (symbolDepths_pos f)]
  congr 1
  exact List.map_congr_left fun n hn => by rw [lenOf_buildLens h (List.mem_range.mp hn)]

/-- Two or more symbols: the Kraft sum is exactly 1 (R292). -/
theorem kraftSum_buildLens {f : List Nat} {l : List (BitVec 4)} (h : buildLens f = some l)
    (h2 : 2 ≤ (presentSymbols f).length) : kraftSum l = 2 ^ Config.maxLen := by
  obtain ⟨t, -, hd⟩ := symbolDepths_tree h2
  have hm := (buildLens_eq_some.mp h).1
  rw [kraftSum_depths h]
  rw [hd] at hm ⊢
  exact t.kraft_depths 0 Config.maxLen hm

/-- HUF.BLD's LEN has a Kraft sum of at most 1 (R292). -/
theorem kraftSum_buildLens_le {f : List Nat} {l : List (BitVec 4)} (h : buildLens f = some l) :
    kraftSum l ≤ 2 ^ Config.maxLen := by
  by_cases h2 : 2 ≤ (presentSymbols f).length
  · exact (kraftSum_buildLens h h2).le
  · rw [kraftSum_depths h]
    unfold symbolDepths
    match hp : presentSymbols f with
    | [] => simp
    | [s] => simp only [List.map_singleton, List.sum_singleton]; decide
    | _ :: _ :: _ => simp [hp] at h2

end Sys2Proof.Machine
end

