-- ==== Sys2Proof/Laws/Expansion.lean ====
section
/-! SUPPORT. When each command of a whole-frame command's expansion retires, and with what effect; issuing unit commands
one after the other. -/

namespace Sys2Proof.Machine

/-! ### Unit commands issued one by one -/

/-- A unit command whose body succeeds is issued and retires. -/
theorem State.issue_ok {s t : State} {i : Instr} {io : Bool} {b : State → Except Trap State}
    (he : ∀ s, exec i s = retire s (b s)) (hb : b { s with ioA := io } = .ok t) (hf : t.fault = false) :
    s.issue i io = .ok { t with cp := s.cp + 1 } := by
  unfold State.issue
  rw [he, hb, retire_ok]
  simp [hf]

/-- Issuing a list, then another. -/
theorem State.issueAll_append (us vs : List (Instr × Bool)) (s : State) :
    State.issueAll (us ++ vs) s = (State.issueAll us s).bind (State.issueAll vs) := by
  induction us generalizing s with
  | nil => rfl
  | cons u us ih =>
    rw [List.cons_append, State.issueAll, State.issueAll]
    cases s.issue u.1 u.2 with
    | ok t => exact ih t
    | error t => rfl

theorem State.issueAll_cons_ok {s t : State} {i : Instr} {io : Bool} {us : List (Instr × Bool)} (h : s.issue i io = .ok t) :
    State.issueAll ((i, io) :: us) s = State.issueAll us t := by
  rw [State.issueAll, h]

/-- A loop over blocks keeps what each round keeps. -/
theorem State.issueAll_blocks {units : Nat → List (Instr × Bool)} {Q : Nat → State → Prop} (n : Nat)
    (round : ∀ i s, i < n → Q i s → ∃ t, State.issueAll (units i) s = .ok t ∧ Q (i + 1) t) (s : State) (h : Q 0 s) :
    ∃ t, State.issueAll ((List.range n).flatMap units) s = .ok t ∧ Q n t := by
  have key : ∀ k, k ≤ n → ∃ t, State.issueAll ((List.range k).flatMap units) s = .ok t ∧ Q k t := by
    intro k
    induction k with
    | zero => intro _; exact ⟨s, rfl, h⟩
    | succ k ih =>
      intro hk
      obtain ⟨t, h1, h2⟩ := ih (by omega)
      obtain ⟨u, h3, h4⟩ := round k t (by omega) h2
      refine ⟨u, ?_, h4⟩
      rw [List.range_succ, List.flatMap_append, State.issueAll_append, h1]
      simpa [Except.bind] using h3
  exact key n (Nat.le_refl n)

/-- A unit command whose body succeeds retires in a state that satisfies what is known of it. -/
theorem State.issue_to {P : State → Prop} {s t : State} {i : Instr} {io : Bool} {b : State → Except Trap State}
    (he : ∀ s, exec i s = retire s (b s)) (hb : b { s with ioA := io } = .ok t) (hf : t.fault = false)
    (hP : P { t with cp := s.cp + 1 }) : ∃ a, s.issue i io = .ok a ∧ P a :=
  ⟨_, State.issue_ok he hb hf, hP⟩

/-! ### When a command's checks pass, it succeeds -/

theorem bodyFrLd_of {f : BitVec 32} {s : State} (h : frameOffset f + Config.frameBytes ≤ s.raw.len) :
    bodyFrLd true f s = .ok { s with rgb := some (pixelsOf (s.raw.read (frameOffset f) Config.frameBytes)), fidx := some f } := by
  unfold bodyFrLd
  rw [if_neg (by decide), if_neg (by omega)]

theorem bodyFrSt_of {f : BitVec 32} {s : State} {g : Frame} (hg : s.rgb = some g) (h : frameOffset f ≤ s.raw.len) :
    bodyFrSt true f s = .ok { s with raw := s.raw.write (frameOffset f) (Frame.bytes g) } := by
  unfold bodyFrSt
  rw [hg]
  simp only
  rw [if_neg (by omega), if_neg (by decide)]

theorem bodyCscFwd_of {s : State} {g : Frame} (hg : s.rgb = some g) :
    bodyCscFwd s = .ok { s with cur := some (g.map rgbToYuv) } := by
  unfold bodyCscFwd; rw [hg]

theorem bodyCscInv_of {s : State} {g : Frame} (hg : s.cur = some g) :
    bodyCscInv s = .ok { s with rgb := some (g.map yuvToRgb) } := by
  unfold bodyCscInv; rw [hg]

theorem bodyTpFwd_of_delta {s : State} {f p : Frame} {i : BitVec 32} (hf : s.cur = some f) (hi : s.fidx = some i)
    (ht : ftypeOf i.toNat = .delta) (hp : s.prevFor i = some p) :
    bodyTpFwd s = .ok { s with
      wrk := bufOfFrame (List.zipWith (Pixel.zip dpcmFwd) f p), ftype := some .delta, prev := some f, prevIdx := some i } := by
  unfold bodyTpFwd
  rw [hf, hi]
  simp only [ht, hp]

theorem bodyTpFwd_of_key {s : State} {f : Frame} {i : BitVec 32} (hf : s.cur = some f) (hi : s.fidx = some i)
    (ht : ftypeOf i.toNat = .key) :
    bodyTpFwd s = .ok { s with wrk := bufOfFrame f, ftype := some .key, prev := some f, prevIdx := some i } := by
  unfold bodyTpFwd
  rw [hf, hi]
  simp only [ht]

/-- TP.FWD on either frame type, by the frame it predicts (41_temporal.md R183). -/
theorem bodyTpFwd_of {s : State} {f w : Frame} {i : BitVec 32} (hf : s.cur = some f) (hi : s.fidx = some i)
    (hw : s.predicted dpcmFwd i f = some w) :
    bodyTpFwd s = .ok { s with
      wrk := bufOfFrame w, ftype := some (ftypeOf i.toNat), prev := some f, prevIdx := some i } := by
  unfold State.predicted at hw
  cases ht : ftypeOf i.toNat with
  | key => rw [ht] at hw; obtain rfl := Option.some.inj hw; exact bodyTpFwd_of_key hf hi ht
  | delta =>
    rw [ht] at hw
    obtain ⟨p, hp, rfl⟩ := Option.map_eq_some_iff.mp hw
    exact bodyTpFwd_of_delta hf hi ht hp

theorem bodyTpInv_of_key {s : State} {i : BitVec 32} (ht : s.ftype = some .key) (hi : s.fidx = some i)
    (hw : s.wrk.full Config.frameBytes = true) :
    bodyTpInv s = .ok (s.acceptFrame (pixelsOf (s.wrk.bytes Config.frameBytes)) i) := by
  unfold bodyTpInv
  rw [ht, hi]
  simp only [hw, Bool.true_eq_false, if_false]

/-- TP.INV on either frame type, by the frame it reconstructs (R186). -/
theorem bodyTpInv_of {s : State} {c : Frame} {i : BitVec 32} (ht : s.ftype = some (ftypeOf i.toNat)) (hi : s.fidx = some i)
    (hw : s.wrk.full Config.frameBytes = true)
    (hc : s.predicted dpcmInv i (pixelsOf (s.wrk.bytes Config.frameBytes)) = some c) :
    bodyTpInv s = .ok (s.acceptFrame c i) := by
  unfold State.predicted at hc
  cases h : ftypeOf i.toNat with
  | key => rw [h] at hc ht; obtain rfl := Option.some.inj hc; exact bodyTpInv_of_key ht hi hw
  | delta =>
    rw [h] at hc ht
    obtain ⟨p, hp, rfl⟩ := Option.map_eq_some_iff.mp hc
    unfold bodyTpInv
    rw [ht, hi]
    simp only [hw, Bool.true_eq_false, if_false, hp]

theorem bodyPayLen_of {n : BitVec 32} {s : State} (h : n.toNat ≤ Config.frameBytes) :
    bodyPayLen n s = .ok { s with payLen := n, pay := .nil, freq := none, lens := none, hdr := none } := by
  unfold bodyPayLen
  rw [if_pos h]
  rfl

theorem bodyBlkLd_of {i : Nat} {s : State} {m : Mat Byte} (hi : i < Config.numBlocks) (hm : s.wrkBlock i = some m) :
    bodyBlkLd (BitVec.ofNat 32 i) s = .ok (s.takeBlock i m) := by
  have hn : (BitVec.ofNat 32 i).toNat = i := by
    rw [BitVec.toNat_ofNat]; exact Nat.mod_eq_of_lt (by simp only [Config.numBlocks] at hi; omega)
  unfold bodyBlkLd
  simp only [blkLegal, hn, hi, not_true_eq_false, if_false, hm]

theorem bodyBlkGet_of {i : Nat} {s : State} {m : Mat Byte} (hi : i < Config.numBlocks)
    (hp : 64 * i + 63 < s.payLen.toNat) (hm : s.payBlock i = some m) :
    bodyBlkGet (BitVec.ofNat 32 i) s = .ok (s.takeBlock i m) := by
  have hn : (BitVec.ofNat 32 i).toNat = i := by
    rw [BitVec.toNat_ofNat]; exact Nat.mod_eq_of_lt (by simp only [Config.numBlocks] at hi; omega)
  unfold bodyBlkGet
  simp only [blkLegal, hn, hi, not_true_eq_false, if_false, hm]
  rw [if_neg (by omega)]

theorem bodyBlkSt_of {i : Nat} {s : State} {m : Mat F64} (hi : i < Config.numBlocks) (hm : s.blkValues = some m)
    (hc : s.bch = some (blockChan i)) (hf : Mat.every F64.isFinite m = true) :
    bodyBlkSt (BitVec.ofNat 32 i) s = .ok { s with wrk := s.wrk.setAll (placed (wrkIndex i) (Mat.mapElems pix m)) } := by
  have hn : (BitVec.ofNat 32 i).toNat = i := by
    rw [BitVec.toNat_ofNat]; exact Nat.mod_eq_of_lt (by simp only [Config.numBlocks] at hi; omega)
  unfold bodyBlkSt
  simp only [blkLegal, hn, hi, not_true_eq_false, if_false, hm, hc, ne_eq, hf, Bool.true_eq_false]

theorem bodyBlkPut_of {i : Nat} {s : State} {m : Mat F64} {b : Mat Byte} (hi : i < Config.numBlocks)
    (hp : 64 * i + 63 < s.payLen.toNat) (hm : s.blkValues = some m) (hc : s.bch = some (blockChan i))
    (hb : Mat.values? (Mat.mapElems byteValue? m) = some b) :
    bodyBlkPut (BitVec.ofNat 32 i) s = .ok { s with
      pay := s.pay.setAll (placed (payIndex i) b), freq := none, lens := none, hdr := none } := by
  have hn : (BitVec.ofNat 32 i).toNat = i := by
    rw [BitVec.toNat_ofNat]; exact Nat.mod_eq_of_lt (by simp only [Config.numBlocks] at hi; omega)
  unfold bodyBlkPut
  simp only [blkLegal, hn, hi, not_true_eq_false, if_false, hm, hc, ne_eq, hb]
  rw [if_neg (by omega)]
  rfl

theorem bodyFdct_of {s : State} {m : Mat F64} (hm : s.blkValues = some m) : bodyFdct s = .ok (s.setBlk (fdct2d m)) := by
  unfold bodyFdct; rw [hm]

theorem bodyIdct_of {s : State} {m : Mat F64} (hm : s.blkValues = some m) : bodyIdct s = .ok (s.setBlk (idct2d m)) := by
  unfold bodyIdct; rw [hm]

theorem bodyQuant_of {s : State} {m : Mat F64} {t : Mat Nat} (hm : s.quantOperands = some (m, t))
    (hf : Mat.every F64.isFinite m = true) : bodyQuant s = .ok (s.setBlk (quantBlock t m)) := by
  unfold bodyQuant; rw [hm]; simp only [hf, Bool.true_eq_false, if_false]

theorem bodyDequant_of {s : State} {m : Mat F64} {t : Mat Nat} (hm : s.quantOperands = some (m, t)) :
    bodyDequant s = .ok (s.setBlk (dequantBlock t m)) := by
  unfold bodyDequant; rw [hm]

theorem bodyHufCnt_of {s : State} {bs : List Byte} (hb : s.payload = some bs) :
    bodyHufCnt s = .ok { s with freq := some (countBytes bs), lens := none, hdr := none } := by
  unfold bodyHufCnt; rw [hb]

theorem bodyHufBld_of {s : State} {f : List Nat} {l : List (BitVec 4)} (hf : s.freq = some f) (hl : buildLens f = some l) :
    bodyHufBld s = .ok { s with lens := some l, hdr := none } := by
  unfold bodyHufBld; rw [hf]; simp only [hl]

theorem bodyHufHdr_of {s : State} {l : List (BitVec 4)} (hl : s.lens = some l) :
    bodyHufHdr s = .ok { s with hdr := some (hdrOf l) } := by
  unfold bodyHufHdr; rw [hl]

theorem bodyHufPack_of {s : State} {bs h : List Byte} {l : List (BitVec 4)} (hb : s.payload = some bs)
    (hl : s.lens = some l) (hh : s.hdr = some h) (hc : ∀ b ∈ bs, 0 < lenOf l b.toNat) (hn : s.payLen.toNat ≠ 0) :
    bodyHufPack s = .ok { s with enc := some (packedPayload l h bs) } := by
  have : bs.all (fun b => decide (0 < lenOf l b.toNat)) = true :=
    List.all_eq_true.mpr fun b hb => decide_eq_true (hc b hb)
  unfold bodyHufPack
  rw [hb, hl, hh]
  simp only [this, Bool.true_eq_false, if_false, hn]

theorem bodyHufLdh_of {s : State} {e : List Byte} (he : s.enc = some e) (hl : Config.hdrBytes ≤ e.length)
    (hk : kraftSum (unhdr (e.take Config.hdrBytes)) ≤ 2 ^ Config.maxLen) :
    bodyHufLdh s = .ok { s with
      hdr := some (e.take Config.hdrBytes), lens := some (unhdr (e.take Config.hdrBytes)), freq := none } := by
  have h0 : ¬ e.length = 0 := by simp only [Config.hdrBytes] at hl; omega
  unfold bodyHufLdh
  rw [he]
  simp only [h0, if_false]
  rw [if_neg (Nat.not_lt.mpr hl), if_neg (Nat.not_lt.mpr hk)]

theorem bodyHufUnp_of {s : State} {e out : List Byte} {l : List (BitVec 4)} (he : s.enc = some e) (hl : s.lens = some l)
    (ho : decodeSymbols (canon l) s.payLen.toNat (bitsOfBytes (e.drop Config.hdrBytes)) = .ok out) :
    bodyHufUnp s = .ok { s with pay := s.pay.setFrom 0 out, freq := none, lens := none, hdr := none } := by
  unfold bodyHufUnp
  rw [he, hl]
  simp only [ho]
  rfl

theorem bodyCwRec_of {s : State} {e : List Byte} {t : FrameType} {n : BitVec 32} (hw : s.wact = true)
    (he : s.enc = some e) (ht : s.ftype = some t) (hi : s.fidx = some s.nrec) (hty : t = ftypeOf s.nrec.toNat)
    (hp : s.wpos = s.ctr.len) (hn : s.frameCount = some n) : bodyCwRec true s = .ok (s.appendRecord n t e) := by
  unfold bodyCwRec
  rw [hw, he, ht, hi, hn]
  simp only [Bool.true_eq_false, if_false, ne_eq, not_true_eq_false, hp]
  rw [if_neg (by rw [not_not]; exact hty)]

theorem bodyCrNext_of {s : State} {n : BitVec 32} {next stop : Nat} {t : FrameType} (hr : s.ropen = true)
    (he : s.eos = false) (hp : s.rpos + Config.recPrefix ≤ s.ctr.len) (hn : s.frameCount = some n)
    (hl : linkOf s.ctr n.toNat s.rpos s.rnum.toNat = .ok (next, stop))
    (hc : stop - s.rpos - Config.recPrefix ≤ Config.encCap) (ht : frameTypeOf? (s.ctr.get (s.rpos + 8)) = some t)
    (hty : t = ftypeOf s.rnum.toNat) : bodyCrNext true s = .ok (s.takeRecord t next stop) := by
  unfold bodyCrNext
  rw [hr, he, hn, if_neg (by simp), if_neg (by simp), if_neg (Nat.not_lt.mpr hp)]
  simp only [hl, ht]
  rw [if_neg (Nat.not_lt.mpr hc), if_neg (by rw [not_not]; exact hty)]

/-! ### What BLK holds after it is written whole -/

@[simp] theorem State.blkValues_setBlk (s : State) (m : Mat F64) : (s.setBlk m).blkValues = some m :=
  State.blkValues_eq_some.mpr fun r c => by simp

@[simp] theorem State.blkValues_takeBlock (s : State) (i : Nat) (m : Mat Byte) :
    (s.takeBlock i m).blkValues = some (Mat.mapElems (fun b => F64.ofNat b.toNat) m) :=
  State.blkValues_eq_some.mpr fun r c => by simp

end Sys2Proof.Machine
end

