-- ==== Sys2Proof/Laws/Float.lean ====
section
/-! SUPPORT. Bounds of binary64 results: the rounding never passes a power of two that the exact result keeps to, so
the transforms of a block of bytes, and of a block of bytes that DEQUANT scaled, are finite. -/

namespace Sys2Proof

/-! ### The rounding -/

theorem two_pow_split {a b c : Nat} (h : a = b + c) : 2 ^ a = 2 ^ b * 2 ^ c := by rw [h, Nat.pow_add]

theorem roundNearestEven_le {n d m : Nat} (hd : 0 < d) (h : n ≤ d * m) : roundNearestEven n d ≤ m := by
  have hdm := Nat.div_add_mod n d
  have hq : n / d ≤ m := by
    rw [Nat.div_le_iff_le_mul_add_pred hd]; omega
  unfold roundNearestEven
  rcases Nat.lt_or_eq_of_le hq with hlt | heq
  · split
    · omega
    · split <;> omega
  · have : n % d = 0 := by
      rw [heq] at hdm; omega
    rw [if_pos (by omega)]; omega

theorem le_roundNearestEven (n d : Nat) : n / d ≤ roundNearestEven n d := by
  unfold roundNearestEven
  split
  · omega
  · split <;> omega

/-- The place of the result's last bit. -/
def nearestShift (n d : Nat) : Nat := (n / d).log2 - 52

/-- The magnitude pattern before the check for overflow. -/
def nearestMag (n d : Nat) : Nat := nearestShift n d * 2 ^ 52 + roundNearestEven n (d * 2 ^ nearestShift n d)

theorem F64.nearest_eq (neg : Bool) (n d : Nat) :
    F64.nearest neg n d = if h : nearestMag n d < magBound then .fin neg ⟨nearestMag n d, h⟩ else .inf neg := rfl

theorem div_lt_nearest (n d : Nat) : n / d < 2 ^ 53 * 2 ^ nearestShift n d := by
  unfold nearestShift
  rw [← Nat.pow_add]
  by_cases h : n / d = 0
  · rw [h]; exact Nat.two_pow_pos _
  · refine (Nat.log2_lt h).mp ?_
    omega

theorem le_div_nearest {n d : Nat} (h : 0 < nearestShift n d) : 2 ^ 52 * 2 ^ nearestShift n d ≤ n / d := by
  unfold nearestShift at *
  have h0 : n / d ≠ 0 := by
    intro h0; rw [h0] at h; simp at h
  rw [← Nat.pow_add, show 52 + ((n / d).log2 - 52) = (n / d).log2 by omega]
  exact Nat.log2_self_le h0

/-- The rounded significand has at most 53 bits, or is 2^53. -/
theorem roundNearest_le {n d : Nat} (hd : 0 < d) : roundNearestEven n (d * 2 ^ nearestShift n d) ≤ 2 ^ 53 := by
  refine roundNearestEven_le (Nat.mul_pos hd (Nat.two_pow_pos _)) ?_
  have h1 := div_lt_nearest n d
  have h2 := (Nat.div_lt_iff_lt_mul hd).mp h1
  calc n ≤ 2 ^ 53 * 2 ^ nearestShift n d * d := h2.le
    _ = _ := by ring

theorem le_roundNearest {n d : Nat} (h : 0 < nearestShift n d) :
    2 ^ 52 ≤ roundNearestEven n (d * 2 ^ nearestShift n d) := by
  refine le_trans ?_ (le_roundNearestEven _ _)
  rw [← Nat.div_div_eq_div_mul]
  exact (Nat.le_div_iff_mul_le (Nat.two_pow_pos _)).mpr (le_div_nearest h)

/-- The magnitude pattern stands for the rounded significand at its place. -/
theorem magUnits_nearestMag {n d : Nat} (hd : 0 < d) :
    magUnits (nearestMag n d) = roundNearestEven n (d * 2 ^ nearestShift n d) * 2 ^ nearestShift n d := by
  have h1 := roundNearest_le (n := n) hd
  have h2 := le_roundNearest (n := n) (d := d)
  unfold nearestMag
  generalize roundNearestEven n (d * 2 ^ nearestShift n d) = r at *
  generalize nearestShift n d = k at *
  unfold magUnits
  rcases Nat.lt_trichotomy r (2 ^ 52) with h | h | h
  · have hk : k = 0 := by
      by_contra hk; have := h2 (by omega); omega
    subst hk
    rw [if_pos (by omega)]; simp
  · subst h
    rw [if_neg (by omega), show (k * 2 ^ 52 + 2 ^ 52) / 2 ^ 52 = k + 1 by omega,
      show (k * 2 ^ 52 + 2 ^ 52) % 2 ^ 52 = 0 by omega]
    simp
  · by_cases h3 : r = 2 ^ 53
    · subst h3
      rw [if_neg (by omega), show (k * 2 ^ 52 + 2 ^ 53) / 2 ^ 52 = k + 2 by omega,
        show (k * 2 ^ 52 + 2 ^ 53) % 2 ^ 52 = 0 by omega, show k + 2 - 1 = k + 1 by omega, pow_succ]
      ring
    · rw [if_neg (by omega), show (k * 2 ^ 52 + r) / 2 ^ 52 = k + 1 by omega,
        show (k * 2 ^ 52 + r) % 2 ^ 52 = r - 2 ^ 52 by omega, show 2 ^ 52 + (r - 2 ^ 52) = r by omega,
        show k + 1 - 1 = k by omega]

/-! ### Bounds -/

/-- Finite, and of magnitude at most `2^k` units. -/
def F64.below (k : Nat) (v : F64) : Prop := v.isFinite = true ∧ v.units.natAbs ≤ 2 ^ k

theorem F64.below_fin {k : Nat} {s : Bool} {m : Fin magBound} : (F64.fin s m).below k ↔ magUnits m ≤ 2 ^ k := by
  cases s <;> simp [below, isFinite, units]

theorem F64.below.mono {j k : Nat} {v : F64} (h : v.below j) (hjk : j ≤ k) : v.below k :=
  ⟨h.1, h.2.trans (Nat.pow_le_pow_right (by decide) hjk)⟩

theorem F64.below.fin {k : Nat} {v : F64} (h : v.below k) : ∃ s m, v = .fin s m ∧ magUnits m ≤ 2 ^ k := by
  match v, h with
  | .fin s m, h => exact ⟨s, m, rfl, F64.below_fin.mp h⟩

/-- Rounding keeps to a power of two below 2^2098 units. -/
theorem F64.nearest_below {n d k : Nat} (neg : Bool) (hd : 0 < d) (h : n ≤ d * 2 ^ k) (hk : k < 2098) :
    (F64.nearest neg n d).below k := by
  have hq : n / d ≤ 2 ^ k := by
    rw [Nat.div_le_iff_le_mul_add_pred hd]; omega
  have hs : nearestShift n d ≤ k := by
    by_contra hlt
    have h1 := le_div_nearest (n := n) (d := d) (by omega)
    have h2 : 2 ^ (k + 1) ≤ 2 ^ 52 * 2 ^ nearestShift n d := by
      rw [← Nat.pow_add]; exact Nat.pow_le_pow_right (by decide) (by omega)
    have h3 : 2 ^ k < 2 ^ (k + 1) := Nat.pow_lt_pow_right (by decide) (by omega)
    omega
  have hr : roundNearestEven n (d * 2 ^ nearestShift n d) ≤ 2 ^ (k - nearestShift n d) := by
    refine roundNearestEven_le (Nat.mul_pos hd (Nat.two_pow_pos _)) ?_
    rw [Nat.mul_assoc, ← Nat.pow_add, Nat.add_sub_cancel' hs]; exact h
  have hu : magUnits (nearestMag n d) ≤ 2 ^ k := by
    rw [magUnits_nearestMag hd]
    calc _ ≤ 2 ^ (k - nearestShift n d) * 2 ^ nearestShift n d := Nat.mul_le_mul_right _ hr
      _ = 2 ^ k := by rw [← Nat.pow_add, Nat.sub_add_cancel hs]
  have hb : nearestMag n d < magBound := by
    by_contra hge
    have h1 := roundNearest_le (n := n) hd
    have h2 : 2045 ≤ nearestShift n d := by
      simp only [nearestMag, magBound] at hge; omega
    have h3 := le_roundNearest (n := n) (d := d) (by omega)
    rw [magUnits_nearestMag hd] at hu
    have h4 : 2 ^ 2098 ≤ roundNearestEven n (d * 2 ^ nearestShift n d) * 2 ^ nearestShift n d := by
      rcases Nat.lt_or_ge (nearestShift n d) 2046 with h5 | h5
      · have h6 : nearestShift n d = 2045 := by omega
        have h7 : 2 ^ 53 ≤ roundNearestEven n (d * 2 ^ nearestShift n d) := by
          simp only [nearestMag, magBound] at hge; omega
        calc 2 ^ 2098 = 2 ^ 53 * 2 ^ 2045 := two_pow_split rfl
          _ ≤ _ := Nat.mul_le_mul h7 (Nat.pow_le_pow_right (by decide) h2)
      · calc 2 ^ 2098 = 2 ^ 52 * 2 ^ 2046 := two_pow_split rfl
          _ ≤ _ := Nat.mul_le_mul h3 (Nat.pow_le_pow_right (by decide) h5)
    exact absurd (h4.trans hu) (Nat.not_le.mpr (Nat.pow_lt_pow_right (by decide) hk))
  rw [F64.nearest_eq, dif_pos hb]
  exact F64.below_fin.mpr hu

theorem F64.below.neg {k : Nat} {a : F64} (ha : a.below k) : a.neg.below k := by
  obtain ⟨s, m, rfl, h⟩ := ha.fin
  exact F64.below_fin.mpr h

theorem F64.zero_below (k : Nat) (s : Bool) : (F64.zero s).below k :=
  F64.below_fin.mpr (by simp [magUnits])

theorem F64.below.add {k : Nat} {a b : F64} (ha : a.below k) (hb : b.below k) (hk : k + 1 < 2098) :
    (a.add b).below (k + 1) := by
  have h1 := ha.2
  have h2 := hb.2
  obtain ⟨s, m, rfl, -⟩ := ha.fin
  obtain ⟨t, n, rfl, -⟩ := hb.fin
  show F64.below (k + 1) (if (F64.fin s m).units + (F64.fin t n).units = 0 then F64.zero (s && t)
    else F64.nearest (decide ((F64.fin s m).units + (F64.fin t n).units < 0))
      ((F64.fin s m).units + (F64.fin t n).units).natAbs 1)
  split
  · exact F64.zero_below _ _
  · refine F64.nearest_below _ Nat.one_pos ?_ hk
    rw [pow_succ]
    omega

theorem F64.below.sub {k : Nat} {a b : F64} (ha : a.below k) (hb : b.below k) (hk : k + 1 < 2098) :
    (a.sub b).below (k + 1) := ha.add hb.neg hk

/-- A product with a factor of at most `2^e`, as `2^(1074 + e)` units. -/
theorem F64.below.mul {k e : Nat} {a b : F64} (ha : a.below k) (hb : b.below (1074 + e)) (hk : k + e < 2098) :
    (a.mul b).below (k + e) := by
  obtain ⟨s, m, rfl, h1⟩ := ha.fin
  obtain ⟨t, n, rfl, h2⟩ := hb.fin
  show F64.below (k + e) (F64.nearest (s != t) (magUnits m * magUnits n) unitsPerOne)
  refine F64.nearest_below _ (Nat.two_pow_pos 1074) ?_ hk
  calc magUnits m * magUnits n ≤ 2 ^ k * 2 ^ (1074 + e) := Nat.mul_le_mul h1 h2
    _ = 2 ^ (k + (1074 + e)) := (two_pow_split rfl).symm
    _ = 2 ^ 1074 * 2 ^ (k + e) := two_pow_split (by omega)

/-- A quotient by a value of at least 1/2. -/
theorem F64.below.div_half {k : Nat} {a : F64} {t : Bool} {n : Fin magBound} (ha : a.below k) (hb : 2 ^ 1073 ≤ magUnits n)
    (hk : k + 1 < 2098) : (a.div (.fin t n)).below (k + 1) := by
  obtain ⟨s, m, rfl, h1⟩ := ha.fin
  have hn : (n : Nat) ≠ 0 := by
    intro h; rw [h, show magUnits 0 = 0 from rfl] at hb; exact absurd (Nat.two_pow_pos 1073) (Nat.not_lt.mpr hb)
  show F64.below (k + 1) (if n.val = 0 then _ else F64.nearest (s != t) (magUnits m * unitsPerOne) (magUnits n))
  rw [if_neg hn]
  refine F64.nearest_below _ (lt_of_lt_of_le (Nat.two_pow_pos _) hb) ?_ hk
  calc magUnits m * unitsPerOne ≤ 2 ^ k * 2 ^ 1074 := Nat.mul_le_mul_right _ h1
    _ = 2 ^ (k + 1074) := (two_pow_split rfl).symm
    _ = 2 ^ 1073 * 2 ^ (k + 1) := two_pow_split (by omega)
    _ ≤ _ := Nat.mul_le_mul_right _ hb

/-- A quotient by a value of at least 2. -/
theorem F64.below.div_two {k : Nat} {a : F64} {t : Bool} {n : Fin magBound} (ha : a.below (k + 1)) (hb : 2 ^ 1075 ≤ magUnits n)
    (hk : k < 2098) : (a.div (.fin t n)).below k := by
  obtain ⟨s, m, rfl, h1⟩ := ha.fin
  have hn : (n : Nat) ≠ 0 := by
    intro h; rw [h, show magUnits 0 = 0 from rfl] at hb; exact absurd (Nat.two_pow_pos 1075) (Nat.not_lt.mpr hb)
  show F64.below k (if n.val = 0 then _ else F64.nearest (s != t) (magUnits m * unitsPerOne) (magUnits n))
  rw [if_neg hn]
  refine F64.nearest_below _ (lt_of_lt_of_le (Nat.two_pow_pos _) hb) ?_ hk
  calc magUnits m * unitsPerOne ≤ 2 ^ (k + 1) * 2 ^ 1074 := Nat.mul_le_mul_right _ h1
    _ = 2 ^ (k + 1 + 1074) := (two_pow_split rfl).symm
    _ = 2 ^ 1075 * 2 ^ k := two_pow_split (by omega)
    _ ≤ _ := Nat.mul_le_mul_right _ hb

/-- A natural number of at most `2^e`. -/
theorem F64.ofNat_below {n e : Nat} (h : n ≤ 2 ^ e) (he : e < 1024) : (F64.ofNat n).below (1074 + e) := by
  refine F64.nearest_below _ Nat.one_pos ?_ (by omega)
  calc n * unitsPerOne ≤ 2 ^ e * 2 ^ 1074 := Nat.mul_le_mul_right _ h
    _ = 1 * 2 ^ (1074 + e) := by rw [Nat.one_mul, Nat.mul_comm]; exact (two_pow_split rfl).symm

namespace Machine

/-! ### The eight-point passes -/

/-- Every entry is at most `2^k` units. -/
def octBelow (k : Nat) (x : Oct F64) : Prop := ∀ j, (x.get j).below k

/-- Every element is at most `2^k` units. -/
def matBelow (k : Nat) (m : Mat F64) : Prop := ∀ r c, (Mat.elem m r c).below k

theorem dctA_below : dctA1.below (1074 + 0) ∧ dctA2.below (1074 + 0) ∧ dctA3.below (1074 + 0) ∧ dctA4.below (1074 + 1) ∧
    dctA5.below (1074 + 0) := by
  unfold F64.below; decide +kernel

theorem dctK_below : ∀ v ∈ [dctK0, dctK1, dctK2, dctK3, dctK4, dctK5, dctK6, dctK7], v.below (1074 + 2) := by
  unfold F64.below; decide +kernel

/-- Values of at least 1/2, as the divisors of the passes are. -/
def atLeastHalf (v : F64) : Prop := ∃ t n, v = .fin t n ∧ 2 ^ 1073 ≤ magUnits n

theorem atLeastHalf_of {v : F64} (h : v.isFinite = true ∧ 2 ^ 1073 ≤ v.units.natAbs) : atLeastHalf v := by
  match v, h with
  | .fin true n, ⟨_, h⟩ => exact ⟨true, n, rfl, by simpa [F64.units] using h⟩
  | .fin false n, ⟨_, h⟩ => exact ⟨false, n, rfl, by simpa [F64.units] using h⟩

theorem dct_atLeastHalf : ∀ v ∈ [dctK0, dctK1, dctK2, dctK3, dctK4, dctK5, dctK6, dctK7, dctA1, dctA3], atLeastHalf v :=
  fun v hv => atLeastHalf_of ((by decide +kernel : ∀ v ∈ [dctK0, dctK1, dctK2, dctK3, dctK4, dctK5, dctK6, dctK7, dctA1, dctA3],
    v.isFinite = true ∧ 2 ^ 1073 ≤ v.units.natAbs) v hv)

theorem below_div {k : Nat} {a v : F64} (ha : a.below k) (hv : atLeastHalf v) (hk : k + 1 < 2098) : (a.div v).below (k + 1) := by
  obtain ⟨t, n, rfl, h⟩ := hv
  exact ha.div_half h hk

theorem half_below {k : Nat} {a : F64} (ha : a.below (k + 1)) (hk : k < 2098) : (half a).below k := by
  have : ∃ n, dctTwo = .fin false n ∧ 2 ^ 1075 ≤ magUnits n := ⟨⟨0x4000000000000000, by decide⟩, by decide +kernel, by decide +kernel⟩
  obtain ⟨n, h1, h2⟩ := this
  rw [half, h1]
  exact ha.div_two h2 hk

/-- The forward pass grows a bound by at most six bits. -/
theorem fdct8_below {k : Nat} {x : Oct F64} (h : octBelow k x) (hk : k < 2000) : octBelow (k + 6) (fdct8 x) := by
  obtain ⟨a1, a2, a3, a4, a5⟩ := dctA_below
  have x0 : x.e0.below k := h 0
  have x1 : x.e1.below k := h 1
  have x2 : x.e2.below k := h 2
  have x3 : x.e3.below k := h 3
  have x4 : x.e4.below k := h 4
  have x5 : x.e5.below k := h 5
  have x6 : x.e6.below k := h 6
  have x7 : x.e7.below k := h 7
  have v0 := x0.add x7 (by omega)
  have v1 := x1.add x6 (by omega)
  have v2 := x2.add x5 (by omega)
  have v3 := x3.add x4 (by omega)
  have v4 := x3.sub x4 (by omega)
  have v5 := x2.sub x5 (by omega)
  have v6 := x1.sub x6 (by omega)
  have v7 := x0.sub x7 (by omega)
  have v8 := v0.add v3 (by omega)
  have v9 := v1.add v2 (by omega)
  have v10 := v1.sub v2 (by omega)
  have v11 := v0.sub v3 (by omega)
  have v12 := v4.neg.sub v5 (by omega)
  have v13 := (v5.add v6 (by omega)).mul a3 (by omega)
  have v14 := v6.add v7 (by omega)
  have v15 := v8.add v9 (by omega)
  have v16 := v8.sub v9 (by omega)
  have v17 := (v10.add v11 (by omega)).mul a1 (by omega)
  have v18 := (v12.add v14 (by omega)).mul a5 (by omega)
  have v19 := ((v12.neg.mul a2 (by omega)).mono (k := k + 1 + 1 + 1 + 0) (by omega)).sub v18 (by omega)
  have v20 := (v14.mul a4 (by omega)).sub v18 (by omega)
  have v21 := v17.add (v11.mono (k := k + 1 + 1 + 1 + 0) (by omega)) (by omega)
  have v22 := (v11.mono (k := k + 1 + 1 + 1 + 0) (by omega)).sub v17 (by omega)
  have v23 := v13.add (v7.mono (k := k + 1 + 1 + 0) (by omega)) (by omega)
  have v24 := (v7.mono (k := k + 1 + 1 + 0) (by omega)).sub v13 (by omega)
  have v25 := v19.add (v24.mono (k := k + 1 + 1 + 1 + 0 + 1) (by omega)) (by omega)
  have v26 := (v23.mono (k := k + 1 + 1 + 1 + 0 + 1) (by omega)).add v20 (by omega)
  have v27 := (v23.mono (k := k + 1 + 1 + 1 + 0 + 1) (by omega)).sub v20 (by omega)
  have v28 := (v24.mono (k := k + 1 + 1 + 1 + 0 + 1) (by omega)).sub v19 (by omega)
  have d := dct_atLeastHalf
  intro j
  match j with
  | 0 => exact (below_div v15 (d dctK0 (by simp)) (by omega)).mono (by omega)
  | 1 => exact (below_div v26 (d dctK1 (by simp)) (by omega)).mono (by omega)
  | 2 => exact (below_div v21 (d dctK2 (by simp)) (by omega)).mono (by omega)
  | 3 => exact (below_div v28 (d dctK3 (by simp)) (by omega)).mono (by omega)
  | 4 => exact (below_div v16 (d dctK4 (by simp)) (by omega)).mono (by omega)
  | 5 => exact (below_div v25 (d dctK5 (by simp)) (by omega)).mono (by omega)
  | 6 => exact (below_div v22 (d dctK6 (by simp)) (by omega)).mono (by omega)
  | 7 => exact (below_div v27 (d dctK7 (by simp)) (by omega)).mono (by omega)

/-- The inverse pass grows a bound by at most seven bits. -/
theorem idct8_below {k : Nat} {x : Oct F64} (h : octBelow k x) (hk : k < 2000) : octBelow (k + 7) (idct8 x) := by
  obtain ⟨a1, a2, a3, a4, a5⟩ := dctA_below
  have d := dct_atLeastHalf
  have K := dctK_below
  have v15 := F64.below.mul (h 0) (K dctK0 (by simp)) (by omega)
  have v26 := F64.below.mul (h 1) (K dctK1 (by simp)) (by omega)
  have v21 := F64.below.mul (h 2) (K dctK2 (by simp)) (by omega)
  have v28 := F64.below.mul (h 3) (K dctK3 (by simp)) (by omega)
  have v16 := F64.below.mul (h 4) (K dctK4 (by simp)) (by omega)
  have v25 := F64.below.mul (h 5) (K dctK5 (by simp)) (by omega)
  have v22 := F64.below.mul (h 6) (K dctK6 (by simp)) (by omega)
  have v27 := F64.below.mul (h 7) (K dctK7 (by simp)) (by omega)
  have v19 := half_below (v25.sub v28 (by omega)) (by omega)
  have v20 := half_below (v26.sub v27 (by omega)) (by omega)
  have v23 := half_below (v26.add v27 (by omega)) (by omega)
  have v24 := half_below (v25.add v28 (by omega)) (by omega)
  have v7 := half_below (v23.add v24 (by omega)) (by omega)
  have v11 := half_below (v21.add v22 (by omega)) (by omega)
  have v13 := half_below (v23.sub v24 (by omega)) (by omega)
  have v17 := half_below (v21.sub v22 (by omega)) (by omega)
  have v8 := half_below (v15.add v16 (by omega)) (by omega)
  have v9 := half_below (v15.sub v16 (by omega)) (by omega)
  have v18 := (v19.sub v20 (by omega)).mul a5 (by omega)
  have v12 := v18.sub (v19.mul a4 (by omega)) (by omega)
  have v14 := ((v20.mul a2 (by omega)).mono (k := k + 2 + 1 + 0) (by omega)).sub v18 (by omega)
  have v6 := v14.sub (v7.mono (by omega)) (by omega)
  have v5 := ((below_div v13 (d dctA3 (by simp)) (by omega)).mono (by omega)).sub v6 (by omega)
  have v4 := v5.neg.sub (v12.mono (by omega)) (by omega)
  have v10 := (below_div v17 (d dctA1 (by simp)) (by omega)).sub (v11.mono (by omega)) (by omega)
  have v0 := half_below (v8.add v11 (by omega)) (by omega)
  have v1 := half_below ((v9.mono (by omega)).add v10 (by omega)) (by omega)
  have v2 := half_below ((v9.mono (by omega)).sub v10 (by omega)) (by omega)
  have v3 := half_below (v8.sub v11 (by omega)) (by omega)
  have up : ∀ {v w : F64} {i j : Nat}, v.below i → w.below j → i ≤ k + 7 → j ≤ k + 7 →
      (half (v.add w)).below (k + 7) ∧ (half (v.sub w)).below (k + 7) := fun hv hw hi hj =>
    ⟨half_below ((hv.mono hi).add (hw.mono hj) (by omega)) (by omega),
      half_below ((hv.mono hi).sub (hw.mono hj) (by omega)) (by omega)⟩
  intro j
  match j with
  | 0 => exact (up v0 v7 (by omega) (by omega)).1
  | 1 => exact (up v1 v6 (by omega) (by omega)).1
  | 2 => exact (up v2 v5 (by omega) (by omega)).1
  | 3 => exact (up v3 v4 (by omega) (by omega)).1
  | 4 => exact (up v3 v4 (by omega) (by omega)).2
  | 5 => exact (up v2 v5 (by omega) (by omega)).2
  | 6 => exact (up v1 v6 (by omega) (by omega)).2
  | 7 => exact (up v0 v7 (by omega) (by omega)).2

/-! ### The two-dimensional transforms -/

theorem matBelow_transpose {k : Nat} {m : Mat F64} (h : matBelow k m) : matBelow k (Mat.transpose m) := fun r c => by
  simpa using h c r

theorem matBelow_map {j k : Nat} {f : Oct F64 → Oct F64} {m : Mat F64} (hf : ∀ x, octBelow j x → octBelow k (f x))
    (h : matBelow j m) : matBelow k (Oct.map f m) := fun r c => by
  have := hf (Oct.get m r) (fun i => h r i) c
  have e : Oct.get (Oct.map f m) r = f (Oct.get m r) := by fin_cases r <;> rfl
  rwa [Mat.elem, e]

theorem fdct2d_below {k : Nat} {m : Mat F64} (h : matBelow k m) (hk : k < 1990) : matBelow (k + 12) (fdct2d m) :=
  matBelow_transpose (matBelow_map (j := k + 6) (k := k + 12) (fun _ hx => fdct8_below hx (by omega))
    (matBelow_transpose (matBelow_map (fun _ hx => fdct8_below hx (by omega)) h)))

theorem idct2d_below {k : Nat} {m : Mat F64} (h : matBelow k m) (hk : k < 1990) : matBelow (k + 14) (idct2d m) :=
  matBelow_map (j := k + 7) (k := k + 14) (fun _ hx => idct8_below hx (by omega))
    (matBelow_transpose (matBelow_map (fun _ hx => idct8_below hx (by omega)) (matBelow_transpose h)))

theorem every_isFinite_of_below {k : Nat} {m : Mat F64} (h : matBelow k m) : Mat.every F64.isFinite m = true :=
  (Mat.every_iff _ _).mpr fun r c => (h r c).1

/-- A block of bytes as values. -/
theorem byteBlock_below (m : Mat Byte) : matBelow (1074 + 8) (Mat.mapElems (fun b : Byte => F64.ofNat b.toNat) m) := fun r c => by
  rw [Mat.elem_mapElems]
  exact F64.ofNat_below (Nat.le_of_lt (Mat.elem m r c).isLt) (by omega)

/-- FDCT of a block of bytes is finite, so QUANT takes it. -/
theorem fdct2d_bytes_finite (m : Mat Byte) :
    Mat.every F64.isFinite (fdct2d (Mat.mapElems (fun b : Byte => F64.ofNat b.toNat) m)) = true :=
  every_isFinite_of_below (fdct2d_below (byteBlock_below m) (by omega))

/-- An entry of a base table is below 2^32 (R260), so one of a local table is below 2^45 (R262). -/
theorem lqt_le {table : Mat (BitVec 32)} (q : Nat) (r c : Fin 8) : Mat.elem (lqt (Mat.mapElems baseEntry table) q) r c ≤ 2 ^ 45 := by
  have key : ∀ t, t ≤ 2 ^ 32 → localEntry q t ≤ 2 ^ 45 := by
    intro t ht
    have h1 : t * 5000 / q ≤ t * 5000 := Nat.div_le_self _ _
    have h2 : t * (200 - 2 * q) ≤ t * 200 := Nat.mul_le_mul_left _ (by omega)
    unfold localEntry
    split
    · omega
    · split <;> omega
  rw [lqt, Mat.elem_mapElems, Mat.elem_mapElems]
  refine key _ ?_
  have := (Mat.elem table r c).isLt
  unfold baseEntry
  omega

/-- IDCT of a block of bytes that DEQUANT scaled is finite, so BLK.ST takes it. -/
theorem idct2d_dequant_finite (m : Mat Byte) (table : Mat (BitVec 32)) (q : Nat) :
    Mat.every F64.isFinite (idct2d (dequantBlock (lqt (Mat.mapElems baseEntry table) q)
      (Mat.mapElems (fun b : Byte => F64.ofNat b.toNat) m))) = true := by
  refine every_isFinite_of_below (k := 1074 + 8 + 45 + 14) (idct2d_below (fun r c => ?_) (by omega))
  rw [dequantBlock, Mat.elem_zipElems, dq]
  exact (byteBlock_below m r c).mul (F64.ofNat_below (lqt_le q r c) (by omega)) (by omega)

end Machine

end Sys2Proof
end

