-- ==== Sys2Proof/Laws/WholeFrame.lean ====
section
/-! SUPPORT. The loops of the whole-frame commands: what one round does to a sound state, and what all 4752 rounds leave,
for any samples and any payload. -/

namespace Sys2Proof.Machine

/-! ### Blocks and tables -/

theorem wrkIndex_eq_blockOffset (i : Nat) (r c : Fin 8) : wrkIndex i r c = blockOffset i r c := by
  rw [wrkIndex_eq, blockOffset]

theorem blockOffset_lt {i : Nat} (r c : Fin 8) (h : i < Config.numBlocks) : blockOffset i r c < Config.frameBytes := by
  rw [← wrkIndex_eq_blockOffset]; exact wrkIndex_lt i r c h

/-- Different blocks have no sample in common (42_segment.md R201). -/
theorem blockOffset_block {i j : Nat} {r c r' c' : Fin 8} (h : blockOffset i r c = blockOffset j r' c') : i = j := by
  unfold blockOffset at h
  have := r.isLt; have := c.isLt; have := r'.isLt; have := c'.isLt
  omega

theorem localTable_tableOf (i : Nat) (q : Nat) :
    lqt (if blockChan i = .y then qtLuma else qtChroma) q = lqt (tableOf i) q := by
  unfold tableOf blockChan
  split
  · rfl
  · split <;> rfl

theorem qz_le (v : F64) (l : Nat) : qz v l ≤ 255 := by
  unfold qz clampInt
  split
  · decide
  · split <;> omega

theorem byteValue?_ofNat {n : Nat} (h : n ≤ 255) : byteValue? (F64.ofNat n) = some (BitVec.ofNat 8 n) := by
  have key : ∀ k : Fin 256, byteValue? (F64.ofNat k) = some (BitVec.ofNat 8 k) := by decide +kernel
  exact key ⟨n, by omega⟩

theorem Mat.toList_getElem {α : Type} (m : Mat α) (r c : Fin 8) : (Mat.toList m)[8 * (r : Nat) + c]? = some (Mat.elem m r c) := by
  fin_cases r <;> fin_cases c <;> rfl

theorem Mat.toList_length {α : Type} (m : Mat α) : (Mat.toList m).length = 64 := rfl

/-- Entry `64·i + j` of blocks joined in order is entry `j` of block `i`. -/
theorem flatMap_blocks_getElem {α : Type} {f : Nat → List α} (hf : ∀ i, (f i).length = 64) (n i j : Nat) (hi : i < n) (hj : j < 64) :
    ((List.range n).flatMap f)[64 * i + j]? = (f i)[j]? := by
  have len : ∀ n, ((List.range n).flatMap f).length = 64 * n := by
    intro n
    induction n with
    | zero => rfl
    | succ n ih => rw [List.range_succ, List.flatMap_append, List.length_append, ih]; simp [hf]; omega
  induction n with
  | zero => omega
  | succ n ih =>
    rw [List.range_succ, List.flatMap_append]
    by_cases h : i = n
    · subst h
      rw [List.getElem?_append_right (by rw [len]; omega), len, show 64 * i + j - 64 * i = j by omega]
      simp
    · rw [List.getElem?_append_left (by rw [len]; omega)]
      exact ih (by omega)

theorem codedPayload_getElem (q : BitVec 32) (w : Frame) {i : Nat} (r c : Fin 8) (hi : i < Config.numBlocks) :
    (codedPayload q w)[payIndex i r c]? = some (Mat.elem (codedBlock q (Frame.bytes w) i) r c) := by
  have := flatMap_blocks_getElem (f := fun i => Mat.toList (codedBlock q (Frame.bytes w) i)) (fun _ => rfl) Config.numBlocks i
    (8 * r + c) hi (by omega)
  rw [Mat.toList_getElem] at this
  rw [codedPayload, payIndex, show 64 * i + 8 * (r : Nat) + c = 64 * i + (8 * r + c) by omega]
  exact this

theorem codedPayload_length (q : BitVec 32) (w : Frame) : (codedPayload q w).length = Config.frameBytes := by
  unfold codedPayload
  rw [List.length_flatMap]
  simp only [Mat.toList_length, List.map_const', List.sum_replicate, List.length_range]
  rfl

/-! ### One round -/

/-- The state after one round of ENC.FRAME's loop on the samples `b`. -/
def State.coded (s : State) (q : BitVec 32) (b : List Byte) (i : Nat) : State :=
  { s with
    blk := Mat.mapElems (fun v : Byte => some (F64.ofNat v.toNat)) (codedBlock q b i)
    bch := some (blockChan i)
    bidx := BitVec.ofNat 16 i
    pay := s.pay.setAll (placed (payIndex i) (codedBlock q b i))
    freq := none
    lens := none
    hdr := none }

/-- The state after one round of DEC.FRAME's loop on the payload `b`. -/
def State.decoded (s : State) (q : BitVec 32) (b : List Byte) (i : Nat) : State :=
  { s with
    blk := Mat.mapElems some (decodedBlock q b i)
    bch := some (blockChan i)
    bidx := BitVec.ofNat 16 i
    wrk := s.wrk.setAll (placed (wrkIndex i) (Mat.mapElems pix (decodedBlock q b i))) }

/-- The values of a round's quantized block are its bytes. -/
theorem quantBlock_codedBlock (q : BitVec 32) (b : List Byte) (i : Nat) :
    quantBlock (lqt (tableOf i) q.toNat) (fdct2d (Mat.tabulate fun r c => F64.ofNat (b.getD (blockOffset i r c) 0).toNat)) =
      Mat.mapElems (fun v : Byte => F64.ofNat v.toNat) (codedBlock q b i) := by
  apply Mat.ext_elem
  intro r c
  rw [quantBlock, codedBlock, Mat.elem_zipElems, Mat.elem_mapElems, Mat.elem_zipElems, BitVec.toNat_ofNat]
  rw [Nat.mod_eq_of_lt (Nat.lt_of_le_of_lt (qz_le _ _) (by decide))]

theorem tabulate_bytes (f : Fin 8 → Fin 8 → Byte) :
    (Mat.tabulate fun r c => F64.ofNat (f r c).toNat) = Mat.mapElems (fun v : Byte => F64.ofNat v.toNat) (Mat.tabulate f) :=
  Mat.ext_elem _ _ fun r c => by simp

theorem mapElems_some_map {α β : Type} (f : α → β) (m : Mat α) :
    Mat.mapElems some (Mat.mapElems f m) = Mat.mapElems (fun v => some (f v)) m := rfl

theorem block_lt_payLen {s : State} {i : Nat} (hi : i < Config.numBlocks) (hl : s.payLen.toNat = Config.frameBytes) :
    64 * i + 63 < s.payLen.toNat := by
  rw [hl]; simp only [Config.numBlocks, Config.frameBytes] at *; omega

/-- A round of ENC.FRAME's loop, given what its commands make of the block. -/
theorem encodeBlock_chain {s : State} {i : Nat} {q : BitVec 32} {m c : Mat Byte} {f : Mat F64} (hi : i < Config.numBlocks)
    (hq : s.quality = some q) (hl : s.payLen.toNat = Config.frameBytes) (hm : s.wrkBlock i = some m)
    (hf : fdct2d (Mat.mapElems (fun v : Byte => F64.ofNat v.toNat) m) = f) (hfin : Mat.every F64.isFinite f = true)
    (hc : quantBlock (lqt (tableOf i) q.toNat) f = Mat.mapElems (fun v : Byte => F64.ofNat v.toNat) c) :
    encodeBlock s i = .ok { s with
      blk := Mat.mapElems (fun v : Byte => some (F64.ofNat v.toNat)) c, bch := some (blockChan i), bidx := BitVec.ofNat 16 i,
      pay := s.pay.setAll (placed (payIndex i) c), freq := none, lens := none, hdr := none } := by
  have h4 : Mat.values? (Mat.mapElems byteValue? (Mat.mapElems (fun v : Byte => F64.ofNat v.toNat) c)) = some c :=
    (Mat.values?_eq_some _ _).mpr fun r k => by
      rw [Mat.elem_mapElems, Mat.elem_mapElems, byteValue?_ofNat (by have := (Mat.elem c r k).isLt; omega)]
      rw [BitVec.ofNat_toNat, BitVec.setWidth_eq]
  unfold encodeBlock
  rw [bodyBlkLd_of hi hm]
  simp only [bind, Except.bind]
  rw [bodyFdct_of (State.blkValues_takeBlock s i m), hf]
  simp only
  rw [bodyQuant_of (s := (s.takeBlock i m).setBlk f)
    (State.quantOperands_eq_some.mpr ⟨State.blkValues_setBlk _ _, blockChan i, q, rfl, hq, (localTable_tableOf i _).symm⟩) hfin]
  simp only
  rw [hc, bodyBlkPut_of (s := ((s.takeBlock i m).setBlk f).setBlk _) hi (block_lt_payLen (s := s) hi hl)
    (State.blkValues_setBlk _ _) rfl h4, ← mapElems_some_map]
  rfl

/-- A round of ENC.FRAME's loop always succeeds when WRK and PAY_LEN are whole and QUALITY holds a value. -/
theorem encodeBlock_of {s : State} {i : Nat} {q : BitVec 32} {b : List Byte} (hi : i < Config.numBlocks) (hq : s.quality = some q)
    (hl : s.payLen.toNat = Config.frameBytes) (hb : b.length = Config.frameBytes)
    (hw : ∀ k, k < Config.frameBytes → s.wrk.get k = b[k]?) : encodeBlock s i = .ok (s.coded q b i) := by
  have h1 : s.wrkBlock i = some (Mat.tabulate fun r c => b.getD (blockOffset i r c) 0) :=
    State.wrkBlock_eq_some.mpr fun r c => by
      have := blockOffset_lt r c hi
      rw [wrkIndex_eq_blockOffset, hw _ this, Mat.elem_tabulate, List.getD_eq_getElem _ _ (by omega),
        List.getElem?_eq_getElem (by omega)]
  have h2 := quantBlock_codedBlock q b i
  rw [tabulate_bytes fun r c => b.getD (blockOffset i r c) 0] at h2
  exact encodeBlock_chain hi hq hl h1 rfl (fdct2d_bytes_finite _) h2

/-- A round of DEC.FRAME's loop, given what its commands make of the block. -/
theorem decodeBlock_chain {s : State} {i : Nat} {q : BitVec 32} {m : Mat Byte} {f : Mat F64} (hi : i < Config.numBlocks)
    (hq : s.quality = some q) (hl : s.payLen.toNat = Config.frameBytes) (hm : s.payBlock i = some m)
    (hf : idct2d (dequantBlock (lqt (tableOf i) q.toNat) (Mat.mapElems (fun v : Byte => F64.ofNat v.toNat) m)) = f)
    (hfin : Mat.every F64.isFinite f = true) :
    decodeBlock s i = .ok { s with
      blk := Mat.mapElems some f, bch := some (blockChan i), bidx := BitVec.ofNat 16 i,
      wrk := s.wrk.setAll (placed (wrkIndex i) (Mat.mapElems pix f)) } := by
  unfold decodeBlock
  rw [bodyBlkGet_of hi (block_lt_payLen hi hl) hm]
  simp only [bind, Except.bind]
  rw [bodyDequant_of (s := s.takeBlock i m) (State.quantOperands_eq_some.mpr
    ⟨State.blkValues_takeBlock s i m, blockChan i, q, rfl, hq, (localTable_tableOf i _).symm⟩)]
  simp only
  rw [bodyIdct_of (State.blkValues_setBlk _ _), hf]
  simp only
  rw [bodyBlkSt_of (s := ((s.takeBlock i m).setBlk _).setBlk f) hi (State.blkValues_setBlk _ _) rfl hfin]
  rfl

/-- A round of DEC.FRAME's loop always succeeds when PAY is whole and QUALITY holds a value. -/
theorem decodeBlock_of {s : State} {i : Nat} {q : BitVec 32} {b : List Byte} (hi : i < Config.numBlocks) (hq : s.quality = some q)
    (hl : s.payLen.toNat = Config.frameBytes) (hb : b.length = Config.frameBytes)
    (hp : ∀ k, k < Config.frameBytes → s.pay.get k = b[k]?) : decodeBlock s i = .ok (s.decoded q b i) := by
  have h1 : s.payBlock i = some (Mat.tabulate fun r c => b.getD (64 * i + 8 * r + c) 0) :=
    State.payBlock_eq_some.mpr fun r c => by
      have := payIndex_lt i r c hi
      rw [hp _ this, Mat.elem_tabulate]
      unfold payIndex at *
      rw [List.getD_eq_getElem _ _ (by omega), List.getElem?_eq_getElem (by omega)]
  refine decodeBlock_chain hi hq hl h1 (f := decodedBlock q b i) ?_ ?_
  · rw [← tabulate_bytes]; rfl
  · unfold decodedBlock
    rw [tabulate_bytes fun r c => b.getD (64 * i + 8 * r + c) 0]
    unfold tableOf qtLuma qtChroma
    split
    · exact idct2d_dequant_finite _ _ _
    · exact idct2d_dequant_finite _ _ _

/-! ### All rounds -/

/-- A loop over blocks keeps what each round keeps. -/
theorem foldlM_blocks {a : State → Nat → Except Trap State} {Q : Nat → State → Prop} (n : Nat)
    (round : ∀ i s, i < n → Q i s → ∃ t, a s i = .ok t ∧ Q (i + 1) t) (s : State) (h : Q 0 s) :
    ∃ t, (List.range n).foldlM a s = .ok t ∧ Q n t := by
  have key : ∀ k, k ≤ n → ∃ t, (List.range k).foldlM a s = .ok t ∧ Q k t := by
    intro k
    induction k with
    | zero => intro _; exact ⟨s, rfl, h⟩
    | succ k ih =>
      intro hk
      obtain ⟨t, h1, h2⟩ := ih (by omega)
      obtain ⟨u, h3, h4⟩ := round k t (by omega) h2
      refine ⟨u, ?_, h4⟩
      rw [List.range_succ, List.foldlM_append, h1]
      simp only [bind, Except.bind, List.foldlM_cons, List.foldlM_nil, h3]; rfl
  exact key n (Nat.le_refl n)

/-- What a loop may change: the block registers, PAY and WRK. -/
def State.loopState (z u : State) : State :=
  { z with blk := u.blk, bch := u.bch, bidx := u.bidx, pay := u.pay, wrk := u.wrk }

theorem State.coded_loopState {z s : State} (h : s = z.loopState s) (h1 : z.freq = none) (h2 : z.lens = none) (h3 : z.hdr = none)
    (q : BitVec 32) (b : List Byte) (i : Nat) : s.coded q b i = z.loopState (s.coded q b i) := by
  calc s.coded q b i = (z.loopState s).coded q b i := by rw [← h]
    _ = _ := by simp only [State.coded, State.loopState, h1, h2, h3]

theorem State.decoded_loopState {z s : State} (h : s = z.loopState s) (q : BitVec 32) (b : List Byte) (i : Nat) :
    s.decoded q b i = z.loopState (s.decoded q b i) := by
  calc s.decoded q b i = (z.loopState s).decoded q b i := by rw [← h]
    _ = _ := by simp only [State.decoded, State.loopState]

/-- Before round `n` of ENC.FRAME's loop over frame `w`. -/
structure CodedAt (z : State) (q : BitVec 32) (w : Frame) (n : Nat) (s : State) : Prop where
  same : s = z.loopState s
  wrk : s.wrk = z.wrk
  last : 0 < n → s.blk = Mat.mapElems (fun v : Byte => some (F64.ofNat v.toNat)) (codedBlock q (Frame.bytes w) (n - 1)) ∧
    s.bch = some (blockChan (n - 1)) ∧ s.bidx = BitVec.ofNat 16 (n - 1)
  pay : ∀ k, k < 64 * n → s.pay.get k = (codedPayload q w)[k]?

theorem codedAt_round {z : State} {q : BitVec 32} {w : Frame} (hq : z.quality = some q)
    (hl : z.payLen.toNat = Config.frameBytes) (hb : (Frame.bytes w).length = Config.frameBytes)
    (hw : ∀ k, k < Config.frameBytes → z.wrk.get k = (Frame.bytes w)[k]?)
    (h1 : z.freq = none) (h2 : z.lens = none) (h3 : z.hdr = none) (i : Nat) (s : State) (hi : i < Config.numBlocks)
    (h : CodedAt z q w i s) : ∃ t, encodeBlock s i = .ok t ∧ CodedAt z q w (i + 1) t := by
  refine ⟨s.coded q (Frame.bytes w) i, encodeBlock_of hi ((congrArg State.quality h.same).trans hq)
    ((congrArg (fun s => s.payLen.toNat) h.same).trans hl) hb (fun k hk => by rw [h.wrk]; exact hw k hk),
    State.coded_loopState h.same h1 h2 h3 _ _ _, h.wrk, fun _ => ⟨rfl, rfl, rfl⟩, fun k hk => ?_⟩
  show (s.pay.setAll (placed (payIndex i) (codedBlock q (Frame.bytes w) i))).get k = _
  by_cases hk' : k < 64 * i
  · rw [Buf.get_placed_other _ _ _ _ (by intro r c; simp only [payIndex]; omega)]
    exact h.pay k hk'
  · have hr : (k - 64 * i) / 8 < 8 := by omega
    have hc : k % 8 < 8 := by omega
    have hx : payIndex i ⟨(k - 64 * i) / 8, hr⟩ ⟨k % 8, hc⟩ = k := by simp only [payIndex]; omega
    have h := Buf.get_placed s.pay (payIndex i) (codedBlock q (Frame.bytes w) i) ⟨(k - 64 * i) / 8, hr⟩ ⟨k % 8, hc⟩
      (fun r' c' => payIndex_inj i _ _ r' c') (payIndex_lt i _ _ hi)
    rw [← codedPayload_getElem q w _ _ hi] at h
    rwa [hx] at h

/-- ENC.FRAME's loop (47_system.md R390): PAY becomes the coded payload, whatever the samples are. -/
theorem encodeLoop_of {z : State} {q : BitVec 32} {w : Frame} (hq : z.quality = some q)
    (hl : z.payLen.toNat = Config.frameBytes) (hb : (Frame.bytes w).length = Config.frameBytes)
    (hw : ∀ k, k < Config.frameBytes → z.wrk.get k = (Frame.bytes w)[k]?)
    (h1 : z.freq = none) (h2 : z.lens = none) (h3 : z.hdr = none) :
    ∃ p, (List.range Config.numBlocks).foldlM encodeBlock z = .ok { z with
        blk := Mat.mapElems (fun v : Byte => some (F64.ofNat v.toNat)) (codedBlock q (Frame.bytes w) 4751)
        bch := some .cr
        bidx := 4751
        pay := p } ∧
      ∀ k, p.get k = (codedPayload q w)[k]? := by
  obtain ⟨t, ht, h⟩ := foldlM_blocks (a := encodeBlock) (Q := CodedAt z q w) Config.numBlocks
    (codedAt_round hq hl hb hw h1 h2 h3) z ⟨rfl, rfl, fun h => absurd h (Nat.lt_irrefl 0), fun k hk => absurd hk (by omega)⟩
  obtain ⟨f1, f2, f3⟩ := h.last (by decide)
  refine ⟨t.pay, ?_, fun k => ?_⟩
  · have e := h.same
    simp only [State.loopState, f1, f2, f3, h.wrk] at e
    rw [ht]
    exact congrArg Except.ok e
  · by_cases hk : k < Config.frameBytes
    · exact h.pay k (by simp only [Config.numBlocks, Config.frameBytes] at *; omega)
    · rw [Buf.get, if_neg hk, List.getElem?_eq_none (by rw [codedPayload_length]; omega)]

/-- Before round `n` of DEC.FRAME's loop over the payload `b`. -/
structure DecodedAt (z : State) (q : BitVec 32) (b : List Byte) (n : Nat) (s : State) : Prop where
  same : s = z.loopState s
  pay : s.pay = z.pay
  last : 0 < n → s.blk = Mat.mapElems some (decodedBlock q b (n - 1)) ∧ s.bch = some (blockChan (n - 1)) ∧
    s.bidx = BitVec.ofNat 16 (n - 1)
  wrk : ∀ i r c, i < n → s.wrk.get (blockOffset i r c) = some (pix (Mat.elem (decodedBlock q b i) r c))

theorem decodedAt_round {z : State} {q : BitVec 32} {b : List Byte} (hq : z.quality = some q)
    (hl : z.payLen.toNat = Config.frameBytes) (hb : b.length = Config.frameBytes)
    (hp : ∀ k, k < Config.frameBytes → z.pay.get k = b[k]?) (i : Nat) (s : State) (hi : i < Config.numBlocks)
    (h : DecodedAt z q b i s) : ∃ t, decodeBlock s i = .ok t ∧ DecodedAt z q b (i + 1) t := by
  refine ⟨s.decoded q b i, decodeBlock_of hi ((congrArg State.quality h.same).trans hq)
    ((congrArg (fun s => s.payLen.toNat) h.same).trans hl) hb (fun k hk => by rw [h.pay]; exact hp k hk),
    State.decoded_loopState h.same _ _ _, h.pay, fun _ => ⟨rfl, rfl, rfl⟩, fun j r c hj => ?_⟩
  show (s.wrk.setAll (placed (wrkIndex i) (Mat.mapElems pix (decodedBlock q b i)))).get _ = _
  by_cases hji : j = i
  · subst hji
    rw [← wrkIndex_eq_blockOffset, Buf.get_placed _ _ _ _ _ (fun r' c' => wrkIndex_inj j r c r' c') (wrkIndex_lt j r c hi),
      Mat.elem_mapElems]
  · rw [Buf.get_placed_other _ _ _ _ (fun r' c' e => hji (blockOffset_block (by
      rw [wrkIndex_eq_blockOffset] at e; exact e.symm)))]
    exact h.wrk j r c (by omega)

/-- DEC.FRAME's loop (R391): WRK becomes the decoded blocks, whatever the payload is. -/
theorem decodeLoop_of {z : State} {q : BitVec 32} {b : List Byte} (hq : z.quality = some q)
    (hl : z.payLen.toNat = Config.frameBytes) (hb : b.length = Config.frameBytes)
    (hp : ∀ k, k < Config.frameBytes → z.pay.get k = b[k]?) :
    ∃ w, (List.range Config.numBlocks).foldlM decodeBlock z = .ok { z with
        blk := Mat.mapElems some (decodedBlock q b 4751), bch := some .cr, bidx := 4751, wrk := w } ∧
      ∀ i r c, i < Config.numBlocks → w.get (blockOffset i r c) = some (pix (Mat.elem (decodedBlock q b i) r c)) := by
  obtain ⟨t, ht, h⟩ := foldlM_blocks (a := decodeBlock) (Q := DecodedAt z q b) Config.numBlocks
    (decodedAt_round hq hl hb hp) z ⟨rfl, rfl, fun h => absurd h (Nat.lt_irrefl 0), fun _ _ _ h => absurd h (by omega)⟩
  obtain ⟨f1, f2, f3⟩ := h.last (by decide)
  refine ⟨t.wrk, ?_, fun i r c hi => h.wrk i r c hi⟩
  have e := h.same
  simp only [State.loopState, f1, f2, f3, h.pay] at e
  rw [ht]
  exact congrArg Except.ok e

end Sys2Proof.Machine
end

