-- ==== Sys2Proof/Laws/FrameRuns.lean ====
section
/-! SUPPORT. Two concrete states in which every unit command of ENC.FRAME 1 and of DEC.FRAME 0 retires: the witnesses of
the statements about the whole-frame commands. Quality 100 makes every local quant table entry 1, whatever the base
tables hold. -/

namespace Sys2Proof.Machine

/-! ### Blocks of one value -/

theorem elem_octOf {α : Type} (a : α) (r c : Fin 8) : Mat.elem (octOf (octOf a)) r c = a := by
  fin_cases r <;> fin_cases c <;> rfl

theorem lqt_hundred (table : Mat Nat) : lqt table 100 = octOf (octOf 1) := by
  apply Mat.ext_elem
  intro r c
  simp [lqt, localEntry, elem_octOf]

/-- At quality 100 every local table entry is 1, whatever the base tables hold. -/
theorem State.quantOperands_hundred {s : State} {m : Mat F64} {ch : Chan} (hm : s.blkValues = some m) (hc : s.bch = some ch)
    (hq : s.quality = some 100) : s.quantOperands = some (m, octOf (octOf 1)) :=
  State.quantOperands_eq_some.mpr ⟨hm, ch, 100, hc, hq, (lqt_hundred _).symm⟩

/-- First entry `a`, the others +0. -/
def firstOctOf (a z : F64) : Oct F64 := ⟨a, z, z, z, z, z, z, z⟩
def firstOct (a : F64) : Oct F64 := firstOctOf a (F64.zero false)

def dcRow : F64 := .fin false ⟨4613551470472543180, by decide⟩
def dcBlock : F64 := .fin false ⟨4620693217682128895, by decide⟩

theorem ofNat_one : F64.ofNat 1 = .fin false ⟨0x3FF0000000000000, by decide⟩ := by decide +kernel
theorem fdct8_one : fdct8 (octOf (.fin false ⟨0x3FF0000000000000, by decide⟩)) = firstOct dcRow := by decide +kernel
theorem fdct8_dcRow : fdct8 (octOf dcRow) = firstOct dcBlock := by decide +kernel
theorem fdct8_zero : fdct8 (octOf (F64.zero false)) = octOf (F64.zero false) := by decide +kernel
theorem idct8_zero : idct8 (octOf (F64.zero false)) = octOf (F64.zero false) := by decide +kernel

theorem fdct2d_const (a : F64) :
    fdct2d (octOf (octOf a)) = Mat.transpose (Oct.map (fun x => fdct8 (octOf x)) (fdct8 (octOf a))) := by
  unfold fdct2d
  congr 1

theorem idct2d_const (a : F64) (h : idct8 (octOf a) = octOf a) : idct2d (octOf (octOf a)) = octOf (octOf a) := by
  have h1 : Oct.map idct8 (octOf (octOf a)) = octOf (octOf a) := by
    show octOf (idct8 (octOf a)) = _
    rw [h]
  unfold idct2d
  rw [show Mat.transpose (octOf (octOf a)) = octOf (octOf a) from rfl, h1,
    show Mat.transpose (octOf (octOf a)) = octOf (octOf a) from rfl, h1]

theorem mapElems_octOf {α β : Type} (f : α → β) (a : α) : Mat.mapElems f (octOf (octOf a)) = octOf (octOf (f a)) := rfl

theorem zipElems_octOf {α β γ : Type} (f : α → β → γ) (a : α) (b : β) :
    Mat.zipElems f (octOf (octOf a)) (octOf (octOf b)) = octOf (octOf (f a b)) := rfl

theorem zipElems_first {α γ : Type} (f : α → Nat → γ) (a z : α) (w : γ) (ha : f a 1 = w) (hz : f z 1 = w) :
    Mat.zipElems f (Mat.transpose ⟨⟨a, z, z, z, z, z, z, z⟩, octOf z, octOf z, octOf z, octOf z, octOf z, octOf z, octOf z⟩)
      (octOf (octOf 1)) = octOf (octOf w) := by
  simp only [Mat.zipElems, Mat.transpose, Mat.tabulate, Oct.zip, Oct.ofFn, Mat.elem, Oct.get, octOf, ha, hz]

theorem fdct2d_octOf {x a b c z : F64} (hx : x = a) (ha : fdct8 (octOf a) = firstOctOf b z)
    (hb : fdct8 (octOf b) = firstOctOf c z) (hz : fdct8 (octOf z) = octOf z) : fdct2d (octOf (octOf x)) =
      Mat.transpose ⟨firstOctOf c z, octOf z, octOf z, octOf z, octOf z, octOf z, octOf z, octOf z⟩ := by
  subst hx
  rw [fdct2d_const, ha]
  simp only [Oct.map, firstOctOf] at *
  rw [hb, hz]

theorem values_octOf {α β : Type} {f : α → Option β} {a : α} {b : β} (h : f a = some b) :
    Mat.values? (Mat.mapElems f (octOf (octOf a))) = some (octOf (octOf b)) := by
  rw [mapElems_octOf, h]; rfl

theorem quantBlock_first (a z w : F64) (ha : F64.ofNat (qz a 1) = w) (hz : F64.ofNat (qz z 1) = w) :
    octOf (octOf w) = quantBlock (octOf (octOf 1)) (Mat.transpose ⟨firstOctOf a z, octOf z, octOf z, octOf z, octOf z, octOf z, octOf z, octOf z⟩) :=
  (zipElems_first (fun v l => F64.ofNat (qz v l)) a z w ha hz).symm

/-- A block of ones, transformed and quantized with a table of ones, is a block of eights. -/
theorem encode_ones : ∃ b f q : Mat F64, b = Mat.mapElems (fun x : Byte => F64.ofNat x.toNat) (octOf (octOf 1)) ∧
    f = fdct2d b ∧ Mat.every F64.isFinite f = true ∧ q = quantBlock (octOf (octOf 1)) f ∧
    Mat.values? (Mat.mapElems byteValue? q) = some (octOf (octOf 8)) := by
  refine ⟨_, Mat.transpose ⟨firstOct dcBlock, octOf (F64.zero false), octOf (F64.zero false), octOf (F64.zero false),
    octOf (F64.zero false), octOf (F64.zero false), octOf (F64.zero false), octOf (F64.zero false)⟩,
    octOf (octOf (F64.ofNat 8)), rfl, ?_, by decide +kernel, ?_, ?_⟩
  · exact (fdct2d_octOf ofNat_one fdct8_one fdct8_dcRow fdct8_zero).symm
  · have h1 : F64.ofNat (qz dcBlock 1) = F64.ofNat 8 := congrArg F64.ofNat (by decide +kernel)
    have h2 : F64.ofNat (qz (F64.zero false) 1) = F64.ofNat 8 := congrArg F64.ofNat (by decide +kernel)
    exact quantBlock_first dcBlock (F64.zero false) _ h1 h2
  · have h8 : byteValue? (F64.ofNat 8) = some 8 := by decide +kernel
    exact values_octOf h8

/-- A block of zeros, dequantized with a table of ones and transformed back, is a block of zeros. -/
theorem decode_zeros_block : ∃ b q f : Mat F64, b = Mat.mapElems (fun x : Byte => F64.ofNat x.toNat) (octOf (octOf 0)) ∧
    q = dequantBlock (octOf (octOf 1)) b ∧ f = idct2d q ∧ Mat.every F64.isFinite f = true := by
  refine ⟨_, octOf (octOf (F64.zero false)), octOf (octOf (F64.zero false)), rfl, ?_, (idct2d_const _ idct8_zero).symm,
    by decide⟩
  have h : dq (F64.ofNat (0 : Byte).toNat) 1 = F64.zero false := by decide +kernel
  rw [mapElems_octOf, dequantBlock, zipElems_octOf, h]

/-! ### Files and frames of one value -/

theorem readCells_nil (n a : Nat) : readCells n a [] = List.replicate n 0 := by
  induction n generalizing a with
  | zero => rfl
  | succ n ih => rw [readCells, ih, List.replicate_succ]

theorem pixelsOf_replicate (n : Nat) (b : Byte) : pixelsOf (List.replicate (3 * n) b) = List.replicate n ⟨b, b, b⟩ := by
  induction n with
  | zero => rfl
  | succ n ih =>
    rw [show 3 * (n + 1) = 3 * n + 1 + 1 + 1 by ring]
    simp only [List.replicate_succ, pixelsOf, ih]

theorem bytes_replicate (n : Nat) (b : Byte) : Frame.bytes (List.replicate n ⟨b, b, b⟩) = List.replicate (3 * n) b := by
  induction n with
  | zero => rfl
  | succ n ih =>
    rw [List.replicate_succ, Frame.bytes_cons, ih, show 3 * (n + 1) = 3 * n + 1 + 1 + 1 by ring]
    simp only [List.replicate_succ]

theorem get_bufOfFrame_replicate (b : Byte) (k : Nat) (hk : k < Config.frameBytes) :
    (bufOfFrame (List.replicate 101376 ⟨b, b, b⟩)).get k = some b := by
  rw [bufOfFrame, bytes_replicate, Buf.get_setFrom, if_pos, Nat.sub_zero, List.getElem?_replicate_of_lt]
  · exact hk
  · rw [List.length_replicate]; exact ⟨Nat.zero_le _, by simp only [Config.frameBytes] at hk; omega, hk⟩

/-! ### The tables of a payload of eights -/

/-- Symbol 8 has a code of one bit, no other symbol has one. -/
def eightLens : List (BitVec 4) := (List.range 256).map fun s => if s = 8 then 1 else 0

theorem count_eights (n : Nat) : countBytes (List.replicate n 8) = (List.range 256).map fun s => if s = 8 then n else 0 := by
  unfold countBytes
  apply List.map_congr_left
  intro s hs
  have hs : s < 256 := List.mem_range.mp hs
  have h : ((8 : Byte) == BitVec.ofNat 8 s) = decide (s = 8) := by
    revert s; decide +kernel
  rw [List.count_replicate, h]
  by_cases h8 : s = 8 <;> simp [h8]

theorem buildLens_eights : buildLens (countBytes (List.replicate 304128 8)) = some eightLens := by
  rw [count_eights]; decide +kernel

theorem lenOf_eight : 0 < lenOf eightLens (8 : Byte).toNat := by decide +kernel

theorem canon_eight : canon eightLens = [(8, [false])] := by decide +kernel

theorem decode_zeros (n : Nat) : decodeSymbols [(8, [false])] n (List.replicate n false) = .ok (List.replicate n 8) := by
  induction n with
  | zero => rfl
  | succ n ih =>
    rw [List.replicate_succ, decodeSymbols]
    have : decodeSymbol [(8, [false])] [] (false :: List.replicate n false) = .ok (8, List.replicate n false) := rfl
    rw [this]
    simp only [ih]
    rfl

theorem bitsOfBytes_zeros (n : Nat) : bitsOfBytes (List.replicate n 0) = List.replicate (8 * n) false := by
  induction n with
  | zero => rfl
  | succ n ih =>
    rw [List.replicate_succ, show bitsOfBytes ((0 : Byte) :: List.replicate n 0) =
      List.replicate 8 false ++ bitsOfBytes (List.replicate n 0) from rfl, ih, List.replicate_append_replicate]
    congr 1; ring

/-! ### ENC.FRAME's loop when every sample of WRK is 1 -/

/-- What the loop leaves alone and later commands need. -/
def State.encFixed (s : State) :=
  (s.fault, s.wrk, s.quality, s.payLen, s.wact, s.fidx, s.nrec, s.ftype, s.wpos, s.ctr, s.frameCount)

/-- Before round `i`: the blocks below `i` are in PAY as eights. -/
structure EncAt (fixed : State) (i : Nat) (s : State) : Prop where
  same : s.encFixed = fixed.encFixed
  pay : ∀ k, k < 64 * i → s.pay.get k = some 8

theorem encAt_round (z : State) (hf : z.fault = false) (hw : ∀ k, k < Config.frameBytes → z.wrk.get k = some 1)
    (hq : z.quality = some 100) (hl : z.payLen.toNat = Config.frameBytes) (i : Nat) (s : State) (hi : i < Config.numBlocks)
    (h : EncAt z i s) : ∃ t, State.issueAll (encodeUnits i) s = .ok t ∧ EncAt z (i + 1) t := by
  obtain ⟨hs, hp⟩ := h
  simp only [State.encFixed, Prod.mk.injEq] at hs
  obtain ⟨e1, e2, e3, e4, e5, e6, e7, e8, e9, e10, e11⟩ := hs
  obtain ⟨B, F, Q, hB, hF, hfin, hQ, hbytes⟩ := encode_ones
  have h1 : bodyBlkLd (BitVec.ofNat 32 i) { s with ioA := true } =
      .ok (({ s with ioA := true } : State).takeBlock i (octOf (octOf 1))) :=
    bodyBlkLd_of hi (State.wrkBlock_eq_some.mpr fun r c => by
      rw [elem_octOf]; show s.wrk.get _ = _; rw [e2]; exact hw _ (wrkIndex_lt i r c hi))
  obtain ⟨a, s1, a1, a2, a3⟩ : ∃ a, s.issue (.blkLd (BitVec.ofNat 32 i)) true = .ok a ∧
      (a.encFixed = s.encFixed ∧ a.pay = s.pay) ∧ a.blkValues = some B ∧ a.bch = some (blockChan i) := by
    refine State.issue_to (fun _ => rfl) h1 (e1.trans hf) ⟨⟨rfl, rfl⟩, ?_, rfl⟩
    rw [hB]; exact State.blkValues_takeBlock ({ s with ioA := true } : State) i (octOf (octOf 1))
  have af : a.fault = false := by
    have := congrArg (·.1) a1.1; simp only [State.encFixed] at this; rw [this, e1, hf]
  have h2 : bodyFdct { a with ioA := true } = .ok (({ a with ioA := true } : State).setBlk F) := by
    rw [hF]; exact bodyFdct_of a2
  obtain ⟨b, s2, b1, b2, b3⟩ : ∃ b, a.issue .fdct true = .ok b ∧
      (b.encFixed = a.encFixed ∧ b.pay = a.pay) ∧ b.blkValues = some F ∧ b.bch = a.bch :=
    State.issue_to (fun _ => rfl) h2 af ⟨⟨rfl, rfl⟩, State.blkValues_setBlk ({ a with ioA := true } : State) F, rfl⟩
  have bs := b1.1.trans a1.1
  simp only [State.encFixed, Prod.mk.injEq] at bs
  have h3 : bodyQuant { b with ioA := true } = .ok (({ b with ioA := true } : State).setBlk Q) := by
    rw [hQ]
    exact bodyQuant_of (State.quantOperands_hundred b2 (b3.trans a3) (bs.2.2.1.trans (e3.trans hq))) hfin
  obtain ⟨c, s3, c1, c2, c3⟩ : ∃ c, b.issue .quant true = .ok c ∧
      (c.encFixed = b.encFixed ∧ c.pay = b.pay) ∧ c.blkValues = some Q ∧ c.bch = b.bch :=
    State.issue_to (fun _ => rfl) h3 (bs.1.trans (e1.trans hf)) ⟨⟨rfl, rfl⟩, State.blkValues_setBlk ({ b with ioA := true } : State) Q, rfl⟩
  have cs := c1.1.trans (b1.1.trans a1.1)
  have cs' := cs
  simp only [State.encFixed, Prod.mk.injEq] at cs'
  have cl : c.payLen.toNat = 304128 := by rw [cs'.2.2.2.1, e4, hl]
  have cp : c.pay = s.pay := c1.2.trans (b1.2.trans a1.2)
  have h4 : bodyBlkPut (BitVec.ofNat 32 i) { c with ioA := true } = .ok { c with
      ioA := true, pay := c.pay.setAll (placed (payIndex i) (octOf (octOf 8))), freq := none, lens := none, hdr := none } :=
    bodyBlkPut_of hi (by show _ < c.payLen.toNat; simp only [Config.numBlocks] at hi; omega) c2
      (c3.trans (b3.trans a3)) hbytes
  obtain ⟨d, s4, d1, d2⟩ : ∃ d, c.issue (.blkPut (BitVec.ofNat 32 i)) true = .ok d ∧ d.encFixed = c.encFixed ∧
      d.pay = c.pay.setAll (placed (payIndex i) (octOf (octOf 8))) :=
    State.issue_to (fun _ => rfl) h4 (cs'.1.trans (e1.trans hf)) ⟨rfl, rfl⟩
  refine ⟨d, ?_, ?_, fun k hk => ?_⟩
  · rw [encodeUnits, State.issueAll_cons_ok s1, State.issueAll_cons_ok s2, State.issueAll_cons_ok s3,
      State.issueAll_cons_ok s4]
    rfl
  · refine d1.trans (cs.trans ?_)
    simp only [State.encFixed, e1, e2, e3, e4, e5, e6, e7, e8, e9, e10, e11]
  · rw [d2]
    by_cases hk' : k < 64 * i
    · rw [Buf.get_placed_other _ _ _ _ (by intro r c; simp only [payIndex]; omega), cp]
      exact hp k hk'
    · have hr : (k - 64 * i) / 8 < 8 := by omega
      have hc : k % 8 < 8 := by omega
      have hx : payIndex i ⟨(k - 64 * i) / 8, hr⟩ ⟨k % 8, hc⟩ = k := by simp only [payIndex]; omega
      have := Buf.get_placed c.pay (payIndex i) (octOf (octOf 8)) ⟨(k - 64 * i) / 8, hr⟩ ⟨k % 8, hc⟩
        (fun r' c' => payIndex_inj i _ _ r' c') (payIndex_lt i _ _ hi)
      rwa [hx, elem_octOf] at this

/-! ### ENC.FRAME from start to end -/

theorem Memory.read_nil (n a len : Nat) : Memory.read ⟨len, []⟩ a n = List.replicate n 0 := by
  rw [Memory.read]; exact readCells_nil n a

/-- What later commands read of the state, through ENC.FRAME's first four commands. -/
def State.encKept (s : State) := (s.fault, s.quality, s.frameCount, s.nrec, s.wact, s.wpos, s.ctr)

/-- ENC.FRAME's first four commands on a delta frame, given the frames they make. -/
theorem encPrefix {s : State} {f : BitVec 32} {rgb cur p : Frame} {w : Buf} (hf : s.fault = false)
    (hraw : frameOffset f + Config.frameBytes ≤ s.raw.len)
    (hrgb : pixelsOf (s.raw.read (frameOffset f) Config.frameBytes) = rgb) (hcur : rgb.map rgbToYuv = cur)
    (hprev : s.prevFor f = some p) (ht : ftypeOf f.toNat = .delta)
    (hwrk : bufOfFrame (List.zipWith (Pixel.zip dpcmFwd) cur p) = w) :
    ∃ z, State.issueAll [(.frLd f, true), (.cscFwd, true), (.tpFwd, true), (.payLen (BitVec.ofNat 32 Config.frameBytes), true)] s
      = .ok z ∧ z.encKept = s.encKept ∧ z.wrk = w ∧
        z.payLen.toNat = Config.frameBytes ∧ z.fidx = some f ∧ z.ftype = some .delta := by
  have h1 : bodyFrLd true f { s with ioA := true } = .ok { s with ioA := true, rgb := some rgb, fidx := some f } := by
    have := bodyFrLd_of (s := { s with ioA := true }) hraw
    rwa [hrgb] at this
  obtain ⟨a, s1, a1, a2, a3, a4, a5⟩ : ∃ a, s.issue (.frLd f) true = .ok a ∧ a.encKept = s.encKept ∧
      a.rgb = some rgb ∧ a.fidx = some f ∧ a.prev = s.prev ∧ a.prevIdx = s.prevIdx :=
    State.issue_to (b := fun s => bodyFrLd s.ioA f s) (fun _ => rfl) h1 hf ⟨rfl, rfl, rfl, rfl, rfl⟩
  have af : a.fault = false := by
    have := congrArg (·.1) a1; simp only [State.encKept] at this; rw [this, hf]
  have h2 : bodyCscFwd { a with ioA := true } = .ok { a with ioA := true, cur := some cur } := by
    have := bodyCscFwd_of (s := { a with ioA := true }) a2
    rwa [hcur] at this
  obtain ⟨b, s2, b1, b2, b3, b4, b5⟩ : ∃ b, a.issue .cscFwd true = .ok b ∧ b.encKept = a.encKept ∧
      b.cur = some cur ∧ b.fidx = a.fidx ∧ b.prev = a.prev ∧ b.prevIdx = a.prevIdx :=
    State.issue_to (fun _ => rfl) h2 af ⟨rfl, rfl, rfl, rfl, rfl⟩
  have bf : b.fault = false := by
    have := congrArg (·.1) b1; simp only [State.encKept] at this; rw [this, af]
  have bp : ({ b with ioA := true } : State).prevFor f = some p := by
    rw [← hprev]; unfold State.prevFor
    simp only [b4.trans a4, b5.trans a5]
  have h3 : bodyTpFwd { b with ioA := true } = .ok { b with
      ioA := true, wrk := w, ftype := some .delta, prev := some cur, prevIdx := some f } := by
    have := bodyTpFwd_of_delta (s := { b with ioA := true }) b2 (b3.trans a3) ht bp
    rwa [hwrk] at this
  obtain ⟨c, s3, c1, c2, c3, c4⟩ : ∃ c, b.issue .tpFwd true = .ok c ∧ c.encKept = b.encKept ∧
      c.wrk = w ∧ c.fidx = b.fidx ∧ c.ftype = some .delta :=
    State.issue_to (fun _ => rfl) h3 bf ⟨rfl, rfl, rfl, rfl⟩
  have cf : c.fault = false := by
    have := congrArg (·.1) c1; simp only [State.encKept] at this; rw [this, bf]
  have h4 := bodyPayLen_of (s := { c with ioA := true }) (n := BitVec.ofNat 32 Config.frameBytes) (by decide)
  obtain ⟨z, s4, d1, d2, d3, d4, d5⟩ : ∃ z, c.issue (.payLen (BitVec.ofNat 32 Config.frameBytes)) true = .ok z ∧
      z.encKept = c.encKept ∧ z.wrk = c.wrk ∧ z.payLen = BitVec.ofNat 32 Config.frameBytes ∧ z.fidx = c.fidx ∧ z.ftype = c.ftype :=
    State.issue_to (fun _ => rfl) h4 cf ⟨rfl, rfl, rfl, rfl, rfl⟩
  refine ⟨z, ?_, d1.trans (c1.trans (b1.trans a1)), d2.trans c2, by rw [d3]; decide, d4.trans (c3.trans (b3.trans a3)), d5.trans c4⟩
  rw [State.issueAll_cons_ok s1, State.issueAll_cons_ok s2, State.issueAll_cons_ok s3, State.issueAll_cons_ok s4]
  rfl

theorem Buf.payload_replicate {s : State} (h : s.payLen.toNat = Config.frameBytes) (hp : ∀ k, k < Config.frameBytes → s.pay.get k = some 8) :
    s.payload = some (List.replicate 304128 8) := by
  have h1 : s.pay.full s.payLen.toNat = true := by
    rw [h, Buf.full, List.all_eq_true]
    intro k hk
    rw [hp k (List.mem_range.mp hk)]; rfl
  rw [State.payload, if_pos h1, h, Buf.bytes]
  refine congrArg some (List.eq_replicate_iff.mpr ⟨by rw [List.length_map, List.length_range], ?_⟩)
  intro b hb
  obtain ⟨k, hk, rfl⟩ := List.mem_map.mp hb
  rw [hp k (List.mem_range.mp hk)]; rfl

/-- What the entropy coder's commands leave alone. -/
def State.hufKept (s : State) :=
  (s.fault, s.payLen, s.pay, s.wact, s.fidx, s.nrec, s.ftype, s.wpos, s.ctr, s.frameCount)

theorem State.hufKept_fault {s t : State} (h : t.hufKept = s.hufKept) (hf : s.fault = false) : t.fault = false :=
  (congrArg (·.1) h : t.fault = s.fault).trans hf

/-- ENC.FRAME's last five commands, given what they make of the payload. -/
theorem encSuffix {s : State} {f n : BitVec 32} {bs : List Byte} {l : List (BitVec 4)} (hf : s.fault = false)
    (hb : s.payload = some bs) (hl : s.payLen.toNat ≠ 0) (hbl : buildLens (countBytes bs) = some l)
    (hall : ∀ b ∈ bs, 0 < lenOf l b.toNat) (hw : s.wact = true) (hi : s.fidx = some f) (hr : s.nrec = f)
    (ht : s.ftype = some (ftypeOf f.toNat)) (hc : s.wpos = s.ctr.len) (hn : s.frameCount = some n) :
    ∃ u, State.issueAll [(.hufCnt, true), (.hufBld, true), (.hufHdr, true), (.hufPack, true), (.cwRec, true)] s = .ok u := by
  obtain ⟨a, s1, a1, a2⟩ : ∃ a, s.issue .hufCnt true = .ok a ∧ a.hufKept = s.hufKept ∧ a.freq = some (countBytes bs) :=
    State.issue_to (fun _ => rfl) (bodyHufCnt_of (s := { s with ioA := true }) hb) hf ⟨rfl, rfl⟩
  have af := State.hufKept_fault a1 hf
  obtain ⟨b, s2, b1, b2⟩ : ∃ b, a.issue .hufBld true = .ok b ∧ b.hufKept = a.hufKept ∧ b.lens = some l :=
    State.issue_to (fun _ => rfl) (bodyHufBld_of (s := { a with ioA := true }) a2 hbl) af ⟨rfl, rfl⟩
  have bf := State.hufKept_fault b1 af
  obtain ⟨c, s3, c1, c2, c3⟩ : ∃ c, b.issue .hufHdr true = .ok c ∧ c.hufKept = b.hufKept ∧ c.lens = some l ∧
      c.hdr = some (hdrOf l) :=
    State.issue_to (fun _ => rfl) (bodyHufHdr_of (s := { b with ioA := true }) b2) bf ⟨rfl, b2, rfl⟩
  have cf := State.hufKept_fault c1 bf
  have ck := c1.trans (b1.trans a1)
  have cb : c.payload = some bs := by
    simp only [State.hufKept, Prod.mk.injEq] at ck
    rw [← hb, State.payload, State.payload, ck.2.1, ck.2.2.1]
  have cl : c.payLen.toNat ≠ 0 := by
    simp only [State.hufKept, Prod.mk.injEq] at ck
    rwa [ck.2.1]
  obtain ⟨d, s4, d1, d2⟩ : ∃ d, c.issue .hufPack true = .ok d ∧ d.hufKept = c.hufKept ∧
      d.enc = some (packedPayload l (hdrOf l) bs) :=
    State.issue_to (fun _ => rfl) (bodyHufPack_of (s := { c with ioA := true }) cb c2 c3 hall cl) cf ⟨rfl, rfl⟩
  have df := State.hufKept_fault d1 cf
  have dk := d1.trans ck
  simp only [State.hufKept, Prod.mk.injEq] at dk
  obtain ⟨-, -, -, k1, k2, k3, k4, k5, k6, k7⟩ := dk
  obtain ⟨u, s5, -⟩ : ∃ u, d.issue .cwRec true = .ok u ∧ True :=
    State.issue_to (b := fun s => bodyCwRec s.ioA s) (fun _ => rfl)
      (bodyCwRec_of (s := { d with ioA := true }) (k1.trans hw) d2 (k4.trans ht) (by show d.fidx = some d.nrec; rw [k2, k3, hi, hr])
        (by show _ = ftypeOf d.nrec.toNat; rw [k3, hr]) (by show d.wpos = d.ctr.len; rw [k5, k6, hc]) (k7.trans hn)) df trivial
  refine ⟨u, ?_⟩
  rw [State.issueAll_cons_ok s1, State.issueAll_cons_ok s2, State.issueAll_cons_ok s3, State.issueAll_cons_ok s4,
    State.issueAll_cons_ok s5]
  rfl

/-- The state before ENC.FRAME 1 whose every unit command retires: RAW holds two black frames, the frame before is one
that makes every difference sample 1, and quality 100 makes every local table entry 1. -/
def encReady : State := { State.reset with
  quality := some 100, frameCount := some 2, wact := true, nrec := 1, wpos := 15, ctr := ⟨15, []⟩, raw := ⟨608256, []⟩,
  prev := some (List.replicate 101376 ⟨127, 255, 255⟩), prevIdx := some 0 }

theorem encFrame_retires : ∃ u, encReady.issueAll (encFrameUnits 1 encReady.ioA encReady.ioB) = .ok u := by
  obtain ⟨z, hz, k, zw, zl, zi, zt⟩ := encPrefix (s := encReady) (f := 1) (rgb := List.replicate 101376 ⟨0, 0, 0⟩)
    (cur := List.replicate 101376 ⟨0, 128, 128⟩) (p := List.replicate 101376 ⟨127, 255, 255⟩)
    (w := bufOfFrame (List.replicate 101376 ⟨1, 1, 1⟩)) rfl (by show frameOffset 1 + 304128 ≤ 608256; decide)
    ((congrArg pixelsOf (Memory.read_nil _ _ _)).trans (pixelsOf_replicate 101376 0))
    (by rw [List.map_replicate, show rgbToYuv ⟨0, 0, 0⟩ = ⟨0, 128, 128⟩ by decide]) rfl (by decide)
    (by rw [List.zipWith_replicate, show Pixel.zip dpcmFwd ⟨0, 128, 128⟩ ⟨127, 255, 255⟩ = ⟨1, 1, 1⟩ by decide, Nat.min_self])
  simp only [State.encKept, Prod.mk.injEq] at k
  obtain ⟨k1, k2, k3, k4, k5, k6, k7⟩ := k
  obtain ⟨v, hv, vs, vp⟩ := State.issueAll_blocks (units := encodeUnits) (Q := EncAt z) Config.numBlocks
    (encAt_round z k1 (fun k hk => by rw [zw]; exact get_bufOfFrame_replicate 1 k hk) k2 zl) z
    ⟨rfl, fun k hk => absurd hk (by omega)⟩
  simp only [State.encFixed, Prod.mk.injEq] at vs
  obtain ⟨e1, e2, e3, e4, e5, e6, e7, e8, e9, e10, e11⟩ := vs
  obtain ⟨u, hu⟩ := encSuffix (s := v) (f := 1) (n := 2) (bs := List.replicate 304128 8) (l := eightLens) (e1.trans k1)
    (Buf.payload_replicate (by rw [e4, zl]) fun k hk => vp k (by simp only [Config.numBlocks, Config.frameBytes] at *; omega))
    (by rw [e4, zl]; decide) buildLens_eights
    (fun b hb => by rw [List.eq_of_mem_replicate hb]; exact lenOf_eight) (e5.trans k5) (e6.trans zi) (e7.trans k4)
    (e8.trans zt) (by rw [e9, e10, k6, k7]; rfl) (e11.trans k3)
  refine ⟨u, ?_⟩
  rw [encFrameUnits, State.issueAll_append, State.issueAll_append]
  rw [show encReady.ioA = true from rfl, show encReady.ioB = true from rfl, hz]
  simp only [Except.bind, hv, hu]

/-! ### DEC.FRAME's loop when every byte of PAY is 0 -/

/-- What the loop leaves alone and later commands need. -/
def State.decFixed (s : State) := (s.fault, s.pay, s.quality, s.payLen, s.fidx, s.ftype, s.raw, s.rgb)

/-- Before round `i`: the blocks below `i` are in WRK. -/
structure DecAt (fixed : State) (i : Nat) (s : State) : Prop where
  same : s.decFixed = fixed.decFixed
  wrk : ∀ k, k < i → ∀ r c, (s.wrk.get (wrkIndex k r c)).isSome = true

theorem Buf.isSome_placed (t : Buf) (i : Nat) (hi : i < Config.numBlocks) (m : Mat Byte) (j : Nat) (h : (t.get j).isSome = true) :
    ((t.setAll (placed (wrkIndex i) m)).get j).isSome = true := by
  by_cases hj : ∃ r c, wrkIndex i r c = j
  · obtain ⟨r, c, rfl⟩ := hj
    rw [Buf.get_placed _ _ _ _ _ (fun r' c' => wrkIndex_inj i r c r' c') (wrkIndex_lt i r c hi)]; rfl
  · rw [Buf.get_placed_other _ _ _ _ fun r c e => hj ⟨r, c, e⟩]; exact h

theorem decAt_round (z : State) (hf : z.fault = false) (hw : ∀ k, k < Config.frameBytes → z.pay.get k = some 0)
    (hq : z.quality = some 100) (hl : z.payLen.toNat = Config.frameBytes) (i : Nat) (s : State) (hi : i < Config.numBlocks)
    (h : DecAt z i s) : ∃ t, State.issueAll (decodeUnits i) s = .ok t ∧ DecAt z (i + 1) t := by
  obtain ⟨hs, hp⟩ := h
  have hs' := hs
  simp only [State.decFixed, Prod.mk.injEq] at hs'
  obtain ⟨e1, e2, e3, e4, -, -, -, -⟩ := hs'
  obtain ⟨B, Q, F, hB, hQ, hF, hfin⟩ := decode_zeros_block
  have hpl : 64 * i + 63 < s.payLen.toNat := by rw [e4, hl]; simp only [Config.numBlocks, Config.frameBytes] at *; omega
  have h1 : bodyBlkGet (BitVec.ofNat 32 i) { s with ioA := true } =
      .ok (({ s with ioA := true } : State).takeBlock i (octOf (octOf 0))) :=
    bodyBlkGet_of hi hpl (State.payBlock_eq_some.mpr fun r c => by
      rw [elem_octOf]; show s.pay.get _ = _; rw [e2]; exact hw _ (payIndex_lt i r c hi))
  obtain ⟨a, s1, a1, a2, a3, a4⟩ : ∃ a, s.issue (.blkGet (BitVec.ofNat 32 i)) true = .ok a ∧
      a.decFixed = s.decFixed ∧ a.wrk = s.wrk ∧ a.blkValues = some B ∧ a.bch = some (blockChan i) := by
    refine State.issue_to (fun _ => rfl) h1 (e1.trans hf) ⟨rfl, rfl, ?_, rfl⟩
    rw [hB]; exact State.blkValues_takeBlock ({ s with ioA := true } : State) i (octOf (octOf 0))
  have as' := a1.trans hs
  simp only [State.decFixed, Prod.mk.injEq] at as'
  have h2 : bodyDequant { a with ioA := true } = .ok (({ a with ioA := true } : State).setBlk Q) := by
    rw [hQ]
    exact bodyDequant_of (State.quantOperands_hundred a3 a4 (as'.2.2.1.trans hq))
  obtain ⟨b, s2, b1, b2, b3, b4⟩ : ∃ b, a.issue .dequant true = .ok b ∧
      b.decFixed = a.decFixed ∧ b.wrk = a.wrk ∧ b.blkValues = some Q ∧ b.bch = a.bch :=
    State.issue_to (fun _ => rfl) h2 (as'.1.trans hf) ⟨rfl, rfl, State.blkValues_setBlk ({ a with ioA := true } : State) Q, rfl⟩
  have bs' := b1.trans (a1.trans hs)
  simp only [State.decFixed, Prod.mk.injEq] at bs'
  have h3 : bodyIdct { b with ioA := true } = .ok (({ b with ioA := true } : State).setBlk F) := by
    rw [hF]; exact bodyIdct_of b3
  obtain ⟨c, s3, c1, c2, c3, c4⟩ : ∃ c, b.issue .idct true = .ok c ∧
      c.decFixed = b.decFixed ∧ c.wrk = b.wrk ∧ c.blkValues = some F ∧ c.bch = b.bch :=
    State.issue_to (fun _ => rfl) h3 (bs'.1.trans hf) ⟨rfl, rfl, State.blkValues_setBlk ({ b with ioA := true } : State) F, rfl⟩
  have cs := c1.trans (b1.trans (a1.trans hs))
  have cs' := cs
  simp only [State.decFixed, Prod.mk.injEq] at cs'
  have h4 := bodyBlkSt_of (s := { c with ioA := true }) hi c3 (c4.trans (b4.trans a4)) hfin
  obtain ⟨d, s4, d1, d2⟩ : ∃ d, c.issue (.blkSt (BitVec.ofNat 32 i)) true = .ok d ∧ d.decFixed = c.decFixed ∧
      d.wrk = c.wrk.setAll (placed (wrkIndex i) (Mat.mapElems pix F)) :=
    State.issue_to (fun _ => rfl) h4 (cs'.1.trans hf) ⟨rfl, rfl⟩
  refine ⟨d, ?_, d1.trans cs, fun k hk r c => ?_⟩
  · rw [decodeUnits, State.issueAll_cons_ok s1, State.issueAll_cons_ok s2, State.issueAll_cons_ok s3,
      State.issueAll_cons_ok s4]
    rfl
  · rw [d2]
    by_cases hk' : k = i
    · subst hk'
      rw [Buf.get_placed _ _ _ _ _ (fun r' c' => wrkIndex_inj k r c r' c') (wrkIndex_lt k r c hi)]; rfl
    · refine Buf.isSome_placed _ i hi _ _ ?_
      rw [c2, b2, a2]; exact hp k (by omega) r c

/-- DEC.FRAME's first four commands, given what they read. -/
theorem decPrefix {s : State} {n : BitVec 32} {next stop : Nat} {t : FrameType} {e out : List Byte}
    (hf : s.fault = false) (hr : s.ropen = true) (he : s.eos = false) (hp : s.rpos + Config.recPrefix ≤ s.ctr.len)
    (hn : s.frameCount = some n) (hl : linkOf s.ctr n.toNat s.rpos s.rnum.toNat = .ok (next, stop))
    (hc : stop - s.rpos - Config.recPrefix ≤ Config.encCap) (ht : frameTypeOf? (s.ctr.get (s.rpos + 8)) = some t)
    (hty : t = ftypeOf s.rnum.toNat)
    (hE : s.ctr.read (s.rpos + Config.recPrefix) (stop - s.rpos - Config.recPrefix) = e)
    (hlen : Config.hdrBytes ≤ e.length) (hk : kraftSum (unhdr (e.take Config.hdrBytes)) ≤ 2 ^ Config.maxLen)
    (ho : decodeSymbols (canon (unhdr (e.take Config.hdrBytes))) Config.frameBytes (bitsOfBytes (e.drop Config.hdrBytes)) = .ok out) :
    ∃ z, State.issueAll [(.crNext, true), (.payLen (BitVec.ofNat 32 Config.frameBytes), true), (.hufLdh, true), (.hufUnp, true)] s
      = .ok z ∧ z.fault = false ∧ z.quality = s.quality ∧ z.payLen.toNat = Config.frameBytes ∧
        z.pay = Buf.setFrom .nil 0 out ∧ z.fidx = some s.rnum ∧ z.ftype = some t ∧ z.raw = s.raw := by
  have h1 : bodyCrNext true { s with ioA := true } = .ok (({ s with ioA := true } : State).takeRecord t next stop) :=
    bodyCrNext_of hr he hp hn hl hc ht hty
  obtain ⟨a, s1, a1, a2, a3, a4, a5, a6⟩ : ∃ a, s.issue .crNext true = .ok a ∧ a.fault = false ∧ a.quality = s.quality ∧
      a.enc = some e ∧ a.fidx = some s.rnum ∧ a.ftype = some t ∧ a.raw = s.raw :=
    State.issue_to (b := fun s => bodyCrNext s.ioA s) (fun _ => rfl) h1 hf ⟨hf, rfl, congrArg some hE, rfl, rfl, rfl⟩
  have h2 := bodyPayLen_of (s := { a with ioA := true }) (n := BitVec.ofNat 32 Config.frameBytes) (by decide)
  obtain ⟨b, s2, b1, b2, b3, b4, b5, b6, b7, b8⟩ : ∃ b, a.issue (.payLen (BitVec.ofNat 32 Config.frameBytes)) true = .ok b ∧
      b.fault = false ∧ b.quality = a.quality ∧ b.enc = some e ∧ b.fidx = a.fidx ∧ b.ftype = a.ftype ∧ b.raw = a.raw ∧
      b.payLen = BitVec.ofNat 32 Config.frameBytes ∧ b.pay = .nil :=
    State.issue_to (fun _ => rfl) h2 a1 ⟨a1, rfl, a3, rfl, rfl, rfl, rfl, rfl⟩
  have h3 := bodyHufLdh_of (s := { b with ioA := true }) b3 hlen hk
  obtain ⟨c, s3, c1, c2, c3, c4, c5, c6, c7, c8, c9⟩ : ∃ c, b.issue .hufLdh true = .ok c ∧ c.fault = false ∧ c.quality = b.quality ∧
      c.enc = some e ∧ c.fidx = b.fidx ∧ c.ftype = b.ftype ∧ c.raw = b.raw ∧ c.payLen = b.payLen ∧ c.pay = b.pay ∧
      c.lens = some (unhdr (e.take Config.hdrBytes)) :=
    State.issue_to (fun _ => rfl) h3 b1 ⟨b1, rfl, b3, rfl, rfl, rfl, rfl, rfl, rfl⟩
  have cl : c.payLen.toNat = Config.frameBytes := by rw [c7, b7]; decide
  have h4 := bodyHufUnp_of (s := { c with ioA := true }) (out := out) c3 c9 (by show decodeSymbols _ c.payLen.toNat _ = _; rw [cl]; exact ho)
  obtain ⟨d, s4, d1, d2, d3, d4, d5, d6, d7⟩ : ∃ d, c.issue .hufUnp true = .ok d ∧ d.fault = false ∧ d.quality = c.quality ∧
      d.fidx = c.fidx ∧ d.ftype = c.ftype ∧ d.raw = c.raw ∧ d.payLen = c.payLen ∧ d.pay = c.pay.setFrom 0 out :=
    State.issue_to (fun _ => rfl) h4 c1 ⟨c1, rfl, rfl, rfl, rfl, rfl, rfl⟩
  refine ⟨d, ?_, d1, d2.trans (c2.trans (b2.trans a2)), by rw [d6, cl], by rw [d7, c8, b8], d3.trans (c4.trans (b4.trans a4)),
    d4.trans (c5.trans (b5.trans a5)), d5.trans (c6.trans (b6.trans a6))⟩
  rw [State.issueAll_cons_ok s1, State.issueAll_cons_ok s2, State.issueAll_cons_ok s3, State.issueAll_cons_ok s4]
  rfl

/-- DEC.FRAME's last three commands on a key frame. -/
theorem decSuffix {s : State} {i slot : BitVec 32} (hf : s.fault = false) (ht : s.ftype = some .key) (hi : s.fidx = some i)
    (hw : s.wrk.full Config.frameBytes = true) (hr : frameOffset slot ≤ s.raw.len) :
    ∃ u, State.issueAll [(.tpInv, true), (.cscInv, true), (.frSt slot, true)] s = .ok u := by
  have h1 := bodyTpInv_of_key (s := { s with ioA := true }) ht hi hw
  obtain ⟨a, s1, a1, ⟨g, a2⟩, a3⟩ : ∃ a, s.issue .tpInv true = .ok a ∧ a.fault = false ∧ (∃ g, a.cur = some g) ∧ a.raw = s.raw :=
    State.issue_to (fun _ => rfl) h1 hf ⟨hf, ⟨_, rfl⟩, rfl⟩
  have h2 := bodyCscInv_of (s := { a with ioA := true }) a2
  obtain ⟨b, s2, b1, ⟨g, b2⟩, b3⟩ : ∃ b, a.issue .cscInv true = .ok b ∧ b.fault = false ∧ (∃ g, b.rgb = some g) ∧ b.raw = a.raw :=
    State.issue_to (fun _ => rfl) h2 a1 ⟨a1, ⟨_, rfl⟩, rfl⟩
  have h3 := bodyFrSt_of (s := { b with ioA := true }) (f := slot) b2 (by show _ ≤ b.raw.len; rw [b3, a3]; exact hr)
  obtain ⟨c, s3, -⟩ : ∃ c, b.issue (.frSt slot) true = .ok c ∧ True :=
    State.issue_to (b := fun s => bodyFrSt s.ioA slot s) (fun _ => rfl) h3 b1 trivial
  refine ⟨c, ?_⟩
  rw [State.issueAll_cons_ok s1, State.issueAll_cons_ok s2, State.issueAll_cons_ok s3]
  rfl

/-- The state before DEC.FRAME 0 whose every unit command retires: CTR is a container of one key frame at quality 100 whose
payload codes byte 0 with the code `0` and holds 304128 of them. -/
def decReady : State := { State.reset with
  quality := some 100, frameCount := some 1, ropen := true, rpos := 15, idx := [15],
  ctr := ⟨38168, [(0, 0x53), (1, 0x4D), (2, 0x50), (3, 0x60), (4, 0x01), (5, 0x20), (6, 0x01), (7, 1), (11, 100), (24, 1)]⟩ }

theorem decReady_payload : decReady.ctr.read 24 38144 = 1 :: List.replicate 38143 0 := by
  rw [Memory.read, show decReady.ctr.cells.filter (fun c => 24 ≤ c.1) = [(24, 1)] by decide]
  rw [readCells, if_pos rfl, readCells_nil]

theorem zeroLens_kraft : kraftSum (unhdr (1 :: List.replicate 127 0)) ≤ 2 ^ 15 := by decide +kernel
theorem zeroLens_canon : canon (unhdr (1 :: List.replicate 127 0)) = [(0, [false])] := by decide +kernel

theorem decode_zero_codes (n : Nat) : decodeSymbols [(0, [false])] n (List.replicate n false) = .ok (List.replicate n 0) := by
  induction n with
  | zero => rfl
  | succ n ih =>
    rw [List.replicate_succ, decodeSymbols]
    have : decodeSymbol [(0, [false])] [] (false :: List.replicate n false) = .ok (0, List.replicate n false) := rfl
    rw [this]
    simp only [ih]
    rfl

theorem decFrame_retires : ∃ u, decReady.issueAll (decFrameUnits 0 decReady.ioA decReady.ioB) = .ok u := by
  have hd : (1 :: List.replicate 38143 0 : List Byte).take Config.hdrBytes = 1 :: List.replicate 127 0 := by
    rw [show Config.hdrBytes = 127 + 1 from rfl, List.take_succ_cons, List.take_replicate]; rfl
  have hb : bitsOfBytes ((1 :: List.replicate 38143 0 : List Byte).drop Config.hdrBytes) = List.replicate 304128 false := by
    rw [show Config.hdrBytes = 127 + 1 from rfl, List.drop_succ_cons, List.drop_replicate, bitsOfBytes_zeros]
  obtain ⟨z, hz, z1, z2, z3, z4, z5, z6, z7⟩ := decPrefix (s := decReady) (n := 1) (next := 0) (stop := 38168) (t := .key)
    (e := 1 :: List.replicate 38143 0) (out := List.replicate 304128 0) rfl rfl rfl (by decide) rfl (by decide) (by decide)
    (by decide) (by decide) decReady_payload (by rw [List.length_cons, List.length_replicate]; decide)
    (by rw [hd]; exact zeroLens_kraft) (by rw [hd, hb, zeroLens_canon]; exact decode_zero_codes 304128)
  obtain ⟨v, hv, vs, vw⟩ := State.issueAll_blocks (units := decodeUnits) (Q := DecAt z) Config.numBlocks
    (decAt_round z z1 (fun k hk => by
      rw [z4, Buf.get_setFrom, if_pos ⟨Nat.zero_le _, by rw [List.length_replicate]; simp only [Config.frameBytes] at hk; omega, hk⟩,
        Nat.sub_zero, List.getElem?_replicate_of_lt hk]) z2 z3) z
    ⟨rfl, fun k hk => absurd hk (by omega)⟩
  simp only [State.decFixed, Prod.mk.injEq] at vs
  obtain ⟨e1, e2, e3, e4, e5, e6, e7, e8⟩ := vs
  have full : v.wrk.full Config.frameBytes = true := by
    rw [Buf.full, List.all_eq_true]
    intro k hk
    obtain ⟨i, r, c, hi, rfl⟩ := wrkIndex_onto k (List.mem_range.mp hk)
    exact vw i hi r c
  obtain ⟨u, hu⟩ := decSuffix (s := v) (i := 0) (slot := 0) (e1.trans z1) (e6.trans z6) (e5.trans z5) full
    (by rw [show frameOffset 0 = 0 by decide]; exact Nat.zero_le _)
  refine ⟨u, ?_⟩
  rw [decFrameUnits, State.issueAll_append, State.issueAll_append]
  rw [show decReady.ioA = true from rfl, show decReady.ioB = true from rfl, hz]
  simp only [Except.bind, hv, hu]

/-! ### The same two states meet the conditions under which the whole-frame commands complete -/

/-- A block of samples 1, coded at quality 100, is a block of eights. -/
theorem codedBlock_ones {b : List Byte} {i : Nat} (hb : ∀ r c : Fin 8, b.getD (blockOffset i r c) 0 = 1) :
    codedBlock 100 b i = octOf (octOf 8) := by
  obtain ⟨B, F, Q, hB, hF, -, hQ, hbytes⟩ := encode_ones
  have h1 : (Mat.tabulate fun r c => F64.ofNat (b.getD (blockOffset i r c) 0).toNat) = B := by
    rw [hB]
    exact Mat.ext_elem _ _ fun r c => by rw [Mat.elem_tabulate, hb, Mat.elem_mapElems, elem_octOf]
  apply Mat.ext_elem
  intro r c
  have h2 := (Mat.values?_eq_some _ _).mp hbytes r c
  rw [Mat.elem_mapElems, hQ, quantBlock, Mat.elem_zipElems, byteValue?_ofNat (qz_le _ _)] at h2
  rw [codedBlock, h1, ← hF, show lqt (tableOf i) (100 : BitVec 32).toNat = octOf (octOf 1) from lqt_hundred _,
    Mat.elem_zipElems]
  exact Option.some.inj h2

theorem codedPayload_ones : codedPayload 100 (List.replicate 101376 ⟨1, 1, 1⟩) = List.replicate 304128 8 := by
  refine List.eq_replicate_iff.mpr ⟨codedPayload_length _ _, fun b hb => ?_⟩
  obtain ⟨i, hi, hb⟩ := List.mem_flatMap.mp hb
  have hi : i < Config.numBlocks := List.mem_range.mp hi
  rw [codedBlock_ones fun r c => by
    rw [bytes_replicate, List.getD_eq_getElem _ _ (by rw [List.length_replicate]; exact blockOffset_lt r c hi),
      List.getElem_replicate]] at hb
  obtain ⟨r, c, rfl⟩ := (Mat.mem_toList _ _).mp hb
  exact elem_octOf _ _ _

theorem encReady_frameIn : encReady.frameIn 1 = List.replicate 101376 ⟨0, 128, 128⟩ := by
  have h : pixelsOf (encReady.raw.read (frameOffset 1) Config.frameBytes) = List.replicate 101376 ⟨0, 0, 0⟩ :=
    (congrArg pixelsOf (Memory.read_nil _ _ _)).trans (pixelsOf_replicate 101376 0)
  rw [State.frameIn, h, List.map_replicate, show rgbToYuv ⟨0, 0, 0⟩ = ⟨0, 128, 128⟩ by decide]

theorem encReady_predicted : encReady.predicted dpcmFwd 1 (encReady.frameIn 1) = some (List.replicate 101376 ⟨1, 1, 1⟩) := by
  have h : encReady.predicted dpcmFwd 1 (encReady.frameIn 1) =
      some (List.zipWith (Pixel.zip dpcmFwd) (encReady.frameIn 1) (List.replicate 101376 ⟨127, 255, 255⟩)) := rfl
  rw [h, encReady_frameIn, List.zipWith_replicate,
    show Pixel.zip dpcmFwd ⟨0, 128, 128⟩ ⟨127, 255, 255⟩ = ⟨1, 1, 1⟩ by decide, Nat.min_self]

theorem encReady_depths : ∀ p ∈ symbolDepths (countBytes (codedPayload 100 (List.replicate 101376 ⟨1, 1, 1⟩))), p.2 ≤ 15 := by
  rw [codedPayload_ones]
  exact (buildLens_eq_some.mp buildLens_eights).1

theorem encReady_shapes : encReady.ShapesOk := by
  refine ⟨?_, ?_, ?_, Buf.nil_wf, Buf.nil_wf, by decide, by decide, ?_, ?_, ?_, ?_⟩ <;> rintro _ ⟨rfl⟩
  exact List.length_replicate

theorem decReady_shapes : decReady.ShapesOk := by
  refine ⟨?_, ?_, ?_, Buf.nil_wf, Buf.nil_wf, by decide, by decide, ?_, ?_, ?_, ?_⟩ <;> rintro _ ⟨⟩

/-- The bits after the header of `decReady`'s record are the codes of 304128 zeros. -/
theorem decReady_bits : bitsOfBytes ((1 :: List.replicate 38143 0 : List Byte).drop 128) =
    payloadBits (canon (unhdr (1 :: List.replicate 127 0))) (List.replicate 304128 0) ++ [] := by
  have h : ∀ n, payloadBits [(0, [false])] (List.replicate n 0) = List.replicate n false := by
    intro n
    induction n with
    | zero => rfl
    | succ n ih =>
      rw [List.replicate_succ, show payloadBits [(0, [false])] ((0 : Byte) :: List.replicate n 0) =
        false :: payloadBits [(0, [false])] (List.replicate n 0) from rfl, ih, List.replicate_succ]
  rw [zeroLens_canon, h, List.append_nil, show (128 : Nat) = 127 + 1 from rfl, List.drop_succ_cons, List.drop_replicate,
    bitsOfBytes_zeros]

theorem decReady_header : (1 :: List.replicate 38143 0 : List Byte).take 128 = 1 :: List.replicate 127 0 := by
  rw [show (128 : Nat) = 127 + 1 from rfl, List.take_succ_cons, List.take_replicate]; rfl

theorem zeroLens_len : 0 < lenOf (unhdr (1 :: List.replicate 127 0)) (0 : Byte).toNat := by decide +kernel

end Sys2Proof.Machine
end

