-- ==== Sys2Proof/Laws/Memory.lean ====
section
/-! SUPPORT. The files: every operation keeps the canonical form, what a byte reads as after each, and what a
range reads as (20_memory.md R83, R86, R87). -/

namespace Sys2Proof.Machine

/-! ### The listed cells of stored bytes -/

theorem mem_cellsOf {a : Nat} {bs : List Byte} {c : Host.Cell} (h : c ∈ cellsOf a bs) :
    a ≤ c.1 ∧ c.1 < a + bs.length ∧ c.2 ≠ Memory.unlisted ∧ bs[c.1 - a]? = some c.2 := by
  induction bs generalizing a with
  | nil => simp [cellsOf] at h
  | cons b bs ih =>
    have step : c ∈ cellsOf (a + 1) bs → a ≤ c.1 ∧ c.1 < a + (b :: bs).length ∧ c.2 ≠ Memory.unlisted ∧
        (b :: bs)[c.1 - a]? = some c.2 := by
      intro h
      obtain ⟨h1, h2, h3, h4⟩ := ih h
      refine ⟨by omega, by simp; omega, h3, ?_⟩
      rwa [show c.1 - a = (c.1 - (a + 1)) + 1 by omega, List.getElem?_cons_succ]
    by_cases hb : b = Memory.unlisted
    · rw [cellsOf, if_pos hb] at h; exact step h
    · rw [cellsOf, if_neg hb, List.mem_cons] at h
      rcases h with rfl | h
      · exact ⟨Nat.le_refl _, by simp, hb, by simp⟩
      · exact step h

theorem cellsOf_sorted (a : Nat) (bs : List Byte) : (cellsOf a bs).Pairwise (fun c d => c.1 < d.1) := by
  induction bs generalizing a with
  | nil => simp [cellsOf]
  | cons b bs ih =>
    rw [cellsOf]
    split
    · exact ih _
    · exact List.pairwise_cons.mpr ⟨fun c h => (mem_cellsOf h).1, ih _⟩

/-- Every stored byte that an unlisted address would not give is listed, at its address. -/
theorem find_cellsOf (a : Nat) (bs : List Byte) (x : Nat) :
    ((cellsOf a bs).find? fun c => c.1 == x) =
      if a ≤ x then (bs[x - a]?).bind fun b => if b = Memory.unlisted then none else some (x, b) else none := by
  induction bs generalizing a with
  | nil => simp [cellsOf]
  | cons b bs ih =>
    rw [cellsOf]
    by_cases hb : b = Memory.unlisted
    · rw [if_pos hb, ih]
      by_cases h : a + 1 ≤ x
      · rw [if_pos h, if_pos (by omega), show x - a = (x - (a + 1)) + 1 by omega, List.getElem?_cons_succ]
      · rw [if_neg h]
        by_cases h' : a ≤ x
        · simp [show x = a by omega, hb]
        · rw [if_neg h']
    · rw [if_neg hb, List.find?_cons]
      by_cases hx : a = x
      · subst hx
        rw [show (a == a) = true by simp, if_pos (Nat.le_refl _), Nat.sub_self]
        simp only [List.getElem?_cons_zero, Option.bind_some]
        rw [if_neg hb]
      · have : (a == x) = false := by simpa using hx
        rw [this]
        simp only [ih]
        by_cases h : a + 1 ≤ x
        · rw [if_pos h, if_pos (by omega), show x - a = (x - (a + 1)) + 1 by omega, List.getElem?_cons_succ]
        · rw [if_neg h, if_neg (by omega)]

/-! ### Reading one byte after an operation (20_memory.md R86, R87) -/

theorem find_filter_of (cells : List Host.Cell) (p : Host.Cell → Bool) (x : Nat) (h : ∀ c : Host.Cell, c.1 = x → p c = true) :
    ((cells.filter p).find? fun c => c.1 == x) = cells.find? fun c => c.1 == x := by
  rw [List.find?_filter]
  congr 1
  funext c
  by_cases hc : c.1 = x
  · simp [h c hc, hc]
  · simp [hc]

theorem find_filter_none (cells : List Host.Cell) (p : Host.Cell → Bool) (x : Nat) (h : ∀ c : Host.Cell, c.1 = x → p c = false) :
    ((cells.filter p).find? fun c => c.1 == x) = none := by
  rw [List.find?_eq_none]
  intro c hc
  have := (List.mem_filter.mp hc).2
  intro h'
  have := h c (by simpa using h')
  simp_all

theorem Memory.get_write (m : Memory) (a : Nat) (bs : List Byte) (x : Nat) :
    (m.write a bs).get x = if a ≤ x ∧ x < a + bs.length then bs.getD (x - a) 0 else m.get x := by
  unfold Memory.get Memory.write
  simp only [List.find?_append, find_cellsOf]
  by_cases h1 : x < a
  · rw [find_filter_of _ _ _ (by intro c hc; simp [hc, h1])]
    rw [find_filter_none m.cells (fun c => decide (a + bs.length ≤ c.1)) x (by intro c hc; simp [hc]; omega)]
    rw [if_neg (by omega), if_neg (by omega)]
    simp
  · rw [find_filter_none _ _ _ (by intro c hc; simp [hc]; omega)]
    by_cases h2 : x < a + bs.length
    · rw [find_filter_none m.cells (fun c => decide (a + bs.length ≤ c.1)) x (by intro c hc; simp [hc]; omega)]
      rw [if_pos (by omega), if_pos (by omega)]
      have hlt : x - a < bs.length := by omega
      simp only [List.getElem?_eq_getElem hlt, List.getD_eq_getElem _ _ hlt]
      simp only [Option.none_or, Option.or_none, Option.bind_some]
      by_cases hb : bs[x - a] = Memory.unlisted
      · rw [if_pos hb, hb]
      · rw [if_neg hb]
    · rw [find_filter_of _ _ _ (by intro c hc; simp [hc]; omega)]
      rw [if_pos (by omega), if_neg (by omega), List.getElem?_eq_none (by omega)]
      simp

/-- `MemWrite` (R87): the bytes stored, every other byte as before. -/
theorem Memory.byteAt_write (m : Memory) (a : Nat) (bs : List Byte) (x : Nat) (ha : a ≤ m.len) :
    (m.write a bs).byteAt x = if a ≤ x ∧ x < a + bs.length then bs[x - a]? else m.byteAt x := by
  unfold Memory.byteAt
  rw [Memory.get_write, show (m.write a bs).len = max m.len (a + bs.length) from rfl]
  by_cases h : a ≤ x ∧ x < a + bs.length
  · rw [if_pos h, if_pos h, if_pos (by omega), List.getD_eq_getElem _ _ (by omega), List.getElem?_eq_getElem (by omega)]
  · rw [if_neg h, if_neg h]
    by_cases hx : x < m.len
    · rw [if_pos hx, if_pos (by omega)]
    · rw [if_neg hx, if_neg (by omega)]

theorem Memory.byteAt_ofBytes (bs : List Byte) (x : Nat) : (Memory.ofBytes bs).byteAt x = bs[x]? := by
  unfold Memory.byteAt Memory.get Memory.ofBytes
  simp only [find_cellsOf]
  by_cases h : x < bs.length
  · rw [if_pos h]
    simp only [Nat.zero_le, if_true, Nat.sub_zero, List.getElem?_eq_getElem h]
    simp only [Option.bind_some]
    by_cases hb : bs[x] = Memory.unlisted
    · rw [if_pos hb, hb]
    · rw [if_neg hb]
  · rw [if_neg h, List.getElem?_eq_none (by omega)]

/-! ### The canonical form is kept -/

theorem Memory.write_wf (m : Memory) (a : Nat) (bs : List Byte) (h : m.wf) : (m.write a bs).wf := by
  obtain ⟨hs, hm⟩ := h
  constructor
  · simp only [Memory.write]
    rw [List.pairwise_append, List.pairwise_append]
    refine ⟨⟨hs.filter _, cellsOf_sorted _ _, ?_⟩, hs.filter _, ?_⟩
    · intro c hc d hd
      have h1 := (List.mem_filter.mp hc).2
      have h2 := (mem_cellsOf hd).1
      simp at h1; omega
    · intro c hc d hd
      have h2 := (List.mem_filter.mp hd).2
      simp at h2
      rcases List.mem_append.mp hc with hc | hc
      · have h1 := (List.mem_filter.mp hc).2
        simp at h1; omega
      · have := (mem_cellsOf hc).2.1; omega
  · intro c hc
    simp only [Memory.write, List.mem_append, List.mem_filter] at hc ⊢
    rcases hc with (⟨hc, -⟩ | hc) | ⟨hc, -⟩
    · exact ⟨by have := (hm c hc).1; omega, (hm c hc).2⟩
    · exact ⟨by have := (mem_cellsOf hc).2.1; omega, (mem_cellsOf hc).2.2.1⟩
    · exact ⟨by have := (hm c hc).1; omega, (hm c hc).2⟩

theorem Memory.ofBytes_wf (bs : List Byte) : (Memory.ofBytes bs).wf :=
  ⟨cellsOf_sorted _ _, fun c hc => ⟨by simpa [Memory.ofBytes] using (mem_cellsOf hc).2.1, (mem_cellsOf hc).2.2.1⟩⟩

theorem Memory.empty_wf : Memory.empty.wf := by decide

/-- Right after reset both files have the canonical form. -/
theorem reset_files_wf : State.reset.raw.wf ∧ State.reset.ctr.wf := by decide

/-! ### Reading a range -/

@[simp] theorem readCells_length (n a : Nat) (cells : List Host.Cell) : (readCells n a cells).length = n := by
  induction n generalizing a cells with
  | zero => simp [readCells]
  | succ n ih =>
    cases cells with
    | nil => simp [readCells, ih]
    | cons c cs => rw [readCells]; split <;> simp [ih]

@[simp] theorem Memory.read_length (m : Memory) (a n : Nat) : (m.read a n).length = n := readCells_length _ _ _

/-- The byte an address reads as, given the listed cells. -/
theorem readCells_getElem (n a : Nat) (cells : List Host.Cell) (hs : cells.Pairwise fun c d => c.1 < d.1)
    (hge : ∀ c ∈ cells, a ≤ c.1) (k : Nat) (hk : k < n) :
    (readCells n a cells)[k]? = some (match cells.find? (fun c => c.1 == a + k) with
      | some c => c.2
      | none => Memory.unlisted) := by
  induction n generalizing a cells k with
  | zero => omega
  | succ n ih =>
    cases cells with
    | nil =>
      rw [readCells]
      cases k with
      | zero => simp
      | succ k =>
        rw [List.getElem?_cons_succ, ih (a + 1) [] (by simp) (by simp) k (by omega)]
        simp
    | cons c cs =>
      have hcs := (List.pairwise_cons.mp hs)
      rw [readCells]
      by_cases hc : c.1 = a
      · rw [if_pos hc]
        cases k with
        | zero => simp [hc]
        | succ k =>
          rw [List.getElem?_cons_succ, ih (a + 1) cs hcs.2 (fun d hd => by have := hcs.1 d hd; omega) k (by omega),
            List.find?_cons, show (c.1 == a + (k + 1)) = false by simp; omega, show a + 1 + k = a + (k + 1) by omega]
      · rw [if_neg hc]
        have hgt : a < c.1 := by have := hge c (by simp); omega
        cases k with
        | zero =>
          have : (c :: cs).find? (fun d => d.1 == a + 0) = none := by
            rw [List.find?_eq_none]
            intro d hd
            rcases List.mem_cons.mp hd with rfl | hd
            · simp; omega
            · have := hcs.1 d hd; simp; omega
          rw [this, List.getElem?_cons_zero]
        | succ k =>
          rw [List.getElem?_cons_succ, ih (a + 1) (c :: cs) hs ?_ k (by omega), show a + 1 + k = a + (k + 1) by omega]
          intro d hd
          rcases List.mem_cons.mp hd with rfl | hd
          · omega
          · have := hcs.1 d hd; omega

/-- `MemRead` (R86): byte `k` of the bytes read is the byte of the file at `a + k`. -/
theorem Memory.read_getElem (m : Memory) (a n k : Nat) (h : m.wf) (hk : k < n) :
    (m.read a n)[k]? = some (m.get (a + k)) := by
  rw [Memory.read, readCells_getElem _ _ _ (h.1.filter _) (by intro c hc; simpa using (List.mem_filter.mp hc).2) k hk,
    find_filter_of _ _ _ (by intro c hc; simp [hc])]
  rfl

theorem Memory.read_byteAt (m : Memory) (a n k : Nat) (h : m.wf) (hk : k < n) (hn : a + n ≤ m.len) :
    (m.read a n)[k]? = m.byteAt (a + k) := by
  rw [Memory.read_getElem m a n k h hk, Memory.byteAt, if_pos (by omega)]

end Sys2Proof.Machine
end

