-- ==== Sys2Proof/Laws/PerInstr.lean ====
section
/-! SUPPORT. The fields of an encoded command, and the family of statements made per command. -/

namespace Sys2Proof

/-! ### The fields of an encoded command (30_encoding.md R121) -/

theorem encode_opc (i : Instr) : (encode i).opc = i.opc := by
  apply BitVec.eq_of_getLsbD_eq
  intro k hk
  simp only [Desc.opc, encode, BitVec.getLsbD_extractLsb', BitVec.getLsbD_append]
  simp [hk]

theorem encode_idx (i : Instr) : (encode i).idx = i.idxField := by
  apply BitVec.eq_of_getLsbD_eq
  intro k hk
  simp only [Desc.idx, encode, BitVec.getLsbD_extractLsb', BitVec.getLsbD_append]
  simp [hk, show ¬ 8 + k < 8 by omega]

theorem encode_rsv (i : Instr) : (encode i).rsv = 0 := by
  apply BitVec.eq_of_getLsbD_eq
  intro k hk
  simp only [Desc.rsv, encode, BitVec.getLsbD_extractLsb', BitVec.getLsbD_append]
  simp [hk, show ¬ 16 + k < 8 by omega, show ¬ 16 + k - 8 < 8 by omega, show 16 + k - 8 - 8 < 48 by omega]

theorem encode_imm (i : Instr) : (encode i).imm = i.immField := by
  apply BitVec.eq_of_getLsbD_eq
  intro k hk
  simp only [Desc.imm, encode, BitVec.getLsbD_extractLsb', BitVec.getLsbD_append]
  simp [hk, show ¬ 64 + k < 8 by omega, show ¬ 64 + k - 8 < 8 by omega, show ¬ 64 + k - 8 - 8 < 48 by omega,
    show 64 + k - 8 - 8 - 48 = k by omega]

/-- The four fields make up the descriptor: no bit stands outside them. -/
theorem desc_fields (d : Desc) : d.imm ++ d.rsv ++ d.idx ++ d.opc = d := by
  apply BitVec.eq_of_getLsbD_eq
  intro k hk
  simp only [Desc.imm, Desc.rsv, Desc.idx, Desc.opc, BitVec.getLsbD_append, BitVec.getLsbD_extractLsb']
  by_cases h1 : k < 8
  · simp [h1]
  · by_cases h2 : k < 16
    · simp [h1, show k - 8 < 8 by omega, show 8 + (k - 8) = k by omega]
    · by_cases h3 : k < 64
      · simp [h1, show ¬ k - 8 < 8 by omega, show k - 8 - 8 < 48 by omega, show 16 + (k - 8 - 8) = k by omega]
      · simp [h1, show ¬ k - 8 < 8 by omega, show ¬ k - 8 - 8 < 48 by omega, show k - 8 - 8 - 48 < 64 by omega,
          show 64 + (k - 8 - 8 - 48) = k by omega]

namespace Laws

/-- The encoding of a command carries its opcode and a zero reserved field, and IDX is 0 unless the command uses
it (30_encoding.md R121, R124). -/
def OpcodeByte.Statement (i : Instr) : Prop :=
  (encode i).opc = i.opc ∧ (encode i).rsv = 0 ∧ (encode i).idx = i.idxField

/-- The statement for any command. -/
theorem opcodeByte_all (i : Instr) : OpcodeByte.Statement i := ⟨encode_opc i, encode_rsv i, encode_idx i⟩

theorem OpcodeByte.nop : OpcodeByte.Statement .nop := opcodeByte_all _
theorem OpcodeByte.rst : OpcodeByte.Statement .rst := opcodeByte_all _
theorem OpcodeByte.setq (q : BitVec 32) : OpcodeByte.Statement (.setq q) := opcodeByte_all _
theorem OpcodeByte.setn (n : BitVec 32) : OpcodeByte.Statement (.setn n) := opcodeByte_all _
theorem OpcodeByte.frLd (f : BitVec 32) : OpcodeByte.Statement (.frLd f) := opcodeByte_all _
theorem OpcodeByte.frSt (slot : BitVec 32) : OpcodeByte.Statement (.frSt slot) := opcodeByte_all _
theorem OpcodeByte.cscFwd : OpcodeByte.Statement .cscFwd := opcodeByte_all _
theorem OpcodeByte.cscInv : OpcodeByte.Statement .cscInv := opcodeByte_all _
theorem OpcodeByte.tpFwd : OpcodeByte.Statement .tpFwd := opcodeByte_all _
theorem OpcodeByte.tpInv : OpcodeByte.Statement .tpInv := opcodeByte_all _
theorem OpcodeByte.blkLd (i : BitVec 32) : OpcodeByte.Statement (.blkLd i) := opcodeByte_all _
theorem OpcodeByte.blkSt (i : BitVec 32) : OpcodeByte.Statement (.blkSt i) := opcodeByte_all _
theorem OpcodeByte.blkPut (i : BitVec 32) : OpcodeByte.Statement (.blkPut i) := opcodeByte_all _
theorem OpcodeByte.blkGet (i : BitVec 32) : OpcodeByte.Statement (.blkGet i) := opcodeByte_all _
theorem OpcodeByte.blkWr (k : BitVec 8) (v : BitVec 64) : OpcodeByte.Statement (.blkWr k v) := opcodeByte_all _
theorem OpcodeByte.blkCh (t : BitVec 8) : OpcodeByte.Statement (.blkCh t) := opcodeByte_all _
theorem OpcodeByte.fdct : OpcodeByte.Statement .fdct := opcodeByte_all _
theorem OpcodeByte.idct : OpcodeByte.Statement .idct := opcodeByte_all _
theorem OpcodeByte.quant : OpcodeByte.Statement .quant := opcodeByte_all _
theorem OpcodeByte.dequant : OpcodeByte.Statement .dequant := opcodeByte_all _
theorem OpcodeByte.payLen (n : BitVec 32) : OpcodeByte.Statement (.payLen n) := opcodeByte_all _
theorem OpcodeByte.payWr (k : BitVec 32) (b : Byte) : OpcodeByte.Statement (.payWr k b) := opcodeByte_all _
theorem OpcodeByte.hufCnt : OpcodeByte.Statement .hufCnt := opcodeByte_all _
theorem OpcodeByte.hufBld : OpcodeByte.Statement .hufBld := opcodeByte_all _
theorem OpcodeByte.hufHdr : OpcodeByte.Statement .hufHdr := opcodeByte_all _
theorem OpcodeByte.hufPack : OpcodeByte.Statement .hufPack := opcodeByte_all _
theorem OpcodeByte.hufLdh : OpcodeByte.Statement .hufLdh := opcodeByte_all _
theorem OpcodeByte.hufUnp : OpcodeByte.Statement .hufUnp := opcodeByte_all _
theorem OpcodeByte.cwHdr : OpcodeByte.Statement .cwHdr := opcodeByte_all _
theorem OpcodeByte.cwRec : OpcodeByte.Statement .cwRec := opcodeByte_all _
theorem OpcodeByte.crOpen : OpcodeByte.Statement .crOpen := opcodeByte_all _
theorem OpcodeByte.crNext : OpcodeByte.Statement .crNext := opcodeByte_all _
theorem OpcodeByte.crSeek (n : BitVec 32) : OpcodeByte.Statement (.crSeek n) := opcodeByte_all _
theorem OpcodeByte.encFrame (f : BitVec 32) : OpcodeByte.Statement (.encFrame f) := opcodeByte_all _
theorem OpcodeByte.decFrame (slot : BitVec 32) : OpcodeByte.Statement (.decFrame slot) := opcodeByte_all _

end Laws
end Sys2Proof
end

