-- ==== Sys2Proof/Tests/Slice0.lean ====
section
/-! SUPPORT. Tests of single steps with the vectors of spec/95_test_vectors.md (named V-..), the written-out descriptor of
every command, the operands that WellFormed refuses, and the witnesses of the statements. -/

namespace Sys2Proof.Tests

open Sys2Proof Sys2Proof.Machine

set_option Elab.async false

/-! ### Ill-formed operands are refused -/

theorem test_wellFormed_refuses_blocks : ¬ (Instr.blkLd 4752).wellFormed ∧ ¬ (Instr.blkSt 4752).wellFormed ∧
    ¬ (Instr.blkPut 4752).wellFormed ∧ ¬ (Instr.blkGet 0xFFFFFFFF).wellFormed ∧ (Instr.blkLd 4751).wellFormed := by decide

theorem test_wellFormed_refuses_element : ¬ (Instr.blkWr 64 0).wellFormed ∧ (Instr.blkWr 63 0).wellFormed := by decide

theorem test_wellFormed_refuses_nonfinite : ¬ (Instr.blkWr 0 0x7FF0000000000000).wellFormed ∧
    ¬ (Instr.blkWr 0 0xFFF8000000000000).wellFormed ∧ (Instr.blkWr 0 0x7FEFFFFFFFFFFFFF).wellFormed := by decide

theorem test_wellFormed_refuses_channel : ¬ (Instr.blkCh 3).wellFormed ∧ (Instr.blkCh 2).wellFormed := by decide

theorem test_wellFormed_refuses_payloadLength : ¬ (Instr.payLen 304129).wellFormed ∧ (Instr.payLen 304128).wellFormed := by
  decide

/-! ### Every command's descriptor, written out from R121, R123 and R124 -/

theorem test_decode_system :
    decode 0x00000000000000000000000000000000 = .ok .nop ∧
    decode 0x00000000000000000000000000000001 = .ok .rst ∧
    decode 0x00000000FFFFFFFF0000000000000002 = .ok (.setq 0xFFFFFFFF) ∧
    decode 0x00000000000000210000000000000003 = .ok (.setn 33) := by decide

theorem test_decode_frameIo :
    decode 0x00000000000000200000000000000010 = .ok (.frLd 32) ∧
    decode 0x00000000000000020000000000000011 = .ok (.frSt 2) := by decide

theorem test_decode_colour :
    decode 0x00000000000000000000000000000020 = .ok .cscFwd ∧
    decode 0x00000000000000000000000000000021 = .ok .cscInv := by decide

theorem test_decode_temporal :
    decode 0x00000000000000000000000000000030 = .ok .tpFwd ∧
    decode 0x00000000000000000000000000000031 = .ok .tpInv := by decide

theorem test_decode_segment :
    decode 0x000000000000128F0000000000000040 = .ok (.blkLd 4751) ∧
    decode 0x00000000000012900000000000000041 = .ok (.blkSt 4752) ∧
    decode 0x00000000000000010000000000000042 = .ok (.blkPut 1) ∧
    decode 0x00000000000000850000000000000043 = .ok (.blkGet 133) ∧
    decode 0x40600000000000000000000000000944 = .ok (.blkWr 9 0x4060000000000000) ∧
    decode 0x00000000000000000000000000000345 = .ok (.blkCh 3) := by decide

theorem test_decode_transform :
    decode 0x00000000000000000000000000000050 = .ok .fdct ∧
    decode 0x00000000000000000000000000000051 = .ok .idct := by decide

theorem test_decode_quant :
    decode 0x00000000000000000000000000000060 = .ok .quant ∧
    decode 0x00000000000000000000000000000061 = .ok .dequant := by decide

theorem test_decode_entropy :
    decode 0x000000000004A4000000000000000070 = .ok (.payLen 304128) ∧
    decode 0x000000FF000000010000000000000071 = .ok (.payWr 1 255) ∧
    decode 0x00000000000000000000000000000072 = .ok .hufCnt ∧
    decode 0x00000000000000000000000000000073 = .ok .hufBld ∧
    decode 0x00000000000000000000000000000074 = .ok .hufHdr ∧
    decode 0x00000000000000000000000000000075 = .ok .hufPack ∧
    decode 0x00000000000000000000000000000076 = .ok .hufLdh ∧
    decode 0x00000000000000000000000000000077 = .ok .hufUnp := by decide

theorem test_decode_container :
    decode 0x00000000000000000000000000000080 = .ok .cwHdr ∧
    decode 0x00000000000000000000000000000081 = .ok .cwRec ∧
    decode 0x00000000000000000000000000000090 = .ok .crOpen ∧
    decode 0x00000000000000000000000000000091 = .ok .crNext ∧
    decode 0x00000000000000200000000000000092 = .ok (.crSeek 32) := by decide

theorem test_decode_wholeFrame :
    decode 0x000000000000000700000000000000A0 = .ok (.encFrame 7) ∧
    decode 0x000000000000000100000000000000A1 = .ok (.decFrame 1) := by decide

/-- V-F1, V-F3, V-F4, V-F10, V-F21, and a non-zero RSV bit. -/
theorem test_decode_refuses :
    decode 0x000000000000000000000000000000B7 = .error .opcode ∧
    decode 0x00000000000000000000000000000004 = .error .opcode ∧
    decode 0x00000000000000000000000000000100 = .error .reserved ∧
    decode 0x00000001000000500000000000000002 = .error .reserved ∧
    decode 0x00000100000000000000000000000071 = .error .reserved ∧
    decode 0x000000000000000000000000000001A0 = .error .reserved ∧
    decode 0x00000000000000008000000000000044 = .error .reserved := by decide

theorem test_decodeTableWord :
    decodeTableWord 128 0x40600000000000000000000000000944 = some (.blkWr 9 0x4060000000000000) ∧
    decodeTableWord 128 0x000000000000000000000000000000B7 = none ∧ decodeBytes [0, 0] = .error .length := by decide

/-! ### The step, fault entry and reset -/

/-- ERR and ERR_OFF after a command. -/
def errOf (o : Host.Outcome State Fault Refusal) : Option (BitVec 24 × Nat) :=
  match o with
  | .next t => some (t.err, t.errOff)
  | .fault _ => none
  | .refused _ => none

/-- One element of the state after a command. -/
def after {α : Type} (o : Host.Outcome State Fault Refusal) (f : State → α) : Option α :=
  match o with
  | .next t => some (f t)
  | .fault _ => none
  | .refused _ => none

theorem test_step_runs_word :
    after (step (State.reset.withFetchWord 128 0x00000000000000500000000000000002)) (fun t => (t.quality, t.cp, t.port)) =
      some (some 80, 1, []) ∧
    after (step (State.reset.withFetchWord 128 0)) (fun t => decide (t = { State.reset with cp := 1 })) = some true := by
  decide +kernel

/-- V-F1, V-F3, V-F5 to V-F9, V-F11, V-F22, V-F23 and the other causes that need no more than a reset state. -/
theorem test_faults_from_reset :
    [0xB7, 0x100, 0x1A0].map (fun w => errOf (step (State.reset.withFetchWord 128 w))) =
      [some (0x010B05, 0), some (0x020005, 0), some (0x020A05, 0)] ∧
    [Instr.blkLd 4752, .blkLd 4751, .blkSt 4752, .fdct, .idct, .quant, .dequant, .payWr 0 8, .payLen 304129, .cwHdr, .encFrame 0,
        .decFrame 0, .crNext, .crOpen, .frLd 3, .frSt 0, .cscFwd, .cscInv, .tpFwd, .tpInv, .hufUnp].map
        (fun i => errOf (exec i State.reset)) =
      [some (0x030405, 0), some (0x010406, 0), some (0x030405, 0), some (0x010506, 0), some (0x010506, 0), some (0x010606, 0),
        some (0x010606, 0), some (0x030705, 0), some (0x030705, 0), some (0x010806, 0), some (0x050101, 0), some (0x050906, 0),
        some (0x050906, 0), some (0x010903, 0), some (0x050101, 912384), some (0x010106, 0), some (0x010206, 0),
        some (0x010206, 0), some (0x010306, 0), some (0x010306, 0), some (0x010706, 0)] := by decide +kernel

/-- V-F25, V-P5: while FAULT = 1 a legal descriptor is dropped. -/
theorem test_fault_is_sticky :
    after (step { State.reset with fault := true, port := [.command 0x00000000000000500000000000000002 true true] })
      (fun t => decide (t = { State.reset with fault := true })) = some true := by decide +kernel

/-- V-R2: `rst_n` during an unfinished container keeps CTR. RST zeroes its magic (R382). -/
theorem test_reset_and_ctr :
    after (step { State.reset with wact := true, cp := 9, ctr := ⟨15, [(0, 0x53)]⟩, port := [.resetPulse] })
      (fun t => (t.ctr, t.cp, t.wact)) = some (⟨15, [(0, 0x53)]⟩, 0, false) ∧
    after (exec .rst { State.reset with wact := true, cp := 9, ctr := ⟨15, [(0, 0x53)]⟩ })
      (fun t => (t.ctr, t.cp, t.wact)) = some (⟨15, []⟩, 10, false) := by decide +kernel

/-- V-F2, V-F13, V-F14 and V-Y4: SETQ's checks in their order, and STATUS after `SETQ 80 ; SETN 1`. -/
theorem test_setq_and_setn :
    errOf (exec (.setq 0) State.reset) = some (0x010002, 0) ∧ errOf (exec (.setq 101) State.reset) = some (0x010002, 0) ∧
    errOf (exec (.setq 0xFFFFFFFF) State.reset) = some (0x010002, 0) ∧
    errOf (exec (.setq 50) { State.reset with wact := true }) = some (0x040006, 0) ∧
    errOf (exec (.setq 0) { State.reset with wact := true }) = some (0x010002, 0) ∧
    errOf (exec (.setn 5) { State.reset with wact := true }) = some (0x040006, 0) ∧
    after (exec (.setn 1) { State.reset with quality := some 80 }) (fun t => t.statusRead 0) = some 0x006 := by
  decide +kernel

/-! ### Colour, prediction -/

/-- V-C1. -/
theorem test_cscFwd : after (exec .cscFwd { State.reset with rgb := some [⟨0, 0, 0⟩, ⟨255, 255, 255⟩, ⟨255, 0, 0⟩,
      ⟨0, 255, 0⟩, ⟨0, 0, 255⟩, ⟨255, 255, 0⟩, ⟨12, 200, 77⟩, ⟨250, 10, 130⟩] }) (·.cur) =
    some (some [⟨0, 128, 128⟩, ⟨255, 128, 128⟩, ⟨76, 85, 255⟩, ⟨150, 44, 21⟩, ⟨29, 255, 107⟩, ⟨226, 1, 149⟩, ⟨130, 98, 44⟩,
      ⟨95, 148, 238⟩]) := by decide +kernel

/-- V-C1, V-C2. -/
theorem test_cscInv : after (exec .cscInv { State.reset with cur := some [⟨76, 85, 255⟩, ⟨150, 44, 21⟩, ⟨0, 0, 0⟩,
      ⟨255, 255, 255⟩, ⟨128, 0, 255⟩, ⟨255, 0, 0⟩, ⟨16, 240, 16⟩, ⟨0, 255, 255⟩] }) (·.rgb) =
    some (some [⟨254, 0, 0⟩, ⟨0, 255, 1⟩, ⟨0, 135, 0⟩, ⟨255, 121, 255⟩, ⟨255, 81, 0⟩, ⟨76, 255, 28⟩, ⟨0, 57, 214⟩,
      ⟨178, 0, 225⟩]) := by decide +kernel

/-- V-T2 on two pixels, and V-T3's fault. -/
theorem test_tpFwd :
    after (exec .tpFwd { State.reset with
      cur := some [⟨130, 0, 255⟩, ⟨10, 200, 0⟩], prev := some [⟨120, 127, 128⟩, ⟨200, 10, 255⟩], prevIdx := some 0, fidx := some 1 }) (fun t => ((List.range 7).map t.wrk.get, t.ftype, t.prevIdx)) =
      some ([some 138, some 1, some 255, some 0, some 255, some 0, none], some .delta, some 1) ∧
    errOf (exec .tpFwd { State.reset with cur := some [], prev := some [], prevIdx := some 1, fidx := some 1 }) =
      some (0x020306, 0) := by decide +kernel

/-- V-T2, V-T1. -/
theorem test_dpcmInv : [dpcmInv 138 120, dpcmInv 0 200, dpcmInv 255 10, dpcmInv 0 100, dpcmInv 255 200, dpcmInv 0 0,
      dpcmInv 128 77] = [130, 72, 137, 0, 255, 0, 77] ∧
    [ftypeOf 0, ftypeOf 1, ftypeOf 31, ftypeOf 32, ftypeOf 4294967295] = [.key, .delta, .delta, .key, .delta] := by decide

/-! ### Blocks -/

/-- V-B1: the first and last samples of block 133 and the last of block 4751. -/
theorem test_blockOffset : blockOffset 133 0 0 = 3 * (352 * 8) + 1 ∧ blockOffset 131 7 7 = 3 * (352 * 7 + 351) + 2 ∧
    blockOffset 4751 7 7 = 3 * (352 * 287 + 351) + 2 := by decide

/-- The 64 bytes `4·r + c`. -/
def rampBlock : Mat Byte := Mat.tabulate fun r c => BitVec.ofNat 8 (4 * r + c)

theorem test_blkLd :
    after (exec (.blkLd 133) { State.reset with wrk := Buf.setAll .nil (placed (wrkIndex 133) rampBlock) })
      (fun t => (Mat.elem t.blk 7 6, Mat.elem t.blk 1 0, t.bch, t.bidx)) =
    some (some (F64.ofBits 0x4041000000000000), some (F64.ofBits 0x4010000000000000), some .cb, 133) := by decide +kernel

/-- V-B3: -0.3, -0.0, 0.49999999999999994, 0.5, 127.99999999999997, 254.49999999999997, 254.5, 1e9. -/
theorem test_blkSt :
    after (exec (.blkSt 4) { State.reset with bch := some .cb, blk := octOf ⟨some (F64.ofBits 0xBFD3333333333333),
        some (F64.ofBits 0x8000000000000000), some (F64.ofBits 0x3FDFFFFFFFFFFFFF), some (F64.ofBits 0x3FE0000000000000),
        some (F64.ofBits 0x405FFFFFFFFFFFFE), some (F64.ofBits 0x406FCFFFFFFFFFFF), some (F64.ofBits 0x406FD00000000000),
        some (F64.ofBits 0x41CDCD6500000000)⟩ }) (fun t => (List.range 8).map fun c => t.wrk.get (3 * (352 * 7 + 8 + c) + 1)) =
    some [some 0, some 0, some 0, some 1, some 128, some 254, some 255, some 255] := by decide +kernel

/-- V-B4. -/
theorem test_blkPut :
    after (exec (.blkPut 2) { State.reset with payLen := 304128, bch := some .cr, blk := octOf (octOf (some (F64.ofNat 9))) })
      (fun t => (t.pay.get 127, t.pay.get 128, t.pay.get 191, t.pay.get 192)) = some (none, some 9, some 9, none) ∧
    errOf (exec (.blkPut 1) { State.reset with payLen := 304128, bch := some .cr, blk := octOf (octOf (some (F64.ofNat 9))) }) =
      some (0x060406, 0) ∧
    errOf (exec (.blkPut 2) { State.reset with payLen := 128, bch := some .cr, blk := octOf (octOf (some (F64.ofNat 9))) }) =
      some (0x030405, 0) ∧
    errOf (exec (.blkPut 2) { State.reset with
      payLen := 304128, bch := some .cr, blk := octOf (octOf (some (F64.ofBits 0x4021000000000000))) }) = some (0x060404, 0) := by decide +kernel

theorem test_blkGet :
    after (exec (.blkGet 1) { State.reset with payLen := 128, pay := Buf.setAll .nil (placed (payIndex 1) rampBlock) })
      (fun t => (Mat.elem t.blk 7 6, t.bch, t.bidx)) = some (some (F64.ofNat 34), some .cb, 1) ∧
    errOf (exec (.blkGet 0) { State.reset with payLen := 128, pay := Buf.setAll .nil (placed (payIndex 1) rampBlock) }) =
      some (0x010406, 0) := by decide +kernel

/-- V-B5. -/
theorem test_blkWr :
    after (exec (.blkWr 9 0x4060000000000000) State.reset) (fun t => (Mat.elem t.blk 1 1, Mat.elem t.blk 1 0)) =
      some (some (F64.ofNat 128), none) ∧
    errOf (exec (.blkWr 64 0) State.reset) = some (0x030405, 0) ∧
    errOf (exec (.blkWr 0 0x7FF0000000000000) State.reset) = some (0x030405, 0) ∧
    errOf (exec (.blkWr 0 0x8000000000000000) State.reset) = some (0, 0) := by decide +kernel

/-! ### Transform, quantizer -/

/-- V-D2. -/
theorem test_fdct8 :
    fdct8 ⟨F64.ofNat 1, F64.ofNat 0, F64.ofNat 0, F64.ofNat 0, F64.ofNat 0, F64.ofNat 0, F64.ofNat 0, F64.ofNat 0⟩ =
      ⟨F64.ofBits 0x3FD6A09E667F3BCC, F64.ofBits 0x3FDF6297CFF75CB0, F64.ofBits 0x3FDD906BCF328D46, F64.ofBits 0x3FDA9B66290EA1A3,
        F64.ofBits 0x3FD6A09E667F3BCC, F64.ofBits 0x3FD1C73B39AE68C8, F64.ofBits 0x3FC87DE2A6AEA962,
        F64.ofBits 0x3FB8F8B83C69A60C⟩ := by decide +kernel

/-- V-D4. -/
theorem test_idct8 :
    idct8 ⟨F64.ofNat 1, F64.ofNat 0, F64.ofNat 0, F64.ofNat 0, F64.ofNat 0, F64.ofNat 0, F64.ofNat 0, F64.ofNat 0⟩ =
      octOf (F64.ofBits 0x3FD6A09E667F3BCD) := by decide +kernel

/-- V-Q1. -/
theorem test_localEntry :
    [1, 10, 30, 49, 50, 51, 80, 99, 100].map (fun q => localEntry q 16) = [80000, 8000, 2666, 1632, 16, 1568, 640, 32, 1] ∧
    [1, 30, 49, 51, 100].map (fun q => localEntry q 99) = [495000, 16500, 10102, 9702, 1] ∧
    [1, 49, 50, 51, 99, 100].map (fun q => localEntry q 1) = [5000, 102, 1, 98, 2, 1] := by decide

/-- V-Q3: 200.5, 254.49, 254.5, 8.49, 8.5, -1e300, 1e300. -/
theorem test_qz :
    [0x4069100000000000, 0x406FCFAE147AE148, 0x406FD00000000000, 0x4020FAE147AE147B,
      0x4021000000000000, 0xFE37E43C8800759C, 0x7E37E43C8800759C].map (fun w => qz (F64.ofBits w) 1) = [201, 254, 255, 8, 9, 8, 255] := by
  decide +kernel

/-! ### Entropy coder -/

/-- PAY of V-E1. -/
def vectorPay : List Byte := [8, 8, 8, 8, 9, 9, 10, 11]

/-- The code lengths of V-E1. -/
def vectorLens : List (BitVec 4) :=
  (List.range 256).map fun s => if s = 8 then 1 else if s = 9 then 2 else if s = 10 ∨ s = 11 then 3 else 0

/-- HDR of V-E1. -/
def vectorHdr : List Byte := (List.range 128).map fun j => if j = 4 then 0x21 else if j = 5 then 0x33 else 0

/-- The state with V-E1's payload. -/
def vectorState : State := { State.reset with payLen := 8, pay := Buf.setFrom .nil 0 vectorPay }

theorem test_hufCnt : after (exec .hufCnt vectorState) (fun t => t.freq.map fun f => (f.getD 8 0, f.getD 9 0, f.getD 11 0, f.sum)) =
    some (some (4, 2, 1, 8)) := by decide +kernel

/-- V-E15: 17 symbols in Fibonacci counts are too deep, 16 are not. -/
theorem test_hufBld_depth :
    errOf (exec .hufBld { State.reset with freq := some ([1, 1, 2, 3, 5, 8, 13, 21, 34, 55, 89, 144, 233, 377, 610, 987, 1597]
      ++ List.replicate 239 0) }) = some (0x040704, 0) ∧
    after (exec .hufBld { State.reset with freq := some ([1, 1, 2, 3, 5, 8, 13, 21, 34, 55, 89, 144, 233, 377, 610, 987]
      ++ List.replicate 240 0) }) (fun t => t.lens.map (·.take 3)) = some (some [15, 15, 14]) := by decide +kernel

/-- V-E1, and V-E8, the tie-break of R289: (1, 2) merge, then (3, 4), then 5 with (1, 2). -/
theorem test_hufBld :
    let s := { State.reset with payLen := 5, pay := Buf.setFrom .nil 0 [1, 2, 3, 4, 5] }
    let lens : List (BitVec 4) := 0 :: 3 :: 3 :: 2 :: 2 :: 2 :: List.replicate 250 0
    let hdr : List Byte := 0x30 :: 0x23 :: 0x22 :: List.replicate 125 0
    after (exec .hufBld { vectorState with freq := some (countBytes vectorPay) }) (·.lens) = some (some vectorLens) ∧
    after (exec .hufBld { s with freq := some (countBytes [1, 2, 3, 4, 5]) }) (·.lens) = some (some lens) ∧
    after (exec .hufHdr { s with lens := some lens }) (·.hdr) = some (some hdr) ∧
    after (exec .hufPack { s with lens := some lens, hdr := some hdr }) (fun t => t.enc.map fun e => (e.drop 128, e.length)) =
      some (some ([0xDC, 0x60], 130)) := by decide +kernel

theorem test_hufHdr : after (exec .hufHdr { State.reset with lens := some vectorLens }) (·.hdr) = some (some vectorHdr) := by
  decide +kernel

theorem test_hufPack : after (exec .hufPack { vectorState with lens := some vectorLens, hdr := some vectorHdr }) (·.enc) =
    some (some (vectorHdr ++ [0x0A, 0xDC])) := by decide +kernel

/-- V-E14. -/
theorem test_hufLdh :
    after (exec .hufLdh { State.reset with enc := some (vectorHdr ++ [0x0A, 0xDC]) }) (fun t => (t.lens, t.hdr)) =
      some (some vectorLens, some vectorHdr) ∧
    errOf (exec .hufLdh { State.reset with enc := some (0x11 :: 0x01 :: List.replicate 127 0) }) = some (0x030704, 0) ∧
    errOf (exec .hufLdh { State.reset with enc := some (List.replicate 100 0) }) = some (0x0A0703, 0) := by decide +kernel

/-- V-E13, V-E14. -/
theorem test_hufUnp :
    after (exec .hufUnp { State.reset with payLen := 9, lens := some vectorLens, enc := some (vectorHdr ++ [0x0A, 0xDC]) })
      (fun t => t.pay.bytes 9) = some (vectorPay ++ [8]) ∧
    errOf (exec .hufUnp { State.reset with payLen := 11, lens := some vectorLens, enc := some (vectorHdr ++ [0x0A, 0xDC]) }) =
      some (0x0A0703, 0) ∧
    errOf (exec .hufUnp { State.reset with
      payLen := 10, lens := some ((List.range 256).map fun s => if s = 8 then 1 else 0), enc := some (List.replicate 128 0 ++ [0x80, 0]) }) = some (0x020704, 0) := by decide +kernel

/-! ### Container -/

/-- V-K1, V-K2. -/
theorem test_cwHdr :
    after (exec .cwHdr { State.reset with quality := some 100, frameCount := some 300 })
      (fun t => (t.ctr.read 0 15, t.wact, t.wpos)) =
      some ([0x53, 0x4D, 0x50, 0x60, 0x01, 0x20, 0x01, 0x2C, 0x01, 0, 0, 0x64, 0, 0, 0], true, 15) ∧
    after (exec .cwHdr { State.reset with quality := some 80, frameCount := some 0 }) (fun t => (t.wact, t.wdone, t.ctr.len)) =
      some (false, true, 15) := by decide +kernel

/-- A writer at record 0 of a container of `n` frames. -/
def writing (n : BitVec 32) : State := { State.reset with
  quality := some 80, frameCount := some n, wact := true, wpos := 15, fidx := some 0, ftype := some .key, enc := some [7, 9],
  ctr := Memory.ofBytes (fileHeader n 80) }

/-- R335: the link of a record that is not the last, and of the last. -/
theorem test_cwRec :
    after (exec .cwRec (writing 2)) (fun t => (t.ctr.read 15 11, t.wpos, t.nrec, t.wact)) =
      some ([26, 0, 0, 0, 0, 0, 0, 0, 0, 7, 9], 26, 1, true) ∧
    after (exec .cwRec (writing 1)) (fun t => (t.ctr.read 15 11, t.wact, t.wdone)) =
      some ([0, 0, 0, 0, 0, 0, 0, 0, 0, 7, 9], false, true) := by decide +kernel

/-- A file of two records with payloads of 2 and 1 bytes. -/
def twoRecords : Memory :=
  Memory.ofBytes (fileHeader 2 80 ++ recordBytes 26 .key [7, 9] ++ recordBytes 0 .delta [5])

/-- V-K3. -/
theorem test_crOpen :
    after (exec .crOpen { State.reset with ctr := twoRecords }) (fun t => (t.quality, t.frameCount, t.rpos, t.idx, t.ropen)) =
      some (some 80, some 2, 15, [15], true) ∧
    errOf (exec .crOpen { State.reset with ctr := twoRecords.write 3 [0x61] }) = some (0x030903, 3) ∧
    errOf (exec .crOpen { State.reset with ctr := twoRecords.write 11 [0x65] }) = some (0x010902, 11) := by decide +kernel

/-- A reader at record 0 of the file. -/
def reading (m : Memory) : State := { State.reset with
  quality := some 80, frameCount := some 2, ropen := true, rpos := 15, idx := [15], ctr := m }

/-- V-K4. -/
theorem test_crNext :
    after (exec .crNext (reading twoRecords)) (fun t => (t.enc, t.ftype, t.rpos, t.rnum, t.idx)) =
      some (some [7, 9], some .key, 26, 1, [15, 26]) ∧
    errOf (exec .crNext (reading (twoRecords.write 23 [2]))) = some (0x050903, 23) ∧
    errOf (exec .crNext (reading (twoRecords.write 23 [1]))) = some (0x080904, 23) ∧
    errOf (exec .crNext (reading (twoRecords.write 15 [0]))) = some (0x060903, 15) ∧
    errOf (exec .crNext (reading (twoRecords.write 15 [16]))) = some (0x070903, 15) ∧
    errOf (exec .crNext (reading (twoRecords.write 15 [28]))) = some (0x080903, 15) := by decide +kernel

/-- R353, V-F24. -/
theorem test_crSeek :
    after (exec (.crSeek 1) (reading twoRecords)) (fun t => (t.rpos, t.rnum, t.idx)) = some (26, 1, [15, 26]) ∧
    errOf (exec (.crSeek 2) (reading twoRecords)) = some (0x030905, 0) := by decide +kernel

/-! ### Causes no test above raises (R422 to R428) -/

/-- R423: RAW_RD, RAW_WR, CTR_RD, CTR_WR. -/
theorem test_faults_host_io :
    errOf (exec (.frLd 1) { State.reset with ioA := false }) = some (0x010101, 304128) ∧
    errOf (exec (.frSt 0) { State.reset with rgb := some [], ioA := false }) = some (0x020101, 0) ∧
    errOf (exec .crOpen { State.reset with ioA := false }) = some (0x030901, 0) ∧
    errOf (exec .cwHdr { State.reset with quality := some 80, frameCount := some 2, ioA := false }) = some (0x040801, 0) := by
  decide +kernel

/-- R425: MAGIC, TRUNC_REC, and PAYLOAD_SIZE for a payload of 570369 bytes. -/
theorem test_faults_format :
    errOf (exec .crOpen { State.reset with ctr := ⟨15, []⟩ }) = some (0x020903, 0) ∧
    errOf (exec .crOpen { State.reset with ctr := Memory.ofBytes (fileHeader 1 80) }) = some (0x040903, 15) ∧
    errOf (exec .crNext { reading ⟨570393, []⟩ with frameCount := some 1 }) = some (0x090903, 15) := by decide +kernel

/-- R426 and R428: NO_CODE, NONFINITE, and ORDER from both units that raise it. -/
theorem test_faults_codec_state :
    errOf (exec .hufPack { State.reset with
      payLen := 1, pay := Buf.setFrom .nil 0 [12], lens := some vectorLens, hdr := some vectorHdr }) = some (0x010704, 0) ∧
    errOf (exec .quant { State.reset with blk := octOf (octOf (some (F64.inf false))), bch := some .cr, quality := some 80 }) =
      some (0x070604, 0) ∧
    errOf (exec .cwRec { writing 2 with fidx := some 1 }) = some (0x030806, 0) ∧
    errOf (exec (.frSt 2) { State.reset with rgb := some [] }) = some (0x030106, 608256) := by decide +kernel

/-- R426: BLOCK_COUNT, for a WRK in which no sample is valid. -/
theorem test_faults_blockCount :
    errOf (exec .tpInv { State.reset with ftype := some .key, fidx := some 0 }) = some (0x050304, 0) := by
  have h : Buf.full .nil Config.frameBytes = false := by
    rw [Bool.eq_false_iff, Ne, Buf.full_iff]
    intro hf
    simpa using hf 0 (by decide)
  have hb : ∀ s : State, s.ftype = some .key → s.fidx = some 0 → s.wrk = .nil →
      exec .tpInv s = .next (s.enterFault ⟨.blockCount, 3, 0⟩) := by
    intro s h1 h2 h3
    show retire s (bodyTpInv s) = _
    simp only [bodyTpInv, h1, h2, h3, h, if_true, retire_error]
  rw [hb _ rfl rfl rfl]
  decide +kernel

/-! ### Witnesses: for each statement with hypotheses or cases, states and operands that meet them -/

theorem test_witness_DecodeThenEncode : decode 0x00000000000000200000000000000092 = .ok (.crSeek 32) := by decide

theorem test_witness_IllegalDescriptorsFault :
    (let s := { State.reset with port := [.command 0x04 true true] }
     s.fault = false ∧ s.port = .command 0x04 true true :: [] ∧ Desc.opc 0x04 = 4) ∧
    ¬ ∃ i, encode i = 0x00000000000000000000000000010000 := by
  refine ⟨by decide, ?_⟩
  rintro ⟨i, h⟩
  have := encode_rsv i
  rw [h] at this
  exact absurd this (by decide)

theorem test_witness_StepRunsDecodedCommand :
    let s := { State.reset with port := [.command 0x00000000000000500000000000000002 true false] }
    s.port = .command 0x00000000000000500000000000000002 true false :: [] ∧ s.fault = false ∧
      decode 0x00000000000000500000000000000002 = .ok (.setq 80) := by decide

theorem test_witness_FaultIsSticky :
    let s := { State.reset with fault := true, port := [.command 0 true true, .supplyRaw [1], .resetPulse] }
    s.fault = true ∧ (∀ e ∈ s.port.take 2, e ≠ .resetPulse) ∧ (∀ bytes, HostEvent.supplyRaw bytes ∉ s.port.take 1) ∧
      ∀ bytes, HostEvent.supplyCtr bytes ∉ s.port.take 2 := by
  refine ⟨by decide, by decide, fun bytes => ?_, fun bytes => ?_⟩ <;> simp

theorem test_witness_ResetGivesTheResetValues :
    { State.reset with fault := true, port := [.resetPulse, .resetPulse] }.port = .resetPulse :: [.resetPulse] := by decide

theorem test_witness_HostReplacesAFile :
    { State.reset with port := [.supplyRaw [1, 0]] }.port = .supplyRaw [1, 0] :: [] ∧
    { State.reset with port := [.supplyCtr []] }.port = .supplyCtr [] :: [] := by decide

theorem test_witness_FaultEntryIsPrecise : State.reset.fault = false ∧ Cause.uninit ≠ .rawWr ∧ Cause.uninit ≠ .ctrWr ∧
    (writing 2).wact = true ∧ State.reset.wact = false := by decide

/-- A sound state that is not the reset state, about to write a container header. -/
def aboutToWrite : State := { State.reset with
  quality := some 80, frameCount := some 2, payLen := 2, enc := some [1], port := [.command 0x80 true true] }

theorem aboutToWrite_inv : aboutToWrite.Inv := by
  refine ⟨⟨by decide, by decide⟩,
    ⟨by rintro _ ⟨⟩, by rintro _ ⟨⟩, by rintro _ ⟨⟩, Buf.nil_wf, Buf.nil_wf, by decide, by decide, by rintro _ ⟨⟩,
      by rintro _ ⟨⟩, by rintro _ ⟨⟩, by rintro _ ⟨⟩; decide⟩,
    ⟨by rintro _ ⟨⟩; decide, rfl, fun _ => ⟨rfl, rfl, rfl⟩, (by rintro ⟨⟩), (by rintro ⟨⟩), (by rintro ⟨⟩), (by rintro ⟨⟩)⟩,
    ⟨by rintro _ ⟨⟩, by rintro _ _ ⟨⟩, by rintro _ ⟨⟩, by rintro _ ⟨⟩⟩, ⟨by rintro _ ⟨⟩, by rintro _ ⟨⟩, by rintro _ ⟨⟩⟩⟩

/-- For StepKeepsFilesCanonical, StepKeepsElementShapes, StepKeepsTablesFresh, StepKeepsControlSound and
StepKeepsSeekIndexLinked. -/
theorem test_witness_StepKeepsInvariants : ∃ t, aboutToWrite.Inv ∧ aboutToWrite.FilesOk ∧ aboutToWrite.ShapesOk ∧
    aboutToWrite.TablesOk ∧ aboutToWrite.ControlOk ∧ (∀ bytes rest, aboutToWrite.port ≠ .supplyCtr bytes :: rest) ∧
    step aboutToWrite = .next t ∧ t.wact = true :=
  ⟨_, aboutToWrite_inv, aboutToWrite_inv.files, aboutToWrite_inv.shapes, aboutToWrite_inv.tables, aboutToWrite_inv.control,
    by rintro _ _ ⟨⟩, rfl, rfl⟩

theorem test_witness_RstResetsAllButFiles : State.reset.wact = false ∧ (writing 2).wact = true := by decide

/-- Quality at both ends of its range and just outside, and an active writer. -/
theorem test_witness_SetqSetsQuality : (0 : BitVec 32).toInt < 1 ∧ 100 < (101 : BitVec 32).toInt ∧
    (∀ q : BitVec 32, q = 1 ∨ q = 100 → ¬ (q.toInt < 1 ∨ 100 < q.toInt)) ∧ (writing 2).wact = true ∧
    State.reset.wact = false := by
  refine ⟨by decide, by decide, ?_, by decide, by decide⟩
  rintro q (rfl | rfl) <;> decide

/-! Frame I/O, colour, prediction -/

theorem test_witness_FrLdLoadsFrame :
    let s := { State.reset with raw := ⟨608256, [(304130, 5)]⟩ }
    s.raw.wf ∧ s.ioA = true ∧ s.raw.len = (1 : BitVec 32).toNat * 304128 + 304128 ∧
      s.raw.len < (2 : BitVec 32).toNat * 304128 + 304128 := by decide

/-- A frame of one colour. -/
def plain (p : Pixel) : Frame := List.replicate 101376 p

/-- Frame buffers of the right size make a state with sound shapes. -/
theorem shapesOk_frames (s : State) (hs : s = { State.reset with
      rgb := s.rgb, cur := s.cur, prev := s.prev, prevIdx := s.prevIdx, fidx := s.fidx, ftype := s.ftype, wrk := s.wrk, raw := s.raw })
    (h1 : ∀ f, s.rgb = some f → f.length = Config.framePixels) (h2 : ∀ f, s.cur = some f → f.length = Config.framePixels)
    (h3 : ∀ f, s.prev = some f → f.length = Config.framePixels) (h4 : s.wrk.wf) : s.ShapesOk := by
  refine ⟨h1, h2, h3, h4, ?_, ?_, ?_, ?_, ?_, ?_, ?_⟩ <;> rw [hs]
  · exact Buf.nil_wf
  · show State.reset.payLen.toNat ≤ _; decide
  · show State.reset.bidx.toNat < _; decide
  all_goals rintro _ ⟨⟩

theorem test_witness_FrStStoresFrame : ∃ s : State, s.ShapesOk ∧ s.rgb = some (plain ⟨1, 2, 3⟩) ∧ s.ioA = true ∧
    s.raw.len = (1 : BitVec 32).toNat * 304128 ∧ s.raw.len < (2 : BitVec 32).toNat * 304128 := by
  refine ⟨{ State.reset with rgb := some (plain ⟨1, 2, 3⟩), raw := ⟨304128, []⟩ },
    shapesOk_frames _ rfl ?_ (by rintro _ ⟨⟩) (by rintro _ ⟨⟩) Buf.nil_wf, rfl, rfl, rfl, by decide⟩
  rintro _ ⟨rfl⟩; exact List.length_replicate

theorem test_witness_CscConverts :
    { State.reset with rgb := some [⟨255, 0, 0⟩] }.rgb = some [⟨255, 0, 0⟩] ∧
    { State.reset with cur := some [⟨76, 85, 255⟩] }.cur = some [⟨76, 85, 255⟩] ∧
    ([⟨255, 0, 0⟩] : Frame)[0]? = some ⟨255, 0, 0⟩ := by decide

/-- A key frame, a delta frame with the frame before, one with another frame, and one with none. -/
theorem test_witness_TpFwdPredicts : ∀ i : BitVec 32, ∀ k : Option (BitVec 32), ∃ s : State, s.ShapesOk ∧
    s.cur = some (plain ⟨1, 2, 3⟩) ∧ s.fidx = some i ∧ s.prev = some (plain ⟨4, 5, 6⟩) ∧ s.prevIdx = k := by
  intro i k
  refine ⟨{ State.reset with cur := some (plain ⟨1, 2, 3⟩), fidx := some i, prev := some (plain ⟨4, 5, 6⟩), prevIdx := k },
    shapesOk_frames _ rfl (by rintro _ ⟨⟩) ?_ ?_ Buf.nil_wf, rfl, rfl, rfl, rfl⟩
  all_goals rintro _ ⟨rfl⟩; exact List.length_replicate

theorem bufOfFrame_wf (f : Frame) : (bufOfFrame f).wf := Buf.setFrom_wf _ _ _ Buf.nil_wf

theorem whole_wrk : ∃ w : Buf, w.wf ∧ ∀ k, k < 304128 → (w.get k).isSome = true :=
  ⟨_, bufOfFrame_wf _, fun k hk => by rw [get_bufOfFrame_replicate 9 k hk]; rfl⟩

/-- A whole WRK, for a key and a delta frame, and a WRK with a hole. -/
theorem test_witness_TpInvReconstructs : ∀ ty : FrameType, ∀ i k : BitVec 32,
    (∃ s : State, s.ShapesOk ∧ s.ftype = some ty ∧ s.fidx = some i ∧ (¬ ∃ k, k < 304128 ∧ s.wrk.get k = none) ∧
      s.prev = some (plain ⟨4, 5, 6⟩) ∧ s.prevIdx = some k) ∧
    ∃ s : State, s.ShapesOk ∧ s.ftype = some ty ∧ s.fidx = some i ∧ ∃ k, k < 304128 ∧ s.wrk.get k = none := by
  intro ty i k
  obtain ⟨w, hw, hf⟩ := whole_wrk
  constructor
  · refine ⟨{ State.reset with
      ftype := some ty, fidx := some i, wrk := w, prev := some (plain ⟨4, 5, 6⟩), prevIdx := some k },
      shapesOk_frames _ rfl (by rintro _ ⟨⟩) (by rintro _ ⟨⟩) ?_ hw, rfl, rfl, ?_, rfl, rfl⟩
    · rintro _ ⟨rfl⟩; exact List.length_replicate
    · rintro ⟨j, hj, h⟩
      exact absurd (hf j hj) (by rw [show w.get j = none from h]; decide)
  · exact ⟨{ State.reset with ftype := some ty, fidx := some i },
      shapesOk_frames _ rfl (by rintro _ ⟨⟩) (by rintro _ ⟨⟩) (by rintro _ ⟨⟩) Buf.nil_wf, rfl, rfl, 303, by decide,
      Buf.get_nil _⟩

theorem test_witness_DpcmInverts : -128 ≤ ((0 : Byte).toNat : Int) - (128 : Byte).toNat ∧
    ((255 : Byte).toNat : Int) - (128 : Byte).toNat ≤ 127 := by decide

/-! Blocks -/

/-- WRK holds block 4751 and PAY block 4751, nothing else. -/
def lastBlock : State := { State.reset with
  payLen := 304128, wrk := Buf.setAll .nil (placed (wrkIndex 4751) rampBlock),
  pay := Buf.setAll .nil (placed (payIndex 4751) rampBlock) }

theorem test_witness_BlkLdCutsBlock : 4751 < (4752 : BitVec 32).toNat ∧ ¬ 4751 < (4751 : BitVec 32).toNat ∧
    (∀ r c, (lastBlock.wrk.get (blockOffset (4751 : BitVec 32).toNat r c)).isSome = true) ∧
    lastBlock.wrk.get (blockOffset (0 : BitVec 32).toNat 0 0) = none := by decide +kernel

/-- The first and the last sample of a frame. -/
theorem test_witness_BlocksPartitionFrame : blockOffset 0 0 0 = 0 ∧ blockOffset 4751 7 7 = 304127 ∧ 304127 < 304128 := by decide

/-- PAY_LEN one short of the block, and just long enough. -/
theorem test_witness_BlkGetTakesBlock : (304127 : BitVec 32).toNat ≤ 64 * (4751 : BitVec 32).toNat + 63 ∧
    64 * (4751 : BitVec 32).toNat + 63 < lastBlock.payLen.toNat ∧
    (∀ k : Fin 64, (lastBlock.pay.get (64 * (4751 : BitVec 32).toNat + k)).isSome = true) ∧
    lastBlock.pay.get (64 * (0 : BitVec 32).toNat + (0 : Fin 64)) = none := by decide +kernel

theorem test_witness_SegmentAndReassemble : (4751 : BitVec 32).toNat ≤ 4751 ∧
    (∀ r c, (lastBlock.wrk.get (blockOffset (4751 : BitVec 32).toNat r c)).isSome = true) ∧
    64 * (4751 : BitVec 32).toNat + 63 < lastBlock.payLen.toNat ∧
    ∀ k, k < 64 → (lastBlock.pay.get (64 * (4751 : BitVec 32).toNat + k)).isSome = true := by decide +kernel

/-- A block of 2.5s with the tag of block 4751, a block with an infinity, and one with another tag. -/
theorem test_witness_BlkStPutsBlockBack :
    Mat.values? (octOf (octOf (some (F64.ofBits 0x4004000000000000)))) = some (octOf (octOf (F64.ofBits 0x4004000000000000))) ∧
    Chan.cr.num = (4751 : BitVec 32).toNat % 3 ∧ Chan.y.num ≠ (4751 : BitVec 32).toNat % 3 ∧
    (¬ ∃ r c, (Mat.elem (octOf (octOf (F64.ofBits 0x4004000000000000))) r c).isFinite = false) ∧
    ∃ r c, (Mat.elem (octOf (octOf (F64.ofBits 0x7FF0000000000000))) r c).isFinite = false := by decide +kernel

/-- Blocks of 0s and of 255s are all bytes, a block of 256s is not. -/
theorem test_witness_BlkPutFlattensBlock : (∀ b : Nat, b = 0 ∨ b = 255 →
      ∀ r c, ∃ n : Nat, n ≤ 255 ∧ (Mat.elem (octOf (octOf (F64.ofNat b))) r c).isInteger n) ∧
    ¬ ∀ r c, ∃ n : Nat, n ≤ 255 ∧ (Mat.elem (octOf (octOf (F64.ofNat 256))) r c).isInteger n := by
  constructor
  · rintro b hb r c
    rw [elem_octOf]
    rcases hb with rfl | rfl
    · exact ⟨0, by decide, by decide +kernel, by decide +kernel⟩
    · exact ⟨255, by decide, by decide +kernel, by decide +kernel⟩
  · intro h
    obtain ⟨n, hn, -, h2⟩ := h 0 0
    rw [elem_octOf, show (F64.ofNat 256).units = 256 * (unitsPerOne : Int) by decide +kernel] at h2
    have := Int.eq_of_mul_eq_mul_right (show (unitsPerOne : Int) ≠ 0 by decide +kernel) h2
    omega

/-- The last element, the largest finite value, and the operands just beyond. -/
theorem test_witness_BlkWrAndBlkChWrite : ¬ (63 < (63 : BitVec 8).toNat ∨ (0x7FEFFFFFFFFFFFFF#64).extractLsb' 52 11 = 0x7FF#11) ∧
    63 < (64 : BitVec 8).toNat ∧ (0x7FF0000000000000#64).extractLsb' 52 11 = 0x7FF#11 ∧
    2 < (3 : BitVec 8).toNat ∧ ¬ 2 < (2 : BitVec 8).toNat := by decide

/-! Transform, quantizer -/

theorem test_witness_Transforms : Mat.values? (octOf (octOf (some (F64.zero true)))) = some (octOf (octOf (F64.zero true))) ∧
    Mat.values? State.reset.blk = none := by decide

/-- Rounding: one unit, half of one (a tie that goes to even), a negative tie that goes up to even, and the value from
which on the result is infinite. Operations: sums and differences that are zero and that are not. -/
theorem test_witness_RoundingIsNearestEven : F64.nearest false 1 1 = .fin false ⟨1, by decide⟩ ∧
    F64.nearest false 1 2 = .fin false ⟨0, by decide⟩ ∧ F64.nearest true 3 2 = .fin true ⟨2, by decide⟩ ∧
    F64.nearest true ((2 ^ 54 - 1) * 2 ^ 2044) 1 = .inf true ∧
    (F64.fin false ⟨5, by decide⟩).units + (F64.fin true ⟨5, by decide⟩).units = 0 ∧
    (F64.fin false ⟨5, by decide⟩).units - (F64.fin true ⟨5, by decide⟩).units ≠ 0 ∧
    (F64.fin true ⟨0, by decide⟩).units - (F64.fin false ⟨0, by decide⟩).units = 0 ∧
    ((⟨5, by decide⟩ : Fin magBound) : Nat) ≠ 0 := by
  decide +kernel

/-- R230 by hand: -0 + -0, -0 - +0, 1 - 1, 1 + 2^-53 (a tie), 0.1 + 0.2, -2 * 0.5, 1 / 3, 0 / 0, -1 / 0, inf - inf, inf * 0. -/
theorem test_f64 : (F64.ofBits 0x8000000000000000).add (F64.ofBits 0x8000000000000000) = F64.ofBits 0x8000000000000000 ∧
    (F64.ofBits 0x8000000000000000).sub (F64.ofBits 0) = F64.ofBits 0x8000000000000000 ∧
    (F64.ofNat 1).sub (F64.ofNat 1) = F64.ofBits 0 ∧ (F64.ofNat 1).add (F64.ofBits 0x3CA0000000000000) = F64.ofNat 1 ∧
    (F64.ofBits 0x3FB999999999999A).add (F64.ofBits 0x3FC999999999999A) = F64.ofBits 0x3FD3333333333334 ∧
    (F64.ofBits 0xC000000000000000).mul (F64.ofBits 0x3FE0000000000000) = F64.ofBits 0xBFF0000000000000 ∧
    (F64.ofNat 1).div (F64.ofNat 3) = F64.ofBits 0x3FD5555555555555 ∧ (F64.ofNat 0).div (F64.ofNat 0) = .nan ∧
    (F64.ofBits 0xBFF0000000000000).div (F64.ofNat 0) = .inf true ∧ (F64.inf false).sub (.inf false) = .nan ∧
    (F64.inf false).mul (F64.ofNat 0) = .nan := by decide +kernel

theorem test_witness_Quantizes : ∃ s : State, Mat.values? s.blk = some (octOf (octOf (F64.ofNat 3))) ∧ s.bch = some .cb ∧
    s.quality = some 49 ∧ ¬ ∃ r c, (Mat.elem (octOf (octOf (F64.ofNat 3))) r c).isFinite = false :=
  ⟨{ State.reset with blk := octOf (octOf (some (F64.ofNat 3))), bch := some .cb, quality := some 49 }, by rfl, rfl, rfl,
    by decide +kernel⟩

/-- The multiples 8 and 255, at the qualities 1, 50 and 100. -/
theorem test_witness_QuantizeLosslessOnMultiples : ∀ n : Nat, n = 8 ∨ n = 255 → ∀ q : BitVec 32, q = 1 ∨ q = 50 ∨ q = 100 →
    ∃ (s : State) (k : Fin 8 → Fin 8 → Nat), s.quality = some q ∧ 1 ≤ q.toNat ∧ q.toNat ≤ 100 ∧ s.bch = some .y ∧
    (∀ r c, 8 ≤ k r c ∧ k r c ≤ 255) ∧ s.blk = Mat.tabulate fun r c =>
      some (F64.ofNat (k r c * Mat.elem (lqt (if Chan.y = .y then qtLuma else qtChroma) q.toNat) r c)) := by
  intro n hn q hq
  have h : 1 ≤ q.toNat ∧ q.toNat ≤ 100 := by rcases hq with rfl | rfl | rfl <;> decide
  exact ⟨{ State.reset with
    quality := some q, bch := some .y, blk := Mat.tabulate fun r c =>
      some (F64.ofNat (n * Mat.elem (lqt (if Chan.y = .y then qtLuma else qtChroma) q.toNat) r c)) },
    fun _ _ => n, rfl, h.1, h.2, rfl, fun _ _ => by show 8 ≤ n ∧ n ≤ 255; omega, rfl⟩

/-! Entropy coder -/

/-- Entropy coder contents of the right sizes make a state with sound shapes. -/
theorem shapesOk_entropy (s : State) (hs : s = { State.reset with
      payLen := s.payLen, pay := s.pay, freq := s.freq, lens := s.lens, hdr := s.hdr, enc := s.enc })
    (h1 : s.payLen.toNat ≤ Config.frameBytes) (h2 : s.pay.wf) (h3 : ∀ f, s.freq = some f → f.length = 256)
    (h4 : ∀ l, s.lens = some l → l.length = 256) (h5 : ∀ h, s.hdr = some h → h.length = Config.hdrBytes)
    (h6 : ∀ e, s.enc = some e → e.length ≤ Config.encCap) : s.ShapesOk := by
  refine ⟨?_, ?_, ?_, ?_, h2, h1, ?_, h3, h4, h5, h6⟩ <;> rw [hs]
  · rintro _ ⟨⟩
  · rintro _ ⟨⟩
  · rintro _ ⟨⟩
  · exact Buf.nil_wf
  · show State.reset.bidx.toNat < _; decide

theorem vectorState_shapes : vectorState.ShapesOk :=
  shapesOk_entropy _ rfl (by decide) (Buf.setFrom_wf _ _ _ Buf.nil_wf) (by rintro _ ⟨⟩) (by rintro _ ⟨⟩) (by rintro _ ⟨⟩)
    (by rintro _ ⟨⟩)

/-- The largest length, one more, and the last byte below PAY_LEN and the first that is not. -/
theorem test_witness_PayLenAndPayWrWrite : ¬ 304128 < (304128 : BitVec 32).toNat ∧ 304128 < (304129 : BitVec 32).toNat ∧
    vectorState.ShapesOk ∧ (7 : BitVec 32).toNat < vectorState.payLen.toNat ∧ vectorState.payLen.toNat ≤ (8 : BitVec 32).toNat :=
  ⟨by decide, by decide, vectorState_shapes, by decide, by decide⟩

theorem test_witness_HufCntCounts : (¬ ∃ k, k < vectorState.payLen.toNat ∧ vectorState.pay.get k = none) ∧
    { vectorState with payLen := 9 }.pay.get 8 = none := by decide +kernel

/-- A tree that is not too deep, a lone symbol, no symbol, and R294's tree of depth 16. -/
theorem test_witness_HufBldBuildsLengths : { vectorState with freq := some (countBytes vectorPay) }.freq = some (countBytes vectorPay) ∧
    (¬ ∃ p ∈ symbolDepths (countBytes vectorPay), 15 < p.2) ∧ 2 ≤ (occurring (countBytes vectorPay)).length ∧
    occurring (countBytes []) = [] ∧ occurring (countBytes [9, 9]) = [9] ∧ (¬ ∃ p ∈ symbolDepths (countBytes [9, 9]), 15 < p.2) ∧
    (¬ ∃ p ∈ symbolDepths (countBytes []), 15 < p.2) ∧
    (∃ p ∈ symbolDepths ([1, 1, 2, 3, 5, 8, 13, 21, 34, 55, 89, 144, 233, 377, 610, 987, 1597] ++ List.replicate 239 0), 15 < p.2) := by
  decide +kernel

/-- The tables of V-E1 beside its payload are sound: LEN beside FREQ, HDR of LEN, and a Kraft sum of 1. -/
theorem test_witness_TablesOk : { vectorState with
    freq := some (countBytes vectorPay), lens := some vectorLens, hdr := some vectorHdr }.TablesOk := by
  have h1 : vectorState.payload = some vectorPay := by decide +kernel
  have h2 : buildLens (countBytes vectorPay) = some vectorLens := by decide +kernel
  have h3 : vectorHdr = hdrOf vectorLens := by decide +kernel
  refine ⟨?_, ?_, ?_, ?_⟩
  · rintro _ ⟨⟩; exact ⟨vectorPay, h1, rfl⟩
  · rintro _ _ ⟨⟩ ⟨⟩; exact h2
  · rintro _ ⟨⟩; exact ⟨_, rfl, h3⟩
  · rintro _ ⟨⟩; exact kraftSum_buildLens_le h2

theorem test_witness_Headers : vectorLens.length = 256 ∧ vectorHdr.length = 128 ∧
    { vectorState with lens := some vectorLens }.lens = some vectorLens := by decide +kernel

/-- R292's second example, an incomplete code: lengths 1:3, 2:3, 3:2, 4:2, 5:2 give `110`, `111`, `00`, `01`, `10`. -/
theorem test_canon :
    ([1, 2, 3, 4, 5, 6].map fun n => codeOf (canon (0 :: 3 :: 3 :: 2 :: 2 :: 2 :: List.replicate 250 0)) n) =
      [[true, true, false], [true, true, true], [false, false], [false, true], [true, false], []] := by decide +kernel

theorem test_witness_CanonicalCodesPrefixFree : vectorLens.length = 256 ∧ kraftSum vectorLens ≤ 2 ^ 15 ∧
    0 < lenOf vectorLens 8 ∧ 0 < lenOf vectorLens 9 := by decide +kernel

/-- A payload whose bytes all have a code, an empty payload, and one with a byte that has none. -/
theorem test_witness_HufPackPacksBits : vectorState.payload = some vectorPay ∧
    (¬ ∃ b ∈ vectorPay, lenOf vectorLens b.toNat = 0) ∧ vectorState.payLen.toNat ≠ 0 ∧
    { vectorState with payLen := 0 }.payload = some [] ∧ ∃ b ∈ [(12 : Byte)], lenOf vectorLens b.toNat = 0 := by
  decide +kernel

/-- ENC of no byte, of one byte, of 127 bytes, and of whole headers within and beyond the Kraft bound. -/
theorem test_witness_HufLdhLoadsHeader : ([] : List Byte).length = 0 ∧ ¬ ([1] : List Byte).length = 0 ∧
    (List.replicate 127 (0 : Byte)).length < 128 ∧ ¬ (vectorHdr ++ [0x0A, 0xDC]).length < 128 ∧
    ¬ 2 ^ 15 < kraftSum (unhdr ((vectorHdr ++ [0x0A, 0xDC]).take 128)) ∧
    2 ^ 15 < kraftSum (unhdr ((0x11 :: 0x01 :: List.replicate 126 0 : List Byte).take 128)) := by decide +kernel

/-- The state of V-E13 with the given PAY_LEN. -/
def unpacking (n : BitVec 32) : State := { State.reset with
  payLen := n, lens := some vectorLens, enc := some (vectorHdr ++ [0x0A, 0xDC]) }

theorem unpacking_shapes (n : BitVec 32) (hn : n.toNat ≤ 11) : (unpacking n).ShapesOk := by
  refine shapesOk_entropy _ rfl (le_trans hn (by decide)) Buf.nil_wf (by rintro _ ⟨⟩) ?_ (by rintro _ ⟨⟩) ?_
  · rintro _ ⟨rfl⟩; simp [vectorLens]
  · rintro _ ⟨rfl⟩; simp [vectorHdr, Config.encCap]

/-- PAY_LEN = 8 bytes are there and two bits are left, PAY_LEN = 11 runs out after ten, and with a lone code `0` the bit 1
begins no code. -/
theorem test_witness_HufUnpDecodes :
    ((unpacking 8).ShapesOk ∧ kraftSum vectorLens ≤ 2 ^ 15 ∧ (∀ b ∈ vectorPay, 0 < lenOf vectorLens b.toNat) ∧
      bitsOfBytes ((vectorHdr ++ [0x0A, 0xDC]).drop 128) = payloadBits (canon vectorLens) vectorPay ++ [false, false] ∧
      vectorPay.length = (unpacking 8).payLen.toNat) ∧
    ((unpacking 11).ShapesOk ∧ (∀ b ∈ vectorPay ++ [8, 8], 0 < lenOf vectorLens b.toNat) ∧
      bitsOfBytes ((vectorHdr ++ [0x0A, 0xDC]).drop 128) = payloadBits (canon vectorLens) (vectorPay ++ [8, 8]) ++ [] ∧
      (vectorPay ++ [8, 8]).length < (unpacking 11).payLen.toNat) ∧
    ((∀ b ∈ [(8 : Byte), 8], 0 < lenOf eightLens b.toNat) ∧
      bitsOfBytes [0x20] = payloadBits (canon eightLens) [8, 8] ++ [true, false, false, false, false, false] ∧
      (∀ w, w <+: [true, false, false, false, false, false] → w ≠ [] → w.length ≤ 15 → ∀ n, n < 256 → 0 < lenOf eightLens n →
        w ≠ codeOf (canon eightLens) n) ∧
      ∃ w, w <+: [true, false, false, false, false, false] ∧ ∀ n, n < 256 → 0 < lenOf eightLens n →
        ¬ w <+: codeOf (canon eightLens) n) := by
  have only : ∀ n, n < 256 → 0 < lenOf eightLens n → codeOf (canon eightLens) n = [false] := by
    rw [canon_eight]; decide +kernel
  refine ⟨⟨unpacking_shapes 8 (by decide), by decide +kernel, by decide +kernel, by decide +kernel, by decide⟩,
    ⟨unpacking_shapes 11 (by decide), by decide +kernel, by decide +kernel, by decide⟩,
    by decide +kernel, by decide +kernel, ?_, [true], by decide, ?_⟩
  · intro w hw h0 _ n hn hl h
    rw [only n hn hl] at h
    subst h
    exact absurd hw (by decide)
  · intro n hn hl
    rw [only n hn hl]
    decide

/-- The payload of V-E1, and the empty payload. -/
theorem test_witness_HuffmanRoundTrip : vectorState.ShapesOk ∧ vectorState.fault = false ∧ vectorState.payload = some vectorPay ∧
    (∀ p ∈ symbolDepths (countBytes vectorPay), p.2 ≤ 15) ∧
    State.reset.ShapesOk ∧ State.reset.fault = false ∧ State.reset.payload = some [] ∧
    ∀ p ∈ symbolDepths (countBytes []), p.2 ≤ 15 :=
  ⟨vectorState_shapes, rfl, by decide +kernel, by decide +kernel,
    shapesOk_entropy _ rfl (by decide) Buf.nil_wf (by rintro _ ⟨⟩) (by rintro _ ⟨⟩) (by rintro _ ⟨⟩) (by rintro _ ⟨⟩), rfl,
    by decide, by decide +kernel⟩

/-! Container -/

theorem test_witness_CwHdrStartsContainer : (writing 0).quality = some 80 ∧ (writing 0).frameCount = some 0 ∧ (writing 0).ioA = true ∧
    { writing 0 with ioA := false }.ioA = false := by decide

/-- A writer ready for its first record, with the next record still to come and with none. -/
theorem writing_control (n : BitVec 32) (hn : 0 < n.toNat) : (writing n).ControlOk :=
  ⟨by rintro _ ⟨⟩; decide, rfl, fun _ => ⟨rfl, rfl, rfl⟩, by rintro ⟨⟩, fun _ => ⟨rfl, rfl, rfl, n, rfl, hn⟩, by rintro ⟨⟩, by rintro ⟨⟩⟩

theorem test_witness_CwRecAppendsRecord : ∀ n : BitVec 32, n = 1 ∨ n = 2 → (writing n).ControlOk ∧ (writing n).wact = true ∧
    (writing n).enc = some [7, 9] ∧ (writing n).ftype = some .key ∧ (writing n).fidx = some (writing n).nrec ∧
    (writing n).frameCount = some n ∧ (writing n).nrec.toNat % 32 = 0 ∧ (writing n).wpos = (writing n).ctr.len ∧
    (writing n).ioA = true := by
  rintro n (rfl | rfl)
  · exact ⟨writing_control 1 (by decide), by decide⟩
  · exact ⟨writing_control 2 (by decide), by decide⟩

/-- The file of two records passes every check of CR.OPEN; a header alone with frame count 0 does, with 1 it does not. -/
theorem test_witness_CrOpenReadsHeader : twoRecords.wf ∧ 15 ≤ twoRecords.len ∧
    (twoRecords.get 0 = 0x53 ∧ twoRecords.get 1 = 0x4D ∧ twoRecords.get 2 = 0x50) ∧
    (twoRecords.get 3 = 0x60 ∧ twoRecords.get 4 = 0x01 ∧ twoRecords.get 5 = 0x20 ∧ twoRecords.get 6 = 0x01) ∧
    twoRecords.get 11 = 80 ∧ 24 ≤ twoRecords.len ∧ (Memory.ofBytes (fileHeader 1 80)).wf ∧
    (Memory.ofBytes (fileHeader 1 80)).len = 15 := by decide +kernel

/-- A reader of the two records is a sound state. -/
theorem reading_inv : (reading twoRecords).Inv := by
  refine ⟨⟨by decide, by decide +kernel⟩,
    ⟨by rintro _ ⟨⟩, by rintro _ ⟨⟩, by rintro _ ⟨⟩, Buf.nil_wf, Buf.nil_wf, by decide, by decide, by rintro _ ⟨⟩,
      by rintro _ ⟨⟩, by rintro _ ⟨⟩, by rintro _ ⟨⟩⟩,
    ⟨by rintro _ ⟨⟩; decide, rfl, fun _ => ⟨rfl, rfl, rfl⟩, by rintro ⟨⟩, by rintro ⟨⟩,
      fun _ => ⟨rfl, 2, rfl, by decide, fun _ => by decide, fun _ => by decide⟩, by rintro ⟨⟩⟩,
    ⟨by rintro _ ⟨⟩, by rintro _ _ ⟨⟩, by rintro _ ⟨⟩, by rintro _ ⟨⟩⟩, ⟨?_, ?_, fun _ _ _ => rfl⟩⟩
  · rintro _ ⟨⟩; rfl
  · intro _ _ k p q hp hq
    have : k + 1 < [15].length := (List.getElem?_eq_some_iff.mp hq).1
    simp at this

/-- CR.NEXT's completing case: a link that is followed. -/
theorem test_witness_CrNextReadsRecord : (reading twoRecords).ctr.wf ∧ (reading twoRecords).ControlOk ∧ ¬ ((reading twoRecords).ropen = false ∨ (reading twoRecords).eos = true) ∧
    (reading twoRecords).ioA = true ∧ (reading twoRecords).rpos + 9 ≤ (reading twoRecords).ctr.len ∧
    (∀ k, k < 8 → (26#64).extractLsb' (8 * k) 8 = (reading twoRecords).ctr.get ((reading twoRecords).rpos + k)) ∧
    (reading twoRecords).rnum.toNat + 1 ≠ (2 : BitVec 32).toNat ∧ (reading twoRecords).rpos + 9 ≤ (26#64).toNat ∧
    (26#64).toNat + 9 ≤ (reading twoRecords).ctr.len ∧ (reading twoRecords).ctr.get ((reading twoRecords).rpos + 8) = 0 :=
  ⟨reading_inv.files.ctr, reading_inv.control, by decide +kernel⟩

/-- A seek to a known record, and a walk of one link: `chain` is `[15, 26]`. A walk from a broken link: `chain` is `[15]`. -/
theorem test_witness_CrSeekPositionsReader : (reading twoRecords).ControlOk ∧ (reading twoRecords).ropen = true ∧
    (1 : BitVec 32).toNat < (2 : BitVec 32).toNat ∧ (0 : BitVec 32).toNat < (reading twoRecords).idx.length ∧
    ¬ (1 : BitVec 32).toNat < (reading twoRecords).idx.length ∧ [15, 26].take (reading twoRecords).idx.length = (reading twoRecords).idx ∧
    [15, 26].length = (1 : BitVec 32).toNat + 1 ∧
    (15 + 9 ≤ twoRecords.len ∧ linkOf twoRecords 2 15 0 = .ok (26, 26)) ∧
    [15].length ≤ (1 : BitVec 32).toNat ∧ linkOf (twoRecords.write 15 [16]) 2 15 0 = .error .linkBack :=
  ⟨reading_inv.control, by decide +kernel⟩

/-- The one-frame writer's record, and a reader of the file it leaves. -/
theorem test_witness_ContainerRecordRoundTrip : ∃ s t u : State, s.FilesOk ∧ s.ShapesOk ∧ s.ControlOk ∧
    s.fault = false ∧ exec .cwRec s = .next t ∧ t.fault = false ∧
    s.wpos + 9 + 570368 < 2 ^ 64 ∧ u.FilesOk ∧ u.ControlOk ∧ u.ropen = true ∧ u.eos = false ∧ u.ioA = true ∧ u.rpos = s.wpos ∧ u.rnum = s.nrec ∧
    u.frameCount = s.frameCount ∧ (∀ a, a < t.ctr.len → u.ctr.byteAt a = t.ctr.byteAt a) ∧
    (if t.wdone = true then u.ctr.len = t.ctr.len else t.ctr.len + 9 ≤ u.ctr.len) := by
  have agree : ∀ a, a < 26 → twoRecords.byteAt a = ((Memory.ofBytes (fileHeader 2 80)).write 15 (recordBytes 26 .key [7, 9])).byteAt a := by
    decide +kernel
  refine ⟨writing 2, _, reading twoRecords, ⟨by decide, by decide +kernel⟩, ?_, writing_control 2 (by decide), rfl, rfl, rfl, by decide,
    reading_inv.files, reading_inv.control, rfl, rfl, rfl, rfl, rfl, rfl, agree, by decide +kernel⟩
  exact ⟨by rintro _ ⟨⟩, by rintro _ ⟨⟩, by rintro _ ⟨⟩, Buf.nil_wf, Buf.nil_wf, by decide, by decide, by rintro _ ⟨⟩,
    by rintro _ ⟨⟩, by rintro _ ⟨⟩, by rintro _ ⟨⟩; decide⟩

/-! Whole-frame commands: every unit command retires, a unit command faults, and the conditions of completion are met. -/

theorem test_witness_EncFrameIsItsExpansion : encReady.fault = false ∧
    (∃ u, encReady.issueAll (encFrameUnits 1 encReady.ioA encReady.ioB) = .ok u) ∧
    ∃ v, State.reset.issueAll (encFrameUnits 0 State.reset.ioA State.reset.ioB) = .error v :=
  ⟨rfl, encFrame_retires, _, rfl⟩

theorem test_witness_EncFrameCompletes : ∃ w, encReady.ShapesOk ∧ encReady.ioA = true ∧ encReady.ioB = true ∧
    frameOffset 1 + 304128 ≤ encReady.raw.len ∧ encReady.quality = some 100 ∧ encReady.frameCount = some 2 ∧
    encReady.predicted dpcmFwd 1 (encReady.frameIn 1) = some w ∧ encReady.wact = true ∧ encReady.nrec = 1 ∧
    encReady.wpos = encReady.ctr.len ∧ ∀ p ∈ symbolDepths (countBytes (codedPayload 100 w)), p.2 ≤ 15 :=
  ⟨_, encReady_shapes, rfl, rfl, by show frameOffset 1 + 304128 ≤ 608256; decide, rfl, rfl, encReady_predicted, rfl, rfl, rfl,
    encReady_depths⟩

theorem test_witness_DecFrameIsItsExpansion : decReady.fault = false ∧
    (∃ u, decReady.issueAll (decFrameUnits 0 decReady.ioA decReady.ioB) = .ok u) ∧
    ∃ v, State.reset.issueAll (decFrameUnits 0 State.reset.ioA State.reset.ioB) = .error v :=
  ⟨rfl, decFrame_retires, _, rfl⟩

theorem test_witness_DecFrameCompletes : ∃ l e out rest, decReady.ShapesOk ∧ decReady.ioA = true ∧ decReady.ioB = true ∧
    decReady.ropen = true ∧ decReady.eos = false ∧ decReady.rpos + 9 ≤ decReady.ctr.len ∧ decReady.quality = some 100 ∧
    decReady.frameCount = some 1 ∧
    linkOf decReady.ctr (1 : BitVec 32).toNat decReady.rpos decReady.rnum.toNat = .ok (0, 38168) ∧
    decReady.ctr.get (decReady.rpos + 8) = (if decReady.rnum.toNat % 32 = 0 then 0 else 1) ∧
    e = decReady.ctr.read (decReady.rpos + 9) (38168 - decReady.rpos - 9) ∧ 128 ≤ e.length ∧ e.length ≤ 570368 ∧
    l = unhdr (e.take 128) ∧ kraftSum l ≤ 2 ^ 15 ∧ bitsOfBytes (e.drop 128) = payloadBits (canon l) out ++ rest ∧
    out.length = 304128 ∧ (∀ b ∈ out, 0 < lenOf l b.toNat) ∧
    (decReady.rnum.toNat % 32 ≠ 0 → (decReady.prevFor decReady.rnum).isSome = true) ∧ frameOffset 0 ≤ decReady.raw.len := by
  refine ⟨unhdr (1 :: List.replicate 127 0), 1 :: List.replicate 38143 0, List.replicate 304128 0, [], decReady_shapes, rfl, rfl,
    rfl, rfl, by decide, rfl, rfl, by decide, by decide, decReady_payload.symm, ?_, ?_, congrArg unhdr decReady_header.symm,
    zeroLens_kraft, decReady_bits, List.length_replicate, ?_, fun h => absurd rfl h, by decide⟩
  · rw [List.length_cons, List.length_replicate]; decide
  · rw [List.length_cons, List.length_replicate]; decide
  · intro b hb; rw [List.eq_of_mem_replicate hb]; exact zeroLens_len

end Sys2Proof.Tests
end

/-! The commands as partial functions on states, what all of them leave alone, and the one induction that every
invariant of the step is proved by (47_system.md R380, R390 to R392). -/

namespace Sys2Proof

/-- A unit command: any but ENC.FRAME and DEC.FRAME, which are made of unit commands (47_system.md R390, R391). -/
def Instr.IsUnit : Instr → Prop
  | .encFrame _ | .decFrame _ => False
  | _ => True

namespace Machine

/-! ### What a command does before it retires -/

/-- The effect or the fault of a command, given its two `io_ok` inputs. -/
def body (io1 io2 : Bool) : Instr → State → Except Trap State
  | .nop => .ok
  | .rst => bodyRst
  | .setq q => bodySetq q
  | .setn n => bodySetn n
  | .frLd f => bodyFrLd io1 f
  | .frSt slot => bodyFrSt io1 slot
  | .cscFwd => bodyCscFwd
  | .cscInv => bodyCscInv
  | .tpFwd => bodyTpFwd
  | .tpInv => bodyTpInv
  | .blkLd i => bodyBlkLd i
  | .blkSt i => bodyBlkSt i
  | .blkPut i => bodyBlkPut i
  | .blkGet i => bodyBlkGet i
  | .blkWr k v => bodyBlkWr k v
  | .blkCh t => bodyBlkCh t
  | .fdct => bodyFdct
  | .idct => bodyIdct
  | .quant => bodyQuant
  | .dequant => bodyDequant
  | .payLen n => bodyPayLen n
  | .payWr k b => bodyPayWr k b
  | .hufCnt => bodyHufCnt
  | .hufBld => bodyHufBld
  | .hufHdr => bodyHufHdr
  | .hufPack => bodyHufPack
  | .hufLdh => bodyHufLdh
  | .hufUnp => bodyHufUnp
  | .cwHdr => bodyCwHdr io1
  | .cwRec => bodyCwRec io1
  | .crOpen => bodyCrOpen io1
  | .crNext => bodyCrNext io1
  | .crSeek n => bodyCrSeek io1 n
  | .encFrame f => bodyEncFrame io1 io2 f
  | .decFrame slot => bodyDecFrame io1 io2 slot

/-- Every command ends by retiring or by fault entry (R380). -/
theorem exec_eq_retire (i : Instr) (s : State) : exec i s = retire s (body s.ioA s.ioB i s) := by
  cases i <;> rfl

theorem bodyRst_ok {s t : State} (h : bodyRst s = .ok t) : t = s.spoilMagic.clearAll :=
  (Except.ok.inj h).symm

/-! ### Properties a command keeps -/

/-- `a` keeps `I` whenever it raises nothing. -/
def Preserves (I : State → Prop) (a : State → Except Trap State) : Prop :=
  ∀ s t, I s → a s = .ok t → I t

theorem Preserves.bind {I : State → Prop} {a b : State → Except Trap State} (ha : Preserves I a) (hb : Preserves I b) :
    Preserves I fun s => a s >>= b := by
  intro s t hs h
  cases hu : a s with
  | error e => simp [hu, Bind.bind, Except.bind] at h
  | ok u => exact hb u t (ha s u hs hu) (by simpa [hu, Bind.bind, Except.bind] using h)

theorem Preserves.foldlM {I : State → Prop} {a : State → Nat → Except Trap State} (ha : ∀ i, Preserves I fun s => a s i)
    (xs : List Nat) : Preserves I fun s => xs.foldlM a s := by
  induction xs with
  | nil => intro s t hs h; cases h; exact hs
  | cons x xs ih => exact (ha x).bind ih

/-- A whole-frame command keeps what every unit command keeps: it is a chain of them (R390, R391). -/
theorem body_preserves {I : State → Prop} (unit : ∀ io1 io2 i, i.IsUnit → Preserves I (body io1 io2 i))
    (io1 io2 : Bool) (i : Instr) : Preserves I (body io1 io2 i) := by
  have u : ∀ i, i.IsUnit → Preserves I (body io1 io1 i) := unit io1 io1
  have v : ∀ i, i.IsUnit → Preserves I (body io2 io2 i) := unit io2 io2
  have enc : ∀ k, Preserves I fun s => encodeBlock s k := fun k =>
    (u (.blkLd (BitVec.ofNat 32 k)) trivial).bind <| (u .fdct trivial).bind <| (u .quant trivial).bind <|
      u (.blkPut (BitVec.ofNat 32 k)) trivial
  have dec : ∀ k, Preserves I fun s => decodeBlock s k := fun k =>
    (u (.blkGet (BitVec.ofNat 32 k)) trivial).bind <| (u .dequant trivial).bind <| (u .idct trivial).bind <|
      u (.blkSt (BitVec.ofNat 32 k)) trivial
  cases i with
  | encFrame f =>
    exact (u (.frLd f) trivial).bind <| (u .cscFwd trivial).bind <| (u .tpFwd trivial).bind <|
      (u (.payLen _) trivial).bind <| (Preserves.foldlM enc _).bind <| (u .hufCnt trivial).bind <|
      (u .hufBld trivial).bind <| (u .hufHdr trivial).bind <| (u .hufPack trivial).bind <| v .cwRec trivial
  | decFrame slot =>
    exact (u .crNext trivial).bind <| (u (.payLen _) trivial).bind <| (u .hufLdh trivial).bind <|
      (u .hufUnp trivial).bind <| (Preserves.foldlM dec _).bind <| (u .tpInv trivial).bind <|
      (u .cscInv trivial).bind <| v (.frSt slot) trivial
  | _ => exact unit io1 io2 _ trivial

/-! ### What no command touches -/

/-- No fault stands, and the inputs are the given ones. -/
def State.Running (port : List HostEvent) (ioA ioB : Bool) (s : State) : Prop :=
  s.fault = false ∧ s.port = port ∧ s.ioA = ioA ∧ s.ioB = ioB

theorem State.spoilMagic_running {port : List HostEvent} {a b : Bool} {s : State} (h : s.Running port a b) :
    s.spoilMagic.Running port a b := by
  rw [State.spoilMagic_eq]; exact h

/-- A command that raises nothing leaves FAULT and the inputs alone (60_exceptions.md R441). -/
theorem body_preserves_running (port : List HostEvent) (a b io1 io2 : Bool) (i : Instr) :
    Preserves (State.Running port a b) (body io1 io2 i) := by
  refine body_preserves (fun io1 io2 i hu s t hs h => ?_) io1 io2 i
  cases i with
  | nop => cases h; exact hs
  | rst =>
    obtain rfl := bodyRst_ok h
    obtain ⟨-, hinputs⟩ := State.spoilMagic_running hs
    exact ⟨rfl, hinputs⟩
  | setq q => obtain ⟨-, -, -, rfl⟩ := bodySetq_ok h; exact hs
  | setn n => obtain ⟨-, rfl⟩ := bodySetn_ok h; exact hs
  | frLd f => obtain ⟨-, -, rfl⟩ := bodyFrLd_ok h; exact hs
  | frSt slot => obtain ⟨_, -, -, -, rfl⟩ := bodyFrSt_ok h; exact hs
  | cscFwd => obtain ⟨_, -, rfl⟩ := bodyCscFwd_ok h; exact hs
  | cscInv => obtain ⟨_, -, rfl⟩ := bodyCscInv_ok h; exact hs
  | tpFwd => obtain ⟨_, _, -, -, ⟨-, rfl⟩ | ⟨-, _, -, rfl⟩⟩ := bodyTpFwd_ok h <;> exact hs
  | tpInv => obtain ⟨_, _, -, -, -, ⟨-, rfl⟩ | ⟨-, _, -, rfl⟩⟩ := bodyTpInv_ok h <;> exact hs
  | blkLd i => obtain ⟨-, _, -, rfl⟩ := bodyBlkLd_ok h; exact hs
  | blkSt i => obtain ⟨-, _, -, -, -, rfl⟩ := bodyBlkSt_ok h; exact hs
  | blkPut i => obtain ⟨-, -, _, _, -, -, -, rfl⟩ := bodyBlkPut_ok h; exact hs
  | blkGet i => obtain ⟨-, -, _, -, rfl⟩ := bodyBlkGet_ok h; exact hs
  | blkWr k v => obtain ⟨-, -, rfl⟩ := bodyBlkWr_ok h; exact hs
  | blkCh t => obtain ⟨-, rfl⟩ := bodyBlkCh_ok h; exact hs
  | fdct => obtain ⟨_, -, rfl⟩ := bodyFdct_ok h; exact hs
  | idct => obtain ⟨_, -, rfl⟩ := bodyIdct_ok h; exact hs
  | quant => obtain ⟨_, _, -, -, rfl⟩ := bodyQuant_ok h; exact hs
  | dequant => obtain ⟨_, _, -, rfl⟩ := bodyDequant_ok h; exact hs
  | payLen n => obtain ⟨-, rfl⟩ := bodyPayLen_ok h; exact hs
  | payWr k b => obtain ⟨-, rfl⟩ := bodyPayWr_ok h; exact hs
  | hufCnt => obtain ⟨_, -, rfl⟩ := bodyHufCnt_ok h; exact hs
  | hufBld => obtain ⟨_, _, -, -, rfl⟩ := bodyHufBld_ok h; exact hs
  | hufHdr => obtain ⟨_, -, rfl⟩ := bodyHufHdr_ok h; exact hs
  | hufPack => obtain ⟨_, _, _, -, -, -, -, rfl⟩ := bodyHufPack_ok h; exact hs
  | hufLdh => obtain ⟨_, -, ⟨-, rfl⟩ | ⟨-, -, rfl⟩⟩ := bodyHufLdh_ok h <;> exact hs
  | hufUnp => obtain ⟨_, _, _, -, -, -, rfl⟩ := bodyHufUnp_ok h; exact hs
  | cwHdr => obtain ⟨_, _, -, -, -, rfl⟩ := bodyCwHdr_ok h; exact hs
  | cwRec => obtain ⟨_, _, _, -, -, -, -, -, -, -, -, rfl⟩ := bodyCwRec_ok h; exact hs
  | crOpen => obtain ⟨_, _, -, -, -, -, -, -, -, -, -, -, -, rfl⟩ := bodyCrOpen_ok h; exact hs
  | crNext => obtain ⟨_, _, _, _, -, -, -, -, -, -, -, -, -, rfl⟩ := bodyCrNext_ok h; exact hs
  | crSeek n => obtain ⟨_, _, -, -, -, -, -, rfl⟩ := bodyCrSeek_ok h; exact hs
  | encFrame f => exact hu.elim
  | decFrame slot => exact hu.elim

/-! ### The induction over a step -/

/-- What makes `I` an invariant of the step: every kind of change the step can make keeps it, but for a new CTR, which
some invariants do not survive. -/
structure Invariant (I : State → Prop) : Prop where
  inputs : ∀ {s : State} (port : List HostEvent) (a b : Bool), I s → I { s with port := port, ioA := a, ioB := b }
  supplyRaw : ∀ {s : State} (bs : List Byte), I s → I { s with raw := Memory.ofBytes bs }
  clearAll : ∀ {s : State}, I s → I s.clearAll
  enterFault : ∀ {s : State} (e : Trap), I s → I (s.enterFault e)
  unit : ∀ (io1 io2 : Bool) (i : Instr), i.IsUnit → Preserves I (body io1 io2 i)
  retired : ∀ {s : State} (cp : Nat), s.fault = false → I s → I { s with cp := cp }

theorem Invariant.exec {I : State → Prop} (inv : Invariant I) {i : Instr} {s t : State} (hs : I s) (hf : s.fault = false)
    (h : exec i s = .next t) : I t := by
  rw [exec_eq_retire] at h
  rcases retire_cases h with ⟨u, hu, rfl⟩ | ⟨e, -, rfl⟩
  · obtain ⟨hfu, -⟩ := body_preserves_running s.port s.ioA s.ioB _ _ i s u ⟨hf, rfl, rfl, rfl⟩ hu
    exact inv.retired _ hfu (body_preserves inv.unit _ _ i s u hs hu)
  · exact inv.enterFault e hs

/-- Every step keeps an invariant, if it also survives the new CTR that the step may bring. -/
theorem Invariant.step {I : State → Prop} (inv : Invariant I) {s t : State}
    (supplyCtr : ∀ bs rest, s.port = .supplyCtr bs :: rest → I s → I { s with ctr := Memory.ofBytes bs })
    (hs : I s) (h : step s = .next t) : I t := by
  rcases step_cases h with hd | ⟨i, u, hr, he⟩
  · rcases State.takeTurn_done hd with ⟨-, rfl⟩ | ⟨rest, -, rfl⟩ | ⟨bs, rest, -, rfl⟩ | ⟨bs, rest, hp, rfl⟩ |
      ⟨_, _, _, rest, -, -, rfl⟩ | ⟨_, a, b, rest, _, -, -, -, rfl⟩
    · exact hs
    · exact inv.clearAll (inv.inputs rest s.ioA s.ioB hs)
    · exact inv.supplyRaw bs (inv.inputs rest s.ioA s.ioB hs)
    · exact inv.inputs rest s.ioA s.ioB (supplyCtr bs rest hp hs)
    · exact inv.inputs rest s.ioA s.ioB hs
    · exact inv.enterFault _ (inv.inputs rest a b hs)
  · obtain ⟨_, a, b, rest, -, hf, -, rfl⟩ := State.takeTurn_run hr
    exact inv.exec (inv.inputs rest a b hs) hf he

end Machine
end Sys2Proof

/-! A cleared state has the reset values and satisfies every invariant but that of the files, which are the host's
(10_state.md R52, 70_reset_and_hazards.md R470). -/

namespace Sys2Proof.Machine

/-- Every element at its reset value but CP makes the reset table with that CP (10_state.md R52). -/
theorem State.clearAll_resetValues (s : State) (cp : Nat) : { s.clearAll with cp := cp }.ResetValues cp where
  status := show State.reset.statusWord = 0 by decide
  errors := ⟨rfl, rfl, rfl⟩
  pointer := rfl
  scalars := ⟨rfl, rfl, rfl, rfl, rfl, rfl, rfl⟩
  tables := ⟨rfl, rfl, rfl, rfl, rfl, rfl, rfl⟩
  counters := ⟨rfl, rfl, rfl, rfl, rfl, rfl, rfl, rfl⟩
  blk := elem_octOf none
  frames := ⟨rfl, rfl, rfl, Buf.get_nil⟩
  pay := Buf.get_nil
  constants := ⟨rfl, rfl⟩
  lengths := ⟨rfl, rfl⟩

theorem step_resetPulse {s : State} {rest : List HostEvent} (h : s.port = .resetPulse :: rest) :
    step s = .next { s with port := rest }.clearAll := by
  simp [step, State.takeTurn, h, State.hardReset]

theorem State.clearAll_shapes (s : State) : s.clearAll.ShapesOk where
  rgb := by rintro _ ⟨⟩
  cur := by rintro _ ⟨⟩
  prev := by rintro _ ⟨⟩
  wrk := Buf.nil_wf
  pay := Buf.nil_wf
  payLen := Nat.zero_le _
  bidx := by rw [State.clearAll_bidx]; decide
  freq := by rintro _ ⟨⟩
  lens := by rintro _ ⟨⟩
  hdr := by rintro _ ⟨⟩
  enc := by rintro _ ⟨⟩

theorem State.clearAll_control (s : State) : s.clearAll.ControlOk where
  quality := by rintro _ ⟨⟩
  prevPaired := rfl
  running := fun _ => ⟨rfl, rfl, rfl⟩
  faulted := by rintro ⟨⟩
  writer := by rintro ⟨⟩
  reader := by rintro ⟨⟩
  atEnd := by rintro ⟨⟩

theorem State.clearAll_tables (s : State) : s.clearAll.TablesOk where
  freq := by rintro _ ⟨⟩
  lens := by rintro _ _ ⟨⟩
  hdr := by rintro _ ⟨⟩
  kraft := by rintro _ ⟨⟩

theorem State.clearAll_seek (s : State) : s.clearAll.SeekOk where
  first := by rintro _ ⟨⟩
  links := by rintro - ⟨⟩
  here := by rintro - ⟨⟩

/-- Settles O8: both resets clear every element, `rst_n` CP with them, while a retired RST advances it. -/
theorem resetGivesTheResetValues : Obligations.ResetGivesTheResetValues := by
  refine ⟨fun s rest h => ⟨_, step_resetPulse h, State.clearAll_resetValues { s with port := rest } 0, rfl, rfl, rfl⟩,
    fun s => ⟨_, exec_eq_retire .rst s, ?_⟩, State.clearAll_resetValues State.reset 0⟩
  exact State.clearAll_resetValues s.spoilMagic (s.cp + 1)

/-- Settles O11: reset is a cleared state with two empty files. -/
theorem resetSatisfiesInvariants : Obligations.ResetSatisfiesInvariants where
  files := ⟨reset_files_wf.1, reset_files_wf.2⟩
  shapes := State.clearAll_shapes State.reset
  control := State.clearAll_control State.reset
  tables := State.clearAll_tables State.reset
  seek := State.clearAll_seek State.reset

end Sys2Proof.Machine

/-! Every element keeps its size and its range (10_state.md R34, R42, R44 to R48). -/

namespace Sys2Proof.Machine

/-! ### The length of the compressed payload (45_entropy.md R292, R298, R299) -/

@[simp] theorem bitString_length (n v : Nat) : (bitString n v).length = n := by simp [bitString]

theorem lenOf_le (lens : List (BitVec 4)) (n : Nat) : lenOf lens n ≤ Config.maxLen := by
  have := (lens.getD n 0).isLt
  exact Nat.le_of_lt_succ this

theorem canonFrom_length_le {lens : List (BitVec 4)} {code prev : Nat} {ss : List Nat} {p : Nat × List Bool}
    (h : p ∈ canonFrom lens code prev ss) : p.2.length ≤ Config.maxLen := by
  induction ss generalizing code prev with
  | nil => simp [canonFrom] at h
  | cons s ss ih =>
    rcases List.mem_cons.mp h with rfl | h
    · simpa using lenOf_le lens s
    · exact ih h

/-- No canonical code is longer than a header nibble can say. -/
theorem canon_length_le {lens : List (BitVec 4)} {p : Nat × List Bool} (h : p ∈ canon lens) :
    p.2.length ≤ Config.maxLen := by
  unfold canon at h
  split at h
  · simp at h
  · rename_i s ss _
    rcases List.mem_cons.mp h with rfl | h
    · simpa using lenOf_le lens s
    · exact canonFrom_length_le h

theorem codeOf_length_le {table : List (Nat × List Bool)} {m : Nat} (h : ∀ p ∈ table, p.2.length ≤ m) (n : Nat) :
    (codeOf table n).length ≤ m := by
  unfold codeOf
  cases hl : table.lookup n with
  | none => exact Nat.zero_le m
  | some w =>
    obtain ⟨l, r, rfl, -⟩ := List.lookup_eq_some_iff.mp hl
    exact h (n, w) (by simp)

theorem payloadBits_length_le {table : List (Nat × List Bool)} {m : Nat} (h : ∀ p ∈ table, p.2.length ≤ m)
    (bs : List Byte) : (payloadBits table bs).length ≤ m * bs.length := by
  induction bs with
  | nil => exact Nat.zero_le _
  | cons b bs ih =>
    have hb := codeOf_length_le h b.toNat
    simp only [payloadBits, List.flatMap_cons, List.length_append, List.length_cons, Nat.mul_succ] at ih ⊢
    omega

/-- At most seven bits pad the last byte (R298). -/
theorem packBits_length_le (bits : List Bool) : (packBits bits).length ≤ (bits.length + 7) / 8 := by
  induction bits using packBits.induct with
  | case1 b7 b6 b5 b4 b3 b2 b1 b0 rest ih =>
    simp only [packBits, List.length_cons]
    omega
  | case2 => exact Nat.zero_le _
  | case3 tail hlong hne =>
    have : 0 < tail.length := List.length_pos_iff.mpr hne
    rw [packBits.eq_3 tail hlong hne, List.length_singleton]
    omega

/-- A packed payload of one frame at most fits ENC (10_state.md R48). -/
theorem packedPayload_length_le {lens : List (BitVec 4)} {hdr bs : List Byte} (hh : hdr.length = Config.hdrBytes)
    (hb : bs.length ≤ Config.frameBytes) : (packedPayload lens hdr bs).length ≤ Config.encCap := by
  have hbits := payloadBits_length_le (fun p hp => canon_length_le (lens := lens) (p := p) hp) bs
  have hpack := packBits_length_le (payloadBits (canon lens) bs)
  simp only [packedPayload, List.length_append, Config.maxLen, Config.hdrBytes, Config.frameBytes, Config.encCap] at *
  omega

/-! ### The sizes of the tables (10_state.md R45 to R47) -/

theorem countBytes_length (bs : List Byte) : (countBytes bs).length = 256 := by simp [countBytes]

theorem hdrOf_length (lens : List (BitVec 4)) : (hdrOf lens).length = Config.hdrBytes := by simp [hdrOf]

theorem unhdr_length (h : List Byte) : (unhdr h).length = 2 * h.length := by
  simp [unhdr, List.length_flatMap, Nat.mul_comm]

/-! ### Frames (10_state.md R42) -/

theorem pixelsOf_frame_length {bs : List Byte} (h : bs.length = Config.frameBytes) :
    (pixelsOf bs).length = Config.framePixels :=
  pixelsOf_length _ _ (h.trans rfl)

theorem bufOfFrame_wf (f : Frame) : (bufOfFrame f).wf := Buf.setFrom_wf _ _ _ Buf.nil_wf

/-! ### The commands -/

theorem State.takeBlock_shapes {s : State} {i : Nat} (hs : s.ShapesOk) (hi : i < Config.numBlocks) (m : Mat Byte) :
    (s.takeBlock i m).ShapesOk :=
  { hs with
    bidx := by
      rw [State.takeBlock_bidx, BitVec.toNat_ofNat]
      exact Nat.lt_of_le_of_lt (Nat.mod_le _ _) hi }

theorem State.acceptFrame_shapes {s : State} {cur : Frame} (hs : s.ShapesOk) (hc : cur.length = Config.framePixels)
    (i : BitVec 32) : (s.acceptFrame cur i).ShapesOk :=
  { hs with
    cur := by rintro _ ⟨⟩; exact hc
    prev := by rintro _ ⟨⟩; exact hc
    wrk := Buf.nil_wf }

/-- PAY may change to any canonical buffer when the tables made from it are dropped (45_entropy.md R282). -/
theorem State.ShapesOk.setPay {s : State} (hs : s.ShapesOk) {pay : Buf} (hp : pay.wf) {n : BitVec 32}
    (hn : n.toNat ≤ Config.frameBytes) :
    { s with payLen := n, pay := pay, freq := none, lens := none, hdr := none }.ShapesOk :=
  { hs with
    pay := hp
    payLen := hn
    freq := by rintro _ ⟨⟩
    lens := by rintro _ ⟨⟩
    hdr := by rintro _ ⟨⟩ }

theorem State.ShapesOk.payload_length {s : State} (hs : s.ShapesOk) {bs : List Byte} (h : s.payload = some bs) :
    bs.length ≤ Config.frameBytes :=
  le_of_eq_of_le (State.payload_eq_some.mp h).1 hs.payLen

theorem unit_preserves_shapes (io1 io2 : Bool) (i : Instr) (hu : i.IsUnit) : Preserves State.ShapesOk (body io1 io2 i) := by
  intro s t hs h
  cases i with
  | nop => cases h; exact hs
  | rst => obtain rfl := bodyRst_ok h; exact State.clearAll_shapes _
  | setq q => obtain ⟨-, -, -, rfl⟩ := bodySetq_ok h; exact { hs with }
  | setn n => obtain ⟨-, rfl⟩ := bodySetn_ok h; exact { hs with }
  | frLd f =>
    obtain ⟨-, -, rfl⟩ := bodyFrLd_ok h
    exact { hs with rgb := by rintro _ ⟨⟩; exact pixelsOf_frame_length (Memory.read_length _ _ _) }
  | frSt slot => obtain ⟨_, -, -, -, rfl⟩ := bodyFrSt_ok h; exact { hs with }
  | cscFwd =>
    obtain ⟨rgb, hrgb, rfl⟩ := bodyCscFwd_ok h
    exact { hs with cur := by rintro _ ⟨⟩; simpa using hs.rgb rgb hrgb }
  | cscInv =>
    obtain ⟨cur, hcur, rfl⟩ := bodyCscInv_ok h
    exact { hs with rgb := by rintro _ ⟨⟩; simpa using hs.cur cur hcur }
  | tpFwd =>
    obtain ⟨cur, _, hcur, -, ⟨-, rfl⟩ | ⟨-, _, -, rfl⟩⟩ := bodyTpFwd_ok h <;>
      exact { hs with wrk := bufOfFrame_wf _, prev := by rintro _ ⟨⟩; exact hs.cur cur hcur }
  | tpInv =>
    have hw : (pixelsOf (s.wrk.bytes Config.frameBytes)).length = Config.framePixels :=
      pixelsOf_frame_length (Buf.bytes_length _ _)
    obtain ⟨_, i, -, -, -, ⟨-, rfl⟩ | ⟨-, p, hp, rfl⟩⟩ := bodyTpInv_ok h
    · exact State.acceptFrame_shapes hs hw i
    · obtain ⟨hprev, -⟩ := State.prevFor_eq_some.mp hp
      exact State.acceptFrame_shapes hs (by rw [List.length_zipWith, hw, hs.prev p hprev, Nat.min_self]) i
  | blkLd i => obtain ⟨hi, m, -, rfl⟩ := bodyBlkLd_ok h; exact State.takeBlock_shapes hs hi m
  | blkSt i =>
    obtain ⟨-, _, -, -, -, rfl⟩ := bodyBlkSt_ok h
    exact { hs with wrk := Buf.setAll_wf _ _ hs.wrk }
  | blkPut i =>
    obtain ⟨-, -, _, _, -, -, -, rfl⟩ := bodyBlkPut_ok h
    exact hs.setPay (Buf.setAll_wf _ _ hs.pay) hs.payLen
  | blkGet i => obtain ⟨hi, -, m, -, rfl⟩ := bodyBlkGet_ok h; exact State.takeBlock_shapes hs hi m
  | blkWr k v => obtain ⟨-, -, rfl⟩ := bodyBlkWr_ok h; exact { hs with }
  | blkCh t => obtain ⟨-, rfl⟩ := bodyBlkCh_ok h; exact { hs with }
  | fdct => obtain ⟨_, -, rfl⟩ := bodyFdct_ok h; exact { hs with }
  | idct => obtain ⟨_, -, rfl⟩ := bodyIdct_ok h; exact { hs with }
  | quant => obtain ⟨_, _, -, -, rfl⟩ := bodyQuant_ok h; exact { hs with }
  | dequant => obtain ⟨_, _, -, rfl⟩ := bodyDequant_ok h; exact { hs with }
  | payLen n => obtain ⟨hn, rfl⟩ := bodyPayLen_ok h; exact hs.setPay Buf.nil_wf hn
  | payWr k b =>
    obtain ⟨-, rfl⟩ := bodyPayWr_ok h
    exact hs.setPay (Buf.set_wf _ _ _ hs.pay) hs.payLen
  | hufCnt =>
    obtain ⟨bs, -, rfl⟩ := bodyHufCnt_ok h
    exact { hs with
      freq := by rintro _ ⟨⟩; exact countBytes_length bs
      lens := by rintro _ ⟨⟩
      hdr := by rintro _ ⟨⟩ }
  | hufBld =>
    obtain ⟨_, _, -, hl, rfl⟩ := bodyHufBld_ok h
    exact { hs with lens := by rintro _ ⟨⟩; exact buildLens_length hl, hdr := by rintro _ ⟨⟩ }
  | hufHdr =>
    obtain ⟨l, -, rfl⟩ := bodyHufHdr_ok h
    exact { hs with hdr := by rintro _ ⟨⟩; exact hdrOf_length l }
  | hufPack =>
    obtain ⟨bs, l, hd, hbs, -, hhd, -, rfl⟩ := bodyHufPack_ok h
    refine { hs with enc := ?_ }
    rintro _ ⟨⟩
    split
    · exact Nat.zero_le _
    · exact packedPayload_length_le (hs.hdr hd hhd) (hs.payload_length hbs)
  | hufLdh =>
    obtain ⟨e, -, ⟨-, rfl⟩ | ⟨hlen, -, rfl⟩⟩ := bodyHufLdh_ok h
    · exact { hs with
        freq := by rintro _ ⟨⟩
        lens := by rintro _ ⟨⟩; exact List.length_replicate
        hdr := by rintro _ ⟨⟩; exact List.length_replicate }
    · have htake : (e.take Config.hdrBytes).length = Config.hdrBytes := List.length_take_of_le hlen
      exact { hs with
        freq := by rintro _ ⟨⟩
        lens := by rintro _ ⟨⟩; exact (unhdr_length _).trans (congrArg (2 * ·) htake)
        hdr := by rintro _ ⟨⟩; exact htake }
  | hufUnp =>
    obtain ⟨_, _, _, -, -, -, rfl⟩ := bodyHufUnp_ok h
    exact hs.setPay (Buf.setFrom_wf _ _ _ hs.pay) hs.payLen
  | cwHdr =>
    obtain ⟨_, _, -, -, -, rfl⟩ := bodyCwHdr_ok h
    exact { hs with prev := by rintro _ ⟨⟩ }
  | cwRec => obtain ⟨_, _, _, -, -, -, -, -, -, -, -, rfl⟩ := bodyCwRec_ok h; exact { hs with }
  | crOpen =>
    obtain ⟨_, _, -, -, -, -, -, -, -, -, -, -, -, rfl⟩ := bodyCrOpen_ok h
    exact { hs with prev := by rintro _ ⟨⟩ }
  | crNext =>
    obtain ⟨_, _, _, _, -, -, -, -, -, -, hcap, -, -, rfl⟩ := bodyCrNext_ok h
    exact { hs with enc := by rintro _ ⟨⟩; exact le_of_eq_of_le (Memory.read_length _ _ _) hcap }
  | crSeek n => obtain ⟨_, _, -, -, -, -, -, rfl⟩ := bodyCrSeek_ok h; exact { hs with }
  | encFrame f => exact hu.elim
  | decFrame slot => exact hu.elim

theorem shapesOk_invariant : Invariant State.ShapesOk where
  inputs _ _ _ hs := { hs with }
  supplyRaw _ hs := { hs with }
  clearAll _ := State.clearAll_shapes _
  enterFault e hs := by rw [State.enterFault_eq]; exact { hs with }
  unit := unit_preserves_shapes
  retired _ _ hs := { hs with }

/-- Settles O13: every unit command keeps the sizes, so every step does. -/
theorem stepKeepsElementShapes : Obligations.StepKeepsElementShapes := fun _ _ hs h =>
  shapesOk_invariant.step (fun _ _ _ hs => { hs with }) hs h

end Sys2Proof.Machine

/-! The control registers stay sound (10_state.md R36 to R38, 46_container.md R352, 60_exceptions.md R420, R442,
70_reset_and_hazards.md R483). -/

namespace Sys2Proof.Machine

/-! ### The registers of a fault (60_exceptions.md R421, R440) -/

theorem Kind.code_range (k : Kind) : 1 ≤ k.code ∧ k.code ≤ 6 := by cases k <;> decide

/-- The low byte of ERR is the number of the kind. -/
theorem Trap.errWord_kind (e : Trap) : e.errWord.toNat % 256 = e.cause.kind.code := by
  have := Kind.code_range e.cause.kind
  rw [Trap.errWord, BitVec.toNat_ofNat]
  omega

theorem State.enterFault_control {s : State} (hs : s.ControlOk) (e : Trap) : (s.enterFault e).ControlOk := by
  have hkind := Kind.code_range e.cause.kind
  rw [← Trap.errWord_kind e] at hkind
  rw [State.enterFault_eq]
  exact { hs with running := by rintro ⟨⟩, faulted := fun _ => ⟨rfl, hkind⟩ }

/-! ### Counters that stay below a bound -/

theorem toNat_add_one_of_lt {a n : BitVec 32} (h : a.toNat < n.toNat) : (a + 1).toNat = a.toNat + 1 := by
  bv_omega

/-! ### The writer -/

/-- A record appended leaves the writer with records to write, or complete (46_container.md R335). -/
theorem State.appendRecord_control {s : State} {n : BitVec 32} (hs : s.ControlOk) (hw : s.wact = true)
    (hn : s.frameCount = some n) (t : FrameType) (e : List Byte) : (s.appendRecord n t e).ControlOk := by
  obtain ⟨hr, hd, hq, n', hn', hlt⟩ := hs.writer hw
  obtain rfl : n' = n := Option.some.inj (hn'.symm.trans hn)
  refine { hs with writer := ?_ }
  by_cases hlast : s.nrec.toNat + 1 = n'.toNat
  · intro hw'
    simp [State.appendRecord, hlast] at hw'
  · intro _
    refine ⟨hr, by simpa [State.appendRecord, hlast] using hd, hq, n', hn, ?_⟩
    show (s.nrec + 1).toNat < n'.toNat
    rw [toNat_add_one_of_lt hlt]
    omega

/-- CW.HDR starts a writer only when there are records to write (R333). -/
theorem bodyCwHdr_control {io : Bool} {s t : State} (hs : s.ControlOk) (h : bodyCwHdr io s = .ok t) : t.ControlOk := by
  obtain ⟨q, n, hq, hn, -, rfl⟩ := bodyCwHdr_ok h
  refine { hs with prevPaired := rfl, writer := fun hw => ?_, reader := by rintro ⟨⟩, atEnd := by rintro ⟨⟩ }
  have hpos : 0 < n.toNat := of_decide_eq_true hw
  exact ⟨rfl, decide_eq_false hpos.ne', Option.isSome_of_eq_some hq, n, hn, hpos⟩

/-! ### The reader -/

/-- Writer and reader are never active together (70_reset_and_hazards.md R483). -/
theorem State.ControlOk.wact_of_ropen {s : State} (hs : s.ControlOk) (hr : s.ropen = true) : s.wact = false := by
  by_contra hw
  obtain ⟨hclosed, -⟩ := hs.writer (by simpa using hw)
  simp [hr] at hclosed

/-- A reader opened has the first record in its index, or none to read (46_container.md R340). -/
theorem State.openReader_control {s : State} {q n : BitVec 32} (hs : s.ControlOk) (hw : s.wact = false)
    (hq : 1 ≤ q.toInt ∧ q.toInt ≤ 100) : (s.openReader q n).ControlOk := by
  refine { hs with
    quality := by rintro _ ⟨⟩; exact hq
    prevPaired := rfl
    writer := fun hw' => absurd (hw.symm.trans hw') (by decide)
    reader := fun _ => ⟨rfl, n, rfl, ?_⟩
    atEnd := fun _ => rfl }
  by_cases hn : 0 < n.toNat
  · simp only [State.openReader_idx, if_pos hn, List.length_singleton]
    exact ⟨hn, fun _ => le_rfl, fun _ => Nat.one_pos⟩
  · simp only [State.openReader_idx, State.openReader_eos, if_neg hn, List.length_nil]
    exact ⟨Nat.zero_le _, fun h => absurd h hn, fun h => absurd (of_decide_eq_false h) (by omega)⟩

/-- A record taken moves the reader to an entry of its index, or to the end (R345). -/
theorem State.takeRecord_control {s : State} {n : BitVec 32} {next stop : Nat} (hs : s.ControlOk) (hr : s.ropen = true)
    (he : s.eos = false) (hn : s.frameCount = some n)
    (hl : linkOf s.ctr n.toNat s.rpos s.rnum.toNat = .ok (next, stop)) (t : FrameType) :
    (s.takeRecord t next stop).ControlOk := by
  obtain ⟨hq, n', hn', hle, hpos, hlt⟩ := hs.reader hr
  obtain rfl : n' = n := Option.some.inj (hn'.symm.trans hn)
  specialize hlt he
  have hstep : (s.rnum + 1).toNat = s.rnum.toNat + 1 := toNat_add_one_of_lt (lt_of_lt_of_le hlt hle)
  obtain ⟨-, ⟨rfl, -, -⟩ | ⟨hne, hmore, -, -, -⟩⟩ := linkOf_ok hl
  · refine { hs with reader := fun _ => ⟨hq, n', hn, ?_⟩, atEnd := fun _ => hr }
    simp only [State.takeRecord_idx, State.takeRecord_eos]
    exact ⟨by simpa using hle, by simpa using hpos, by simp⟩
  · refine { hs with reader := fun _ => ⟨hq, n', hn, ?_⟩, atEnd := fun _ => hr }
    simp only [State.takeRecord_idx, State.takeRecord_rnum, hstep]
    by_cases hlast : s.rnum.toNat + 1 = s.idx.length
    · rw [if_pos ⟨hne, hlast⟩, List.length_append, List.length_singleton]
      omega
    · rw [if_neg fun h => hlast h.2]
      omega

/-- A seek leaves the reader at an entry of its index (R353). -/
theorem bodyCrSeek_control {io : Bool} {n : BitVec 32} {s t : State} (hs : s.ControlOk) (h : bodyCrSeek io n s = .ok t) :
    t.ControlOk := by
  obtain ⟨count, idx, hr, hc, hlt, -, hwalk, rfl⟩ := bodyCrSeek_ok h
  obtain ⟨hq, count', hc', hle, -, -⟩ := hs.reader hr
  obtain rfl : count' = count := Option.some.inj (hc'.symm.trans hc)
  obtain ⟨hlen, -, -⟩ := walkIndex_ok hwalk
  have hin : n.toNat < idx.length := by omega
  have hfits : idx.length ≤ count'.toNat := by omega
  exact { hs with
    reader := fun _ => ⟨hq, count', hc, hfits, fun _ => Nat.one_le_of_lt hin, fun _ => hin⟩
    atEnd := by rintro ⟨⟩ }

/-- Closing the reader, when no writer is active, lets QUALITY and FRAME_COUNT change (47_system.md R383, R384). -/
theorem State.ControlOk.close {s : State} (hs : s.ControlOk) (hw : s.wact = false) (n : Option (BitVec 32))
    {q : Option (BitVec 32)} (hq : ∀ v, q = some v → 1 ≤ v.toInt ∧ v.toInt ≤ 100) :
    { s with quality := q, frameCount := n, ropen := false, eos := false }.ControlOk :=
  { hs with
    quality := hq
    writer := fun hw' => absurd (hw.symm.trans hw') (by decide)
    reader := by rintro ⟨⟩
    atEnd := by rintro ⟨⟩ }

/-! ### The commands -/

/-- A frame accepted brings its number with it (41_temporal.md R186). -/
theorem State.acceptFrame_control {s : State} (hs : s.ControlOk) (cur : Frame) (i : BitVec 32) :
    (s.acceptFrame cur i).ControlOk := { hs with prevPaired := rfl }

theorem unit_preserves_control (io1 io2 : Bool) (i : Instr) (hu : i.IsUnit) :
    Preserves State.ControlOk (body io1 io2 i) := by
  intro s t hs h
  cases i with
  | nop => cases h; exact hs
  | rst => obtain rfl := bodyRst_ok h; exact State.clearAll_control _
  | setq q =>
    obtain ⟨h1, h100, hw, rfl⟩ := bodySetq_ok h
    exact hs.close hw _ (by rintro _ ⟨⟩; exact ⟨h1, h100⟩)
  | setn n => obtain ⟨hw, rfl⟩ := bodySetn_ok h; exact hs.close hw _ hs.quality
  | frLd f => obtain ⟨-, -, rfl⟩ := bodyFrLd_ok h; exact { hs with }
  | frSt slot => obtain ⟨_, -, -, -, rfl⟩ := bodyFrSt_ok h; exact { hs with }
  | cscFwd => obtain ⟨_, -, rfl⟩ := bodyCscFwd_ok h; exact { hs with }
  | cscInv => obtain ⟨_, -, rfl⟩ := bodyCscInv_ok h; exact { hs with }
  | tpFwd =>
    obtain ⟨_, _, -, -, ⟨-, rfl⟩ | ⟨-, _, -, rfl⟩⟩ := bodyTpFwd_ok h <;> exact { hs with prevPaired := rfl }
  | tpInv =>
    obtain ⟨_, _, -, -, -, ⟨-, rfl⟩ | ⟨-, _, -, rfl⟩⟩ := bodyTpInv_ok h <;> exact State.acceptFrame_control hs _ _
  | blkLd i => obtain ⟨-, _, -, rfl⟩ := bodyBlkLd_ok h; exact { hs with }
  | blkSt i => obtain ⟨-, _, -, -, -, rfl⟩ := bodyBlkSt_ok h; exact { hs with }
  | blkPut i => obtain ⟨-, -, _, _, -, -, -, rfl⟩ := bodyBlkPut_ok h; exact { hs with }
  | blkGet i => obtain ⟨-, -, _, -, rfl⟩ := bodyBlkGet_ok h; exact { hs with }
  | blkWr k v => obtain ⟨-, -, rfl⟩ := bodyBlkWr_ok h; exact { hs with }
  | blkCh t => obtain ⟨-, rfl⟩ := bodyBlkCh_ok h; exact { hs with }
  | fdct => obtain ⟨_, -, rfl⟩ := bodyFdct_ok h; exact { hs with }
  | idct => obtain ⟨_, -, rfl⟩ := bodyIdct_ok h; exact { hs with }
  | quant => obtain ⟨_, _, -, -, rfl⟩ := bodyQuant_ok h; exact { hs with }
  | dequant => obtain ⟨_, _, -, rfl⟩ := bodyDequant_ok h; exact { hs with }
  | payLen n => obtain ⟨-, rfl⟩ := bodyPayLen_ok h; exact { hs with }
  | payWr k b => obtain ⟨-, rfl⟩ := bodyPayWr_ok h; exact { hs with }
  | hufCnt => obtain ⟨_, -, rfl⟩ := bodyHufCnt_ok h; exact { hs with }
  | hufBld => obtain ⟨_, _, -, -, rfl⟩ := bodyHufBld_ok h; exact { hs with }
  | hufHdr => obtain ⟨_, -, rfl⟩ := bodyHufHdr_ok h; exact { hs with }
  | hufPack => obtain ⟨_, _, _, -, -, -, -, rfl⟩ := bodyHufPack_ok h; exact { hs with }
  | hufLdh => obtain ⟨_, -, ⟨-, rfl⟩ | ⟨-, -, rfl⟩⟩ := bodyHufLdh_ok h <;> exact { hs with }
  | hufUnp => obtain ⟨_, _, _, -, -, -, rfl⟩ := bodyHufUnp_ok h; exact { hs with }
  | cwHdr => exact bodyCwHdr_control hs h
  | cwRec =>
    obtain ⟨e, ty, n, hw, -, -, -, -, -, -, hn, rfl⟩ := bodyCwRec_ok h
    exact State.appendRecord_control hs hw hn ty e
  | crOpen =>
    obtain ⟨_, _, -, -, hw, -, -, -, -, -, h1, h100, -, rfl⟩ := bodyCrOpen_ok h
    exact State.openReader_control hs hw ⟨h1, h100⟩
  | crNext =>
    obtain ⟨_, _, _, ty, hr, he, -, -, hn, hl, -, -, -, rfl⟩ := bodyCrNext_ok h
    exact State.takeRecord_control hs hr he hn hl ty
  | crSeek n => exact bodyCrSeek_control hs h
  | encFrame f => exact hu.elim
  | decFrame slot => exact hu.elim

theorem controlOk_invariant : Invariant State.ControlOk where
  inputs _ _ _ hs := { hs with }
  supplyRaw _ hs := { hs with }
  clearAll _ := State.clearAll_control _
  enterFault e hs := State.enterFault_control hs e
  unit := unit_preserves_control
  retired _ hf hs := { hs with faulted := fun h => absurd (hf.symm.trans h) (by decide) }

/-- Settles O15: fault entry and the commands that touch the control registers each keep them sound. -/
theorem stepKeepsControlSound : Obligations.StepKeepsControlSound := fun _ _ hs h =>
  controlOk_invariant.step (fun _ _ _ hs => { hs with }) hs h

end Sys2Proof.Machine

/-! Both files stay in canonical form (20_memory.md R83). The block writes a file in three places only: FR.ST writes
RAW, the container writer writes CTR (46_container.md R333, R335), and RST and fault entry spoil the magic of an
unfinished container (60_exceptions.md R440). The host's contents, those after a failed write with them, are canonical
as they come. -/

namespace Sys2Proof.Machine

/-! ### Writing to a file -/

theorem State.FilesOk.writeRaw {s : State} (hs : s.FilesOk) (a : Nat) (bs : List Byte) :
    { s with raw := s.raw.write a bs }.FilesOk := { hs with raw := Memory.write_wf _ _ _ hs.raw }

theorem State.appendRecord_files {s : State} (hs : s.FilesOk) (n : BitVec 32) (t : FrameType) (e : List Byte) :
    (s.appendRecord n t e).FilesOk := { hs with ctr := Memory.write_wf _ _ _ hs.ctr }

/-- CW.HDR begins CTR anew, whatever it held (46_container.md R333). -/
theorem bodyCwHdr_files {io : Bool} {s t : State} (hs : s.FilesOk) (h : bodyCwHdr io s = .ok t) : t.FilesOk := by
  obtain ⟨_, _, -, -, -, rfl⟩ := bodyCwHdr_ok h
  exact { hs with ctr := Memory.write_wf _ _ _ Memory.empty_wf }

/-! ### Resets and fault entry -/

theorem State.clearAll_files {s : State} (hs : s.FilesOk) : s.clearAll.FilesOk := { hs with }

/-- The magic bytes are zeroed by a write, or not touched (60_exceptions.md R440). -/
theorem State.spoilMagic_files {s : State} (hs : s.FilesOk) : s.spoilMagic.FilesOk := by
  unfold State.spoilMagic
  split
  · exact { hs with ctr := Memory.write_wf _ _ _ hs.ctr }
  · exact hs

/-- A file that a failed write has lost holds a free value, which is canonical too (93_implementation_defined.md U6). -/
theorem State.loseFile_files {s : State} (hs : s.FilesOk) (c : Cause) : (s.loseFile c).FilesOk := by
  unfold State.loseFile
  split
  · exact { hs with raw := Memory.ofBytes_wf _ }
  · exact { hs with ctr := Memory.ofBytes_wf _ }
  · exact hs

theorem State.enterFault_files {s : State} (hs : s.FilesOk) (e : Trap) : (s.enterFault e).FilesOk :=
  { State.spoilMagic_files (State.loseFile_files hs e.cause) with }

/-! ### The commands -/

theorem unit_preserves_files (io1 io2 : Bool) (i : Instr) (hu : i.IsUnit) : Preserves State.FilesOk (body io1 io2 i) := by
  intro s t hs h
  cases i with
  | nop => cases h; exact hs
  | rst => obtain rfl := bodyRst_ok h; exact State.clearAll_files (State.spoilMagic_files hs)
  | setq q => obtain ⟨-, -, -, rfl⟩ := bodySetq_ok h; exact { hs with }
  | setn n => obtain ⟨-, rfl⟩ := bodySetn_ok h; exact { hs with }
  | frLd f => obtain ⟨-, -, rfl⟩ := bodyFrLd_ok h; exact { hs with }
  | frSt slot => obtain ⟨_, -, -, -, rfl⟩ := bodyFrSt_ok h; exact hs.writeRaw _ _
  | cscFwd => obtain ⟨_, -, rfl⟩ := bodyCscFwd_ok h; exact { hs with }
  | cscInv => obtain ⟨_, -, rfl⟩ := bodyCscInv_ok h; exact { hs with }
  | tpFwd => obtain ⟨_, _, -, -, ⟨-, rfl⟩ | ⟨-, _, -, rfl⟩⟩ := bodyTpFwd_ok h <;> exact { hs with }
  | tpInv => obtain ⟨_, _, -, -, -, ⟨-, rfl⟩ | ⟨-, _, -, rfl⟩⟩ := bodyTpInv_ok h <;> exact { hs with }
  | blkLd i => obtain ⟨-, _, -, rfl⟩ := bodyBlkLd_ok h; exact { hs with }
  | blkSt i => obtain ⟨-, _, -, -, -, rfl⟩ := bodyBlkSt_ok h; exact { hs with }
  | blkPut i => obtain ⟨-, -, _, _, -, -, -, rfl⟩ := bodyBlkPut_ok h; exact { hs with }
  | blkGet i => obtain ⟨-, -, _, -, rfl⟩ := bodyBlkGet_ok h; exact { hs with }
  | blkWr k v => obtain ⟨-, -, rfl⟩ := bodyBlkWr_ok h; exact { hs with }
  | blkCh t => obtain ⟨-, rfl⟩ := bodyBlkCh_ok h; exact { hs with }
  | fdct => obtain ⟨_, -, rfl⟩ := bodyFdct_ok h; exact { hs with }
  | idct => obtain ⟨_, -, rfl⟩ := bodyIdct_ok h; exact { hs with }
  | quant => obtain ⟨_, _, -, -, rfl⟩ := bodyQuant_ok h; exact { hs with }
  | dequant => obtain ⟨_, _, -, rfl⟩ := bodyDequant_ok h; exact { hs with }
  | payLen n => obtain ⟨-, rfl⟩ := bodyPayLen_ok h; exact { hs with }
  | payWr k b => obtain ⟨-, rfl⟩ := bodyPayWr_ok h; exact { hs with }
  | hufCnt => obtain ⟨_, -, rfl⟩ := bodyHufCnt_ok h; exact { hs with }
  | hufBld => obtain ⟨_, _, -, -, rfl⟩ := bodyHufBld_ok h; exact { hs with }
  | hufHdr => obtain ⟨_, -, rfl⟩ := bodyHufHdr_ok h; exact { hs with }
  | hufPack => obtain ⟨_, _, _, -, -, -, -, rfl⟩ := bodyHufPack_ok h; exact { hs with }
  | hufLdh => obtain ⟨_, -, ⟨-, rfl⟩ | ⟨-, -, rfl⟩⟩ := bodyHufLdh_ok h <;> exact { hs with }
  | hufUnp => obtain ⟨_, _, _, -, -, -, rfl⟩ := bodyHufUnp_ok h; exact { hs with }
  | cwHdr => exact bodyCwHdr_files hs h
  | cwRec =>
    obtain ⟨e, ty, n, -, -, -, -, -, -, -, -, rfl⟩ := bodyCwRec_ok h
    exact State.appendRecord_files hs n ty e
  | crOpen => obtain ⟨_, _, -, -, -, -, -, -, -, -, -, -, -, rfl⟩ := bodyCrOpen_ok h; exact { hs with }
  | crNext => obtain ⟨_, _, _, _, -, -, -, -, -, -, -, -, -, rfl⟩ := bodyCrNext_ok h; exact { hs with }
  | crSeek n => obtain ⟨_, _, -, -, -, -, -, rfl⟩ := bodyCrSeek_ok h; exact { hs with }
  | encFrame f => exact hu.elim
  | decFrame slot => exact hu.elim

theorem filesOk_invariant : Invariant State.FilesOk where
  inputs _ _ _ hs := { hs with }
  supplyRaw bs hs := { hs with raw := Memory.ofBytes_wf bs }
  clearAll := State.clearAll_files
  enterFault e hs := State.enterFault_files hs e
  unit := unit_preserves_files
  retired _ _ hs := { hs with }

/-- Settles O12: the block only writes to a canonical file, and a file the host supplies is canonical. -/
theorem stepKeepsFilesCanonical : Obligations.StepKeepsFilesCanonical := fun _ _ hs h =>
  filesOk_invariant.step (fun bs _ _ hs => { hs with ctr := Memory.ofBytes_wf bs }) hs h

end Sys2Proof.Machine

/-! Decoding and encoding are inverse to each other (30_encoding.md R121 to R126). A row of the opcode table is stood
for by any of its commands. A descriptor with the opcode of that row decodes exactly when it is the encoding of the row's
command with the operands that stand in the descriptor. -/

namespace Sys2Proof

/-! ### Bytes, least significant first (00_scope.md R11) -/

@[simp] theorem leBytes_length (n v : Nat) : (leBytes n v).length = n := by
  induction n generalizing v with
  | zero => rfl
  | succ n ih => simp [leBytes, ih]

theorem leBytes_getElem? {n k : Nat} (v : Nat) (hk : k < n) :
    (leBytes n v)[k]? = some (BitVec.ofNat 8 (v / 256 ^ k)) := by
  induction n generalizing v k with
  | zero => omega
  | succ n ih =>
    cases k with
    | zero => simp [leBytes]
    | succ k => rw [leBytes, List.getElem?_cons_succ, ih _ (by omega), Nat.div_div_eq_div_mul, Nat.pow_succ']

theorem leNat_leBytes (n v : Nat) : leNat (leBytes n v) = v % 256 ^ n := by
  induction n generalizing v with
  | zero => simp [leBytes, leNat, Nat.mod_one]
  | succ n ih => simp only [leBytes, leNat, ih, BitVec.toNat_ofNat, Nat.pow_succ' (m := 256), Nat.mod_mul, Nat.reducePow]

/-! ### The fields of a descriptor (R121, R123) -/

theorem extractLsb'_extractLsb' {w n k m : Nat} (x : BitVec w) (a : Nat) (h : k + m ≤ n) :
    (x.extractLsb' a n).extractLsb' k m = x.extractLsb' (a + k) m := by
  apply BitVec.eq_of_getLsbD_eq
  intro j hj
  simp [BitVec.getLsbD_extractLsb', show k + j < n by omega, Nat.add_assoc]

theorem Desc.immLo_eq (d : Desc) : d.immLo = d.imm.extractLsb' 0 32 :=
  (extractLsb'_extractLsb' (n := 64) (k := 0) d 64 (by decide)).symm

theorem Desc.immHi_eq (d : Desc) : d.immHi = d.imm.extractLsb' 32 32 :=
  (extractLsb'_extractLsb' (n := 64) (k := 32) d 64 (by decide)).symm

theorem Desc.immVal_eq (d : Desc) : d.immVal = d.immHi.extractLsb' 0 8 :=
  (extractLsb'_extractLsb' (n := 32) (k := 0) d 96 (by decide)).symm

theorem encode_immLo {i : Instr} {hi lo : BitVec 32} (h : i.immField = hi ++ lo) : (encode i).immLo = lo := by
  rw [Desc.immLo_eq, encode_imm, h]
  exact BitVec.extractLsb'_append_eq_right

theorem encode_immHi {i : Instr} {hi lo : BitVec 32} (h : i.immField = hi ++ lo) : (encode i).immHi = hi := by
  rw [Desc.immHi_eq, encode_imm, h]
  exact BitVec.extractLsb'_append_eq_left

theorem Desc.imm_eq_halves (d : Desc) : d.imm = d.immHi ++ d.immLo :=
  (BitVec.extractLsb'_append_extractLsb'_eq_extractLsb' (x := d) (start₁ := 64) (len₁ := 32) (len₂ := 32) rfl).symm

theorem Desc.immHi_eq_parts (d : Desc) : d.immHi = d.immTop ++ d.immVal :=
  (BitVec.extractLsb'_append_extractLsb'_eq_extractLsb' (x := d) (start₁ := 96) (len₁ := 8) (len₂ := 24) rfl).symm

theorem Desc.immHi_eq_zero_iff (d : Desc) : d.immHi = 0 ↔ d.imm = 0#32 ++ d.immLo := by
  rw [Desc.imm_eq_halves]
  exact (BitVec.append_left_inj _).symm

theorem Desc.immTop_eq_zero_iff (d : Desc) : d.immTop = 0 ↔ d.imm = 0#24 ++ d.immVal ++ d.immLo := by
  rw [Desc.imm_eq_halves, Desc.immHi_eq_parts]
  exact ((BitVec.append_left_inj _).trans (BitVec.append_left_inj _)).symm

/-- Byte `k` of the command port is bits 8k to 8k + 7 of the descriptor. -/
theorem leBytes_desc (d : Desc) {k : Nat} (hk : k < 16) :
    (leBytes 16 d.toNat)[k]? = some (d.extractLsb' (8 * k) 8) := by
  rw [leBytes_getElem? _ hk, BitVec.extractLsb', Nat.shiftRight_eq_div_pow, Nat.pow_mul]

theorem decodeBytes_leBytes (d : Desc) : decodeBytes (leBytes 16 d.toNat) = decode d := by
  rw [decodeBytes, if_pos (leBytes_length _ _), leNat_leBytes, Nat.mod_eq_of_lt (by exact d.isLt), BitVec.ofNat_toNat,
    BitVec.setWidth_eq]

/-- A descriptor is the encoding of a command when its four fields are the command's. -/
theorem encode_eq_iff {i : Instr} {d : Desc} :
    encode i = d ↔ d.opc = i.opc ∧ d.rsv = 0 ∧ d.idx = i.idxField ∧ d.imm = i.immField := by
  constructor
  · rintro rfl
    exact ⟨encode_opc i, encode_rsv i, encode_idx i, encode_imm i⟩
  · rintro ⟨hopc, hrsv, hidx, himm⟩
    calc encode i = i.immField ++ 0#48 ++ i.idxField ++ i.opc := rfl
      _ = d.imm ++ d.rsv ++ d.idx ++ d.opc := by rw [hopc, hrsv, hidx, himm]; rfl
      _ = d := desc_fields d

/-! ### The operand forms (R123) -/

section
variable {d : Desc}

theorem formPlain_eq {i : Instr} (hopc : d.opc = i.opc) (hidx : i.idxField = 0) (himm : i.immField = 0) :
    formPlain d i = if encode i = d then .ok i else .error .reserved := by
  simp only [formPlain, encode_eq_iff, hopc, hidx, himm, true_and]

theorem formImm32_eq {mk : BitVec 32 → Instr} (hopc : d.opc = (mk d.immLo).opc)
    (hidx : (mk d.immLo).idxField = 0) (himm : (mk d.immLo).immField = 0#32 ++ d.immLo) :
    formImm32 d mk = if encode (mk d.immLo) = d then .ok (mk d.immLo) else .error .reserved := by
  simp only [formImm32, encode_eq_iff, ← hopc, hidx, himm, Desc.immHi_eq_zero_iff, true_and]

theorem formIdxVal_eq {mk : BitVec 32 → Byte → Instr} (hopc : d.opc = (mk d.immLo d.immVal).opc)
    (hidx : (mk d.immLo d.immVal).idxField = 0)
    (himm : (mk d.immLo d.immVal).immField = 0#24 ++ d.immVal ++ d.immLo) :
    formIdxVal d mk =
      if encode (mk d.immLo d.immVal) = d then .ok (mk d.immLo d.immVal) else .error .reserved := by
  simp only [formIdxVal, encode_eq_iff, ← hopc, hidx, himm, Desc.immTop_eq_zero_iff, true_and]

theorem formElemF64_eq {mk : BitVec 8 → BitVec 64 → Instr} (hopc : d.opc = (mk d.idx d.imm).opc)
    (hidx : (mk d.idx d.imm).idxField = d.idx) (himm : (mk d.idx d.imm).immField = d.imm) :
    formElemF64 d mk = if encode (mk d.idx d.imm) = d then .ok (mk d.idx d.imm) else .error .reserved := by
  simp only [formElemF64, encode_eq_iff, ← hopc, hidx, himm, true_and, and_true]

theorem formCh_eq {mk : BitVec 8 → Instr} (hopc : d.opc = (mk d.idx).opc)
    (hidx : (mk d.idx).idxField = d.idx) (himm : (mk d.idx).immField = 0) :
    formCh d mk = if encode (mk d.idx) = d then .ok (mk d.idx) else .error .reserved := by
  simp only [formCh, encode_eq_iff, ← hopc, hidx, himm, true_and]

end

/-! ### The rows of the opcode table (R124) -/

/-- The command of the same row whose operands are those in the descriptor. -/
def Instr.withOperands (d : Desc) : Instr → Instr
  | .setq _ => .setq d.immLo
  | .setn _ => .setn d.immLo
  | .frLd _ => .frLd d.immLo
  | .frSt _ => .frSt d.immLo
  | .blkLd _ => .blkLd d.immLo
  | .blkSt _ => .blkSt d.immLo
  | .blkPut _ => .blkPut d.immLo
  | .blkGet _ => .blkGet d.immLo
  | .blkWr _ _ => .blkWr d.idx d.imm
  | .blkCh _ => .blkCh d.idx
  | .payLen _ => .payLen d.immLo
  | .payWr _ _ => .payWr d.immLo d.immVal
  | .crSeek _ => .crSeek d.immLo
  | .encFrame _ => .encFrame d.immLo
  | .decFrame _ => .decFrame d.immLo
  | i => i

/-- One command of each row. -/
def rows : List Instr :=
  [.nop, .rst, .setq 0, .setn 0, .frLd 0, .frSt 0, .cscFwd, .cscInv, .tpFwd, .tpInv, .blkLd 0, .blkSt 0, .blkPut 0,
    .blkGet 0, .blkWr 0 0, .blkCh 0, .fdct, .idct, .quant, .dequant, .payLen 0, .payWr 0 0, .hufCnt, .hufBld, .hufHdr,
    .hufPack, .hufLdh, .hufUnp, .cwHdr, .cwRec, .crOpen, .crNext, .crSeek 0, .encFrame 0, .decFrame 0]

/-- The opcodes of the 35 commands. -/
def opcodes : List Nat := rows.map fun i => i.opc.toNat

theorem exists_opc {d : Desc} (h : d.opc.toNat ∈ opcodes) : ∃ i : Instr, d.opc = i.opc := by
  obtain ⟨i, -, hi⟩ := List.mem_map.mp h
  exact ⟨i, BitVec.eq_of_toNat_eq hi.symm⟩

/-- A descriptor with the opcode of a row decodes to that row's command with its own operands, or to nothing when bits
are left that the command does not encode (R125, R126). -/
theorem decode_of_opc {d : Desc} {i : Instr} (h : d.opc = i.opc) :
    decode d = if encode (i.withOperands d) = d then .ok (i.withOperands d) else .error .reserved := by
  unfold decode
  rw [h]
  cases i
  case setq | setn | frLd | frSt | blkLd | blkSt | blkPut | blkGet | payLen | crSeek | encFrame | decFrame =>
    exact formImm32_eq h rfl rfl
  case payWr => exact formIdxVal_eq h rfl rfl
  case blkWr => exact formElemF64_eq h rfl rfl
  case blkCh => exact formCh_eq h rfl rfl
  all_goals exact formPlain_eq h rfl rfl

theorem decode_of_unknown_opc {d : Desc} (h : d.opc.toNat ∉ opcodes) : decode d = .error .opcode := by
  simp only [opcodes, rows, Instr.opc, List.map_cons, List.map_nil, List.mem_cons, List.not_mem_nil, or_false, not_or,
    BitVec.reduceToNat] at h
  simp [decode, h]

/-- The operands in a command's encoding are its own. -/
theorem withOperands_encode (i : Instr) : i.withOperands (encode i) = i := by
  cases i
  case setq x | setn x | frLd x | frSt x | blkLd x | blkSt x | blkPut x | blkGet x | payLen x | crSeek x | encFrame x
      | decFrame x =>
    rw [Instr.withOperands, encode_immLo (hi := 0) (lo := x) rfl]
  case payWr k b =>
    rw [Instr.withOperands, encode_immLo (hi := 0#24 ++ b) (lo := k) rfl, Desc.immVal_eq,
      encode_immHi (hi := 0#24 ++ b) (lo := k) rfl, BitVec.extractLsb'_append_eq_right]
  case blkWr | blkCh => simp only [Instr.withOperands, encode_idx, encode_imm, Instr.idxField, Instr.immField]
  all_goals rfl

theorem decode_encode (i : Instr) : decode (encode i) = .ok i := by
  rw [decode_of_opc (encode_opc i), withOperands_encode, if_pos rfl]

/-- Each command has one descriptor, and each decodable descriptor is a command's (R125). -/
theorem decode_eq_ok {d : Desc} {i : Instr} : decode d = .ok i ↔ encode i = d := by
  constructor
  · intro h
    by_cases hmem : d.opc.toNat ∈ opcodes
    · obtain ⟨j, hj⟩ := exists_opc hmem
      rw [decode_of_opc hj] at h
      split at h
      next henc => exact Except.ok.inj h ▸ henc
      next => cases h
    · rw [decode_of_unknown_opc hmem] at h
      cases h
  · rintro rfl
    exact decode_encode i

theorem decode_of_not_encoding {d : Desc} (hmem : d.opc.toNat ∈ opcodes) (hno : ¬ ∃ i, encode i = d) :
    decode d = .error .reserved := by
  obtain ⟨i, hi⟩ := exists_opc hmem
  rw [decode_of_opc hi, if_neg fun h => hno ⟨_, h⟩]

/-! ### The obligations -/

/-- Settles O1: the operands in a command's encoding are its own. -/
theorem encodeThenDecode : Obligations.EncodeThenDecode := decode_encode

/-- Settles O2: the opcode gives the row, and the row decodes its own encodings only. -/
theorem decodeThenEncode : Obligations.DecodeThenEncode := fun _ _ => decode_eq_ok.mp

/-- Settles O4: byte `k` of the port is bits 8k to 8k + 7, and RSV and IMM begin at bits 16 and 64. -/
theorem descriptorBytesLittleEndian : Obligations.DescriptorBytesLittleEndian := by
  intro d
  refine ⟨decodeBytes_leBytes d, leBytes_desc d (by decide), leBytes_desc d (by decide), fun k hk => ?_, fun k hk => ?_⟩
  · rw [leBytes_desc d (by omega), Desc.rsv, extractLsb'_extractLsb' d 16 (by omega), Nat.mul_add]
  · rw [leBytes_desc d (by omega), Desc.imm, extractLsb'_extractLsb' d 64 (by omega), Nat.mul_add]

/-- Settles O5: each descriptor is the encoding of its command. -/
theorem sampleDescriptorsDecode : Obligations.SampleDescriptorsDecode := by
  simp only [Obligations.SampleDescriptorsDecode, decode_eq_ok]
  decide

namespace Machine

/-- A descriptor of no command raises its fault, with the `io_ok` inputs presented with it (R380, R126). -/
theorem step_of_decode_error {s : State} {d : Desc} {a b : Bool} {rest : List HostEvent} {e : DecodeError}
    (hf : s.fault = false) (hp : s.port = .command d a b :: rest) (hd : decode d = .error e) :
    step s = .next ({ s with port := rest, ioA := a, ioB := b }.enterFault (illegalTrap d e)) := by
  simp [step, State.takeTurn, hp, State.acceptCommand, hf, hd]

/-- Settles O3: the decoder tells an unknown opcode from bits that no command encodes. -/
theorem illegalDescriptorsFault : Obligations.IllegalDescriptorsFault := by
  intro s d a b rest hf hp
  split
  next hunknown => exact step_of_decode_error hf hp (decode_of_unknown_opc hunknown)
  next hknown =>
    intro hno
    exact step_of_decode_error hf hp (decode_of_not_encoding (not_not.mp hknown) hno)

end Machine

end Sys2Proof

/-! Colour conversion (40_color.md R160 to R169). Every channel of both pixel functions is a value on some scale, clamped
to 0 to 255 and rounded half up. The round trip is a matter of distance: the forward function moves a channel by half a
unit at most, the inverse one multiplies these errors by its coefficients, and their sum stays below the three halves of
a unit within which rounding gives a neighbour. -/

namespace Sys2Proof.Machine

/-! ### Clamping and rounding (00_scope.md R11) -/

/-- The value `x / d`, clamped to 0 to 255 and rounded half up. -/
def clampRound (d x : Int) : Int := (2 * clampInt x 0 (255 * d) + d) / (2 * d)

theorem clampInt_eq_max_min {x lo hi : Int} (h : lo ≤ hi) : clampInt x lo hi = max lo (min x hi) := by
  unfold clampInt
  split
  · omega
  · split <;> omega

theorem byte_range (v : Byte) : 0 ≤ (v.toNat : Int) ∧ (v.toNat : Int) ≤ 255 := by
  have := v.isLt
  omega

/-- Rounding a value that is less than `k` and a half from a byte gives a number at most `k` from that byte: clamping
only brings the value nearer. -/
theorem clampRound_near {d x k : Int} {v : Byte} (hd : 0 < d) (hk : 0 ≤ k)
    (h : |2 * (x - d * v.toNat)| < (2 * k + 1) * d) : |clampRound d x - v.toNat| ≤ k := by
  obtain ⟨hv, hv'⟩ := byte_range v
  generalize (v.toNat : Int) = n at *
  have hdk : 0 ≤ d * k := mul_nonneg hd.le hk
  have hdn : 0 ≤ d * n := mul_nonneg hd.le hv
  have hdn' : d * n ≤ d * 255 := mul_le_mul_of_nonneg_left hv' hd.le
  rw [abs_lt, show (2 * k + 1) * d = 2 * (d * k) + d by ring] at h
  suffices n - k ≤ clampRound d x ∧ clampRound d x ≤ n + k by rw [abs_le]; omega
  rw [clampRound, clampInt_eq_max_min (by omega)]
  constructor
  · rw [Int.le_ediv_iff_mul_le (by omega), show (n - k) * (2 * d) = 2 * (d * n) - 2 * (d * k) by ring]
    omega
  · rw [← Int.lt_add_one_iff, Int.ediv_lt_iff_lt_mul (by omega),
      show (n + k + 1) * (2 * d) = 2 * (d * n) + 2 * (d * k) + 2 * d by ring]
    omega

theorem clampRound_of_exact {d x : Int} {v : Byte} (hd : 0 < d) (h : x = d * v.toNat) : clampRound d x = v.toNat := by
  have := clampRound_near hd le_rfl (x := x) (v := v) (by simpa [h] using hd)
  rwa [abs_nonpos_iff, sub_eq_zero] at this

theorem clampRound_range {d : Int} (x : Int) (hd : 0 < d) : 0 ≤ clampRound d x ∧ clampRound d x ≤ 255 := by
  rw [clampRound, clampInt_eq_max_min (by omega)]
  refine ⟨Int.ediv_nonneg (by omega) (by omega), ?_⟩
  rw [← Int.lt_add_one_iff, Int.ediv_lt_iff_lt_mul (by omega)]
  omega

/-- Clamping and rounding move a value between 0 and 255 and a half by half a unit at most. -/
theorem clampRound_error {d x : Int} (hd : 0 < d) (hlo : 0 ≤ x) (hhi : 2 * x ≤ 511 * d) :
    |2 * (d * clampRound d x - x)| ≤ d := by
  rw [abs_le]
  have hlower := Int.mul_ediv_self_le (x := 2 * clampInt x 0 (255 * d) + d) (k := 2 * d) (by omega)
  have hupper := Int.lt_mul_ediv_self_add (x := 2 * clampInt x 0 (255 * d) + d) (k := 2 * d) (by omega)
  rw [← clampRound, mul_assoc, clampInt_eq_max_min (by omega)] at hlower hupper
  rcases le_or_gt x (255 * d) with hx | hx
  · omega
  · have hq : 255 ≤ clampRound d x := by
      rw [clampRound, clampInt_eq_max_min (by omega), Int.le_ediv_iff_mul_le (by omega)]
      omega
    have hdq : d * 255 ≤ d * clampRound d x := mul_le_mul_of_nonneg_left hq hd.le
    omega

theorem byteOfInt_toNat {x : Int} (h : 0 ≤ x ∧ x ≤ 255) : ((byteOfInt x).toNat : Int) = x := by
  rw [byteOfInt, BitVec.toNat_ofNat]
  omega

theorem byteOfInt_clampRound_toNat {d : Int} (x : Int) (hd : 0 < d) :
    ((byteOfInt (clampRound d x)).toNat : Int) = clampRound d x :=
  byteOfInt_toNat (clampRound_range x hd)

/-! ### The channels of the two pixel functions (R161, R162) -/

theorem clampRound_million (x : Int) :
    clampRound 1000000 x = (max 0 (min x 255000000) + 500000) / 1000000 := by
  rw [clampRound, clampInt_eq_max_min (by decide)]
  omega

theorem clampRound_thousand (x : Int) : clampRound 1000 x = (2 * max 0 (min x 255000) + 1000) / 2000 := by
  rw [clampRound, clampInt_eq_max_min (by decide)]
  omega

theorem clampRound_hundredThousand (x : Int) :
    clampRound 100000 x = (2 * max 0 (min x 25500000) + 100000) / 200000 := by
  rw [clampRound, clampInt_eq_max_min (by decide)]
  omega

/-- The forward function adds half a million and divides by a million, which is the same rounding without the factor 2. -/
theorem rgbToYuvInt_eq (r g b : Int) : rgbToYuvInt r g b =
    (clampRound 1000000 (299000 * r + 587000 * g + 114000 * b),
      clampRound 1000000 (128000000 - 168736 * r - 331264 * g + 500000 * b),
      clampRound 1000000 (128000000 + 500000 * r - 418688 * g - 81312 * b)) := by
  simp only [clampRound_million, rgbToYuvInt, clampInt_eq_max_min (show (0 : Int) ≤ 255000000 by decide)]

theorem yuvToRgbInt_eq (y cb cr : Int) : yuvToRgbInt y cb cr =
    (clampRound 1000 (1000 * y + 1402 * (cr - 128)),
      clampRound 100000 (100000 * y - 34414 * (cb - 128) - 71414 * (cr - 128)),
      clampRound 1000 (1000 * y + 1772 * (cb - 128))) := rfl

theorem rgbToYuv_channels (p : Pixel) :
    ((rgbToYuv p).c0.toNat : Int) =
      clampRound 1000000 (299000 * (p.c0.toNat : Int) + 587000 * p.c1.toNat + 114000 * p.c2.toNat) ∧
    ((rgbToYuv p).c1.toNat : Int) =
      clampRound 1000000 (128000000 - 168736 * (p.c0.toNat : Int) - 331264 * p.c1.toNat + 500000 * p.c2.toNat) ∧
    ((rgbToYuv p).c2.toNat : Int) =
      clampRound 1000000 (128000000 + 500000 * (p.c0.toNat : Int) - 418688 * p.c1.toNat - 81312 * p.c2.toNat) := by
  rw [rgbToYuv, mapPixel, rgbToYuvInt_eq]
  exact ⟨byteOfInt_clampRound_toNat _ (by decide), byteOfInt_clampRound_toNat _ (by decide),
    byteOfInt_clampRound_toNat _ (by decide)⟩

theorem yuvToRgb_channels (p : Pixel) :
    ((yuvToRgb p).c0.toNat : Int) =
      clampRound 1000 (1000 * (p.c0.toNat : Int) + 1402 * ((p.c2.toNat : Int) - 128)) ∧
    ((yuvToRgb p).c1.toNat : Int) =
      clampRound 100000 (100000 * (p.c0.toNat : Int) - 34414 * ((p.c1.toNat : Int) - 128)
        - 71414 * ((p.c2.toNat : Int) - 128)) ∧
    ((yuvToRgb p).c2.toNat : Int) =
      clampRound 1000 (1000 * (p.c0.toNat : Int) + 1772 * ((p.c1.toNat : Int) - 128)) := by
  rw [yuvToRgb, mapPixel, yuvToRgbInt_eq]
  exact ⟨byteOfInt_clampRound_toNat _ (by decide), byteOfInt_clampRound_toNat _ (by decide),
    byteOfInt_clampRound_toNat _ (by decide)⟩

/-! ### The commands (R163, R166) -/

theorem exec_cscFwd_of_none {s : State} (h : s.rgb = none) : exec .cscFwd s = .next (s.enterFault (uninitTrap 2)) := by
  rw [exec_eq_retire, body, bodyCscFwd, h, retire_error]

theorem exec_cscFwd_of_some {s : State} {g : Frame} (h : s.rgb = some g) :
    exec .cscFwd s = .next { s with cur := some (g.map rgbToYuv), cp := s.cp + 1 } := by
  rw [exec_eq_retire, body, bodyCscFwd_of h, retire_ok]

theorem exec_cscInv_of_none {s : State} (h : s.cur = none) : exec .cscInv s = .next (s.enterFault (uninitTrap 2)) := by
  rw [exec_eq_retire, body, bodyCscInv, h, retire_error]

theorem exec_cscInv_of_some {s : State} {g : Frame} (h : s.cur = some g) :
    exec .cscInv s = .next { s with rgb := some (g.map yuvToRgb), cp := s.cp + 1 } := by
  rw [exec_eq_retire, body, bodyCscInv_of h, retire_ok]

/-- Settles O24: the command maps the pixel function over RGB, whose channels are clamped and rounded. -/
theorem cscFwdConverts : Obligations.CscFwdConverts := by
  intro s
  split
  next hnone => exact exec_cscFwd_of_none hnone
  next g hsome =>
    refine ⟨_, _, exec_cscFwd_of_some hsome, rfl, List.length_map _, fun k p hp => ?_⟩
    refine ⟨rgbToYuv p, by rw [List.getElem?_map, hp, Option.map_some], ?_⟩
    simpa only [clampRound_million] using rgbToYuv_channels p

/-- Settles O25: the command maps the pixel function over CUR, whose channels are clamped and rounded. -/
theorem cscInvConverts : Obligations.CscInvConverts := by
  intro s
  split
  next hnone => exact exec_cscInv_of_none hnone
  next g hsome =>
    refine ⟨_, _, exec_cscInv_of_some hsome, rfl, List.length_map _, fun k p hp => ?_⟩
    refine ⟨yuvToRgb p, by rw [List.getElem?_map, hp, Option.map_some], ?_⟩
    simpa only [clampRound_thousand, clampRound_hundredThousand] using yuvToRgb_channels p

/-! ### The round trip (R168, R169) -/

/-- The forward function is off by half a unit at most: luma never reaches its clamp, and chroma exceeds 255 by a half
at most. -/
theorem rgbToYuv_error (p : Pixel) :
    |2 * (1000000 * ((rgbToYuv p).c0.toNat : Int)
      - (299000 * (p.c0.toNat : Int) + 587000 * p.c1.toNat + 114000 * p.c2.toNat))| ≤ 1000000 ∧
    |2 * (1000000 * ((rgbToYuv p).c1.toNat : Int)
      - (128000000 - 168736 * (p.c0.toNat : Int) - 331264 * p.c1.toNat + 500000 * p.c2.toNat))| ≤ 1000000 ∧
    |2 * (1000000 * ((rgbToYuv p).c2.toNat : Int)
      - (128000000 + 500000 * (p.c0.toNat : Int) - 418688 * p.c1.toNat - 81312 * p.c2.toNat))| ≤ 1000000 := by
  obtain ⟨hy, hcb, hcr⟩ := rgbToYuv_channels p
  have hr := p.c0.isLt
  have hg := p.c1.isLt
  have hb := p.c2.isLt
  rw [hy, hcb, hcr]
  exact ⟨clampRound_error (by decide) (by omega) (by omega), clampRound_error (by decide) (by omega) (by omega),
    clampRound_error (by decide) (by omega) (by omega)⟩

/-- Each channel of the round trip is off by half a unit of luma, and of each chroma by half the inverse function's
coefficient: before rounding less than 1.21 for R, 1.03 for G and 1.39 for B. -/
theorem roundTrip_error (p : Pixel) (ch : Chan) :
    |(((yuvToRgb (rgbToYuv p)).chan ch).toNat : Int) - (p.chan ch).toNat| ≤ 1 := by
  obtain ⟨hr, hg, hb⟩ := yuvToRgb_channels (rgbToYuv p)
  obtain ⟨ey, ecb, ecr⟩ := rgbToYuv_error p
  have r_range := byte_range p.c0
  have g_range := byte_range p.c1
  have b_range := byte_range p.c2
  rw [abs_le] at ey ecb ecr
  cases ch with
  | y =>
    simp only [Pixel.chan, hr]
    exact clampRound_near (by decide) (by decide) (by rw [abs_lt]; omega)
  | cb =>
    simp only [Pixel.chan, hg]
    exact clampRound_near (by decide) (by decide) (by rw [abs_lt]; omega)
  | cr =>
    simp only [Pixel.chan, hb]
    exact clampRound_near (by decide) (by decide) (by rw [abs_lt]; omega)

theorem pixel_eq_of_channels {p q : Pixel} (h0 : (p.c0.toNat : Int) = q.c0.toNat)
    (h1 : (p.c1.toNat : Int) = q.c1.toNat) (h2 : (p.c2.toNat : Int) = q.c2.toNat) : p = q := by
  cases p
  cases q
  simp_all [BitVec.toNat_inj]

/-- The coefficients of luma sum to a million, those of each chroma to zero. -/
theorem rgbToYuv_grey (v : Byte) : rgbToYuv ⟨v, v, v⟩ = ⟨v, 128, 128⟩ := by
  obtain ⟨hy, hcb, hcr⟩ := rgbToYuv_channels ⟨v, v, v⟩
  apply pixel_eq_of_channels
  · exact hy.trans (clampRound_of_exact (by decide) (by ring))
  · exact hcb.trans (clampRound_of_exact (by decide) (by change _ = 1000000 * (128 : Int); ring))
  · exact hcr.trans (clampRound_of_exact (by decide) (by change _ = 1000000 * (128 : Int); ring))

/-- At chroma 128 only luma is left. -/
theorem yuvToRgb_grey (v : Byte) : yuvToRgb ⟨v, 128, 128⟩ = ⟨v, v, v⟩ := by
  obtain ⟨hr, hg, hb⟩ := yuvToRgb_channels ⟨v, 128, 128⟩
  apply pixel_eq_of_channels
  · exact hr.trans (clampRound_of_exact (by decide) (by simp))
  · exact hg.trans (clampRound_of_exact (by decide) (by simp))
  · exact hb.trans (clampRound_of_exact (by decide) (by simp))

/-- Settles O26: the errors of the round trip stay below one and a half, and grey has none. -/
theorem colourRoundTrip : Obligations.ColourRoundTrip := by
  refine ⟨fun p ch => ?_, fun v => ⟨rgbToYuv_grey v, yuvToRgb_grey v⟩⟩
  have := abs_le.mp (roundTrip_error p ch)
  omega

end Sys2Proof.Machine

/-! The temporal predictor (41_temporal.md R180 to R188). Both commands work sample by sample: WRK holds the sample
(y, x, ch) of a frame at one place, and the two difference functions are applied channel by channel. -/

namespace Sys2Proof

/-! ### Samples of a frame (10_state.md R42, 20_memory.md R81) -/

theorem Frame.bytes_sampleOffset (f : Frame) (y x : Nat) (ch : Chan) :
    (Frame.bytes f)[sampleOffset y x ch]? = f.sample y x ch :=
  Frame.bytes_getElem f (352 * y + x) ch

theorem sampleOffset_lt {y x : Nat} (ch : Chan) (hy : y < 288) (hx : x < 352) :
    sampleOffset y x ch < Config.frameBytes := by
  have : ch.num < 3 := by cases ch <;> decide
  simp only [sampleOffset, Config.frameBytes]
  omega

theorem Frame.exists_sample {f : Frame} (hf : f.length = Config.framePixels) {y x : Nat} (ch : Chan) (hy : y < 288)
    (hx : x < 352) : ∃ v, f.sample y x ch = some v := by
  have hlt : Config.cifX * y + x < f.length := by
    simp only [hf, Config.cifX, Config.framePixels]
    omega
  exact ⟨_, by rw [Frame.sample, List.getElem?_eq_getElem hlt, Option.map_some]⟩

theorem Pixel.zip_chan (op : Byte → Byte → Byte) (p q : Pixel) (ch : Chan) :
    (Pixel.zip op p q).chan ch = op (p.chan ch) (q.chan ch) := by
  cases ch <;> rfl

/-- Two frames combined pixel by pixel are combined sample by sample. -/
theorem Frame.sample_zipWith {op : Byte → Byte → Byte} {f g : Frame} {y x : Nat} {ch : Chan} {a b : Byte}
    (hf : f.sample y x ch = some a) (hg : g.sample y x ch = some b) :
    Frame.sample (List.zipWith (Pixel.zip op) f g) y x ch = some (op a b) := by
  obtain ⟨p, hp, rfl⟩ := Option.map_eq_some_iff.mp hf
  obtain ⟨q, hq, rfl⟩ := Option.map_eq_some_iff.mp hg
  rw [Frame.sample, List.getElem?_zipWith, hp, hq, Option.map_some, Pixel.zip_chan]

namespace Machine

/-! ### Frames in WRK -/

theorem get_bufOfFrame (f : Frame) {k : Nat} (hk : k < Config.frameBytes) :
    (bufOfFrame f).get k = (Frame.bytes f)[k]? := by
  rw [bufOfFrame, Buf.get_setFrom, Nat.sub_zero, Buf.get_nil]
  split
  next => rfl
  next hout => exact (List.getElem?_eq_none (by omega)).symm

theorem get_bufOfFrame_sampleOffset (f : Frame) {y x : Nat} (ch : Chan) (hy : y < 288) (hx : x < 352) :
    (bufOfFrame f).get (sampleOffset y x ch) = f.sample y x ch := by
  rw [get_bufOfFrame f (sampleOffset_lt ch hy hx), Frame.bytes_sampleOffset]

theorem Buf.full_eq_false_iff (t : Buf) (n : Nat) : t.full n = false ↔ ∃ k, k < n ∧ t.get k = none := by
  rw [← Bool.not_eq_true, Buf.full_iff]
  simp

/-- The frame in WRK. TP.INV takes it when WRK is whole (41_temporal.md R186). -/
def State.wrkFrame (s : State) : Frame := pixelsOf (s.wrk.bytes Config.frameBytes)

theorem State.wrkFrame_length (s : State) : s.wrkFrame.length = Config.framePixels :=
  pixelsOf_frame_length (Buf.bytes_length _ _)

theorem State.wrkFrame_sample {s : State} (hw : s.wrk.full Config.frameBytes = true) {y x : Nat} (ch : Chan)
    (hy : y < 288) (hx : x < 352) : s.wrkFrame.sample y x ch = s.wrk.get (sampleOffset y x ch) := by
  have hbytes : Frame.bytes s.wrkFrame = s.wrk.bytes Config.frameBytes :=
    bytes_pixelsOf Config.framePixels _ (Buf.bytes_length _ _)
  rw [← Frame.bytes_sampleOffset, hbytes, Buf.bytes_getElem _ _ _ hw (sampleOffset_lt ch hy hx)]

/-! ### The frame type and the frame before (R180, R183, R186) -/

theorem ftypeOf_of_mod_eq {n : Nat} (h : n % 32 = 0) : ftypeOf n = .key := if_pos h

theorem ftypeOf_of_mod_ne {n : Nat} (h : ¬ n % 32 = 0) : ftypeOf n = .delta := if_neg h

theorem State.prevFor_eq_none {s : State} {i : BitVec 32}
    (h : ∀ p k, s.prev = some p → s.prevIdx = some k → k.toNat + 1 ≠ i.toNat) : s.prevFor i = none := by
  rw [Option.eq_none_iff_forall_ne_some]
  intro p hp
  obtain ⟨hprev, k, hk, heq⟩ := State.prevFor_eq_some.mp hp
  exact h p k hprev hk heq

/-! ### The two difference functions (R181, R182, R188) -/

theorem byteOfInt_clampInt_toNat (x : Int) : ((byteOfInt (clampInt x 0 255)).toNat : Int) = max 0 (min x 255) := by
  rw [clampInt_eq_max_min (by decide), byteOfInt_toNat (by omega)]

theorem dpcmFwd_toNat (c p : Byte) : ((dpcmFwd c p).toNat : Int) = max 0 (min ((c.toNat : Int) - p.toNat + 128) 255) :=
  byteOfInt_clampInt_toNat _

theorem dpcmInv_toNat (d p : Byte) : ((dpcmInv d p).toNat : Int) = max 0 (min ((p.toNat : Int) + d.toNat - 128) 255) :=
  byteOfInt_clampInt_toNat _

theorem dpcmInv_dpcmFwd {c p : Byte} (hlo : -128 ≤ (c.toNat : Int) - p.toNat)
    (hhi : (c.toNat : Int) - p.toNat ≤ 127) : dpcmInv (dpcmFwd c p) p = c := by
  have hfwd := dpcmFwd_toNat c p
  have hinv := dpcmInv_toNat (dpcmFwd c p) p
  have hc := byte_range c
  apply BitVec.eq_of_toNat_eq
  omega

theorem dpcmFwd_self (c : Byte) : dpcmFwd c c = 128 := by
  have hfwd := dpcmFwd_toNat c c
  apply BitVec.eq_of_toNat_eq
  change (dpcmFwd c c).toNat = 128
  omega

/-- Settles O29: the biased difference needs no clamp, so adding the bias back gives the sample, which needs none
either; equal samples are the case of difference 0. -/
theorem dpcmInverts : Obligations.DpcmInverts := by
  intro c p
  refine ⟨dpcmInv_dpcmFwd, dpcmFwd_self c, ?_⟩
  have := dpcmInv_dpcmFwd (c := p) (p := p) (by omega) (by omega)
  rwa [dpcmFwd_self] at this

/-! ### TP.FWD (R183) -/

theorem exec_tpFwd_uninit {s : State} (h : ∀ f i, s.cur = some f → s.fidx = some i → False) :
    exec .tpFwd s = .next (s.enterFault (uninitTrap 3)) := by
  rw [exec_eq_retire, body, bodyTpFwd]
  split
  next hf hi => exact (h _ _ hf hi).elim
  next => rw [retire_error]

section
variable {s : State} {f p : Frame} {i : BitVec 32}

theorem exec_tpFwd_key (hf : s.cur = some f) (hi : s.fidx = some i) (ht : ftypeOf i.toNat = .key) :
    exec .tpFwd s = .next { s with
      wrk := bufOfFrame f, ftype := some .key, prev := some f, prevIdx := some i, cp := s.cp + 1 } := by
  rw [exec_eq_retire, body, bodyTpFwd_of_key hf hi ht, retire_ok]

theorem exec_tpFwd_delta (hf : s.cur = some f) (hi : s.fidx = some i) (ht : ftypeOf i.toNat = .delta)
    (hp : s.prevFor i = some p) :
    exec .tpFwd s = .next { s with
      wrk := bufOfFrame (List.zipWith (Pixel.zip dpcmFwd) f p), ftype := some .delta, prev := some f, prevIdx := some i,
      cp := s.cp + 1 } := by
  rw [exec_eq_retire, body, bodyTpFwd_of_delta hf hi ht hp, retire_ok]

theorem exec_tpFwd_prev (hf : s.cur = some f) (hi : s.fidx = some i) (ht : ftypeOf i.toNat = .delta)
    (hp : s.prevFor i = none) : exec .tpFwd s = .next (s.enterFault ⟨.prev, 3, 0⟩) := by
  rw [exec_eq_retire, body, bodyTpFwd, hf, hi]
  simp only [ht, hp, retire_error]

end

/-- Settles O27: the new WRK holds CUR's frame for a key frame, and for a delta frame the two frames combined sample
by sample; both frames have every sample. -/
theorem tpFwdPredicts : Obligations.TpFwdPredicts := by
  intro s hs
  split
  next f i hf hi =>
    split
    next hkey =>
      exact ⟨_, exec_tpFwd_key hf hi (ftypeOf_of_mod_eq hkey), rfl,
        fun y x ch hy hx => get_bufOfFrame_sampleOffset f ch hy hx⟩
    next hdelta =>
      have ht := ftypeOf_of_mod_ne hdelta
      split
      next p k hp hk =>
        split
        next hbefore =>
          refine ⟨_, exec_tpFwd_delta hf hi ht (State.prevFor_eq_some.mpr ⟨hp, k, hk, hbefore⟩), rfl,
            fun y x ch hy hx => ?_⟩
          obtain ⟨c, hc⟩ := Frame.exists_sample (hs.cur f hf) ch hy hx
          obtain ⟨q, hq⟩ := Frame.exists_sample (hs.prev p hp) ch hy hx
          exact ⟨c, q, dpcmFwd c q, hc, hq,
            (get_bufOfFrame_sampleOffset _ ch hy hx).trans (Frame.sample_zipWith hc hq), dpcmFwd_toNat c q⟩
        next hother =>
          exact exec_tpFwd_prev hf hi ht (State.prevFor_eq_none (by simpa [hp, hk] using hother))
      next hnone => exact exec_tpFwd_prev hf hi ht (State.prevFor_eq_none fun p k hp hk => (hnone p k hp hk).elim)
  next hnone => exact exec_tpFwd_uninit hnone

/-! ### TP.INV (R186) -/

theorem exec_tpInv_uninit {s : State} (h : ∀ ty i, s.ftype = some ty → s.fidx = some i → False) :
    exec .tpInv s = .next (s.enterFault (uninitTrap 3)) := by
  rw [exec_eq_retire, body, bodyTpInv]
  split
  next ht hi => exact (h _ _ ht hi).elim
  next => rw [retire_error]

section
variable {s : State} {p : Frame} {ty : FrameType} {i : BitVec 32}

theorem exec_tpInv_blockCount (ht : s.ftype = some ty) (hi : s.fidx = some i)
    (hw : s.wrk.full Config.frameBytes = false) : exec .tpInv s = .next (s.enterFault ⟨.blockCount, 3, 0⟩) := by
  rw [exec_eq_retire, body, bodyTpInv, ht, hi]
  simp only [hw, if_true, retire_error]

theorem exec_tpInv_key (ht : s.ftype = some .key) (hi : s.fidx = some i) (hw : s.wrk.full Config.frameBytes = true) :
    exec .tpInv s = .next { s.acceptFrame s.wrkFrame i with cp := s.cp + 1 } := by
  rw [exec_eq_retire, body, bodyTpInv_of_key ht hi hw, retire_ok, State.wrkFrame]

theorem exec_tpInv_delta (ht : s.ftype = some .delta) (hi : s.fidx = some i)
    (hw : s.wrk.full Config.frameBytes = true) (hp : s.prevFor i = some p) :
    exec .tpInv s = .next { s.acceptFrame (List.zipWith (Pixel.zip dpcmInv) s.wrkFrame p) i with cp := s.cp + 1 } := by
  rw [exec_eq_retire, body, bodyTpInv, ht, hi]
  simp only [hw, Bool.true_eq_false, if_false, hp, retire_ok, State.wrkFrame]

theorem exec_tpInv_prev (ht : s.ftype = some .delta) (hi : s.fidx = some i)
    (hw : s.wrk.full Config.frameBytes = true) (hp : s.prevFor i = none) :
    exec .tpInv s = .next (s.enterFault ⟨.prev, 3, 0⟩) := by
  rw [exec_eq_retire, body, bodyTpInv, ht, hi]
  simp only [hw, Bool.true_eq_false, if_false, hp, retire_error]

end

/-- Settles O28: a whole WRK is a frame with the samples WRK holds, which is the new CUR for a key frame and is
combined with PREV sample by sample for a delta frame. -/
theorem tpInvReconstructs : Obligations.TpInvReconstructs := by
  intro s hs
  split
  next ty i ht hi =>
    have hhole : s.wrk.full Config.frameBytes = false ↔ ∃ k, k < 304128 ∧ s.wrk.get k = none :=
      Buf.full_eq_false_iff _ _
    cases hw : s.wrk.full Config.frameBytes with
    | false =>
      rw [if_pos (hhole.mp hw)]
      exact exec_tpInv_blockCount ht hi hw
    | true =>
      rw [if_neg fun h => Bool.noConfusion (hw.symm.trans (hhole.mpr h))]
      cases ty with
      | key =>
        rw [if_pos rfl]
        exact ⟨_, s.wrkFrame, exec_tpInv_key ht hi hw, rfl, s.wrkFrame_length,
          fun y x ch hy hx => State.wrkFrame_sample hw ch hy hx⟩
      | delta =>
        rw [if_neg (by decide)]
        split
        next p k hp hk =>
          split
          next hbefore =>
            refine ⟨_, List.zipWith (Pixel.zip dpcmInv) s.wrkFrame p,
              exec_tpInv_delta ht hi hw (State.prevFor_eq_some.mpr ⟨hp, k, hk, hbefore⟩), rfl, ?_,
              fun y x ch hy hx => ?_⟩
            · rw [List.length_zipWith, s.wrkFrame_length, hs.prev p hp, Nat.min_self]
            · obtain ⟨d, hd⟩ := Frame.exists_sample s.wrkFrame_length ch hy hx
              obtain ⟨q, hq⟩ := Frame.exists_sample (hs.prev p hp) ch hy hx
              exact ⟨dpcmInv d q, d, q, Frame.sample_zipWith hd hq,
                (State.wrkFrame_sample hw ch hy hx).symm.trans hd, hq, dpcmInv_toNat d q⟩
          next hother =>
            exact exec_tpInv_prev ht hi hw (State.prevFor_eq_none (by simpa [hp, hk] using hother))
        next hnone =>
          exact exec_tpInv_prev ht hi hw (State.prevFor_eq_none fun p k hp hk => (hnone p k hp hk).elim)
  next hnone => exact exec_tpInv_uninit hnone

end Machine

end Sys2Proof

/-! The block segmenter (42_segment.md R200 to R214). A block is cut out of WRK or PAY as 64 exact integers and put back
at the same 64 places, so what a command does is known from three things: where the elements of a block stand, which
binary64 values are bytes, and what rounding makes of a value. -/

namespace Sys2Proof

/-! ### Exact integers in binary64 (43_dct.md R230) -/

theorem roundNearestEven_mul_self (n : Nat) {d : Nat} (hd : 0 < d) : roundNearestEven (n * d) d = n := by
  rw [roundNearestEven, Nat.mul_mod_left, if_pos (by omega), Nat.mul_div_cancel n hd]

/-- A number of 53 bits at most, scaled by `2^e`, has its last bit at place `e` or above. -/
theorem nearestShift_mul_le {n : Nat} (e : Nat) (h : n < 2 ^ 53) : nearestShift (n * 2 ^ e) 1 ≤ e := by
  rw [nearestShift, Nat.div_one]
  rcases Nat.eq_zero_or_pos n with rfl | hn
  · simp
  · have hlt : (n * 2 ^ e).log2 < 53 + e := by
      rw [Nat.log2_lt (Nat.mul_pos hn (Nat.two_pow_pos e)).ne', Nat.pow_add]
      exact Nat.mul_lt_mul_of_pos_right h (Nat.two_pow_pos e)
    omega

/-- Nothing is rounded off a number of 53 bits at most. -/
theorem magUnits_nearestMag_of_lt {n : Nat} (e : Nat) (h : n < 2 ^ 53) :
    magUnits (nearestMag (n * 2 ^ e) 1) = n * 2 ^ e := by
  have hshift := nearestShift_mul_le e h
  rw [magUnits_nearestMag Nat.one_pos, Nat.one_mul]
  generalize nearestShift (n * 2 ^ e) 1 = k at hshift
  have hsplit : n * 2 ^ e = n * 2 ^ (e - k) * 2 ^ k := by
    rw [Nat.mul_assoc, ← Nat.pow_add, Nat.sub_add_cancel hshift]
  rw [hsplit, roundNearestEven_mul_self _ (Nat.two_pow_pos k)]

/-- `f64(n)` is exact for `n` below 2^53 (00_scope.md R10). -/
theorem F64.ofNat_isInteger {n : Nat} (h : n < 2 ^ 53) : (F64.ofNat n).isInteger n := by
  have hfin : (F64.ofNat n).isFinite = true := (F64.ofNat_below h.le (by decide)).1
  have hmag := magUnits_nearestMag_of_lt 1074 h
  refine ⟨hfin, ?_⟩
  rw [F64.ofNat, F64.nearest_eq] at hfin ⊢
  split at hfin
  next hb =>
    rw [dif_pos hb]
    exact (congrArg Nat.cast hmag).trans (Nat.cast_mul _ _)
  next => exact Bool.noConfusion hfin

theorem F64.ofNat_byte_isInteger (b : Byte) : (F64.ofNat b.toNat).isInteger b.toNat :=
  F64.ofNat_isInteger (b.isLt.trans (by decide))

/-! ### The value of 64 bits (00_scope.md R10, 42_segment.md R211) -/

theorem extract_exponent_toNat (v : BitVec 64) : (v.extractLsb' 52 11).toNat = v.toNat % 2 ^ 63 / 2 ^ 52 := by
  rw [BitVec.extractLsb'_toNat, Nat.shiftRight_eq_div_pow]
  omega

theorem extract_fraction_toNat (v : BitVec 64) : (v.extractLsb' 0 52).toNat = v.toNat % 2 ^ 63 % 2 ^ 52 := by
  rw [BitVec.extractLsb'_toNat, Nat.shiftRight_zero]
  omega

/-- Bits with another exponent field than 0x7FF are a finite value: its magnitude pattern is all bits but the sign. -/
theorem F64.ofBits_of_legal {v : BitVec 64} (h : f64Legal v) :
    ∃ m : Fin magBound, F64.ofBits v = .fin v.msb m ∧ (m : Nat) = v.toNat % 2 ^ 63 := by
  have hexp : (v.extractLsb' 52 11).toNat ≠ 2047 := fun e => h (BitVec.eq_of_toNat_eq e)
  have hlt : v.toNat % 2 ^ 63 < magBound := by
    rw [extract_exponent_toNat] at hexp
    simp only [magBound]
    omega
  exact ⟨⟨_, hlt⟩, dif_pos hlt, rfl⟩

/-- The magnitude of 64 bits by its exponent and fraction fields. -/
theorem magUnits_fields (v : BitVec 64) : magUnits (v.toNat % 2 ^ 63) =
    if v.extractLsb' 52 11 = 0 then (v.extractLsb' 0 52).toNat
    else (2 ^ 52 + (v.extractLsb' 0 52).toNat) * 2 ^ ((v.extractLsb' 52 11).toNat - 1) := by
  have hzero : v.extractLsb' 52 11 = 0 ↔ v.toNat % 2 ^ 63 / 2 ^ 52 = 0 := by
    rw [← BitVec.toNat_inj, extract_exponent_toNat]
    rfl
  rw [magUnits, extract_exponent_toNat, extract_fraction_toNat]
  by_cases h : v.toNat % 2 ^ 63 / 2 ^ 52 = 0
  · rw [if_pos h, if_pos (hzero.mpr h)]
    omega
  · rw [if_neg h, if_neg (mt hzero.mp h)]

/-! ### A block with a hole -/

theorem Mat.values?_eq_none {α : Type} (m : Mat (Option α)) : Mat.values? m = none ↔ ∃ r c, Mat.elem m r c = none := by
  constructor
  · intro hnone
    by_contra hall
    have hsome : ∀ r c, (Mat.elem m r c).isSome = true := fun r c =>
      Option.isSome_iff_ne_none.mpr fun h => hall ⟨r, c, h⟩
    have hvalues := (Mat.values?_eq_some m (Mat.tabulate fun r c => (Mat.elem m r c).get (hsome r c))).mpr (by simp)
    exact Option.some_ne_none _ (hvalues.symm.trans hnone)
  · rintro ⟨r, c, hhole⟩
    rw [Option.eq_none_iff_forall_ne_some]
    intro v hv
    exact Option.some_ne_none _ (((Mat.values?_eq_some m v).mp hv r c).symm.trans hhole)

namespace Machine

/-! ### Where a block stands (R200 to R202) -/

theorem blkLegal_iff {i : BitVec 32} : blkLegal i ↔ ¬ 4751 < i.toNat := by
  simp only [blkLegal, Config.numBlocks]
  omega

theorem eq_blockChan_iff {ch : Chan} {i : Nat} : ch = blockChan i ↔ ch.num = i % 3 := by
  rw [← blockChan_num]
  exact ⟨fun h => h ▸ rfl, Chan.num_inj _ _⟩

theorem exists_payIndex (i : Nat) {k : Nat} (hk : k < 64) : ∃ r c, payIndex i r c = 64 * i + k := by
  refine ⟨⟨k / 8, by omega⟩, ⟨k % 8, by omega⟩, ?_⟩
  simp only [payIndex]
  omega

theorem payIndex_range (i : Nat) (r c : Fin 8) : 64 * i ≤ payIndex i r c ∧ payIndex i r c ≤ 64 * i + 63 := by
  simp only [payIndex]
  omega

theorem State.wrkBlock_eq_none {s : State} {i : Nat} :
    s.wrkBlock i = none ↔ ∃ r c, s.wrk.get (blockOffset i r c) = none := by
  simp [State.wrkBlock, Mat.values?_eq_none, wrkIndex_eq_blockOffset]

theorem State.payBlock_eq_none {s : State} {i : Nat} :
    s.payBlock i = none ↔ ∃ k : Fin 64, s.pay.get (64 * i + k) = none := by
  rw [State.payBlock, Mat.values?_eq_none]
  simp only [Mat.elem_tabulate]
  constructor
  · rintro ⟨r, c, hhole⟩
    refine ⟨⟨8 * r + c, by omega⟩, ?_⟩
    rwa [← Nat.add_assoc]
  · rintro ⟨k, hhole⟩
    obtain ⟨r, c, hplace⟩ := exists_payIndex i k.isLt
    exact ⟨r, c, hplace ▸ hhole⟩

/-- A block written over itself changes nothing. -/
theorem Buf.get_placed_self {t : Buf} {index : Fin 8 → Fin 8 → Nat} {m : Mat Byte}
    (hlt : ∀ r c, index r c < Config.frameBytes) (hsame : ∀ r c, t.get (index r c) = some (Mat.elem m r c)) (k : Nat) :
    (t.setAll (placed index m)).get k = t.get k := by
  by_cases hk : ∃ r c, index r c = k
  · obtain ⟨r, c, rfl⟩ := hk
    obtain ⟨x, hx, hplace, hget⟩ := Buf.get_setAll_named t (placed index m) (index r c) (hlt r c)
      ⟨_, (mem_placed _ _ _).mpr ⟨r, c, rfl⟩, rfl⟩
    obtain ⟨r', c', rfl⟩ := (mem_placed _ _ _).mp hx
    rw [hget, ← hplace, hsame]
  · exact Buf.get_placed_other _ _ _ _ fun r c h => hk ⟨r, c, h⟩

/-! ### Bytes and binary64 values (R205, R207) -/

theorem unitsPerOne_pos : 0 < (unitsPerOne : Int) := by positivity

theorem pix_toNat (v : F64) : ((pix v).toNat : Int) =
    (2 * max 0 (min v.units (255 * unitsPerOne)) + unitsPerOne) / (2 * unitsPerOne) := by
  have hpos := unitsPerOne_pos
  rw [← clampInt_eq_max_min (by omega)]
  exact byteOfInt_clampRound_toNat v.units hpos

/-- Clamping and rounding leave a byte as it is. -/
theorem pix_of_isInteger {v : F64} {b : Byte} (h : v.isInteger b.toNat) : pix v = b := by
  have hround : ((pix v).toNat : Int) = b.toNat :=
    (byteOfInt_clampRound_toNat v.units unitsPerOne_pos).trans
      (clampRound_of_exact unitsPerOne_pos (h.2.trans (mul_comm _ _)))
  exact BitVec.eq_of_toNat_eq (by exact_mod_cast hround)

theorem byteValue?_eq_some {v : F64} {b : Byte} : byteValue? v = some b ↔ v.isInteger b.toNat := by
  have hpos := unitsPerOne_pos
  rw [byteValue?, F64.isInteger]
  generalize (unitsPerOne : Int) = u at hpos
  constructor
  · intro h
    obtain ⟨⟨hfin, hlo, hhi, hmod⟩, hb⟩ := (Option.ite_none_right_eq_some).mp h
    have hquot : 0 ≤ v.units / u ∧ v.units / u ≤ 255 :=
      ⟨Int.ediv_nonneg hlo hpos.le, Int.lt_add_one_iff.mp ((Int.ediv_lt_iff_lt_mul hpos).mpr (by omega))⟩
    refine ⟨hfin, ?_⟩
    rw [← Option.some.inj hb, byteOfInt_toNat hquot]
    exact (Int.ediv_mul_cancel (Int.dvd_of_emod_eq_zero hmod)).symm
  · rintro ⟨hfin, hunits⟩
    obtain ⟨hb, hb'⟩ := byte_range b
    have hvalue : byteOfInt (v.units / u) = b := by
      rw [hunits, Int.mul_ediv_cancel _ hpos.ne']
      exact BitVec.eq_of_toNat_eq (by exact_mod_cast byteOfInt_toNat ⟨hb, hb'⟩)
    have hlo : 0 ≤ v.units := hunits ▸ mul_nonneg hb hpos.le
    have hhi : v.units ≤ 255 * u := hunits ▸ mul_le_mul_of_nonneg_right hb' hpos.le
    have hmod : v.units % u = 0 := hunits ▸ Int.mul_emod_left _ _
    rw [if_pos ⟨hfin, hlo, hhi, hmod⟩, hvalue]

theorem byteValue?_eq_none {v : F64} : byteValue? v = none ↔ ¬ ∃ n : Nat, n ≤ 255 ∧ v.isInteger n := by
  rw [Option.eq_none_iff_forall_ne_some]
  constructor
  · rintro h ⟨n, hn, hint⟩
    refine h (BitVec.ofNat 8 n) (byteValue?_eq_some.mpr ?_)
    rwa [BitVec.toNat_ofNat, Nat.mod_eq_of_lt (by omega)]
  · intro h b hb
    exact h ⟨b.toNat, by have := b.isLt; omega, byteValue?_eq_some.mp hb⟩

/-- BLK is no block of bytes when some element is not an integer in 0 to 255 (R207). -/
theorem byteValues_eq_none {m : Mat F64} : Mat.values? (Mat.mapElems byteValue? m) = none ↔
    ¬ ∀ r c, ∃ n : Nat, n ≤ 255 ∧ (Mat.elem m r c).isInteger n := by
  simp only [Mat.values?_eq_none, Mat.elem_mapElems, byteValue?_eq_none, not_forall]

/-! ### The commands, outcome by outcome -/

section
variable {i : BitVec 32} {s : State}

theorem State.takeBlock_toNat (m : Mat Byte) : s.takeBlock i.toNat m = { s with
    blk := Mat.mapElems (fun b : Byte => some (F64.ofNat b.toNat)) m, bch := some (blockChan i.toNat),
    bidx := i.setWidth 16 } := by
  rw [State.takeBlock, BitVec.ofNat_toNat]

theorem exec_blkLd_operand (hi : ¬ blkLegal i) : exec (.blkLd i) s = .next (s.enterFault (operandTrap 4)) := by
  rw [exec_eq_retire, body, bodyBlkLd, if_pos hi, retire_error]

theorem exec_blkLd_uninit (hi : blkLegal i) (hm : s.wrkBlock i.toNat = none) :
    exec (.blkLd i) s = .next (s.enterFault (uninitTrap 4)) := by
  rw [exec_eq_retire, body, bodyBlkLd, if_neg (not_not.mpr hi), hm, retire_error]

theorem exec_blkLd_of {m : Mat Byte} (hi : blkLegal i) (hm : s.wrkBlock i.toNat = some m) :
    exec (.blkLd i) s = .next { s with
      blk := Mat.mapElems (fun b : Byte => some (F64.ofNat b.toNat)) m, bch := some (blockChan i.toNat),
      bidx := i.setWidth 16, cp := s.cp + 1 } := by
  rw [exec_eq_retire, body, bodyBlkLd, if_neg (not_not.mpr hi), hm]
  simp only [State.takeBlock_toNat, retire_ok]

theorem exec_blkGet_operand (h : ¬ (blkLegal i ∧ 64 * i.toNat + 63 < s.payLen.toNat)) :
    exec (.blkGet i) s = .next (s.enterFault (operandTrap 4)) := by
  rw [exec_eq_retire, body, bodyBlkGet]
  by_cases hi : blkLegal i
  · rw [if_neg (not_not.mpr hi), if_pos (by omega), retire_error]
  · rw [if_pos hi, retire_error]

theorem exec_blkGet_uninit (hi : blkLegal i) (hp : 64 * i.toNat + 63 < s.payLen.toNat)
    (hm : s.payBlock i.toNat = none) : exec (.blkGet i) s = .next (s.enterFault (uninitTrap 4)) := by
  rw [exec_eq_retire, body, bodyBlkGet, if_neg (not_not.mpr hi), if_neg (Nat.not_le.mpr hp), hm, retire_error]

theorem exec_blkGet_of {m : Mat Byte} (hi : blkLegal i) (hp : 64 * i.toNat + 63 < s.payLen.toNat)
    (hm : s.payBlock i.toNat = some m) :
    exec (.blkGet i) s = .next { s with
      blk := Mat.mapElems (fun b : Byte => some (F64.ofNat b.toNat)) m, bch := some (blockChan i.toNat),
      bidx := i.setWidth 16, cp := s.cp + 1 } := by
  rw [exec_eq_retire, body, bodyBlkGet, if_neg (not_not.mpr hi), if_neg (Nat.not_le.mpr hp), hm]
  simp only [State.takeBlock_toNat, retire_ok]

theorem exec_blkSt_operand (hi : ¬ blkLegal i) : exec (.blkSt i) s = .next (s.enterFault (operandTrap 4)) := by
  rw [exec_eq_retire, body, bodyBlkSt, if_pos hi, retire_error]

theorem exec_blkSt_uninit (hi : blkLegal i) (h : ∀ m ch, s.blkValues = some m → s.bch = some ch → False) :
    exec (.blkSt i) s = .next (s.enterFault (uninitTrap 4)) := by
  rw [exec_eq_retire, body, bodyBlkSt, if_neg (not_not.mpr hi)]
  split
  next hm hc => exact (h _ _ hm hc).elim
  next => rw [retire_error]

theorem exec_blkPut_operand (h : ¬ (blkLegal i ∧ 64 * i.toNat + 63 < s.payLen.toNat)) :
    exec (.blkPut i) s = .next (s.enterFault (operandTrap 4)) := by
  rw [exec_eq_retire, body, bodyBlkPut]
  by_cases hi : blkLegal i
  · rw [if_neg (not_not.mpr hi), if_pos (by omega), retire_error]
  · rw [if_pos hi, retire_error]

theorem exec_blkPut_uninit (hi : blkLegal i) (hp : 64 * i.toNat + 63 < s.payLen.toNat)
    (h : ∀ m ch, s.blkValues = some m → s.bch = some ch → False) :
    exec (.blkPut i) s = .next (s.enterFault (uninitTrap 4)) := by
  rw [exec_eq_retire, body, bodyBlkPut, if_neg (not_not.mpr hi), if_neg (Nat.not_le.mpr hp)]
  split
  next hm hc => exact (h _ _ hm hc).elim
  next => rw [retire_error]

variable {m : Mat F64} {ch : Chan}

theorem exec_blkSt_channel (hi : blkLegal i) (hm : s.blkValues = some m) (hc : s.bch = some ch)
    (hch : ch ≠ blockChan i.toNat) : exec (.blkSt i) s = .next (s.enterFault ⟨.channel, 4, 0⟩) := by
  rw [exec_eq_retire, body, bodyBlkSt, if_neg (not_not.mpr hi), hm, hc]
  simp only [if_pos hch, retire_error]

theorem exec_blkSt_nonfinite (hi : blkLegal i) (hm : s.blkValues = some m) (hc : s.bch = some (blockChan i.toNat))
    (hf : ∃ r c, (Mat.elem m r c).isFinite = false) : exec (.blkSt i) s = .next (s.enterFault ⟨.nonfinite, 4, 0⟩) := by
  obtain ⟨r, c, hrc⟩ := hf
  have hevery : Mat.every F64.isFinite m = false := by
    rw [← Bool.not_eq_true, Mat.every_iff]
    exact fun h => Bool.noConfusion (hrc.symm.trans (h r c))
  rw [exec_eq_retire, body, bodyBlkSt, if_neg (not_not.mpr hi), hm, hc]
  simp only [ne_eq, not_true_eq_false, if_false, if_pos hevery, retire_error]

theorem exec_blkSt_of (hi : blkLegal i) (hm : s.blkValues = some m) (hc : s.bch = some (blockChan i.toNat))
    (hf : ∀ r c, (Mat.elem m r c).isFinite = true) : exec (.blkSt i) s = .next { s with
      wrk := s.wrk.setAll (placed (wrkIndex i.toNat) (Mat.mapElems pix m)), cp := s.cp + 1 } := by
  have hbody := bodyBlkSt_of hi hm hc ((Mat.every_iff _ _).mpr hf)
  rw [BitVec.ofNat_toNat, BitVec.setWidth_eq] at hbody
  rw [exec_eq_retire, body, hbody, retire_ok]

theorem exec_blkPut_channel (hi : blkLegal i) (hp : 64 * i.toNat + 63 < s.payLen.toNat) (hm : s.blkValues = some m)
    (hc : s.bch = some ch) (hch : ch ≠ blockChan i.toNat) :
    exec (.blkPut i) s = .next (s.enterFault ⟨.channel, 4, 0⟩) := by
  rw [exec_eq_retire, body, bodyBlkPut, if_neg (not_not.mpr hi), if_neg (Nat.not_le.mpr hp), hm, hc]
  simp only [if_pos hch, retire_error]

theorem exec_blkPut_notByte (hi : blkLegal i) (hp : 64 * i.toNat + 63 < s.payLen.toNat) (hm : s.blkValues = some m)
    (hc : s.bch = some (blockChan i.toNat)) (hb : Mat.values? (Mat.mapElems byteValue? m) = none) :
    exec (.blkPut i) s = .next (s.enterFault ⟨.notByte, 4, 0⟩) := by
  rw [exec_eq_retire, body, bodyBlkPut, if_neg (not_not.mpr hi), if_neg (Nat.not_le.mpr hp), hm, hc]
  simp only [ne_eq, not_true_eq_false, if_false, hb, retire_error]

theorem exec_blkPut_of {b : Mat Byte} (hi : blkLegal i) (hp : 64 * i.toNat + 63 < s.payLen.toNat)
    (hm : s.blkValues = some m) (hc : s.bch = some (blockChan i.toNat))
    (hb : Mat.values? (Mat.mapElems byteValue? m) = some b) : exec (.blkPut i) s = .next { s with
      pay := s.pay.setAll (placed (payIndex i.toNat) b), freq := none, lens := none, hdr := none, cp := s.cp + 1 } := by
  have hbody := bodyBlkPut_of hi hp hm hc hb
  rw [BitVec.ofNat_toNat, BitVec.setWidth_eq] at hbody
  rw [exec_eq_retire, body, hbody, retire_ok]

end

/-! ### A block taken (R203, R209) -/

/-- Settles O30: a whole block is taken element by element, and a byte is exact in binary64. -/
theorem blkLdCutsBlock : Obligations.BlkLdCutsBlock := by
  intro i s
  split
  next hrange => exact exec_blkLd_operand (mt blkLegal_iff.mp (not_not.mpr hrange))
  next hrange =>
    have hi := blkLegal_iff.mpr hrange
    split
    next hhole => exact exec_blkLd_uninit hi (State.wrkBlock_eq_none.mpr hhole)
    next hwhole =>
      obtain ⟨m, hm⟩ := Option.ne_none_iff_exists'.mp (mt State.wrkBlock_eq_none.mp hwhole)
      refine ⟨_, _, exec_blkLd_of hi hm, rfl, blockChan_num _, fun r c => ?_⟩
      refine ⟨Mat.elem m r c, _, ?_, Mat.elem_mapElems _ _ _ _, rfl, F64.ofNat_byte_isInteger _⟩
      rw [← wrkIndex_eq_blockOffset]
      exact State.wrkBlock_eq_some.mp hm r c

theorem blkInPay_iff {i : BitVec 32} {s : State} : blkLegal i ∧ 64 * i.toNat + 63 < s.payLen.toNat ↔
    ¬ (4751 < i.toNat ∨ s.payLen.toNat ≤ 64 * i.toNat + 63) := by
  rw [blkLegal_iff, not_or, Nat.not_le]

/-- Settles O33: as BLK.LD, with the block's 64 places in PAY. -/
theorem blkGetTakesBlock : Obligations.BlkGetTakesBlock := by
  intro i s
  split
  next hrange => exact exec_blkGet_operand (mt blkInPay_iff.mp (not_not.mpr hrange))
  next hrange =>
    obtain ⟨hi, hp⟩ := blkInPay_iff.mpr hrange
    split
    next hhole => exact exec_blkGet_uninit hi hp (State.payBlock_eq_none.mpr hhole)
    next hwhole =>
      obtain ⟨m, hm⟩ := Option.ne_none_iff_exists'.mp (mt State.payBlock_eq_none.mp hwhole)
      refine ⟨_, _, exec_blkGet_of hi hp hm, rfl, blockChan_num _, fun r c => ?_⟩
      exact ⟨Mat.elem m r c, _, State.payBlock_eq_some.mp hm r c, Mat.elem_mapElems _ _ _ _, rfl,
        F64.ofNat_byte_isInteger _⟩

/-! ### A block put back (R205, R207) -/

/-- Settles O31: each refusal in its order, and 64 rounded values written to the block's places. -/
theorem blkStPutsBlockBack : Obligations.BlkStPutsBlockBack := by
  intro i s
  split
  next hrange => exact exec_blkSt_operand (mt blkLegal_iff.mp (not_not.mpr hrange))
  next hrange =>
    have hi := blkLegal_iff.mpr hrange
    split
    next m ch hm hc =>
      split
      next hch => exact exec_blkSt_channel hi hm hc (mt eq_blockChan_iff.mp hch)
      next hch =>
        obtain rfl := eq_blockChan_iff.mpr (not_not.mp hch)
        split
        next hf => exact exec_blkSt_nonfinite hi hm hc hf
        next hf =>
          have hfin : ∀ r c, (Mat.elem m r c).isFinite = true := by simpa using hf
          refine ⟨_, exec_blkSt_of hi hm hc hfin, rfl, fun r c => ⟨pix (Mat.elem m r c), ?_, pix_toNat _⟩, fun k hk => ?_⟩
          · rw [← wrkIndex_eq_blockOffset, ← Mat.elem_mapElems pix m]
            exact Buf.get_placed _ _ _ r c (fun _ _ => wrkIndex_inj _ _ _ _ _) (wrkIndex_lt _ r c hi)
          · exact Buf.get_placed_other _ _ _ _ fun r c => wrkIndex_eq_blockOffset _ r c ▸ hk r c
    next hnone => exact exec_blkSt_uninit hi hnone

/-- Settles O32: each refusal in its order, and 64 bytes written to the block's places. -/
theorem blkPutFlattensBlock : Obligations.BlkPutFlattensBlock := by
  intro i s
  split
  next hrange => exact exec_blkPut_operand (mt blkInPay_iff.mp (not_not.mpr hrange))
  next hrange =>
    obtain ⟨hi, hp⟩ := blkInPay_iff.mpr hrange
    split
    next m ch hm hc =>
      split
      next hch => exact exec_blkPut_channel hi hp hm hc (mt eq_blockChan_iff.mp hch)
      next hch =>
        obtain rfl := eq_blockChan_iff.mpr (not_not.mp hch)
        refine ⟨fun hbytes => exec_blkPut_notByte hi hp hm hc (byteValues_eq_none.mpr hbytes), fun hbytes => ?_⟩
        obtain ⟨b, hb⟩ := Option.ne_none_iff_exists'.mp (mt byteValues_eq_none.mp (not_not.mpr hbytes))
        refine ⟨_, exec_blkPut_of hi hp hm hc hb, rfl, fun r c => ⟨Mat.elem b r c, ?_, ?_⟩, fun k hk => ?_⟩
        · exact Buf.get_placed _ _ _ r c (fun _ _ => payIndex_inj _ _ _ _ _) (payIndex_lt _ r c hi)
        · exact byteValue?_eq_some.mp (by simpa using (Mat.values?_eq_some _ _).mp hb r c)
        · refine Buf.get_placed_other _ _ _ _ fun r c hplace => ?_
          have := payIndex_range i.toNat r c
          omega
    next hnone => exact exec_blkPut_uninit hi hp hnone

/-! ### BLK written directly (R211, R212) -/

theorem eq_elemRow_and_elemCol_iff {k : BitVec 8} (hk : elemLegal k) (r c : Fin 8) :
    r = elemRow k ∧ c = elemCol k ↔ (r : Nat) = k.toNat / 8 ∧ (c : Nat) = k.toNat % 8 := by
  simp only [elemRow, elemCol, Fin.ext_iff, Fin.val_ofNat]
  omega

theorem chanOf_num {k : BitVec 8} (hk : chLegal k) : (chanOf k).num = k.toNat := by
  unfold chanOf
  split
  next h => exact h.symm
  next h0 =>
    split
    next h => exact h.symm
    next h1 =>
      change 2 = k.toNat
      omega

theorem exec_blkWr_operand {k : BitVec 8} {v : BitVec 64} {s : State} (h : ¬ (elemLegal k ∧ f64Legal v)) :
    exec (.blkWr k v) s = .next (s.enterFault (operandTrap 4)) := by
  rw [exec_eq_retire, body, bodyBlkWr, if_neg h, retire_error]

theorem exec_blkWr_of {k : BitVec 8} {v : BitVec 64} {s : State} (h : elemLegal k ∧ f64Legal v) :
    exec (.blkWr k v) s = .next { s with
      blk := Mat.put s.blk (elemRow k) (elemCol k) (some (F64.ofBits v)), cp := s.cp + 1 } := by
  rw [exec_eq_retire, body, bodyBlkWr, if_pos h, retire_ok]

theorem exec_blkCh_operand {k : BitVec 8} {s : State} (h : ¬ chLegal k) :
    exec (.blkCh k) s = .next (s.enterFault (operandTrap 4)) := by
  rw [exec_eq_retire, body, bodyBlkCh, if_neg h, retire_error]

theorem exec_blkCh_of {k : BitVec 8} {s : State} (h : chLegal k) :
    exec (.blkCh k) s = .next { s with bch := some (chanOf k), cp := s.cp + 1 } := by
  rw [exec_eq_retire, body, bodyBlkCh, if_pos h, retire_ok]

/-- Settles O34: legal bits are a finite value with the magnitude of their fields, put at the one place the operand
names; a legal tag is its channel's number. -/
theorem blkWrAndBlkChWrite : Obligations.BlkWrAndBlkChWrite := by
  refine ⟨fun k v s => ?_, fun k s => ?_⟩
  · have hlegal : elemLegal k ∧ f64Legal v ↔ ¬ (63 < k.toNat ∨ v.extractLsb' 52 11 = 0x7FF#11) := by
      rw [not_or, Nat.not_lt, ← Nat.lt_succ_iff]
    split
    next hbad => exact exec_blkWr_operand (mt hlegal.mp (not_not.mpr hbad))
    next hgood =>
      have hkv := hlegal.mpr hgood
      obtain ⟨m, hbits, hm⟩ := F64.ofBits_of_legal hkv.2
      refine ⟨_, exec_blkWr_of hkv, rfl, ⟨m, hbits, hm ▸ magUnits_fields v⟩, fun r c => ?_⟩
      rw [Mat.elem_put, if_congr (eq_elemRow_and_elemCol_iff hkv.1 r c) rfl rfl]
  · split
    next hbad => exact exec_blkCh_operand (by simp only [chLegal]; omega)
    next hgood =>
      have hk : chLegal k := by simp only [chLegal]; omega
      exact ⟨_, exec_blkCh_of hk, chanOf_num hk⟩

/-! ### The round trips and the partition (R201, R214) -/

theorem blkLd_then_blkSt_keeps_wrk {i : BitVec 32} {s : State} (hi : blkLegal i)
    (hwhole : ∀ r c, (s.wrk.get (blockOffset i.toNat r c)).isSome = true) :
    ∃ t u, exec (.blkLd i) s = .next t ∧ exec (.blkSt i) t = .next u ∧ u.cp = s.cp + 2 ∧
      ∀ k, u.wrk.get k = s.wrk.get k := by
  obtain ⟨m, hm⟩ : ∃ m, s.wrkBlock i.toNat = some m := Option.ne_none_iff_exists'.mp fun hnone => by
    obtain ⟨r, c, hhole⟩ := State.wrkBlock_eq_none.mp hnone
    simpa [hhole] using hwhole r c
  refine ⟨_, _, exec_blkLd_of hi hm, exec_blkSt_of hi (State.blkValues_takeBlock s i.toNat m) rfl (fun r c => ?_), rfl,
    Buf.get_placed_self (fun r c => wrkIndex_lt _ r c hi) fun r c => ?_⟩
  · rw [Mat.elem_mapElems]
    exact (F64.ofNat_byte_isInteger _).1
  · rw [Mat.elem_mapElems, Mat.elem_mapElems, pix_of_isInteger (F64.ofNat_byte_isInteger _)]
    exact State.wrkBlock_eq_some.mp hm r c

theorem blkGet_then_blkPut_keeps_pay {i : BitVec 32} {s : State} (hi : blkLegal i)
    (hp : 64 * i.toNat + 63 < s.payLen.toNat)
    (hwhole : ∀ k, k < 64 → (s.pay.get (64 * i.toNat + k)).isSome = true) :
    ∃ t u, exec (.blkGet i) s = .next t ∧ exec (.blkPut i) t = .next u ∧ u.cp = s.cp + 2 ∧
      (∀ k, u.pay.get k = s.pay.get k) ∧ u.freq = none ∧ u.lens = none ∧ u.hdr = none := by
  obtain ⟨m, hm⟩ : ∃ m, s.payBlock i.toNat = some m := Option.ne_none_iff_exists'.mp fun hnone => by
    obtain ⟨k, hhole⟩ := State.payBlock_eq_none.mp hnone
    simpa [hhole] using hwhole k k.isLt
  have hbytes : Mat.values? (Mat.mapElems byteValue? (Mat.mapElems (fun b : Byte => F64.ofNat b.toNat) m)) = some m := by
    rw [Mat.values?_eq_some]
    intro r c
    rw [Mat.elem_mapElems, Mat.elem_mapElems, byteValue?_eq_some.mpr (F64.ofNat_byte_isInteger _)]
  exact ⟨_, _, exec_blkGet_of hi hp hm, exec_blkPut_of hi hp (State.blkValues_takeBlock s i.toNat m) rfl hbytes, rfl,
    Buf.get_placed_self (fun r c => payIndex_lt _ r c hi) (State.payBlock_eq_some.mp hm), rfl, rfl, rfl⟩

/-- Settles O35: a block taken holds exact bytes, which are put back unrounded to the places they came from. -/
theorem segmentAndReassemble : Obligations.SegmentAndReassemble := by
  intro i s hrange
  have hi : blkLegal i := blkLegal_iff.mpr (Nat.not_lt.mpr hrange)
  exact ⟨blkLd_then_blkSt_keeps_wrk hi, blkGet_then_blkPut_keeps_pay hi⟩

theorem blockOffset_inj {i i' : Nat} {r c r' c' : Fin 8} (h : blockOffset i' r' c' = blockOffset i r c) :
    i' = i ∧ r' = r ∧ c' = c := by
  obtain rfl := blockOffset_block h
  rw [← wrkIndex_eq_blockOffset, ← wrkIndex_eq_blockOffset] at h
  exact ⟨rfl, wrkIndex_inj _ _ _ _ _ h⟩

/-- Settles O36: the 304128 offsets of the blocks' elements are those of a frame, and no two are the same. -/
theorem blocksPartitionFrame : Obligations.BlocksPartitionFrame := by
  refine ⟨fun j hj => ?_, fun i r c hi => blockOffset_lt r c (Nat.lt_succ_of_le hi)⟩
  obtain ⟨i, r, c, hi, rfl⟩ := wrkIndex_onto j hj
  rw [wrkIndex_eq_blockOffset]
  exact ⟨i, r, c, Nat.le_of_lt_succ hi, rfl, fun _ _ _ _ h => blockOffset_inj h⟩

end Machine

end Sys2Proof

/-! The transforms (43_dct.md R230 to R241). A two-dimensional pass is the eight-point pass on every row and on every
column, and the columns of a block are the rows of its transpose. -/

namespace Sys2Proof

/-! ### Columns -/

theorem Mat.get_transpose {α : Type} (m : Mat α) (c : Fin 8) :
    Oct.get (Mat.transpose m) c = Oct.ofFn fun r => Mat.elem m r c := Oct.get_ofFn _ c

theorem Mat.column_transpose {α : Type} (m : Mat α) (c : Fin 8) :
    (Oct.ofFn fun r => Mat.elem (Mat.transpose m) r c) = Oct.get m c :=
  Oct.ext_get _ _ fun r => by rw [Oct.get_ofFn, Mat.elem_transpose, Mat.elem]

namespace Machine

theorem fdct2d_column (m : Mat F64) (c : Fin 8) : (Oct.ofFn fun r => Mat.elem (fdct2d m) r c) =
    fdct8 (Oct.ofFn fun r => Mat.elem (Oct.map fdct8 m) r c) := by
  rw [fdct2d, Mat.column_transpose, Oct.get_map, Mat.get_transpose]

/-- The block between the two passes of IDCT2D. -/
theorem idct2d_first_pass_column (m : Mat F64) (c : Fin 8) :
    (Oct.ofFn fun r => Mat.elem (Mat.transpose (Oct.map idct8 (Mat.transpose m))) r c) =
      idct8 (Oct.ofFn fun r => Mat.elem m r c) := by
  rw [Mat.column_transpose, Oct.get_map, Mat.get_transpose]

/-! ### The commands (R236, R241) -/

section
variable {s : State} {m : Mat F64}

theorem exec_fdct_uninit (h : s.blkValues = none) : exec .fdct s = .next (s.enterFault (uninitTrap 5)) := by
  rw [exec_eq_retire, body, bodyFdct, h, retire_error]

theorem exec_fdct_of (h : s.blkValues = some m) :
    exec .fdct s = .next { s with blk := Mat.mapElems some (fdct2d m), cp := s.cp + 1 } := by
  rw [exec_eq_retire, body, bodyFdct_of h, retire_ok, State.setBlk]

theorem exec_idct_uninit (h : s.blkValues = none) : exec .idct s = .next (s.enterFault (uninitTrap 5)) := by
  rw [exec_eq_retire, body, bodyIdct, h, retire_error]

theorem exec_idct_of (h : s.blkValues = some m) :
    exec .idct s = .next { s with blk := Mat.mapElems some (idct2d m), cp := s.cp + 1 } := by
  rw [exec_eq_retire, body, bodyIdct_of h, retire_ok, State.setBlk]

end

/-- Settles O37: the passes are those of rows and columns, and the intermediate values of R233 are those the eight-point
pass computes, in its order. -/
theorem fdctTransforms : Obligations.FdctTransforms := by
  refine ⟨fun s => ?_, fun x => ?_⟩
  · split
    next hnone => exact exec_fdct_uninit hnone
    next m hsome => exact ⟨fdct2d m, Oct.map fdct8 m, exec_fdct_of hsome, Oct.get_map fdct8 m, fdct2d_column m⟩
  · -- each intermediate value is the one its own equation names
    iterate 29 apply Exists.intro
    and_intros
    all_goals rfl

/-- Settles O38: the passes are those of columns and rows, and the intermediate values of R238 are those the inverse pass
computes, in its order. -/
theorem idctTransforms : Obligations.IdctTransforms := by
  refine ⟨fun s => ?_, fun x => ?_⟩
  · split
    next hnone => exact exec_idct_uninit hnone
    next m hsome => exact ⟨idct2d m, _, exec_idct_of hsome, idct2d_first_pass_column m, Oct.get_map idct8 _⟩
  · -- each intermediate value is the one its own equation names
    iterate 30 apply Exists.intro
    and_intros
    all_goals rfl

end Machine

end Sys2Proof

/-! Binary64 arithmetic (43_dct.md R230). A finite magnitude's pattern counts the finite values below it, so magnitudes
are ordered as their patterns are. The rounding takes the nearest multiple of one quantum. Every other value is such a
multiple, or lies below the least value of that quantum and is farther away. Overflow is the same comparison with the
pattern of infinity, read as a magnitude. -/

namespace Sys2Proof

/-! ### Magnitudes and their patterns -/

theorem magUnits_lt_succ (p : Nat) : magUnits p < magUnits (p + 1) := by
  have hpos : 0 < 2 ^ (p / 2 ^ 52 - 1) := Nat.two_pow_pos _
  by_cases hcarry : p % 2 ^ 52 = 2 ^ 52 - 1
  · have hdiv : (p + 1) / 2 ^ 52 = p / 2 ^ 52 + 1 := by omega
    have hmod : (p + 1) % 2 ^ 52 = 0 := by omega
    rw [magUnits, magUnits, hdiv, hmod, hcarry, if_neg (Nat.succ_ne_zero _), Nat.add_sub_cancel]
    split
    next hzero => rw [hzero]; omega
    next hexp =>
      rw [show 2 ^ (p / 2 ^ 52) = 2 * 2 ^ (p / 2 ^ 52 - 1) by rw [← pow_succ', Nat.sub_add_cancel (by omega)]]
      omega
  · have hdiv : (p + 1) / 2 ^ 52 = p / 2 ^ 52 := by omega
    have hmod : (p + 1) % 2 ^ 52 = p % 2 ^ 52 + 1 := by omega
    rw [magUnits, magUnits, hdiv, hmod]
    split
    · exact Nat.lt_succ_self p
    · exact Nat.mul_lt_mul_of_pos_right (by omega) hpos

theorem magUnits_strictMono : StrictMono magUnits := strictMono_nat_of_lt_succ magUnits_lt_succ

theorem magUnits_pos {p : Nat} (h : p ≠ 0) : 0 < magUnits p := magUnits_strictMono (Nat.pos_of_ne_zero h)

/-- A value is a multiple of the quantum `2^e`, or it lies below the least normal value of that quantum. -/
theorem magUnits_dvd_or_lt (p e : Nat) : 2 ^ e ∣ magUnits p ∨ 0 < e ∧ magUnits p < 2 ^ 52 * 2 ^ e := by
  rcases Nat.eq_zero_or_pos e with rfl | he
  · exact .inl (one_dvd _)
  by_cases hexp : p / 2 ^ 52 ≤ e
  · have hleast : magUnits ((e + 1) * 2 ^ 52) = 2 ^ 52 * 2 ^ e := by
      rw [magUnits, Nat.mul_div_cancel _ (by decide), Nat.mul_mod_left, if_neg e.succ_ne_zero, Nat.add_sub_cancel,
        Nat.add_zero]
    exact .inr ⟨he, hleast ▸ magUnits_strictMono (by omega)⟩
  · rw [magUnits, if_neg (by omega)]
    exact .inl (Dvd.dvd.mul_left (Nat.pow_dvd_pow 2 (by omega)) _)

/-- The pattern of infinity, read as a magnitude: one quantum above the largest finite value. -/
theorem magUnits_magBound : magUnits magBound = 2 ^ 54 * 2 ^ 2044 := by decide +kernel

theorem magUnits_largest : magUnits (magBound - 1) = (2 ^ 54 - 2) * 2 ^ 2044 := by decide +kernel

/-! ### Rounding to the nearest multiple -/

/-- The rounding errs by half of `d` at most, and by exactly half only towards an even result. -/
theorem roundNearestEven_error (n : Nat) {d : Nat} (hd : 0 < d) :
    2 * |(n : Int) - roundNearestEven n d * d| ≤ d ∧
      (2 * |(n : Int) - roundNearestEven n d * d| = d → roundNearestEven n d % 2 = 0) := by
  have hsplit : (n : Int) = (n / d : Nat) * d + (n % d : Nat) := by exact_mod_cast (Nat.div_add_mod' n d).symm
  have hrem : n % d < d := Nat.mod_lt n hd
  have hdown : |(n : Int) - (n / d : Nat) * d| = (n % d : Nat) := by
    rw [hsplit, add_sub_cancel_left, Nat.abs_cast]
  have hup : |(n : Int) - (n / d + 1 : Nat) * d| = d - (n % d : Nat) := by
    rw [show (n : Int) - (n / d + 1 : Nat) * d = -(d - (n % d : Nat)) by rw [Nat.cast_succ]; linarith, abs_neg,
      abs_of_nonneg (by omega)]
  unfold roundNearestEven
  split
  next hlow => rw [hdown]; omega
  next =>
    split
    next hhigh => rw [hup]; omega
    next htie =>
      rcases Nat.mod_two_eq_zero_or_one (n / d) with heven | hodd
      · rw [heven, Nat.add_zero, hdown]; omega
      · rw [hodd, hup]; omega

/-- No multiple of `d` is nearer to `n` than the rounded one, which is even when another is as near: two multiples are
at least `d` apart. -/
theorem roundNearestEven_nearest (n j : Nat) {d : Nat} (hd : 0 < d) :
    |(n : Int) - roundNearestEven n d * d| ≤ |(n : Int) - j * d| ∧
      (|(n : Int) - roundNearestEven n d * d| = |(n : Int) - j * d| → j ≠ roundNearestEven n d →
        roundNearestEven n d % 2 = 0) := by
  obtain ⟨herr, htie⟩ := roundNearestEven_error n hd
  generalize roundNearestEven n d = r at *
  by_cases hj : j = r
  · exact ⟨hj ▸ le_rfl, fun _ h => absurd hj h⟩
  · have hapart : (d : Int) ≤ |(r : Int) * d - j * d| := by
      rw [← sub_mul, abs_mul, Nat.abs_cast]
      exact le_mul_of_one_le_left (Int.natCast_nonneg d) (Int.one_le_abs (by omega))
    have htri := abs_sub_le ((r : Int) * d) n (j * d)
    rw [abs_sub_comm _ (n : Int)] at htri
    exact ⟨by linarith, fun heq _ => htie (by linarith)⟩

/-! ### Rounding to a finite value -/

theorem nearestMag_mod_two (n d : Nat) :
    nearestMag n d % 2 = roundNearestEven n (d * 2 ^ nearestShift n d) % 2 := by
  rw [nearestMag]; omega

/-- From the second quantum on, the exact value is at least the least normal value of its quantum. -/
theorem least_normal_le {n d : Nat} (h : 0 < nearestShift n d) : 2 ^ 52 * 2 ^ nearestShift n d * d ≤ n :=
  (Nat.mul_le_mul_right d (le_div_nearest h)).trans (Nat.div_mul_le_self n d)

/-- No pattern, that of infinity and those beyond it included, has a magnitude nearer to `n / d` than the rounded one,
which is even when another is as near. -/
theorem nearestMag_nearest (n k : Nat) {d : Nat} (hd : 0 < d) :
    |(n : Int) - magUnits (nearestMag n d) * d| ≤ |(n : Int) - magUnits k * d| ∧
      (|(n : Int) - magUnits (nearestMag n d) * d| = |(n : Int) - magUnits k * d| → k ≠ nearestMag n d →
        nearestMag n d % 2 = 0) := by
  have hround := magUnits_nearestMag (n := n) hd
  have hinj : magUnits k = magUnits (nearestMag n d) ↔ k = nearestMag n d := magUnits_strictMono.injective.eq_iff
  have hnear := fun j => roundNearestEven_nearest n j (Nat.mul_pos hd (Nat.two_pow_pos (nearestShift n d)))
  have hscale (j : Nat) : (j : Int) * (d * 2 ^ nearestShift n d : Nat) = (j * 2 ^ nearestShift n d : Nat) * d := by
    push_cast; ring
  simp only [hscale, ← hround, ← nearestMag_mod_two] at hnear
  rcases magUnits_dvd_or_lt k (nearestShift n d) with ⟨j, hj⟩ | ⟨hpos, hlt⟩
  · obtain ⟨hle, htie⟩ := hnear j
    rw [Nat.mul_comm j, ← hj] at hle htie
    refine ⟨hle, fun heq hne => htie heq fun hjr => hne (hinj.mp ?_)⟩
    rw [hround, hj, hjr, Nat.mul_comm]
  · have hle := (hnear (2 ^ 52)).1
    have hfar : |(n : Int) - (2 ^ 52 * 2 ^ nearestShift n d : Nat) * d| < |(n : Int) - magUnits k * d| := by
      have hn := least_normal_le hpos
      have hk := Nat.mul_lt_mul_of_pos_right hlt hd
      zify at hn hk
      rw [abs_of_nonneg (by push_cast; linarith), abs_of_nonneg (by linarith)]
      push_cast
      linarith
    exact ⟨(hle.trans_lt hfar).le, fun heq => absurd heq (hle.trans_lt hfar).ne⟩

/-- Rounding overflows from half a quantum beyond the largest finite value on: there the pattern of infinity, which is
even, is as near as that of the largest value, which is odd. -/
theorem nearestMag_lt_magBound_iff (n : Nat) {d : Nat} (hd : 0 < d) :
    nearestMag n d < magBound ↔ n < (2 ^ 54 - 1) * 2 ^ 2044 * d := by
  have hunit : 0 < 2 ^ 2044 * d := by positivity
  have hinf : magUnits magBound * d = 2 ^ 54 * (2 ^ 2044 * d) := by rw [magUnits_magBound, Nat.mul_assoc]
  have hmax : magUnits (magBound - 1) * d = (2 ^ 54 - 2) * (2 ^ 2044 * d) := by rw [magUnits_largest, Nat.mul_assoc]
  rw [Nat.mul_assoc]
  constructor
  · intro hlt
    obtain ⟨hle, htie⟩ := nearestMag_nearest n magBound hd
    have hmag := Nat.mul_le_mul_right d (magUnits_strictMono.monotone (Nat.le_sub_one_of_lt hlt))
    have heq : nearestMag n d % 2 = 0 → magUnits (nearestMag n d) * d < magUnits (magBound - 1) * d := fun heven =>
      Nat.mul_lt_mul_of_pos_right (magUnits_strictMono (by simp only [magBound] at hlt ⊢; omega)) hd
    simp only [← Nat.cast_mul, hinf, hmax, Int.abs_eq_natAbs] at hle htie hmag heq
    omega
  · intro hlt
    by_contra hge
    have hle := (nearestMag_nearest n (magBound - 1) hd).1
    have hmag := Nat.mul_le_mul_right d (magUnits_strictMono.monotone (Nat.not_lt.mp hge))
    simp only [← Nat.cast_mul, hinf, hmax, Int.abs_eq_natAbs] at hle hmag
    omega

/-- Rounding is to the nearest finite value, ties to even, with overflow to infinity (R230). -/
theorem F64.nearest_isNearest (neg : Bool) (n : Nat) {d : Nat} (hd : 0 < d) :
    (F64.nearest neg n d).isNearest neg n d := by
  rw [F64.nearest_eq]
  split
  next hfin =>
    exact .inr ⟨_, rfl, (nearestMag_lt_magBound_iff n hd).mp hfin, fun k =>
      (nearestMag_nearest n k hd).imp_right fun htie heq hne => htie heq (Fin.val_ne_of_ne hne)⟩
  next hinf => exact .inl ⟨rfl, Nat.not_lt.mp (mt (nearestMag_lt_magBound_iff n hd).mpr hinf)⟩

/-! ### The operations on finite values -/

theorem F64.units_neg (x : F64) : x.neg.units = -x.units := by
  match x with
  | .nan => rfl
  | .inf _ => rfl
  | .fin true m => exact (Int.neg_neg _).symm
  | .fin false m => rfl

section
variable (s t : Bool) (a b : Fin magBound)

theorem F64.add_fin : (F64.fin s a).add (.fin t b) =
    if (F64.fin s a).units + (F64.fin t b).units = 0 then .fin (s && t) ⟨0, by decide⟩
    else F64.nearest (decide ((F64.fin s a).units + (F64.fin t b).units < 0))
      ((F64.fin s a).units + (F64.fin t b).units).natAbs 1 := rfl

theorem F64.add_fin_isNearest (h : (F64.fin s a).units + (F64.fin t b).units ≠ 0) :
    ((F64.fin s a).add (.fin t b)).isNearest (decide ((F64.fin s a).units + (F64.fin t b).units < 0))
      ((F64.fin s a).units + (F64.fin t b).units).natAbs 1 := by
  rw [F64.add_fin, if_neg h]
  exact F64.nearest_isNearest _ _ Nat.one_pos

theorem F64.add_fin_of_zero (h : (F64.fin s a).units + (F64.fin t b).units = 0) :
    (F64.fin s a).add (.fin t b) = .fin (s && t) ⟨0, by decide⟩ := by
  rw [F64.add_fin, if_pos h]

/-- Subtraction adds the negated operand. -/
theorem F64.sub_fin_isNearest (h : (F64.fin s a).units - (F64.fin t b).units ≠ 0) :
    ((F64.fin s a).sub (.fin t b)).isNearest (decide ((F64.fin s a).units - (F64.fin t b).units < 0))
      ((F64.fin s a).units - (F64.fin t b).units).natAbs 1 := by
  rw [sub_eq_add_neg, ← F64.units_neg] at h ⊢
  exact F64.add_fin_isNearest s (!t) a b h

theorem F64.sub_fin_of_zero (h : (F64.fin s a).units - (F64.fin t b).units = 0) :
    (F64.fin s a).sub (.fin t b) = .fin (s && !t) ⟨0, by decide⟩ := by
  rw [sub_eq_add_neg, ← F64.units_neg] at h
  exact F64.add_fin_of_zero s (!t) a b h

theorem F64.mul_fin : (F64.fin s a).mul (.fin t b) =
    F64.nearest (s != t) (magUnits a * magUnits b) unitsPerOne := rfl

theorem F64.mul_fin_isNearest :
    ((F64.fin s a).mul (.fin t b)).isNearest (s != t) (magUnits a * magUnits b) unitsPerOne := by
  rw [F64.mul_fin]
  exact F64.nearest_isNearest _ _ (Int.natCast_pos.mp Machine.unitsPerOne_pos)

theorem F64.div_fin : (F64.fin s a).div (.fin t b) = if (b : Nat) = 0 then (if (a : Nat) = 0 then .nan else .inf (s != t))
    else F64.nearest (s != t) (magUnits a * unitsPerOne) (magUnits b) := rfl

theorem F64.div_fin_isNearest (h : (b : Nat) ≠ 0) :
    ((F64.fin s a).div (.fin t b)).isNearest (s != t) (magUnits a * unitsPerOne) (magUnits b) := by
  rw [F64.div_fin, if_neg h]
  exact F64.nearest_isNearest _ _ (magUnits_pos h)

/-! ### Infinities and NaNs -/

theorem F64.sub_inf_inf : (F64.inf s).sub (.inf t) = if s = t then .nan else .inf s := by
  cases s <;> cases t <;> rfl

theorem F64.mul_inf_fin_comm : (F64.fin t b).mul (.inf s) = (F64.inf s).mul (.fin t b) := by
  show (if (b : Nat) = 0 then F64.nan else .inf (t != s)) = if (b : Nat) = 0 then .nan else .inf (s != t)
  rw [bne_comm]

end

theorem F64.nan_right (x : F64) : x.add .nan = .nan ∧ x.sub .nan = .nan ∧ x.mul .nan = .nan ∧ x.div .nan = .nan := by
  cases x <;> exact ⟨rfl, rfl, rfl, rfl⟩

/-- Settles O39: every operation on finite values is one rounding of its exact result, and the rounding is to nearest. -/
theorem roundingIsNearestEven : Obligations.RoundingIsNearestEven := by
  refine ⟨fun neg n d hd => F64.nearest_isNearest neg n hd, fun n => F64.ofNat_isInteger, ?_, ?_, fun x => ?_⟩
  · rintro s t a b _ _ rfl rfl
    exact ⟨F64.add_fin_isNearest s t a b, F64.add_fin_of_zero s t a b, F64.sub_fin_isNearest s t a b,
      F64.sub_fin_of_zero s t a b, F64.mul_fin_isNearest s t a b, F64.div_fin_isNearest s t a b,
      fun hb => (F64.div_fin s t a b).trans (if_pos hb), rfl, F64.units_neg _⟩
  · rintro s t b _ _ _ rfl rfl rfl
    exact ⟨rfl, F64.sub_inf_inf s t, rfl, rfl, rfl, rfl, rfl, rfl, F64.mul_inf_fin_comm s t b, rfl, rfl, rfl, rfl⟩
  · obtain ⟨hadd, hsub, hmul, hdiv⟩ := F64.nan_right x
    exact ⟨rfl, hadd, rfl, hsub, rfl, hmul, rfl, hdiv, rfl⟩

end Sys2Proof

/-! The quantizer (44_quant.md R260 to R271). The rounded quotient is at least a positive number exactly
when the quotient is at least that number less a half, and the clamp changes nothing about this for numbers in 9 to 255.
What QUANT gives at the ends, between them and on exact multiples follows from this one equivalence. -/

namespace Sys2Proof

/-! ### Integers multiplied in binary64 (43_dct.md R230) -/

/-- A common factor does not change the rounding. -/
theorem roundNearestEven_mul_mul (n d : Nat) {c : Nat} (hc : 0 < c) :
    roundNearestEven (n * c) (d * c) = roundNearestEven n d := by
  simp only [roundNearestEven, Nat.mul_div_mul_right n d hc, Nat.mul_mod_mul_right, ← Nat.mul_assoc,
    Nat.mul_lt_mul_right hc]

/-- The rounding sees the quotient only. -/
theorem F64.nearest_mul_self (neg : Bool) (n : Nat) {d : Nat} (hd : 0 < d) :
    F64.nearest neg (n * d) d = F64.nearest neg n 1 := by
  have hround (k : Nat) : roundNearestEven (n * d) (d * 2 ^ k) = roundNearestEven n (1 * 2 ^ k) := by
    rw [Nat.mul_comm d, Nat.one_mul, roundNearestEven_mul_mul n _ hd]
  have hmag : nearestMag (n * d) d = nearestMag n 1 := by
    rw [nearestMag, nearestMag, hround, nearestShift, nearestShift, Nat.mul_div_cancel n hd, Nat.div_one]
  simp only [F64.nearest_eq, hmag]

theorem F64.ofNat_eq_fin {n : Nat} (h : n < 2 ^ 53) :
    ∃ m : Fin magBound, F64.ofNat n = .fin false m ∧ magUnits m = n * unitsPerOne := by
  have hfin : (F64.ofNat n).isFinite = true := (F64.ofNat_isInteger h).1
  rw [F64.ofNat, F64.nearest_eq] at hfin ⊢
  split at hfin
  next hb => exact ⟨_, dif_pos hb, magUnits_nearestMag_of_lt 1074 h⟩
  next => exact Bool.noConfusion hfin

/-- A product of integers is the integer product, rounded once. -/
theorem F64.ofNat_mul_ofNat {a b : Nat} (ha : a < 2 ^ 53) (hb : b < 2 ^ 53) :
    (F64.ofNat a).mul (F64.ofNat b) = F64.ofNat (a * b) := by
  obtain ⟨p, hp, hpu⟩ := F64.ofNat_eq_fin ha
  obtain ⟨r, hr, hru⟩ := F64.ofNat_eq_fin hb
  rw [hp, hr, F64.mul_fin, hpu, hru, ← Nat.mul_assoc, F64.nearest_mul_self _ _ (Nat.two_pow_pos 1074),
    Nat.mul_right_comm]
  rfl

theorem Mat.every_eq_false_iff {α : Type} (p : α → Bool) (m : Mat α) :
    Mat.every p m = false ↔ ∃ r c, p (Mat.elem m r c) = false := by
  rw [← Bool.not_eq_true, Mat.every_iff]
  simp only [not_forall, Bool.not_eq_true]

namespace Machine

/-! ### The local table (R260, R262) -/

theorem localEntry_pos {t : Nat} (q : Nat) (ht : 0 < t) : 0 < localEntry q t := by
  unfold localEntry
  split
  · omega
  · split <;> omega

/-- Both base tables are made of configured bits. -/
theorem baseTable_eq (ch : Chan) : (if ch = .y then qtLuma else qtChroma) =
    Mat.mapElems baseEntry (if ch = .y then Config.qtLumaBits else Config.qtChromaBits) := by
  split <;> rfl

theorem lqt_pos (ch : Chan) (q : Nat) (r c : Fin 8) :
    0 < Mat.elem (lqt (if ch = .y then qtLuma else qtChroma) q) r c := by
  rw [baseTable_eq, lqt, Mat.elem_mapElems, Mat.elem_mapElems]
  exact localEntry_pos q (Nat.le_max_left 1 _)

theorem lqt_fifty (table : Mat Nat) : lqt table 50 = table :=
  Mat.ext_elem _ _ fun _ _ => Mat.elem_mapElems _ _ _ _

/-! ### One coefficient (R263, R264) -/

/-- A positive `k` is reached from the quotient `k - 1/2` on, and never from a negative one (00_scope.md R11). -/
theorem le_roundHalfAway_iff {k n : Int} {d : Nat} (hd : 0 < d) (hk : 0 < k) :
    k ≤ roundHalfAway n d ↔ (2 * k - 1) * d ≤ 2 * n := by
  have hdk : (d : Int) ≤ k * d := le_mul_of_one_le_left (Int.natCast_nonneg d) hk
  rw [show (2 * k - 1) * d = 2 * (k * d) - d by ring, roundHalfAway]
  split
  next hn =>
    rw [Int.le_ediv_iff_mul_le (by omega), show k * (2 * (d : Int)) = 2 * (k * d) by ring]
    omega
  next hn =>
    have hquot : 0 ≤ (2 * (-n) + d) / (2 * d) := Int.ediv_nonneg (by omega) (by omega)
    omega

theorem le_qz (v : F64) (l : Nat) : 8 ≤ qz v l := by
  rw [qz, clampInt_eq_max_min (by decide)]
  omega

section
variable {v : F64} {l k : Nat}

/-- The clamp leaves the numbers 9 to 255 where the rounding has them. -/
theorem le_qz_iff (hl : 0 < l) (hlo : 8 < k) (hhi : k ≤ 255) :
    k ≤ qz v l ↔ (2 * (k : Int) - 1) * (l * unitsPerOne) ≤ 2 * v.units := by
  have hunit : 0 < l * unitsPerOne := Nat.mul_pos hl (Int.natCast_pos.mp unitsPerOne_pos)
  have hk : 0 < (k : Int) := Int.natCast_pos.mpr (Nat.zero_lt_of_lt hlo)
  rw [← Nat.cast_mul, ← le_roundHalfAway_iff hunit hk, qz, clampInt_eq_max_min (by decide)]
  omega

theorem units_mul_pos (hl : 0 < l) : 0 < (l : Int) * unitsPerOne :=
  Int.mul_pos (by omega) unitsPerOne_pos

/-- A quotient below 8.5. -/
theorem qz_eq_eight (hl : 0 < l) (h : 2 * v.units < 17 * (l * unitsPerOne)) : qz v l = 8 := by
  refine le_antisymm (not_lt.mp fun hnine => ?_) (le_qz v l)
  have hhalf := (le_qz_iff hl (by decide) (by decide)).mp (Nat.succ_le_of_lt hnine)
  rw [Nat.cast_succ, Nat.cast_ofNat] at hhalf
  linarith

/-- A quotient of 254.5 or more. -/
theorem qz_eq_max (hl : 0 < l) (h : 509 * (l * unitsPerOne) ≤ 2 * v.units) : qz v l = 255 :=
  (qz_le v l).antisymm ((le_qz_iff hl (by decide) le_rfl).mpr (by rw [Nat.cast_ofNat]; linarith))

/-- A quotient that is not clamped is moved by half at most, and up from a half. -/
theorem qz_nearest (hl : 0 < l) (hlo : 17 * (l * unitsPerOne) ≤ 2 * v.units)
    (hhi : 2 * v.units < 509 * (l * unitsPerOne)) :
    (2 * (qz v l : Int) - 1) * (l * unitsPerOne) ≤ 2 * v.units ∧
      2 * v.units < (2 * (qz v l : Int) + 1) * (l * unitsPerOne) := by
  have hunit := units_mul_pos hl
  constructor
  · rcases (le_qz v l).eq_or_lt with height | habove
    · rw [← height, Nat.cast_ofNat]; linarith
    · exact (le_qz_iff hl habove (qz_le v l)).mp le_rfl
  · rcases (qz_le v l).eq_or_lt with hmax | hbelow
    · rw [hmax, Nat.cast_ofNat]; linarith
    · have hsucc := mt (le_qz_iff hl (Nat.lt_succ_of_le (le_qz v l)) hbelow).mpr (Nat.not_succ_le_self _)
      rw [not_le, Nat.cast_succ] at hsucc
      linarith

/-- The quotient of an exact multiple is not rounded, and within 8 to 255 not clamped. -/
theorem qz_of_multiple (hl : 0 < l) (hv : v.units = (k * l : Nat) * unitsPerOne) (hlo : 8 ≤ k) (hhi : k ≤ 255) :
    qz v l = k := by
  have hunit := units_mul_pos hl
  have hv' : v.units = k * ((l : Int) * unitsPerOne) := by rw [hv, Nat.cast_mul, mul_assoc]
  have hle : k ≤ qz v l := by
    rcases hlo.eq_or_lt with rfl | habove
    · exact le_qz v l
    · rw [le_qz_iff hl habove hhi]; linarith
  have hge : qz v l ≤ k := by
    rcases hhi.eq_or_lt with rfl | hbelow
    · exact qz_le v l
    · rw [← Nat.lt_succ_iff, ← not_le, le_qz_iff hl (Nat.lt_succ_of_le hlo) hbelow, Nat.cast_succ]; linarith
  exact hge.antisymm hle

end

/-- Such a multiple has at most 53 bits. -/
theorem multiple_lt {k l : Nat} (hk : k ≤ 255) (hl : l ≤ 2 ^ 45) : k * l < 2 ^ 53 :=
  (Nat.mul_le_mul hk hl).trans_lt (by decide)

/-- QUANT takes the factor out of `f64(k·l)` (R270). -/
theorem qz_ofNat_mul {k l : Nat} (hl : 0 < l) (hlo : 8 ≤ k) (hhi : k ≤ 255) (hsmall : l ≤ 2 ^ 45) :
    qz (F64.ofNat (k * l)) l = k :=
  qz_of_multiple hl (F64.ofNat_isInteger (multiple_lt hhi hsmall)).2 hlo hhi

/-! ### The commands (R265, R268) -/

theorem State.quantOperands_eq_none {s : State}
    (h : ∀ m ch q, Mat.values? s.blk = some m → s.bch = some ch → s.quality = some q → False) :
    s.quantOperands = none := by
  rw [Option.eq_none_iff_forall_ne_some]
  rintro ⟨m, t⟩ hsome
  obtain ⟨hm, ch, q, hch, hq, -⟩ := State.quantOperands_eq_some.mp hsome
  exact h m ch q hm hch hq

section
variable {s : State} {m : Mat F64} {t : Mat Nat}

theorem exec_quant_uninit (h : s.quantOperands = none) : exec .quant s = .next (s.enterFault (uninitTrap 6)) := by
  rw [exec_eq_retire, body, bodyQuant, h, retire_error]

theorem exec_quant_nonfinite (h : s.quantOperands = some (m, t)) (hf : ∃ r c, (Mat.elem m r c).isFinite = false) :
    exec .quant s = .next (s.enterFault ⟨.nonfinite, 6, 0⟩) := by
  rw [exec_eq_retire, body, bodyQuant, h]
  simp only [if_pos ((Mat.every_eq_false_iff _ _).mpr hf), retire_error]

theorem exec_quant_of (h : s.quantOperands = some (m, t)) (hf : ∀ r c, (Mat.elem m r c).isFinite = true) :
    exec .quant s = .next { s with blk := Mat.mapElems some (quantBlock t m), cp := s.cp + 1 } := by
  rw [exec_eq_retire, body, bodyQuant_of h ((Mat.every_iff _ _).mpr hf), retire_ok, State.setBlk]

theorem exec_dequant_uninit (h : s.quantOperands = none) : exec .dequant s = .next (s.enterFault (uninitTrap 6)) := by
  rw [exec_eq_retire, body, bodyDequant, h, retire_error]

theorem exec_dequant_of (h : s.quantOperands = some (m, t)) :
    exec .dequant s = .next { s with blk := Mat.mapElems some (dequantBlock t m), cp := s.cp + 1 } := by
  rw [exec_eq_retire, body, bodyDequant_of h, retire_ok, State.setBlk]

end

/-- Settles O40: each of the three ranges of the quotient is read off `le_qz_iff`. -/
theorem quantQuantizes : Obligations.QuantQuantizes := by
  intro s
  split
  next m ch q hm hch hq =>
    have hops := State.quantOperands_eq_some.mpr ⟨hm, ch, q, hch, hq, rfl⟩
    split
    next hf => exact exec_quant_nonfinite hops hf
    next hf =>
      simp only [not_exists, Bool.not_eq_false] at hf
      refine ⟨_, exec_quant_of hops hf, rfl, fun r c => ?_⟩
      have hl := lqt_pos ch q.toNat r c
      refine ⟨qz (Mat.elem m r c) _, _, _, ?_, le_qz _ _, qz_le _ _, rfl, Mat.elem_mapElems _ _ r c, qz_eq_eight hl,
        qz_eq_max hl, qz_nearest hl⟩
      rw [Mat.elem_mapElems, quantBlock, Mat.elem_zipElems]
  next hnone => exact exec_quant_uninit (State.quantOperands_eq_none hnone)

/-- Settles O41: the product is the model's `dq`, element by element. -/
theorem dequantMultiplies : Obligations.DequantMultiplies := by
  intro s
  split
  next m ch q hm hch hq =>
    refine ⟨_, exec_dequant_of (State.quantOperands_eq_some.mpr ⟨hm, ch, q, hch, hq, rfl⟩), rfl, fun r c => ?_⟩
    rw [Mat.elem_mapElems, dequantBlock, Mat.elem_zipElems, dq]
  next hnone => exact exec_dequant_uninit (State.quantOperands_eq_none hnone)

/-! ### Exact multiples (R270) -/

/-- The block of the multiples `k·l` of a table's entries. -/
def multiplesOf (table : Mat Nat) (k : Fin 8 → Fin 8 → Nat) : Mat F64 :=
  Mat.tabulate fun r c => F64.ofNat (k r c * Mat.elem table r c)

@[simp] theorem elem_multiplesOf (table : Mat Nat) (k : Fin 8 → Fin 8 → Nat) (r c : Fin 8) :
    Mat.elem (multiplesOf table k) r c = F64.ofNat (k r c * Mat.elem table r c) := Mat.elem_tabulate _ r c

section
variable {table : Mat Nat} {k : Fin 8 → Fin 8 → Nat} (hk : ∀ r c, 8 ≤ k r c ∧ k r c ≤ 255)
  (hpos : ∀ r c, 0 < Mat.elem table r c) (hsmall : ∀ r c, Mat.elem table r c ≤ 2 ^ 45)
include hk hsmall

theorem multiplesOf_finite (r c : Fin 8) : (Mat.elem (multiplesOf table k) r c).isFinite = true := by
  rw [elem_multiplesOf]
  exact (F64.ofNat_isInteger (multiple_lt (hk r c).2 (hsmall r c))).1

include hpos in
theorem quantBlock_multiplesOf :
    quantBlock table (multiplesOf table k) = Mat.tabulate fun r c => F64.ofNat (k r c) :=
  Mat.ext_elem _ _ fun r c => by
    rw [quantBlock, Mat.elem_zipElems, elem_multiplesOf, Mat.elem_tabulate,
      qz_ofNat_mul (hpos r c) (hk r c).1 (hk r c).2 (hsmall r c)]

theorem dequantBlock_factors :
    dequantBlock table (Mat.tabulate fun r c => F64.ofNat (k r c)) = multiplesOf table k :=
  Mat.ext_elem _ _ fun r c => by
    have := hk r c
    have := hsmall r c
    rw [dequantBlock, Mat.elem_zipElems, elem_multiplesOf, Mat.elem_tabulate, dq,
      F64.ofNat_mul_ofNat (by omega) (by omega)]

end

/-- Settles O42: QUANT leaves the factors `k`, and DEQUANT's products with the table are exact. -/
theorem quantizeLosslessOnMultiples : Obligations.QuantizeLosslessOnMultiples := by
  refine ⟨lqt_fifty, fun s ch q k hq _ _ hch hk hblk => ?_⟩
  have hpos := lqt_pos ch q.toNat
  have hsmall : ∀ r c, Mat.elem (lqt (if ch = .y then qtLuma else qtChroma) q.toNat) r c ≤ 2 ^ 45 := by
    rw [baseTable_eq]
    exact lqt_le q.toNat
  generalize htable : lqt (if ch = .y then qtLuma else qtChroma) q.toNat = table at *
  have hops : s.quantOperands = some (multiplesOf table k, table) :=
    State.quantOperands_eq_some.mpr
      ⟨State.blkValues_eq_some.mpr fun r c => by simp [hblk], ch, q, hch, hq, htable.symm⟩
  have hquant := exec_quant_of hops (multiplesOf_finite hk hsmall)
  rw [quantBlock_multiplesOf hk hpos hsmall] at hquant
  refine ⟨_, _, hquant, exec_dequant_of (State.quantOperands_eq_some.mpr
    ⟨State.blkValues_setBlk s _, ch, q, hch, hq, htable.symm⟩), ?_⟩
  have hback : Mat.mapElems some (multiplesOf table k) = s.blk :=
    Mat.ext_elem _ _ fun r c => by simp [hblk]
  rw [dequantBlock_factors hk hsmall, hback]

end Machine

end Sys2Proof

/-! The code-length header (45_entropy.md R295, R296) and the freshness of the entropy tables (R282): `hdr` and `unhdr`
are inverse to each other, so the header HUF.LDH takes from ENC is that of the lengths it reads from it. -/

namespace Sys2Proof.Machine

/-! ### Nibbles -/

theorem toNat_append_nibbles (hi lo : BitVec 4) : (hi ++ lo).toNat = lo.toNat + 16 * hi.toNat := by
  rw [BitVec.toNat_append, ← Nat.shiftLeft_add_eq_or_of_lt lo.isLt, Nat.shiftLeft_eq]
  omega

theorem extract_low_nibble_toNat (b : Byte) : (b.extractLsb' 0 4).toNat = b.toNat % 16 := by
  simp

theorem extract_high_nibble_toNat (b : Byte) : (b.extractLsb' 4 4).toNat = b.toNat / 16 := by
  rw [BitVec.extractLsb'_toNat, Nat.shiftRight_eq_div_pow]
  have := b.isLt
  omega

theorem append_nibbles (b : Byte) : b.extractLsb' 4 4 ++ b.extractLsb' 0 4 = b := by
  apply BitVec.eq_of_toNat_eq
  rw [toNat_append_nibbles, extract_low_nibble_toNat, extract_high_nibble_toNat]
  omega

/-! ### The header symbol by symbol (R295) -/

theorem hdrOf_getElem? (l : List (BitVec 4)) {j : Nat} (hj : j < 128) :
    (hdrOf l)[j]? = some (l.getD (2 * j + 1) 0 ++ l.getD (2 * j) 0) := by
  simp [hdrOf, hj]

/-- Byte `j` holds the lengths of two symbols, the even one in the low nibble. -/
theorem hdrOf_nibbles (l : List (BitVec 4)) {j : Nat} (hj : j < 128) :
    ∃ b : Byte, (hdrOf l)[j]? = some b ∧ b.toNat = lenOf l (2 * j) + 16 * lenOf l (2 * j + 1) :=
  ⟨_, hdrOf_getElem? l hj, toNat_append_nibbles _ _⟩

theorem unhdr_getElem? (h : List Byte) (n : Nat) :
    (unhdr h)[n]? = h[n / 2]?.map fun b => if n % 2 = 0 then b.extractLsb' 0 4 else b.extractLsb' 4 4 := by
  induction h generalizing n with
  | nil => simp [unhdr]
  | cons b bs ih =>
    have hcons : unhdr (b :: bs) = b.extractLsb' 0 4 :: b.extractLsb' 4 4 :: unhdr bs := rfl
    match n with
    | 0 | 1 => simp [hcons]
    | n + 2 => simp [hcons, ih, show (n + 2) / 2 = n / 2 + 1 by omega]

theorem unhdr_hdrOf {l : List (BitVec 4)} (hl : l.length = 256) : unhdr (hdrOf l) = l := by
  apply List.ext_getElem?
  intro n
  rw [unhdr_getElem?]
  by_cases hn : n < 256
  · rw [hdrOf_getElem? l (by omega), List.getElem?_eq_getElem (by omega), Option.map_some]
    split
    · rw [BitVec.extractLsb'_append_eq_right, List.getD_eq_getElem _ _ (by omega)]
      simp only [show 2 * (n / 2) = n by omega]
    · rw [BitVec.extractLsb'_append_eq_left, List.getD_eq_getElem _ _ (by omega)]
      simp only [show 2 * (n / 2) + 1 = n by omega]
  · rw [List.getElem?_eq_none (by rw [hdrOf_length]; simp only [Config.hdrBytes]; omega),
      List.getElem?_eq_none (by omega), Option.map_none]

theorem hdrOf_unhdr {h : List Byte} (hh : h.length = 128) : hdrOf (unhdr h) = h := by
  apply List.ext_getElem?
  intro j
  by_cases hj : j < 128
  · have hb : h[j]? = some h[j] := List.getElem?_eq_getElem (by omega)
    have hlo : (unhdr h)[2 * j]? = some (h[j].extractLsb' 0 4) := by
      rw [unhdr_getElem?, show 2 * j / 2 = j by omega, hb]
      simp
    have hhi : (unhdr h)[2 * j + 1]? = some (h[j].extractLsb' 4 4) := by
      rw [unhdr_getElem?, show (2 * j + 1) / 2 = j by omega, hb]
      simp
    rw [hdrOf_getElem? _ hj, List.getD_eq_getElem?_getD, List.getD_eq_getElem?_getD, hlo, hhi, Option.getD_some,
      Option.getD_some, append_nibbles, hb]
  · rw [List.getElem?_eq_none (by rw [hdrOf_length]; simp only [Config.hdrBytes]; omega),
      List.getElem?_eq_none (by omega)]

theorem lenOf_unhdr {h : List Byte} {n : Nat} {b : Byte} (hb : h[n / 2]? = some b) :
    lenOf (unhdr h) n = if n % 2 = 0 then b.toNat % 16 else b.toNat / 16 := by
  rw [lenOf, List.getD_eq_getElem?_getD, unhdr_getElem?, hb, Option.map_some, Option.getD_some]
  split
  · exact extract_low_nibble_toNat b
  · exact extract_high_nibble_toNat b

/-- Settles O47: each nibble of the header is one length. -/
theorem headerRoundTrip : Obligations.HeaderRoundTrip := by
  refine ⟨fun l hl => ⟨unhdr_hdrOf hl, fun j hj => hdrOf_nibbles l hj⟩, fun h hh => ⟨hdrOf_unhdr hh, fun n hn => ?_⟩⟩
  have hb : h[n / 2]? = some h[n / 2] := List.getElem?_eq_getElem (by omega)
  exact ⟨_, hb, lenOf_unhdr hb⟩

theorem exec_hufHdr_uninit {s : State} (h : s.lens = none) : exec .hufHdr s = .next (s.enterFault (uninitTrap 7)) := by
  rw [exec_eq_retire, body, bodyHufHdr, h, retire_error]

theorem exec_hufHdr_of {s : State} {l : List (BitVec 4)} (h : s.lens = some l) :
    exec .hufHdr s = .next { s with hdr := some (hdrOf l), cp := s.cp + 1 } := by
  rw [exec_eq_retire, body, bodyHufHdr_of h, retire_ok]

/-- Settles O46, nibble by nibble. -/
theorem hufHdrEmitsHeader : Obligations.HufHdrEmitsHeader := by
  intro s
  split
  next hl => exact exec_hufHdr_uninit hl
  next l hl => exact ⟨_, exec_hufHdr_of hl, hdrOf_length l, fun j hj => hdrOf_nibbles l hj⟩

/-! ### Tables in step with PAY and LEN (R282, R293) -/

theorem unhdr_replicate_zero (n : Nat) : unhdr (List.replicate n 0) = List.replicate (2 * n) 0 := by
  induction n with
  | zero => rfl
  | succ n ih => exact congrArg (fun l => 0#4 :: 0#4 :: l) ih

/-- The header of the empty payload's lengths: no symbol has a code (R303). -/
theorem hdrOf_zeros : hdrOf (List.replicate 256 0) = List.replicate Config.hdrBytes 0 :=
  (congrArg hdrOf (unhdr_replicate_zero Config.hdrBytes)).symm.trans (hdrOf_unhdr List.length_replicate)

theorem kraftSum_zeros : kraftSum (List.replicate 256 0) = 0 := by
  rw [kraftSum, List.filter_replicate_of_neg (by decide)]
  rfl

theorem State.TablesOk.of_none {s : State} (hf : s.freq = none) (hl : s.lens = none) (hh : s.hdr = none) :
    s.TablesOk where
  freq f h := by rw [hf] at h; cases h
  lens f l h := by rw [hf] at h; cases h
  hdr h' h := by rw [hh] at h; cases h
  kraft l h := by rw [hl] at h; cases h

/-- Lengths and their header loaded without a FREQ (R303). -/
theorem State.TablesOk.of_header {s : State} {l : List (BitVec 4)} (hf : s.freq = none) (hl : s.lens = some l)
    (hh : s.hdr = some (hdrOf l)) (hk : kraftSum l ≤ 2 ^ Config.maxLen) : s.TablesOk where
  freq f h := by rw [hf] at h; cases h
  lens f l h := by rw [hf] at h; cases h
  hdr h' h := ⟨l, hl, Option.some.inj (h.symm.trans hh)⟩
  kraft l' h := by obtain rfl := Option.some.inj (hl.symm.trans h); exact hk

theorem bodyHufLdh_tables {s t : State} (h : bodyHufLdh s = .ok t) : t.TablesOk := by
  obtain ⟨e, -, ⟨-, rfl⟩ | ⟨hlen, hk, rfl⟩⟩ := bodyHufLdh_ok h
  · exact .of_header rfl rfl (congrArg some hdrOf_zeros.symm) (kraftSum_zeros.trans_le (Nat.zero_le _))
  · exact .of_header rfl rfl (congrArg some (hdrOf_unhdr (List.length_take_of_le hlen)).symm) hk

theorem unit_preserves_tables (io1 io2 : Bool) (i : Instr) (hu : i.IsUnit) :
    Preserves State.TablesOk (body io1 io2 i) := by
  intro s t hs h
  cases i with
  | nop => cases h; exact hs
  | rst => obtain rfl := bodyRst_ok h; exact State.clearAll_tables _
  | setq q => obtain ⟨-, -, -, rfl⟩ := bodySetq_ok h; exact { hs with }
  | setn n => obtain ⟨-, rfl⟩ := bodySetn_ok h; exact { hs with }
  | frLd f => obtain ⟨-, -, rfl⟩ := bodyFrLd_ok h; exact { hs with }
  | frSt slot => obtain ⟨_, -, -, -, rfl⟩ := bodyFrSt_ok h; exact { hs with }
  | cscFwd => obtain ⟨_, -, rfl⟩ := bodyCscFwd_ok h; exact { hs with }
  | cscInv => obtain ⟨_, -, rfl⟩ := bodyCscInv_ok h; exact { hs with }
  | tpFwd => obtain ⟨_, _, -, -, ⟨-, rfl⟩ | ⟨-, _, -, rfl⟩⟩ := bodyTpFwd_ok h <;> exact { hs with }
  | tpInv => obtain ⟨_, _, -, -, -, ⟨-, rfl⟩ | ⟨-, _, -, rfl⟩⟩ := bodyTpInv_ok h <;> exact { hs with }
  | blkLd i => obtain ⟨-, _, -, rfl⟩ := bodyBlkLd_ok h; exact { hs with }
  | blkSt i => obtain ⟨-, _, -, -, -, rfl⟩ := bodyBlkSt_ok h; exact { hs with }
  | blkPut i => obtain ⟨-, -, _, _, -, -, -, rfl⟩ := bodyBlkPut_ok h; exact .of_none rfl rfl rfl
  | blkGet i => obtain ⟨-, -, _, -, rfl⟩ := bodyBlkGet_ok h; exact { hs with }
  | blkWr k v => obtain ⟨-, -, rfl⟩ := bodyBlkWr_ok h; exact { hs with }
  | blkCh t => obtain ⟨-, rfl⟩ := bodyBlkCh_ok h; exact { hs with }
  | fdct => obtain ⟨_, -, rfl⟩ := bodyFdct_ok h; exact { hs with }
  | idct => obtain ⟨_, -, rfl⟩ := bodyIdct_ok h; exact { hs with }
  | quant => obtain ⟨_, _, -, -, rfl⟩ := bodyQuant_ok h; exact { hs with }
  | dequant => obtain ⟨_, _, -, rfl⟩ := bodyDequant_ok h; exact { hs with }
  | payLen n => obtain ⟨-, rfl⟩ := bodyPayLen_ok h; exact .of_none rfl rfl rfl
  | payWr k b => obtain ⟨-, rfl⟩ := bodyPayWr_ok h; exact .of_none rfl rfl rfl
  | hufCnt =>
    obtain ⟨bs, hbs, rfl⟩ := bodyHufCnt_ok h
    exact {
      freq := by rintro _ ⟨⟩; exact ⟨bs, hbs, rfl⟩
      lens := by rintro _ _ - ⟨⟩
      hdr := by rintro _ ⟨⟩
      kraft := by rintro _ ⟨⟩ }
  | hufBld =>
    obtain ⟨f, l, hf, hl, rfl⟩ := bodyHufBld_ok h
    exact { hs with
      lens := by rintro g _ hg ⟨⟩; obtain rfl := Option.some.inj (hf.symm.trans hg); exact hl
      hdr := by rintro _ ⟨⟩
      kraft := by rintro _ ⟨⟩; exact kraftSum_buildLens_le hl }
  | hufHdr =>
    obtain ⟨l, hl, rfl⟩ := bodyHufHdr_ok h
    exact { hs with hdr := by rintro _ ⟨⟩; exact ⟨l, hl, rfl⟩ }
  | hufPack => obtain ⟨_, _, _, -, -, -, -, rfl⟩ := bodyHufPack_ok h; exact { hs with }
  | hufLdh => exact bodyHufLdh_tables h
  | hufUnp => obtain ⟨_, _, _, -, -, -, rfl⟩ := bodyHufUnp_ok h; exact .of_none rfl rfl rfl
  | cwHdr => obtain ⟨_, _, -, -, -, rfl⟩ := bodyCwHdr_ok h; exact { hs with }
  | cwRec => obtain ⟨_, _, _, -, -, -, -, -, -, -, -, rfl⟩ := bodyCwRec_ok h; exact { hs with }
  | crOpen => obtain ⟨_, _, -, -, -, -, -, -, -, -, -, -, -, rfl⟩ := bodyCrOpen_ok h; exact { hs with }
  | crNext => obtain ⟨_, _, _, _, -, -, -, -, -, -, -, -, -, rfl⟩ := bodyCrNext_ok h; exact { hs with }
  | crSeek n => obtain ⟨_, _, -, -, -, -, -, rfl⟩ := bodyCrSeek_ok h; exact { hs with }
  | encFrame f => exact hu.elim
  | decFrame slot => exact hu.elim

theorem tablesOk_invariant : Invariant State.TablesOk where
  inputs _ _ _ hs := { hs with }
  supplyRaw _ hs := { hs with }
  clearAll _ := State.clearAll_tables _
  enterFault e hs := by rw [State.enterFault_eq]; exact { hs with }
  unit := unit_preserves_tables
  retired _ _ hs := { hs with }

/-- Settles O14: a command that changes PAY drops the tables, and each that makes one makes it from the present PAY, FREQ,
LEN or header. -/
theorem stepKeepsTablesFresh : Obligations.StepKeepsTablesFresh := fun _ _ hs h =>
  tablesOk_invariant.step (fun _ _ _ hs => { hs with }) hs h

end Sys2Proof.Machine

/-! The entropy coder's commands on PAY, FREQ and LEN (45_entropy.md R283 to R291, R303): the payload length and its bytes,
the counts, the lengths of the tree, and the header taken back from ENC. -/

namespace Sys2Proof.Machine

/-! ### PAY.LEN and PAY.WR (R283, R284) -/

section
variable {n k : BitVec 32} {b : Byte} {s : State}

theorem exec_payLen_operand (h : ¬ payLenLegal n) : exec (.payLen n) s = .next (s.enterFault (operandTrap 7)) := by
  rw [exec_eq_retire, body, bodyPayLen, if_neg h, retire_error]

theorem exec_payLen_of (h : payLenLegal n) : exec (.payLen n) s =
    .next { s with payLen := n, pay := .nil, freq := none, lens := none, hdr := none, cp := s.cp + 1 } := by
  rw [exec_eq_retire, body, bodyPayLen_of h, retire_ok]

theorem exec_payWr_operand (h : ¬ k.toNat < s.payLen.toNat) :
    exec (.payWr k b) s = .next (s.enterFault (operandTrap 7)) := by
  rw [exec_eq_retire, body, bodyPayWr, if_neg h, retire_error]

theorem exec_payWr_of (h : k.toNat < s.payLen.toNat) : exec (.payWr k b) s =
    .next { s with pay := s.pay.set k.toNat b, freq := none, lens := none, hdr := none, cp := s.cp + 1 } := by
  rw [exec_eq_retire, body, bodyPayWr, if_pos h, retire_ok, State.dropTables]

end

/-- Settles O43: below PAY_LEN an index is an element of PAY, so the byte is written. -/
theorem payLenAndPayWrWrite : Obligations.PayLenAndPayWrWrite := by
  refine ⟨fun n s => ?_, fun k b s hs => ?_⟩
  · split
    next h => exact exec_payLen_operand (Nat.not_le.mpr h)
    next h => exact ⟨_, exec_payLen_of (Nat.le_of_not_lt h), rfl, Buf.get_nil⟩
  · split
    next h => exact exec_payWr_operand (Nat.not_lt.mpr h)
    next h =>
      have hk : k.toNat < s.payLen.toNat := Nat.lt_of_not_le h
      refine ⟨_, exec_payWr_of hk, rfl, fun j => ?_⟩
      rw [Buf.get_set]
      simp only [Nat.lt_of_lt_of_le hk hs.payLen, and_true]

/-! ### HUF.CNT (R286) -/

theorem ofNat_eq_byte_iff {n : Nat} (hn : n < 256) (b : Byte) : BitVec.ofNat 8 n = b ↔ n = b.toNat := by
  rw [← BitVec.toNat_inj, BitVec.toNat_ofNat, Nat.mod_eq_of_lt hn]

theorem countBytes_getElem? (bs : List Byte) (b : Byte) : (countBytes bs)[b.toNat]? = some (bs.count b) := by
  simp [countBytes, b.isLt]

/-- Every byte of the payload is counted once. -/
theorem countBytes_sum (bs : List Byte) : (countBytes bs).sum = bs.length := by
  induction bs with
  | nil =>
    show ((List.range 256).map fun _ => 0).sum = 0
    rw [List.map_const', List.sum_replicate, smul_zero]
  | cons b bs ih =>
    have hcount : ∀ n ∈ List.range 256, (b :: bs).count (BitVec.ofNat 8 n) =
        bs.count (BitVec.ofNat 8 n) + if n = b.toNat then 1 else 0 := fun n hn => by
      simp only [List.count_cons, beq_iff_eq, eq_comm (a := b), ofNat_eq_byte_iff (List.mem_range.mp hn)]
    rw [countBytes, List.map_congr_left hcount, List.sum_map_add, sum_range_ite, if_pos b.isLt, List.length_cons]
    exact congrArg (· + 1) ih

theorem State.payload_eq_none {s : State} : s.payload = none ↔ ∃ k, k < s.payLen.toNat ∧ s.pay.get k = none := by
  rw [← Buf.full_eq_false_iff, State.payload]
  split <;> simp [*]

/-- How often a byte occurs in the payload is at how many elements PAY holds it. -/
theorem State.count_payload {s : State} {bs : List Byte} (h : s.payload = some bs) (b : Byte) :
    bs.count b = (List.range s.payLen.toNat).countP fun k => s.pay.get k = some b := by
  obtain ⟨hlen, hget⟩ := State.payload_eq_some.mp h
  have hbs : (List.range s.payLen.toNat).map s.pay.get = bs.map some := by
    apply List.ext_getElem
    · simp [hlen]
    · intro k hk _
      have hk' : k < s.payLen.toNat := by simpa using hk
      simp [hget k hk', hlen, hk']
  calc bs.count b = (bs.map some).count (some b) := (List.count_map_of_injective _ _ (Option.some_injective _) _).symm
    _ = _ := by
      rw [← hbs, List.count, List.countP_map]
      exact List.countP_congr fun k _ => by simp

theorem exec_hufCnt_uninit {s : State} (h : s.payload = none) : exec .hufCnt s = .next (s.enterFault (uninitTrap 7)) := by
  rw [exec_eq_retire, body, bodyHufCnt, h, retire_error]

theorem exec_hufCnt_of {s : State} {bs : List Byte} (h : s.payload = some bs) : exec .hufCnt s =
    .next { s with freq := some (countBytes bs), lens := none, hdr := none, cp := s.cp + 1 } := by
  rw [exec_eq_retire, body, bodyHufCnt_of h, retire_ok]

/-- Settles O44: FREQ counts the payload's bytes, which are PAY's elements in use. -/
theorem hufCntCounts : Obligations.HufCntCounts := by
  intro s
  split
  next hhole => exact exec_hufCnt_uninit (State.payload_eq_none.mpr hhole)
  next hfull =>
    obtain ⟨bs, hbs⟩ := Option.ne_none_iff_exists'.mp (mt State.payload_eq_none.mp hfull)
    refine ⟨_, _, exec_hufCnt_of hbs, rfl, countBytes_length bs, fun b => ?_, ?_⟩
    · rw [countBytes_getElem?, State.count_payload hbs]
    · rw [countBytes_sum, (State.payload_eq_some.mp hbs).1]

/-! ### HUF.BLD (R288 to R291, R294) -/

theorem symbolDepths_of_nil {f : List Nat} (h : occurring f = []) : symbolDepths f = [] := by
  rw [symbolDepths, show presentSymbols f = [] from h]

theorem symbolDepths_of_singleton {f : List Nat} {n : Nat} (h : occurring f = [n]) : symbolDepths f = [(n, 1)] := by
  rw [symbolDepths, show presentSymbols f = [n] from h]

/-- With two symbols or more the depths are the lengths of the paths to the leaves of R289's tree. -/
theorem symbolDepths_of_tree {f : List Nat} (h : 2 ≤ (occurring f).length) :
    ∃ tree, buildTree f = some tree ∧ IsTreeOf f tree ∧ symbolDepths f = tree.depths 0 ∧
      ∀ n d, (n, d) ∈ symbolDepths f ↔ ∃ path, path.length = d ∧ nodeAt path tree = some (.leaf n) := by
  obtain ⟨tree, htree, hdepths⟩ := symbolDepths_tree h
  refine ⟨tree, htree, buildTree_isTreeOf htree, hdepths, fun n d => ?_⟩
  rw [hdepths, HTree.mem_depths]
  simp only [Nat.zero_add]

theorem buildLens_eq_none {f : List Nat} : buildLens f = none ↔ ∃ p ∈ symbolDepths f, 15 < p.2 := by
  rw [Option.eq_none_iff_forall_ne_some]
  simp only [ne_eq, buildLens_eq_some, not_and, Config.maxLen]
  constructor
  · intro h
    by_contra hshallow
    exact h _ (fun p hp => Nat.le_of_not_lt fun hdeep => hshallow ⟨p, hp, hdeep⟩) rfl
  · rintro ⟨p, hp, hdeep⟩ l hshallow
    exact absurd (hshallow p hp) (Nat.not_le.mpr hdeep)

theorem mem_symbolDepths_lt {f : List Nat} {p : Nat × Nat} (h : p ∈ symbolDepths f) : p.1 < 256 := by
  obtain ⟨hlt, -⟩ := mem_presentSymbols.mp ((symbolDepths_perm f).mem_iff.mp (List.mem_map_of_mem h))
  exact hlt

theorem lenOf_of_mem_symbolDepths {f : List Nat} {l : List (BitVec 4)} (hl : buildLens f = some l) {p : Nat × Nat}
    (h : p ∈ symbolDepths f) : lenOf l p.1 = p.2 := by
  rw [lenOf_buildLens hl (mem_symbolDepths_lt h), depthOf_of_mem (symbolDepths_nodup f) h]

theorem exec_hufBld_uninit {s : State} (h : s.freq = none) : exec .hufBld s = .next (s.enterFault (uninitTrap 7)) := by
  rw [exec_eq_retire, body, bodyHufBld, h, retire_error]

theorem exec_hufBld_codelen {s : State} {f : List Nat} (h : s.freq = some f) (hl : buildLens f = none) :
    exec .hufBld s = .next (s.enterFault ⟨.codelen, 7, 0⟩) := by
  rw [exec_eq_retire, body, bodyHufBld, h]
  simp only [hl, retire_error]

theorem exec_hufBld_of {s : State} {f : List Nat} {l : List (BitVec 4)} (h : s.freq = some f)
    (hl : buildLens f = some l) : exec .hufBld s = .next { s with lens := some l, hdr := none, cp := s.cp + 1 } := by
  rw [exec_eq_retire, body, bodyHufBld_of h hl, retire_ok]

/-- Settles O45: the depths are those of the tree, and LEN lists them symbol by symbol. -/
theorem hufBldBuildsLengths : Obligations.HufBldBuildsLengths := by
  intro s
  split
  next hf => exact exec_hufBld_uninit hf
  next f hf =>
    refine ⟨symbolDepths_of_nil, fun n => symbolDepths_of_singleton, symbolDepths_of_tree, ?_⟩
    split
    next hdeep => exact exec_hufBld_codelen hf (buildLens_eq_none.mpr hdeep)
    next hshallow =>
      obtain ⟨l, hl⟩ := Option.ne_none_iff_exists'.mp (mt buildLens_eq_none.mp hshallow)
      refine ⟨l, exec_hufBld_of hf hl, buildLens_length hl, fun n => lenOf_buildLens hl,
        fun p hp => ⟨mem_symbolDepths_lt hp, lenOf_of_mem_symbolDepths hl hp⟩, fun n hn => ?_, fun n hone => ?_,
        kraftSum_buildLens hl⟩
      · have hpos := lenOf_buildLens_pos hl hn
        omega
      · exact lenOf_of_mem_symbolDepths (p := (n, 1)) hl (by simp [symbolDepths_of_singleton hone])

/-! ### HUF.LDH (R303) -/

section
variable {s : State} {e : List Byte} (he : s.enc = some e)

theorem exec_hufLdh_uninit (he : s.enc = none) : exec .hufLdh s = .next (s.enterFault (uninitTrap 7)) := by
  rw [exec_eq_retire, body, bodyHufLdh, he, retire_error]

include he

theorem exec_hufLdh_empty (h0 : e.length = 0) : exec .hufLdh s = .next { s with
    hdr := some (List.replicate Config.hdrBytes 0), lens := some (List.replicate 256 0), freq := none,
    cp := s.cp + 1 } := by
  rw [exec_eq_retire, body, bodyHufLdh, he]
  simp only [if_pos h0, retire_ok]

theorem exec_hufLdh_truncated (h0 : ¬ e.length = 0) (hlen : e.length < Config.hdrBytes) :
    exec .hufLdh s = .next (s.enterFault ⟨.truncPayload, 7, 0⟩) := by
  rw [exec_eq_retire, body, bodyHufLdh, he]
  simp only [if_neg h0, if_pos hlen, retire_error]

theorem exec_hufLdh_oversubscribed (hlen : Config.hdrBytes ≤ e.length)
    (hk : 2 ^ Config.maxLen < kraftSum (unhdr (e.take Config.hdrBytes))) :
    exec .hufLdh s = .next (s.enterFault ⟨.oversubscribed, 7, 0⟩) := by
  have h0 : ¬ e.length = 0 := (Nat.lt_of_lt_of_le (by decide) hlen).ne'
  rw [exec_eq_retire, body, bodyHufLdh, he]
  simp only [if_neg h0, if_neg (Nat.not_lt.mpr hlen), if_pos hk, retire_error]

theorem exec_hufLdh_of (hlen : Config.hdrBytes ≤ e.length)
    (hk : kraftSum (unhdr (e.take Config.hdrBytes)) ≤ 2 ^ Config.maxLen) :
    exec .hufLdh s = .next { s with
      hdr := some (e.take Config.hdrBytes), lens := some (unhdr (e.take Config.hdrBytes)), freq := none,
      cp := s.cp + 1 } := by
  rw [exec_eq_retire, body, bodyHufLdh_of he hlen hk, retire_ok]

end

/-- Settles O50, outcome by outcome in the order of R303. -/
theorem hufLdhLoadsHeader : Obligations.HufLdhLoadsHeader := by
  intro s
  split
  next he => exact exec_hufLdh_uninit he
  next e he =>
    split
    next h0 =>
      exact ⟨_, _, _, exec_hufLdh_empty he h0, rfl, List.length_replicate, List.length_replicate,
        fun _ => List.eq_of_mem_replicate, fun _ => List.eq_of_mem_replicate⟩
    next h0 =>
      split
      next hlen => exact exec_hufLdh_truncated he h0 hlen
      next hlen =>
        split
        next hk => exact exec_hufLdh_oversubscribed he (Nat.le_of_not_lt hlen) hk
        next hk => exact exec_hufLdh_of he (Nat.le_of_not_lt hlen) (Nat.le_of_not_lt hk)

end Sys2Proof.Machine

/-! Canonical codes (45_entropy.md R292, R293). A code of `k` bits stands for an interval of the numbers below `2^15`, its
15-bit continuations, whose size is the symbol's term of the Kraft sum. The codes' intervals stand side by side in the
order of assignment, so they are disjoint, and they fit below `2^15` when the Kraft sum is at most 1. -/

namespace Sys2Proof.Machine

/-! ### Bit strings as numbers -/

/-- The number a code spells, its first bit the most significant. -/
def codeValue (w : List Bool) : Nat := bitsValue w.reverse

theorem bitsValue_append (v w : List Bool) : bitsValue (v ++ w) = bitsValue v + 2 ^ v.length * bitsValue w := by
  induction v with
  | nil => simp [bitsValue]
  | cons b v ih =>
    rw [List.cons_append, bitsValue, bitsValue, ih, List.length_cons, Nat.pow_succ]
    ring

theorem bitsValue_lt (w : List Bool) : bitsValue w < 2 ^ w.length := by
  induction w with
  | nil => exact Nat.one_pos
  | cons b w ih =>
    have hb := Bool.toNat_le b
    rw [bitsValue, List.length_cons, Nat.pow_succ]
    omega

theorem codeValue_append (v w : List Bool) : codeValue (v ++ w) = codeValue v * 2 ^ w.length + codeValue w := by
  rw [codeValue, List.reverse_append, bitsValue_append, List.length_reverse, codeValue, codeValue]
  ring

theorem codeValue_lt (w : List Bool) : codeValue w < 2 ^ w.length := by
  simpa [codeValue] using bitsValue_lt w.reverse

theorem bitString_succ (n v : Nat) : bitString (n + 1) v = bitString n (v / 2) ++ [v.testBit 0] := by
  rw [bitString, List.range_succ, List.map_append, List.map_singleton, bitString,
    show n + 1 - 1 - n = 0 by omega]
  congr 1
  refine List.map_congr_left fun j hj => ?_
  have hj := List.mem_range.mp hj
  rw [← Nat.testBit_succ, show n + 1 - 1 - j = n - 1 - j + 1 by omega]

theorem codeValue_bitString {n v : Nat} (h : v < 2 ^ n) : codeValue (bitString n v) = v := by
  induction n generalizing v with
  | zero => exact (Nat.lt_one_iff.mp h).symm
  | succ n ih =>
    have hlast : codeValue [v.testBit 0] = v % 2 := by
      rw [Nat.testBit_zero]
      rcases Nat.mod_two_eq_zero_or_one v with h0 | h1 <;> simp [codeValue, bitsValue, *]
    rw [bitString_succ, codeValue_append, ih (by rw [Nat.pow_succ] at h; omega), hlast, List.length_singleton]
    omega

/-! ### The order of assignment (R292) -/

/-- Codes are assigned in increasing length, then by symbol. -/
abbrev CodeBefore (l : List (BitVec 4)) (m n : Nat) : Prop :=
  lenOf l m < lenOf l n ∨ lenOf l m = lenOf l n ∧ m < n

theorem codeBefore_total (l : List (BitVec 4)) {m n : Nat} (h : m ≠ n) : CodeBefore l m n ∨ CodeBefore l n m := by
  unfold CodeBefore; omega

theorem lenOf_le_of_codeBefore {l : List (BitVec 4)} {m n : Nat} (h : CodeBefore l m n) : lenOf l m ≤ lenOf l n := by
  omega

theorem mem_codeOrder {l : List (BitVec 4)} {n : Nat} : n ∈ codeOrder l ↔ n < 256 ∧ 0 < lenOf l n := by
  have hle := lenOf_le l n
  simp only [codeOrder, List.mem_flatMap, List.mem_filter, List.mem_range, decide_eq_true_eq]
  constructor
  · rintro ⟨j, -, hn, hj⟩
    exact ⟨hn, by omega⟩
  · rintro ⟨hn, hpos⟩
    exact ⟨lenOf l n - 1, by omega, hn, by omega⟩

theorem codeOrder_pairwise (l : List (BitVec 4)) : (codeOrder l).Pairwise (CodeBefore l) := by
  rw [codeOrder, List.pairwise_flatMap]
  refine ⟨fun j _ => ?_, List.pairwise_lt_range.imp fun {i j} hij x hx y hy => ?_⟩
  · refine List.pairwise_lt_range.filter _ |>.imp_of_mem fun {x y} hx hy hxy => .inr ⟨?_, hxy⟩
    simp only [List.mem_filter, decide_eq_true_eq] at hx hy
    omega
  · simp only [List.mem_filter, decide_eq_true_eq] at hx hy
    exact .inl (by omega)

theorem nodup_of_pairwise_codeBefore {l : List (BitVec 4)} {ss : List Nat} (h : ss.Pairwise (CodeBefore l)) :
    ss.Nodup := h.imp fun {m n} hmn => by
  rintro rfl
  omega

/-! ### Intervals (R292, R303) -/

/-- How many numbers of 15 bits begin with the symbol's code: its term of the Kraft sum. -/
def codeWeight (l : List (BitVec 4)) (n : Nat) : Nat := 2 ^ (Config.maxLen - lenOf l n)

theorem codeWeight_pos (l : List (BitVec 4)) (n : Nat) : 0 < codeWeight l n := Nat.two_pow_pos _

theorem two_pow_mul_codeWeight {l : List (BitVec 4)} {p n : Nat} (h : p ≤ lenOf l n) :
    2 ^ (lenOf l n - p) * codeWeight l n = 2 ^ (Config.maxLen - p) := by
  have hle := lenOf_le l n
  rw [codeWeight, ← Nat.pow_add]
  congr 1
  omega

/-- The total weight of those of the symbols `ss` that come before symbol `n`. -/
def weightBefore (l : List (BitVec 4)) (ss : List Nat) (n : Nat) : Nat :=
  ((ss.filter fun m => CodeBefore l m n).map (codeWeight l)).sum

theorem weightBefore_of_first {l : List (BitVec 4)} {ss : List Nat} {n : Nat} (h : ∀ m ∈ ss, CodeBefore l n m) :
    weightBefore l (n :: ss) n = 0 := by
  have hnone : ∀ m ∈ n :: ss, ¬ (decide (CodeBefore l m n) = true) := by
    intro m hm
    rw [decide_eq_true_eq]
    rcases List.mem_cons.mp hm with rfl | hm
    · omega
    · have := h m hm
      omega
  rw [weightBefore, List.filter_eq_nil_iff.mpr hnone]
  rfl

theorem weightBefore_cons {l : List (BitVec 4)} {ss : List Nat} {m n : Nat} (h : CodeBefore l m n) :
    weightBefore l (m :: ss) n = codeWeight l m + weightBefore l ss n := by
  rw [weightBefore, List.filter_cons_of_pos (by exact decide_eq_true h), List.map_cons, List.sum_cons, weightBefore]

/-- Where the interval of a symbol's code begins: after those of the symbols with a code before it. -/
def codeStart (l : List (BitVec 4)) (n : Nat) : Nat :=
  (((List.range 256).filter fun m => 0 < lenOf l m ∧ CodeBefore l m n).map (codeWeight l)).sum

theorem weightBefore_codeOrder (l : List (BitVec 4)) (n : Nat) : weightBefore l (codeOrder l) n = codeStart l n := by
  refine (List.Perm.map _ ((List.perm_ext_iff_of_nodup ?_ ?_).mpr fun m => ?_)).sum_eq
  · exact (nodup_of_pairwise_codeBefore (codeOrder_pairwise l)).filter _
  · exact List.nodup_range.filter _
  · simp only [List.mem_filter, mem_codeOrder, List.mem_range, decide_eq_true_eq]
    tauto

theorem sum_map_le_of_subset {xs ys : List Nat} (hn : xs.Nodup) (h : xs ⊆ ys) (f : Nat → Nat) :
    (xs.map f).sum ≤ (ys.map f).sum := by
  obtain ⟨zs, hperm, hsub⟩ := List.subperm_of_subset hn h
  rw [← (hperm.map f).sum_eq]
  exact (hsub.map f).sum_le_sum fun _ _ => Nat.zero_le _

/-- A sum over the symbol and all that come before it reaches the end of its interval. -/
theorem codeStart_add_codeWeight_le_sum {l : List (BitVec 4)} {n : Nat} {ys : List Nat} (hn : n ∈ ys)
    (h : ∀ k, k < 256 → 0 < lenOf l k → CodeBefore l k n → k ∈ ys) :
    codeStart l n + codeWeight l n ≤ (ys.map (codeWeight l)).sum := by
  have hle : ((n :: (List.range 256).filter fun k => 0 < lenOf l k ∧ CodeBefore l k n).map (codeWeight l)).sum ≤
      (ys.map (codeWeight l)).sum := by
    refine sum_map_le_of_subset (List.nodup_cons.mpr ⟨by simp, List.nodup_range.filter _⟩) (fun k hk => ?_) _
    simp only [List.mem_cons, List.mem_filter, List.mem_range, decide_eq_true_eq] at hk
    rcases hk with rfl | ⟨hlt, hpos, hbefore⟩
    · exact hn
    · exact h k hlt hpos hbefore
  rwa [List.map_cons, List.sum_cons, Nat.add_comm] at hle

/-- An interval ends where no symbol after it begins. -/
theorem codeStart_add_codeWeight_le {l : List (BitVec 4)} {m n : Nat} (hm : m < 256) (hpos : 0 < lenOf l m)
    (h : CodeBefore l m n) : codeStart l m + codeWeight l m ≤ codeStart l n := by
  refine codeStart_add_codeWeight_le_sum ?_ fun k hlt hkpos hk => ?_ <;>
    simp only [List.mem_filter, List.mem_range, decide_eq_true_eq]
  · exact ⟨hm, hpos, h⟩
  · exact ⟨hlt, hkpos, by omega⟩

theorem kraftSum_eq_codeWeights {l : List (BitVec 4)} (hl : l.length = 256) :
    kraftSum l = (((List.range 256).filter fun m => 0 < lenOf l m).map (codeWeight l)).sum := by
  rw [kraftSum_eq hl]
  induction List.range 256 with
  | nil => rfl
  | cons m ss ih =>
    rw [List.map_cons, List.sum_cons, ih]
    by_cases hm : lenOf l m = 0
    · rw [if_pos hm, List.filter_cons_of_neg (by simp [hm]), Nat.zero_add]
    · rw [if_neg hm, List.filter_cons_of_pos (by simpa using Nat.pos_of_ne_zero hm), List.map_cons, List.sum_cons]
      rfl

/-- All intervals end within the Kraft sum. -/
theorem codeStart_add_codeWeight_le_kraftSum {l : List (BitVec 4)} (hl : l.length = 256) {n : Nat} (hn : n < 256)
    (hpos : 0 < lenOf l n) : codeStart l n + codeWeight l n ≤ kraftSum l := by
  rw [kraftSum_eq_codeWeights hl]
  refine codeStart_add_codeWeight_le_sum ?_ fun k hlt hkpos _ => ?_ <;>
    simp only [List.mem_filter, List.mem_range, decide_eq_true_eq]
  · exact ⟨hn, hpos⟩
  · exact ⟨hlt, hkpos⟩

/-! ### The codes (R292) -/

theorem codeOf_cons_self (n : Nat) (w : List Bool) (table : List (Nat × List Bool)) :
    codeOf ((n, w) :: table) n = w := by
  simp [codeOf]

theorem codeOf_cons_of_ne {m n : Nat} (h : n ≠ m) (w : List Bool) (table : List (Nat × List Bool)) :
    codeOf ((m, w) :: table) n = codeOf table n := by
  rw [codeOf, List.lookup_cons, beq_eq_false_iff_ne.mpr h, codeOf]

theorem map_fst_canonFrom (l : List (BitVec 4)) (code prev : Nat) (ss : List Nat) :
    (canonFrom l code prev ss).map Prod.fst = ss := by
  induction ss generalizing code prev with
  | nil => rfl
  | cons s ss ih => exact congrArg (s :: ·) (ih _ _)

theorem map_fst_canon (l : List (BitVec 4)) : (canon l).map Prod.fst = codeOrder l := by
  unfold canon
  split
  next hnil => exact hnil.symm
  next s ss hcons => rw [hcons, List.map_cons, map_fst_canonFrom]

/-- The interval of each symbol's code begins where that of the symbol before it ends. -/
theorem codeOf_canonFrom {l : List (BitVec 4)} {code prev n : Nat} {ss : List Nat} (hs : ss.Pairwise (CodeBefore l))
    (hprev : ∀ m ∈ ss, prev ≤ lenOf l m) (hn : n ∈ ss) :
    ∃ c, codeOf (canonFrom l code prev ss) n = bitString (lenOf l n) c ∧
      c * codeWeight l n = (code + 1) * 2 ^ (Config.maxLen - prev) + weightBefore l ss n := by
  induction ss generalizing code prev with
  | nil => cases hn
  | cons s ss ih =>
    obtain ⟨hfirst, hss⟩ := List.pairwise_cons.mp hs
    have hscale : (code + 1) * 2 ^ (lenOf l s - prev) * codeWeight l s = (code + 1) * 2 ^ (Config.maxLen - prev) := by
      rw [Nat.mul_assoc, two_pow_mul_codeWeight (hprev s List.mem_cons_self)]
    by_cases hns : n = s
    · subst hns
      refine ⟨_, codeOf_cons_self _ _ _, ?_⟩
      rw [weightBefore_of_first hfirst]
      exact hscale
    · have hn' : n ∈ ss := (List.mem_cons.mp hn).resolve_left hns
      obtain ⟨c, hcode, hc⟩ := ih (code := (code + 1) * 2 ^ (lenOf l s - prev)) (prev := lenOf l s) hss
        (fun m hm => lenOf_le_of_codeBefore (hfirst m hm)) hn'
      refine ⟨c, (codeOf_cons_of_ne hns _ _).trans hcode, ?_⟩
      rw [hc, weightBefore_cons (hfirst n hn'), ← hscale, codeWeight]
      ring

/-- A symbol's code is the number whose interval begins at `codeStart`. -/
theorem codeOf_canon {l : List (BitVec 4)} {n : Nat} (hn : n < 256) (hpos : 0 < lenOf l n) :
    ∃ c, codeOf (canon l) n = bitString (lenOf l n) c ∧ c * codeWeight l n = codeStart l n := by
  have hmem := mem_codeOrder.mpr ⟨hn, hpos⟩
  have hs := codeOrder_pairwise l
  rw [← weightBefore_codeOrder]
  unfold canon
  split
  next hnil => rw [hnil] at hmem; cases hmem
  next s ss hcons =>
    rw [hcons] at hmem hs ⊢
    obtain ⟨hfirst, hss⟩ := List.pairwise_cons.mp hs
    by_cases hns : n = s
    · subst hns
      exact ⟨0, codeOf_cons_self _ _ _, by rw [weightBefore_of_first hfirst, Nat.zero_mul]⟩
    · have hn' : n ∈ ss := (List.mem_cons.mp hmem).resolve_left hns
      obtain ⟨c, hcode, hc⟩ := codeOf_canonFrom (code := 0) (prev := lenOf l s) hss
        (fun m hm => lenOf_le_of_codeBefore (hfirst m hm)) hn'
      refine ⟨c, (codeOf_cons_of_ne hns _ _).trans hcode, ?_⟩
      rw [hc, weightBefore_cons (hfirst n hn'), codeWeight, Nat.zero_add, Nat.one_mul]

theorem codeOf_canon_absent {l : List (BitVec 4)} {n : Nat} (h : lenOf l n = 0) : codeOf (canon l) n = [] := by
  have hnot : n ∉ (canon l).map Prod.fst := by
    rw [map_fst_canon, mem_codeOrder, h]
    omega
  have hnone : (canon l).lookup n = none := List.lookup_eq_none_iff.mpr fun p hp =>
    bne_iff_ne.mpr fun he => hnot (he ▸ List.mem_map_of_mem hp)
  rw [codeOf, hnone, Option.getD_none]

theorem codeOf_canon_length {l : List (BitVec 4)} {n : Nat} (hn : n < 256) :
    (codeOf (canon l) n).length = lenOf l n := by
  rcases Nat.eq_zero_or_pos (lenOf l n) with h0 | hpos
  · rw [codeOf_canon_absent h0, h0, List.length_nil]
  · obtain ⟨c, hcode, -⟩ := codeOf_canon hn hpos
    rw [hcode, bitString_length]

/-! ### Within the Kraft bound (R293) -/

section
variable {l : List (BitVec 4)} {m n : Nat} (hl : l.length = 256) (hk : kraftSum l ≤ 2 ^ Config.maxLen)
include hl hk

/-- Within the Kraft bound no code overflows its length. -/
theorem codeValue_codeOf_canon (hn : n < 256) (hpos : 0 < lenOf l n) :
    codeValue (codeOf (canon l) n) * codeWeight l n = codeStart l n := by
  obtain ⟨c, hcode, hc⟩ := codeOf_canon hn hpos
  have hfit : c * codeWeight l n < 2 ^ lenOf l n * codeWeight l n := by
    have hend := codeStart_add_codeWeight_le_kraftSum hl hn hpos
    have hw := codeWeight_pos l n
    have hall := two_pow_mul_codeWeight (Nat.zero_le (lenOf l n))
    rw [Nat.sub_zero, Nat.sub_zero] at hall
    omega
  rw [hcode, codeValue_bitString (Nat.lt_of_mul_lt_mul_right hfit), hc]

/-- A code that begins another has that one's start in its interval. -/
theorem codeStart_of_prefix (hm : m < 256) (hn : n < 256) (hmpos : 0 < lenOf l m) (hnpos : 0 < lenOf l n)
    (h : codeOf (canon l) m <+: codeOf (canon l) n) :
    codeStart l m ≤ codeStart l n ∧ codeStart l n < codeStart l m + codeWeight l m := by
  obtain ⟨x, hx⟩ := h
  have hlen : lenOf l n = lenOf l m + x.length := by
    rw [← codeOf_canon_length hn, ← hx, List.length_append, codeOf_canon_length hm]
  have hscale : 2 ^ x.length * codeWeight l n = codeWeight l m := by
    have hsplit := two_pow_mul_codeWeight (l := l) (n := n) (p := lenOf l m) (by omega)
    rwa [hlen, Nat.add_sub_cancel_left] at hsplit
  have hstart : codeStart l n = codeStart l m + codeValue x * codeWeight l n := by
    rw [← codeValue_codeOf_canon hl hk hn hnpos, ← codeValue_codeOf_canon hl hk hm hmpos, ← hx, codeValue_append,
      Nat.add_mul, Nat.mul_assoc, hscale]
  have hless : codeValue x * codeWeight l n < codeWeight l m := by
    rw [← hscale]
    exact Nat.mul_lt_mul_of_pos_right (codeValue_lt x) (codeWeight_pos l n)
  omega

/-- No canonical code begins another symbol's code (R293). -/
theorem eq_of_codeOf_prefix (hm : m < 256) (hn : n < 256) (hmpos : 0 < lenOf l m) (hnpos : 0 < lenOf l n)
    (h : codeOf (canon l) m <+: codeOf (canon l) n) : m = n := by
  by_contra hne
  obtain ⟨hlo, hhi⟩ := codeStart_of_prefix hl hk hm hn hmpos hnpos h
  rcases codeBefore_total l hne with hb | hb
  · have := codeStart_add_codeWeight_le hm hmpos hb
    omega
  · have := codeStart_add_codeWeight_le hn hnpos hb
    have := codeWeight_pos l n
    omega

end

/-- Settles O48: a code that began another would have its interval inside the other's, and they are disjoint. -/
theorem canonicalCodesPrefixFree : Obligations.CanonicalCodesPrefixFree := fun _ hl =>
  ⟨fun _ => codeOf_canon_length,
    fun hk _ _ hm hn hne hmpos hnpos h => hne (eq_of_codeOf_prefix hl hk hm hn hmpos hnpos h),
    fun hk _ hn hpos => codeValue_codeOf_canon hl hk hn hpos⟩

end Sys2Proof.Machine

/-! Packing and decoding (45_entropy.md R298 to R308). Packed bytes hold the codes' bits and then at most seven zeros.
Because no canonical code begins another, the decoder stops exactly at the end of each code, so it reads back the symbols
the bits were made of, and each way it can stop short says how the bits went on. -/

namespace Sys2Proof.Machine

/-! ### Bits and bytes (R298) -/

/-- The bits of one byte, the most significant first. -/
def bitsOfByte (b : Byte) : List Bool := (List.range 8).map fun j => b.getLsbD (7 - j)

theorem bitsOfBytes_cons (b : Byte) (bs : List Byte) : bitsOfBytes (b :: bs) = bitsOfByte b ++ bitsOfBytes bs := rfl

theorem bitsOfByte_length (b : Byte) : (bitsOfByte b).length = 8 := by simp [bitsOfByte]

theorem bitsOfBytes_length (bs : List Byte) : (bitsOfBytes bs).length = 8 * bs.length := by
  induction bs with
  | nil => rfl
  | cons b bs ih => rw [bitsOfBytes_cons, List.length_append, ih, bitsOfByte_length, List.length_cons]; omega

/-- Bit `i` of the sequence is bit `7 - (i mod 8)` of byte `i div 8`. -/
theorem bitsOfBytes_getElem? (bs : List Byte) (i : Nat) :
    (bitsOfBytes bs)[i]? = bs[i / 8]?.map fun b => b.getLsbD (7 - i % 8) := by
  induction bs generalizing i with
  | nil => simp [bitsOfBytes]
  | cons b bs ih =>
    rw [bitsOfBytes_cons]
    by_cases hi : i < 8
    · rw [List.getElem?_append_left (by rwa [bitsOfByte_length]), Nat.div_eq_of_lt hi, Nat.mod_eq_of_lt hi]
      simp [bitsOfByte, hi]
    · obtain ⟨j, rfl⟩ : ∃ j, i = j + 8 := ⟨i - 8, by omega⟩
      rw [List.getElem?_append_right (by rw [bitsOfByte_length]; omega), bitsOfByte_length, Nat.add_sub_cancel, ih,
        Nat.add_div_right _ (by decide), Nat.add_mod_right, List.getElem?_cons_succ]

theorem bitsOfByte_byteOfBits : ∀ b7 b6 b5 b4 b3 b2 b1 b0 : Bool,
    bitsOfByte (byteOfBits b7 b6 b5 b4 b3 b2 b1 b0) = [b7, b6, b5, b4, b3, b2, b1, b0] := by
  decide +kernel

theorem length_lt_of_no_eight {α : Type} {tail : List α}
    (h : ∀ a b c d e f g i rest, tail = a :: b :: c :: d :: e :: f :: g :: i :: rest → False) : tail.length < 8 := by
  match tail, h with
  | [], _ | [_], _ | [_, _], _ | [_, _, _], _ | [_, _, _, _], _ | [_, _, _, _, _], _ | [_, _, _, _, _, _], _
  | [_, _, _, _, _, _, _], _ => simp
  | _ :: _ :: _ :: _ :: _ :: _ :: _ :: _ :: _, h => exact (h _ _ _ _ _ _ _ _ _ rfl).elim

theorem map_getD_range {tail : List Bool} {n : Nat} (h : tail.length ≤ n) :
    (List.range n).map (fun j => tail.getD j false) = tail ++ List.replicate (n - tail.length) false := by
  apply List.ext_getElem
  · simp; omega
  · intro j _ _
    by_cases hj : j < tail.length <;> simp [List.getElem_append, hj]

/-- Packing keeps the bits and pads them with fewer than eight zeros. -/
theorem bitsOfBytes_packBits (bits : List Bool) :
    ∃ pad, pad < 8 ∧ bitsOfBytes (packBits bits) = bits ++ List.replicate pad false := by
  induction bits using packBits.induct with
  | case1 b7 b6 b5 b4 b3 b2 b1 b0 rest ih =>
    obtain ⟨pad, hpad, ih⟩ := ih
    refine ⟨pad, hpad, ?_⟩
    rw [packBits, bitsOfBytes_cons, bitsOfByte_byteOfBits, ih]
    rfl
  | case2 => exact ⟨0, by decide, rfl⟩
  | case3 tail hlong hne =>
    have hlen := length_lt_of_no_eight hlong
    have hpos := List.length_pos_iff.mpr hne
    refine ⟨8 - tail.length, by omega, ?_⟩
    rw [packBits.eq_3 tail hlong hne, bitsOfBytes_cons, bitsOfByte_byteOfBits, ← map_getD_range hlen.le]
    rfl

theorem packBits_length (bits : List Bool) : (packBits bits).length = (bits.length + 7) / 8 := by
  obtain ⟨pad, hpad, h⟩ := bitsOfBytes_packBits bits
  have hlen := congrArg List.length h
  rw [bitsOfBytes_length, List.length_append, List.length_replicate] at hlen
  omega

/-- Packed bit by bit: past the sequence's end stand zeros. -/
theorem packBits_bit (bits : List Bool) {i : Nat} (hi : i < 8 * (packBits bits).length) :
    ∃ b : Byte, (packBits bits)[i / 8]? = some b ∧ b.getLsbD (7 - i % 8) = bits.getD i false := by
  obtain ⟨pad, -, h⟩ := bitsOfBytes_packBits bits
  have hb : (packBits bits)[i / 8]? = some (packBits bits)[i / 8] := List.getElem?_eq_getElem (by omega)
  refine ⟨_, hb, ?_⟩
  have hbit := bitsOfBytes_getElem? (packBits bits) i
  rw [hb, h, Option.map_some] at hbit
  rw [← Option.some_inj, ← hbit, List.getD_eq_getElem?_getD]
  by_cases hlt : i < bits.length
  · rw [List.getElem?_append_left hlt, List.getElem?_eq_getElem hlt, Option.getD_some]
  · obtain ⟨hin, -⟩ := List.getElem?_eq_some_iff.mp hbit
    rw [List.length_append, List.length_replicate] at hin
    rw [List.getElem?_append_right (by omega), List.getElem?_replicate, if_pos (by omega),
      List.getElem?_eq_none (by omega), Option.getD_none]

theorem payloadBits_length (table : List (Nat × List Bool)) (bs : List Byte) :
    (payloadBits table bs).length = (bs.map fun b => (codeOf table b.toNat).length).sum := List.length_flatMap

/-! ### HUF.PACK (R299) -/

theorem exec_hufPack_uninit {s : State}
    (h : ∀ bs l hd, s.payload = some bs → s.lens = some l → s.hdr = some hd → False) :
    exec .hufPack s = .next (s.enterFault (uninitTrap 7)) := by
  rw [exec_eq_retire, body, bodyHufPack]
  split
  next hbs hl hhd => exact (h _ _ _ hbs hl hhd).elim
  next => rw [retire_error]

section
variable {s : State} {bs hd : List Byte} {l : List (BitVec 4)}

theorem exec_hufPack_noCode (hbs : s.payload = some bs) (hl : s.lens = some l) (hhd : s.hdr = some hd)
    (hc : ∃ b ∈ bs, lenOf l b.toNat = 0) : exec .hufPack s = .next (s.enterFault ⟨.noCode, 7, 0⟩) := by
  have hall : bs.all (fun b => 0 < lenOf l b.toNat) = false := by
    simpa only [List.all_eq_false, decide_eq_true_eq, Nat.pos_iff_ne_zero, not_not] using hc
  rw [exec_eq_retire, body, bodyHufPack, hbs, hl, hhd]
  simp only [if_pos hall, retire_error]

theorem bodyHufPack_of_empty (hbs : s.payload = some []) (hl : s.lens = some l) (hhd : s.hdr = some hd) :
    bodyHufPack s = .ok { s with enc := some [] } := by
  have hn : s.payLen.toNat = 0 := (State.payload_eq_some.mp hbs).1.symm
  unfold bodyHufPack
  rw [hbs, hl, hhd]
  simp only [List.all_nil, Bool.true_eq_false, if_false, if_pos hn]

end

/-- Settles O49: the packed bits are the codes' bits and padding. -/
theorem hufPackPacksBits : Obligations.HufPackPacksBits := by
  intro s
  split
  next bs l hd hbs hl hhd =>
    have hlen : bs.length = s.payLen.toNat := (State.payload_eq_some.mp hbs).1
    split
    next hc => exact exec_hufPack_noCode hbs hl hhd hc
    next hc =>
      have hpos : ∀ b ∈ bs, 0 < lenOf l b.toNat := fun b hb => Nat.pos_of_ne_zero fun h0 => hc ⟨b, hb, h0⟩
      by_cases hn : s.payLen.toNat = 0
      · obtain rfl : bs = [] := List.length_eq_zero_iff.mp (hlen.trans hn)
        refine ⟨_, [], ?_, rfl, ?_⟩
        · rw [exec_eq_retire, body, bodyHufPack_of_empty hbs hl hhd, retire_ok]
        · rw [if_pos hn]
      · refine ⟨_, packedPayload l hd bs, ?_, rfl, ?_⟩
        · rw [exec_eq_retire, body, bodyHufPack_of hbs hl hhd hpos hn, retire_ok]
        · rw [if_neg hn]
          refine ⟨_, rfl, ?_, fun i => packBits_bit _⟩
          rw [packBits_length, payloadBits_length]
  next h => exact exec_hufPack_uninit h

/-! ### The code table (R292) -/

theorem codeOf_of_mem {table : List (Nat × List Bool)} (hn : (table.map Prod.fst).Nodup) {p : Nat × List Bool}
    (hp : p ∈ table) : codeOf table p.1 = p.2 := by
  induction table with
  | nil => cases hp
  | cons q table ih =>
    obtain ⟨hnot, hn'⟩ := List.nodup_cons.mp hn
    rcases List.mem_cons.mp hp with rfl | hp'
    · exact codeOf_cons_self _ _ _
    · have hne : p.1 ≠ q.1 := fun he => hnot (he ▸ List.mem_map_of_mem hp')
      exact (codeOf_cons_of_ne hne _ _).trans (ih hn' hp')

/-- The table lists each symbol that has a code once, with its code. -/
theorem mem_canon {l : List (BitVec 4)} {p : Nat × List Bool} :
    p ∈ canon l ↔ p.1 < 256 ∧ 0 < lenOf l p.1 ∧ codeOf (canon l) p.1 = p.2 := by
  have hnodup : ((canon l).map Prod.fst).Nodup := by
    rw [map_fst_canon]; exact nodup_of_pairwise_codeBefore (codeOrder_pairwise l)
  constructor
  · intro hp
    have hmem : p.1 ∈ (canon l).map Prod.fst := List.mem_map_of_mem hp
    rw [map_fst_canon, mem_codeOrder] at hmem
    exact ⟨hmem.1, hmem.2, codeOf_of_mem hnodup hp⟩
  · rintro ⟨hn, hpos, hcode⟩
    have hmem : p.1 ∈ (canon l).map Prod.fst := by rw [map_fst_canon]; exact mem_codeOrder.mpr ⟨hn, hpos⟩
    obtain ⟨q, hq, hqp⟩ := List.mem_map.mp hmem
    have hsame : q = p := Prod.ext hqp (by rw [← codeOf_of_mem hnodup hq, hqp, hcode])
    exact hsame ▸ hq

/-- `w` is the code of a symbol. -/
def IsCode (l : List (BitVec 4)) (w : List Bool) : Prop :=
  ∃ n, n < 256 ∧ 0 < lenOf l n ∧ codeOf (canon l) n = w

/-- `w` begins the code of a symbol and is shorter than it. -/
def BeginsCode (l : List (BitVec 4)) (w : List Bool) : Prop :=
  ∃ n, n < 256 ∧ w <+: codeOf (canon l) n ∧ w.length < lenOf l n

theorem IsCode.length_le {l : List (BitVec 4)} {w : List Bool} (h : IsCode l w) : w.length ≤ Config.maxLen := by
  obtain ⟨n, hn, -, rfl⟩ := h
  rw [codeOf_canon_length hn]
  exact lenOf_le l n

theorem BeginsCode.of_prefix {l : List (BitVec 4)} {v w : List Bool} (h : BeginsCode l w) (hv : v <+: w) :
    BeginsCode l v := by
  obtain ⟨n, hn, hw, hlen⟩ := h
  exact ⟨n, hn, hv.trans hw, hv.length_le.trans_lt hlen⟩

theorem find_canon_eq_none {l : List (BitVec 4)} {w : List Bool} (h : ¬ IsCode l w) :
    (canon l).find? (fun p => p.2 == w) = none := by
  refine List.find?_eq_none.mpr fun p hp hw => ?_
  obtain ⟨hn, hpos, hcode⟩ := mem_canon.mp hp
  exact h ⟨p.1, hn, hpos, hcode.trans (beq_iff_eq.mp hw)⟩

theorem any_canon_begins {l : List (BitVec 4)} {w : List Bool} :
    (canon l).any (fun p => w.isPrefixOf p.2 && w.length < p.2.length) = true ↔ BeginsCode l w := by
  simp only [List.any_eq_true, Bool.and_eq_true, List.isPrefixOf_iff_prefix, decide_eq_true_eq]
  constructor
  · rintro ⟨p, hp, hw, hlen⟩
    obtain ⟨hn, -, hcode⟩ := mem_canon.mp hp
    rw [← hcode] at hw hlen
    exact ⟨p.1, hn, hw, by rwa [codeOf_canon_length hn] at hlen⟩
  · rintro ⟨n, hn, hw, hlen⟩
    exact ⟨(n, codeOf (canon l) n), mem_canon.mpr ⟨hn, Nat.zero_lt_of_lt hlen, rfl⟩, hw,
      by rwa [codeOf_canon_length hn]⟩

/-! ### One symbol (R305) -/

theorem decodeSymbol_cons_bad {l : List (BitVec 4)} {w rest : List Bool} {b : Bool} (hc : ¬ IsCode l (w ++ [b]))
    (hb : ¬ BeginsCode l (w ++ [b])) : decodeSymbol (canon l) w (b :: rest) = .error .badCode := by
  rw [decodeSymbol, find_canon_eq_none hc]
  simp only [if_neg (mt any_canon_begins.mp hb)]

theorem decodeSymbol_cons_more {l : List (BitVec 4)} {w rest : List Bool} {b : Bool} (hc : ¬ IsCode l (w ++ [b]))
    (hb : BeginsCode l (w ++ [b])) : decodeSymbol (canon l) w (b :: rest) = decodeSymbol (canon l) (w ++ [b]) rest := by
  rw [decodeSymbol, find_canon_eq_none hc]
  simp only [if_pos (any_canon_begins.mpr hb)]

/-- Bits that no code is made of and no code begins with are no code's. -/
theorem decodeSymbol_badCode {l : List (BitVec 4)} {w rest : List Bool} (hne : rest ≠ [])
    (hno : ∀ x, x <+: rest → x ≠ [] → ¬ IsCode l (w ++ x)) (hbad : ¬ BeginsCode l (w ++ rest)) :
    decodeSymbol (canon l) w rest = .error .badCode := by
  induction rest generalizing w with
  | nil => exact absurd rfl hne
  | cons b rest ih =>
    have hc : ¬ IsCode l (w ++ [b]) := hno [b] (List.prefix_append [b] rest) (List.cons_ne_nil _ _)
    by_cases hb : BeginsCode l (w ++ [b])
    · rw [decodeSymbol_cons_more hc hb]
      rw [List.append_cons] at hbad
      refine ih (fun hnil => hbad (by rwa [hnil, List.append_nil])) (fun x hx _ => ?_) hbad
      rw [← List.append_cons]
      exact hno (b :: x) ((List.prefix_cons_inj b).mpr hx) (List.cons_ne_nil _ _)
    · exact decodeSymbol_cons_bad hc hb

section
variable {l : List (BitVec 4)} (hl : l.length = 256) (hk : kraftSum l ≤ 2 ^ Config.maxLen)
include hl hk

theorem BeginsCode.not_isCode {w : List Bool} (h : BeginsCode l w) : ¬ IsCode l w := by
  rintro ⟨m, hm, hmpos, rfl⟩
  obtain ⟨n, hn, hw, hlen⟩ := h
  obtain rfl := eq_of_codeOf_prefix hl hk hm hn hmpos (Nat.zero_lt_of_lt hlen) hw
  rw [codeOf_canon_length hm] at hlen
  exact Nat.lt_irrefl _ hlen

theorem find_canon_codeOf {n : Nat} (hn : n < 256) (hpos : 0 < lenOf l n) :
    (canon l).find? (fun p => p.2 == codeOf (canon l) n) = some (n, codeOf (canon l) n) := by
  have hmem : (n, codeOf (canon l) n) ∈ canon l := mem_canon.mpr ⟨hn, hpos, rfl⟩
  cases hfind : (canon l).find? (fun p => p.2 == codeOf (canon l) n) with
  | none => exact absurd (beq_self_eq_true _) (List.find?_eq_none.mp hfind _ hmem)
  | some p =>
    have hp2 : p.2 = codeOf (canon l) n := by simpa using List.find?_some hfind
    obtain ⟨hpn, hppos, hcode⟩ := mem_canon.mp (List.mem_of_find?_eq_some hfind)
    have hp1 : p.1 = n :=
      eq_of_codeOf_prefix hl hk hpn hn hppos hpos (by rw [hcode, hp2])
    rw [← hp2, ← hp1]

theorem decodeSymbol_cons_code {n : Nat} {w rest : List Bool} {b : Bool} (hn : n < 256) (hpos : 0 < lenOf l n)
    (h : w ++ [b] = codeOf (canon l) n) : decodeSymbol (canon l) w (b :: rest) = .ok (n, rest) := by
  rw [decodeSymbol, h, find_canon_codeOf hl hk hn hpos]

/-- The rest of a code takes the decoder to the code's end and no further. -/
theorem decodeSymbol_code {n : Nat} {w v rest : List Bool} (hn : n < 256) (hpos : 0 < lenOf l n) (hv : v ≠ [])
    (h : w ++ v = codeOf (canon l) n) : decodeSymbol (canon l) w (v ++ rest) = .ok (n, rest) := by
  induction v generalizing w with
  | nil => exact absurd rfl hv
  | cons b v ih =>
    by_cases hlast : v = []
    · subst hlast
      exact decodeSymbol_cons_code hl hk hn hpos h
    · rw [List.append_cons] at h
      have hbegins : BeginsCode l (w ++ [b]) := by
        refine ⟨n, hn, ⟨v, h⟩, ?_⟩
        have hmore := List.length_pos_iff.mpr hlast
        rw [← codeOf_canon_length hn, ← h, List.length_append (bs := v)]
        exact Nat.lt_add_of_pos_right hmore
      rw [List.cons_append, decodeSymbol_cons_more (hbegins.not_isCode hl hk) hbegins]
      exact ih hlast h

/-- Bits that end before a code does are a truncated payload. -/
theorem decodeSymbol_truncPayload {w rest : List Bool} (h : rest = [] ∨ BeginsCode l (w ++ rest)) :
    decodeSymbol (canon l) w rest = .error .truncPayload := by
  induction rest generalizing w with
  | nil => rfl
  | cons b rest ih =>
    have hall := h.resolve_left (List.cons_ne_nil _ _)
    rw [List.append_cons] at hall
    have hb : BeginsCode l (w ++ [b]) := hall.of_prefix (List.prefix_append _ _)
    rw [decodeSymbol_cons_more (hb.not_isCode hl hk) hb]
    exact ih (.inr hall)

/-! ### Several symbols (R305) -/

/-- The codes of some bytes decode to these bytes, and the decoder goes on with the bits after them. -/
theorem decodeSymbols_payloadBits {out : List Byte} (hout : ∀ b ∈ out, 0 < lenOf l b.toNat) (k : Nat)
    (rest : List Bool) : decodeSymbols (canon l) (out.length + k) (payloadBits (canon l) out ++ rest) =
      (decodeSymbols (canon l) k rest).map (out ++ ·) := by
  induction out with
  | nil =>
    rw [List.length_nil, Nat.zero_add]
    cases h : decodeSymbols (canon l) k rest <;> simp [payloadBits, h, Except.map]
  | cons b out ih =>
    have hb : 0 < lenOf l b.toNat := hout b List.mem_cons_self
    have hne : codeOf (canon l) b.toNat ≠ [] :=
      List.ne_nil_of_length_pos (by rwa [codeOf_canon_length b.isLt])
    have hbits : payloadBits (canon l) (b :: out) ++ rest =
        codeOf (canon l) b.toNat ++ (payloadBits (canon l) out ++ rest) := List.append_assoc _ _ _
    rw [hbits, List.length_cons, Nat.add_right_comm, decodeSymbols,
      decodeSymbol_code hl hk b.isLt hb hne (List.nil_append _)]
    simp only [ih fun c hc => hout c (List.mem_cons_of_mem _ hc)]
    cases decodeSymbols (canon l) k rest <;> simp [Except.map]

/-- A symbol that cannot be read after the codes of `out` stops the decoder. -/
theorem decodeSymbols_error {out : List Byte} (hout : ∀ b ∈ out, 0 < lenOf l b.toNat) {n : Nat} (hn : out.length < n)
    {rest : List Bool} {c : Cause} (h : decodeSymbol (canon l) [] rest = .error c) :
    decodeSymbols (canon l) n (payloadBits (canon l) out ++ rest) = .error c := by
  obtain ⟨k, rfl⟩ : ∃ k, n = out.length + (k + 1) := ⟨n - out.length - 1, by omega⟩
  rw [decodeSymbols_payloadBits hl hk hout, decodeSymbols, h]
  rfl

theorem decodeSymbols_ok {out : List Byte} (hout : ∀ b ∈ out, 0 < lenOf l b.toNat) (rest : List Bool) :
    decodeSymbols (canon l) out.length (payloadBits (canon l) out ++ rest) = .ok out := by
  have h := decodeSymbols_payloadBits hl hk hout 0 rest
  rw [Nat.add_zero] at h
  rw [h, decodeSymbols, Except.map, List.append_nil]

end

/-! ### HUF.UNP (R305) -/

theorem exec_hufUnp_uninit {s : State} (h : ∀ e l, s.enc = some e → s.lens = some l → False) :
    exec .hufUnp s = .next (s.enterFault (uninitTrap 7)) := by
  rw [exec_eq_retire, body, bodyHufUnp]
  split
  next he hl => exact (h _ _ he hl).elim
  next => rw [retire_error]

section
variable {s : State} {e out : List Byte} {l : List (BitVec 4)} {c : Cause} (he : s.enc = some e) (hl : s.lens = some l)
include he hl

theorem exec_hufUnp_error
    (h : decodeSymbols (canon l) s.payLen.toNat (bitsOfBytes (e.drop Config.hdrBytes)) = .error c) :
    exec .hufUnp s = .next (s.enterFault ⟨c, 7, 0⟩) := by
  rw [exec_eq_retire, body, bodyHufUnp, he, hl]
  simp only [h, retire_error]

theorem exec_hufUnp_of
    (h : decodeSymbols (canon l) s.payLen.toNat (bitsOfBytes (e.drop Config.hdrBytes)) = .ok out) :
    exec .hufUnp s =
      .next { s with pay := s.pay.setFrom 0 out, freq := none, lens := none, hdr := none, cp := s.cp + 1 } := by
  rw [exec_eq_retire, body, bodyHufUnp_of he hl h, retire_ok]

end

/-- Bytes written to PAY from its first element on, as many as PAY_LEN says. -/
theorem Buf.get_setFrom_zero (t : Buf) {out : List Byte} (h : out.length ≤ Config.frameBytes) (k : Nat) :
    (t.setFrom 0 out).get k = if k < out.length then out[k]? else t.get k := by
  rw [Buf.get_setFrom]
  by_cases hk : k < out.length
  · rw [if_pos (by omega), if_pos hk, Nat.sub_zero]
  · rw [if_neg (by omega), if_neg hk]

/-- Settles O51: the decoder reads the codes of `out` back, and then what follows them decides. -/
theorem hufUnpDecodes : Obligations.HufUnpDecodes := by
  intro s hs
  split
  next e l he hlens =>
    intro hk out rest hout hbits
    have hl := hs.lens l hlens
    refine ⟨fun hlen => ?_, fun hlen hrest => ?_, fun hlen hne hno hbad => ?_⟩
    · have hok := decodeSymbols_ok hl hk hout rest
      rw [← hbits, hlen] at hok
      refine ⟨_, exec_hufUnp_of he hlens hok, rfl, fun k => ?_⟩
      rw [← hlen]
      exact Buf.get_setFrom_zero s.pay (hlen.trans_le hs.payLen) k
    · refine exec_hufUnp_error he hlens ?_
      rw [hbits]
      exact decodeSymbols_error hl hk hout hlen (decodeSymbol_truncPayload hl hk hrest)
    · obtain ⟨w, hw, hnone⟩ := hbad
      have hcode : ∀ x, x <+: rest → x ≠ [] → ¬ IsCode l x := fun x hx hx0 hc => by
        have hshort := hc.length_le
        obtain ⟨n, hn, hpos, rfl⟩ := hc
        exact hno _ hx hx0 hshort n hn hpos rfl
      have hbegins : ¬ BeginsCode l rest := fun ⟨n, hn, hx, hlen⟩ =>
        hnone n hn (Nat.zero_lt_of_lt hlen) (hw.trans hx)
      refine exec_hufUnp_error he hlens ?_
      rw [hbits]
      exact decodeSymbols_error hl hk hout hlen (decodeSymbol_badCode hne hcode hbegins)
  next h => exact exec_hufUnp_uninit h

/-! ### The round trip (R307, R308) -/

/-- Every byte of a payload has a code in the lengths built from its counts. -/
theorem lenOf_pos_of_mem {bs : List Byte} {l : List (BitVec 4)} (h : buildLens (countBytes bs) = some l) {b : Byte}
    (hb : b ∈ bs) : 0 < lenOf l b.toNat := by
  rw [lenOf_buildLens_pos h b.isLt, List.getD_eq_getElem?_getD, countBytes_getElem?, Option.getD_some]
  exact List.count_pos_iff.mpr hb

theorem buildLens_countBytes_nil : buildLens (countBytes []) = some (List.replicate 256 0) := by
  decide +kernel

/-- What HUF.PACK writes to ENC (R299). -/
def encoded (l : List (BitVec 4)) (bs : List Byte) : List Byte :=
  if bs = [] then [] else packedPayload l (hdrOf l) bs

theorem bodyHufPack_encoded {s : State} {bs : List Byte} {l : List (BitVec 4)} (hbs : s.payload = some bs)
    (hl : s.lens = some l) (hhd : s.hdr = some (hdrOf l)) (hpos : ∀ b ∈ bs, 0 < lenOf l b.toNat) :
    bodyHufPack s = .ok { s with enc := some (encoded l bs) } := by
  by_cases h0 : bs = []
  · subst h0
    exact bodyHufPack_of_empty hbs hl hhd
  · rw [encoded, if_neg h0]
    refine bodyHufPack_of hbs hl hhd hpos fun hn => h0 (List.length_eq_zero_iff.mp ?_)
    rw [(State.payload_eq_some.mp hbs).1, hn]

/-- The state with the tables made so far, `k` commands after it. -/
def State.withTables (s : State) (f : List Nat) (l : Option (List (BitVec 4))) (h : Option (List Byte)) (k : Nat) :
    State :=
  { s with freq := some f, lens := l, hdr := h, ioA := true, cp := s.cp + k }

/-- The tables and the compressed payload that HUF.CNT, HUF.BLD, HUF.HDR and HUF.PACK leave. -/
def State.compressed (s : State) (bs : List Byte) (l : List (BitVec 4)) : State :=
  { s.withTables (countBytes bs) (some l) (some (hdrOf l)) 4 with enc := some (encoded l bs) }

theorem issueAll_compress {s : State} {bs : List Byte} {l : List (BitVec 4)} (hf : s.fault = false)
    (hbs : s.payload = some bs) (hl : buildLens (countBytes bs) = some l) :
    s.issueAll [(.hufCnt, true), (.hufBld, true), (.hufHdr, true), (.hufPack, true)] = .ok (s.compressed bs l) := by
  obtain ⟨_, hcnt, rfl⟩ : ∃ a, s.issue .hufCnt true = .ok a ∧ a = s.withTables (countBytes bs) none none 1 :=
    State.issue_to (fun _ => rfl) (bodyHufCnt_of (s := { s with ioA := true }) hbs) hf rfl
  obtain ⟨_, hbld, rfl⟩ : ∃ b, (s.withTables (countBytes bs) none none 1).issue .hufBld true = .ok b ∧
      b = s.withTables (countBytes bs) (some l) none 2 :=
    State.issue_to (fun _ => rfl) (bodyHufBld_of rfl hl) hf rfl
  obtain ⟨_, hhdr, rfl⟩ : ∃ c, (s.withTables (countBytes bs) (some l) none 2).issue .hufHdr true = .ok c ∧
      c = s.withTables (countBytes bs) (some l) (some (hdrOf l)) 3 :=
    State.issue_to (fun _ => rfl) (bodyHufHdr_of rfl) hf rfl
  obtain ⟨_, hpack, rfl⟩ : ∃ d, (s.withTables (countBytes bs) (some l) (some (hdrOf l)) 3).issue .hufPack true = .ok d ∧
      d = s.compressed bs l :=
    State.issue_to (fun _ => rfl) (bodyHufPack_encoded hbs rfl rfl fun _ => lenOf_pos_of_mem hl) hf rfl
  rw [State.issueAll_cons_ok hcnt, State.issueAll_cons_ok hbld, State.issueAll_cons_ok hhdr,
    State.issueAll_cons_ok hpack, State.issueAll]

/-- HUF.LDH gives back the lengths and the header that the payload was packed with (R307). -/
theorem exec_hufLdh_compressed {s : State} {bs : List Byte} {l : List (BitVec 4)}
    (hl : buildLens (countBytes bs) = some l) :
    exec .hufLdh (s.compressed bs l) = .next { s.compressed bs l with freq := none, cp := s.cp + 5 } := by
  by_cases h0 : bs = []
  · subst h0
    obtain rfl := Option.some.inj (buildLens_countBytes_nil.symm.trans hl)
    rw [exec_hufLdh_empty (s := s.compressed [] _) rfl rfl, ← hdrOf_zeros]
    rfl
  · have henc : (s.compressed bs l).enc = some (packedPayload l (hdrOf l) bs) := by
      rw [State.compressed, encoded, if_neg h0]
    have htake : (packedPayload l (hdrOf l) bs).take Config.hdrBytes = hdrOf l := List.take_left' (hdrOf_length l)
    have hlen : Config.hdrBytes ≤ (packedPayload l (hdrOf l) bs).length := by
      rw [packedPayload, List.length_append, hdrOf_length]
      exact Nat.le_add_right _ _
    have hun : unhdr (hdrOf l) = l := unhdr_hdrOf (buildLens_length hl)
    rw [exec_hufLdh_of henc hlen (by rw [htake, hun]; exact kraftSum_buildLens_le hl), htake, hun]
    rfl

/-- The bits of a compressed payload begin with its codes. -/
theorem bitsOfBytes_encoded (l : List (BitVec 4)) (bs : List Byte) :
    ∃ rest, bitsOfBytes ((encoded l bs).drop Config.hdrBytes) = payloadBits (canon l) bs ++ rest := by
  by_cases h0 : bs = []
  · subst h0
    exact ⟨[], rfl⟩
  · obtain ⟨pad, -, h⟩ := bitsOfBytes_packBits (payloadBits (canon l) bs)
    refine ⟨List.replicate pad false, ?_⟩
    rw [encoded, if_neg h0, packedPayload, List.drop_left' (hdrOf_length l), h]

/-- Settles O52: HUF.UNP reads from the packed bits, by the lengths HUF.LDH took from the header, the bytes they were made
of. -/
theorem huffmanRoundTrip : Obligations.HuffmanRoundTrip := by
  intro s bs hs hf hbs hdepth
  obtain ⟨l, hl⟩ := Option.ne_none_iff_exists'.mp
    (mt buildLens_eq_none.mp fun ⟨p, hp, hdeep⟩ => absurd (hdepth p hp) (Nat.not_le.mpr hdeep))
  obtain ⟨hlen, hget⟩ := State.payload_eq_some.mp hbs
  obtain ⟨rest, hbits⟩ := bitsOfBytes_encoded l bs
  have hok := decodeSymbols_ok (buildLens_length hl) (kraftSum_buildLens_le hl)
    (fun b hb => lenOf_pos_of_mem hl hb) rest
  rw [hlen, ← hbits] at hok
  have hpay : ∀ k, (s.pay.setFrom 0 bs).get k = s.pay.get k := fun k => by
    rw [Buf.get_setFrom_zero _ (hlen.trans_le hs.payLen)]
    split
    next hk => exact (hget k (hlen ▸ hk)).symm
    next => rfl
  refine ⟨l, _, _, _, issueAll_compress hf hbs hl, exec_hufLdh_compressed hl, exec_hufUnp_of rfl rfl hok, rfl, rfl, rfl,
    rfl, rfl, hf, hf, rfl, ?_, hpay⟩
  exact State.payload_eq_some.mpr ⟨hlen, fun k hk => (hpay k).trans (hget k hk)⟩

end Sys2Proof.Machine

/-! The seek index stays the chain of links it was built from (46_container.md R343, R345, R352, R353). Two commands extend
it, CR.NEXT by one entry and CR.SEEK by a walk, and each entry they append is the validated link of the one before. The
only commands that write CTR need or leave the reader closed, and a fault ends what is claimed of it. -/

namespace Sys2Proof.Machine

/-! ### Entries and their links -/

/-- The link of a record that is not the last: the next record's offset, further on and with its nine bytes of
fixed fields inside the file. -/
theorem linkOf_ok_of_more {m : Memory} {count p k next stop : Nat} (h : linkOf m count p k = .ok (next, stop))
    (hmore : next ≠ 0 ∨ k + 1 ≠ count) :
    m.leAt p 8 = next ∧ p + Config.recPrefix ≤ next ∧ next + Config.recPrefix ≤ m.len := by
  obtain ⟨hnext, ⟨h0, hlast, -⟩ | ⟨-, -, hback, hoob, -⟩⟩ := linkOf_ok h
  · omega
  · exact ⟨hnext.symm, hback, hoob⟩

/-- Nothing but entry 0 is claimed of the index of a closed reader. -/
theorem State.SeekOk.of_closed {s : State} (hr : s.ropen = false) (first : ∀ p, s.idx[0]? = some p → p = Config.fileHdr) :
    s.SeekOk where
  first := first
  links _ hr' := absurd (hr.symm.trans hr') (by decide)
  here _ hr' := absurd (hr.symm.trans hr') (by decide)

theorem State.enterFault_seek {s : State} (hs : s.SeekOk) (e : Trap) : (s.enterFault e).SeekOk where
  first := by rw [State.enterFault_idx]; exact hs.first
  links hf := by rw [State.enterFault_fault] at hf; cases hf
  here hf := by rw [State.enterFault_fault] at hf; cases hf

/-! ### The commands that move the reader -/

/-- A reader opened stands at entry 0, the only one (R340). -/
theorem State.openReader_seek (s : State) (q n : BitVec 32) : (s.openReader q n).SeekOk := by
  by_cases hn : 0 < n.toNat
  · have hidx : (s.openReader q n).idx = [Config.fileHdr] := if_pos hn
    exact {
      first := by rw [hidx]; rintro _ ⟨⟩; rfl
      links := by rw [hidx]; rintro - - k p q - ⟨⟩
      here := by rw [hidx]; exact fun _ _ _ => rfl }
  · have hidx : (s.openReader q n).idx = [] := if_neg hn
    exact {
      first := by rw [hidx]; rintro _ ⟨⟩
      links := by rw [hidx]; rintro - - k p q ⟨⟩
      here := fun _ _ he => absurd (of_decide_eq_false he) (by omega) }

/-- A record taken appends its link when it is the last one known, and finds its link in the index when it is not (R345). -/
theorem State.takeRecord_seek {s : State} {n : BitVec 32} {next stop : Nat} (hc : s.ControlOk) (hs : s.SeekOk)
    (hr : s.ropen = true) (he : s.eos = false) (hn : s.frameCount = some n)
    (hl : linkOf s.ctr n.toNat s.rpos s.rnum.toNat = .ok (next, stop)) (t : FrameType) :
    (s.takeRecord t next stop).SeekOk := by
  obtain ⟨-, n', hn', hle, -, hlt⟩ := hc.reader hr
  obtain rfl : n' = n := Option.some.inj (hn'.symm.trans hn)
  specialize hlt he
  have hstep : (s.rnum + 1).toNat = s.rnum.toNat + 1 := toNat_add_one_of_lt (lt_of_lt_of_le hlt hle)
  by_cases hnew : next ≠ 0 ∧ s.rnum.toNat + 1 = s.idx.length
  · obtain ⟨hne, hlast⟩ := hnew
    have hidx : (s.takeRecord t next stop).idx = s.idx ++ [next] := if_pos ⟨hne, hlast⟩
    have hold : ∀ k, k < s.idx.length → (s.idx ++ [next])[k]? = s.idx[k]? := fun k hk => List.getElem?_append_left hk
    have hadd : (s.idx ++ [next])[s.rnum.toNat + 1]? = some next := by rw [hlast, List.getElem?_concat_length]
    exact {
      first := by rw [hidx, hold 0 (by omega)]; exact hs.first
      links := by
        rw [hidx]
        intro hf _ k p q hp hq
        have hk : k + 1 < s.idx.length + 1 := by simpa using (List.getElem?_eq_some_iff.mp hq).1
        rw [hold k (by omega)] at hp
        rcases Nat.lt_succ_iff_lt_or_eq.mp hk with hk | hk
        · rw [hold _ hk] at hq
          exact hs.links hf hr k p q hp hq
        · obtain rfl : k = s.rnum.toNat := by omega
          obtain rfl : s.rpos = p := Option.some.inj ((hs.here hf hr he).symm.trans hp)
          obtain rfl : next = q := Option.some.inj (hadd.symm.trans hq)
          exact linkOf_ok_of_more hl (.inl hne)
      here := by
        rw [hidx, State.takeRecord_rnum, hstep]
        exact fun _ _ _ => hadd }
  · have hidx : (s.takeRecord t next stop).idx = s.idx := if_neg hnew
    exact {
      first := by rw [hidx]; exact hs.first
      links := by rw [hidx]; exact hs.links
      here := by
        rw [hidx, State.takeRecord_rnum, hstep, State.takeRecord_eos]
        intro hf _ heos
        split at heos
        next => cases heos
        next hne =>
          have hmore : s.rnum.toNat + 1 < s.idx.length := by omega
          have hnext : s.idx[s.rnum.toNat + 1]? = some s.idx[s.rnum.toNat + 1] := List.getElem?_eq_getElem hmore
          obtain ⟨hlink, -, -⟩ := hs.links hf hr _ _ _ (hs.here hf hr he) hnext
          rw [hnext, ← hlink, ← (linkOf_ok hl).1]
          rfl }

/-- A walk appends the links of records that are not the last, since it ends at a record before FRAME_COUNT (R353). -/
theorem bodyCrSeek_seek {io : Bool} {n : BitVec 32} {s t : State} (hc : s.ControlOk) (hs : s.SeekOk)
    (h : bodyCrSeek io n s = .ok t) : t.SeekOk := by
  obtain ⟨count, idx, hr, hn, hlt, -, hwalk, rfl⟩ := bodyCrSeek_ok h
  obtain ⟨-, count', hn', -, hpos, -⟩ := hc.reader hr
  obtain rfl : count' = count := Option.some.inj (hn'.symm.trans hn)
  obtain ⟨hlen, hold, hnew⟩ := walkIndex_ok hwalk
  exact {
    first := by rw [hold 0 (hpos (by omega))]; exact hs.first
    links := fun hf _ k p q hp hq => by
      by_cases hk : k + 1 < s.idx.length
      · rw [hold k (by omega)] at hp
        rw [hold _ hk] at hq
        exact hs.links hf hr k p q hp hq
      · have hk' : k + 1 < idx.length := (List.getElem?_eq_some_iff.mp hq).1
        obtain hl | ⟨_, hl⟩ := hnew k p q (by omega) hp hq <;> exact linkOf_ok_of_more hl (.inr (by omega))
    here := fun _ _ _ => by
      have hin : n.toNat < idx.length := by omega
      rw [List.getD_eq_getElem _ _ hin]
      exact List.getElem?_eq_getElem hin }

/-! ### The commands -/

theorem unit_preserves_seek (io1 io2 : Bool) (i : Instr) (hu : i.IsUnit) {s t : State} (hc : s.ControlOk) (hs : s.SeekOk)
    (h : body io1 io2 i s = .ok t) : t.SeekOk := by
  cases i with
  | nop => cases h; exact hs
  | rst => obtain rfl := bodyRst_ok h; exact State.clearAll_seek _
  | setq q => obtain ⟨-, -, -, rfl⟩ := bodySetq_ok h; exact .of_closed rfl hs.first
  | setn n => obtain ⟨-, rfl⟩ := bodySetn_ok h; exact .of_closed rfl hs.first
  | frLd f => obtain ⟨-, -, rfl⟩ := bodyFrLd_ok h; exact { hs with }
  | frSt slot => obtain ⟨_, -, -, -, rfl⟩ := bodyFrSt_ok h; exact { hs with }
  | cscFwd => obtain ⟨_, -, rfl⟩ := bodyCscFwd_ok h; exact { hs with }
  | cscInv => obtain ⟨_, -, rfl⟩ := bodyCscInv_ok h; exact { hs with }
  | tpFwd => obtain ⟨_, _, -, -, ⟨-, rfl⟩ | ⟨-, _, -, rfl⟩⟩ := bodyTpFwd_ok h <;> exact { hs with }
  | tpInv => obtain ⟨_, _, -, -, -, ⟨-, rfl⟩ | ⟨-, _, -, rfl⟩⟩ := bodyTpInv_ok h <;> exact { hs with }
  | blkLd i => obtain ⟨-, _, -, rfl⟩ := bodyBlkLd_ok h; exact { hs with }
  | blkSt i => obtain ⟨-, _, -, -, -, rfl⟩ := bodyBlkSt_ok h; exact { hs with }
  | blkPut i => obtain ⟨-, -, _, _, -, -, -, rfl⟩ := bodyBlkPut_ok h; exact { hs with }
  | blkGet i => obtain ⟨-, -, _, -, rfl⟩ := bodyBlkGet_ok h; exact { hs with }
  | blkWr k v => obtain ⟨-, -, rfl⟩ := bodyBlkWr_ok h; exact { hs with }
  | blkCh t => obtain ⟨-, rfl⟩ := bodyBlkCh_ok h; exact { hs with }
  | fdct => obtain ⟨_, -, rfl⟩ := bodyFdct_ok h; exact { hs with }
  | idct => obtain ⟨_, -, rfl⟩ := bodyIdct_ok h; exact { hs with }
  | quant => obtain ⟨_, _, -, -, rfl⟩ := bodyQuant_ok h; exact { hs with }
  | dequant => obtain ⟨_, _, -, rfl⟩ := bodyDequant_ok h; exact { hs with }
  | payLen n => obtain ⟨-, rfl⟩ := bodyPayLen_ok h; exact { hs with }
  | payWr k b => obtain ⟨-, rfl⟩ := bodyPayWr_ok h; exact { hs with }
  | hufCnt => obtain ⟨_, -, rfl⟩ := bodyHufCnt_ok h; exact { hs with }
  | hufBld => obtain ⟨_, _, -, -, rfl⟩ := bodyHufBld_ok h; exact { hs with }
  | hufHdr => obtain ⟨_, -, rfl⟩ := bodyHufHdr_ok h; exact { hs with }
  | hufPack => obtain ⟨_, _, _, -, -, -, -, rfl⟩ := bodyHufPack_ok h; exact { hs with }
  | hufLdh => obtain ⟨_, -, ⟨-, rfl⟩ | ⟨-, -, rfl⟩⟩ := bodyHufLdh_ok h <;> exact { hs with }
  | hufUnp => obtain ⟨_, _, _, -, -, -, rfl⟩ := bodyHufUnp_ok h; exact { hs with }
  | cwHdr => obtain ⟨_, _, -, -, -, rfl⟩ := bodyCwHdr_ok h; exact .of_closed rfl (by rintro _ ⟨⟩)
  | cwRec =>
    obtain ⟨_, _, _, hw, -, -, -, -, -, -, -, rfl⟩ := bodyCwRec_ok h
    obtain ⟨hclosed, -⟩ := hc.writer hw
    exact .of_closed hclosed hs.first
  | crOpen =>
    obtain ⟨q, n, -, -, -, -, -, -, -, -, -, -, -, rfl⟩ := bodyCrOpen_ok h
    exact State.openReader_seek s q n
  | crNext =>
    obtain ⟨_, _, _, ty, hr, he, -, -, hn, hl, -, -, -, rfl⟩ := bodyCrNext_ok h
    exact State.takeRecord_seek hc hs hr he hn hl ty
  | crSeek n => exact bodyCrSeek_seek hc hs h
  | encFrame f => exact hu.elim
  | decFrame slot => exact hu.elim

/-- That the index is linked is kept together with sound control registers: a writer excludes a reader, and the reader's
record number is that of an entry. -/
theorem seekOk_invariant : Invariant fun s => s.ControlOk ∧ s.SeekOk where
  inputs port a b h := ⟨controlOk_invariant.inputs port a b h.1, { h.2 with }⟩
  supplyRaw bs h := ⟨controlOk_invariant.supplyRaw bs h.1, { h.2 with }⟩
  clearAll _ := ⟨State.clearAll_control _, State.clearAll_seek _⟩
  enterFault e h := ⟨State.enterFault_control h.1 e, State.enterFault_seek h.2 e⟩
  unit io1 io2 i hu s t hs h :=
    ⟨unit_preserves_control io1 io2 i hu s t hs.1 h, unit_preserves_seek io1 io2 i hu hs.1 hs.2 h⟩
  retired cp hf h := ⟨controlOk_invariant.retired cp hf h.1, { h.2 with }⟩

/-- Settles O16: the four other invariants are kept by every step, and the index is linked beside sound control registers. -/
theorem stepKeepsSeekIndexLinked : Obligations.StepKeepsSeekIndexLinked := fun s t hs hport h =>
  have ⟨_, hseek⟩ := seekOk_invariant.step (fun bs rest hp => absurd hp (hport bs rest)) ⟨hs.control, hs.seek⟩ h
  { files := stepKeepsFilesCanonical s t hs.files h
    shapes := stepKeepsElementShapes s t hs.shapes h
    control := stepKeepsControlSound s t hs.control h
    tables := stepKeepsTablesFresh s t hs.tables h
    seek := hseek }

end Sys2Proof.Machine

/-! The container writer (46_container.md R333, R335, 20_memory.md R90). Both commands write one list of bytes, so each byte
of CTR afterwards is an element of that list or what it was before, and a little-endian field of the list is its bytes in
order. -/

namespace Sys2Proof

/-! ### Little-endian fields (00_scope.md R11) -/

/-- Byte `k` of a number written in `n` bytes is bits 8k to 8k + 7 of a word that holds those bytes. -/
theorem leBytes_getElem?_extract {n k w : Nat} (v : Nat) (hk : k < n) (hw : 8 * n ≤ w) :
    (leBytes n v)[k]? = some ((BitVec.ofNat w v).extractLsb' (8 * k) 8) := by
  rw [leBytes_getElem? v hk]
  congr 1
  apply BitVec.eq_of_getLsbD_eq
  intro j hj
  have hbit : 8 * k + j < w := by omega
  simp only [BitVec.getLsbD_extractLsb', BitVec.getLsbD_ofNat, hj, hbit, decide_true, Bool.true_and,
    show 256 ^ k = 2 ^ (8 * k) by rw [Nat.pow_mul], Nat.testBit_div_two_pow, Nat.add_comm j]

namespace Machine

/-! ### CW.HDR (R333) -/

theorem fileHeader_length (n q : BitVec 32) : (fileHeader n q).length = 15 := by
  simp [fileHeader, Config.magic]

theorem fileHeader_frames (n q : BitVec 32) {k : Nat} (hk : k < 4) :
    (fileHeader n q)[7 + k]? = some (n.extractLsb' (8 * k) 8) := by
  have hfield : (leBytes 4 n.toNat)[k]? = some (n.extractLsb' (8 * k) 8) := by
    simpa using leBytes_getElem?_extract (w := 32) n.toNat hk le_rfl
  rw [fileHeader, List.getElem?_append_left (by simp [Config.magic]; omega),
    List.getElem?_append_right (by simp [Config.magic]), ← hfield]
  congr 1
  simp [Config.magic]

theorem fileHeader_quality (n q : BitVec 32) {k : Nat} (hk : k < 4) :
    (fileHeader n q)[11 + k]? = some (q.extractLsb' (8 * k) 8) := by
  have hfield : (leBytes 4 q.toNat)[k]? = some (q.extractLsb' (8 * k) 8) := by
    simpa using leBytes_getElem?_extract (w := 32) q.toNat hk le_rfl
  rw [fileHeader, List.getElem?_append_right (by simp [Config.magic]), ← hfield]
  congr 1
  simp [Config.magic]

/-- A file begun anew holds what was written to it. -/
theorem Memory.byteAt_write_empty (bs : List Byte) (x : Nat) : (Memory.empty.write 0 bs).byteAt x = bs[x]? := by
  rw [Memory.byteAt_write Memory.empty 0 bs x (Nat.zero_le _)]
  split
  next => rfl
  next h => rw [List.getElem?_eq_none (by omega)]; exact if_neg (Nat.not_lt_zero x)

section
variable {s : State}

theorem exec_cwHdr_uninit (h : ∀ q n, s.quality = some q → s.frameCount = some n → False) :
    exec .cwHdr s = .next (s.enterFault ⟨.uninit, 8, 0⟩) := by
  rw [exec_eq_retire, body, bodyCwHdr]
  split
  next q n hq hn => exact (h q n hq hn).elim
  next => rfl

variable {q n : BitVec 32} (hq : s.quality = some q) (hn : s.frameCount = some n)
include hq hn

theorem exec_cwHdr_ctrWr (hio : s.ioA = false) : exec .cwHdr s = .next (s.enterFault ⟨.ctrWr, 8, 0⟩) := by
  rw [exec_eq_retire, body, bodyCwHdr, hq, hn]
  simp only [if_pos hio, retire_error]

theorem exec_cwHdr_of (hio : ¬ s.ioA = false) : exec .cwHdr s = .next { s with
    ctr := Memory.empty.write 0 (fileHeader n q), nrec := 0, wpos := 15, rpos := 0, rnum := 0, idx := [], prev := none,
    prevIdx := none, wact := decide (0 < n.toNat), wdone := decide (n.toNat = 0), ropen := false, eos := false,
    cp := s.cp + 1 } := by
  rw [exec_eq_retire, body, bodyCwHdr, hq, hn]
  simp only [if_neg hio, retire_ok]

end

/-- Settles O53: CTR holds the bytes of the file header and no others. -/
theorem cwHdrStartsContainer : Obligations.CwHdrStartsContainer := by
  intro s
  split
  next q n hq hn =>
    split
    next hio => exact exec_cwHdr_ctrWr hq hn hio
    next hio =>
      refine ⟨_, exec_cwHdr_of hq hn hio, rfl, ?_⟩
      simp only [Memory.byteAt_write_empty]
      exact ⟨(Nat.zero_max _).trans ((Nat.zero_add _).trans (fileHeader_length n q)), rfl, rfl, rfl, rfl, rfl, rfl, rfl,
        fun k hk => fileHeader_frames n q hk, fun k hk => fileHeader_quality n q hk⟩
  next h => exact exec_cwHdr_uninit h

/-! ### A record (R335) -/

section
variable (next : Nat) (t : FrameType) (e : List Byte)

theorem recordBytes_length : (recordBytes next t e).length = 9 + e.length := by
  simp [recordBytes]
  omega

theorem recordBytes_next {k : Nat} (hk : k < 8) :
    (recordBytes next t e)[k]? = some ((BitVec.ofNat 64 next).extractLsb' (8 * k) 8) := by
  rw [recordBytes, List.append_assoc, List.getElem?_append_left (by simpa using hk),
    leBytes_getElem?_extract next hk le_rfl]

theorem recordBytes_type : (recordBytes next t e)[8]? = some (if t = .key then 0 else 1) := by
  cases t <;> rfl

theorem recordBytes_payload (k : Nat) : (recordBytes next t e)[9 + k]? = e[k]? := by
  rw [recordBytes, List.getElem?_append_right (by simp)]
  congr 1
  simp

end

/-- The offset that a record appended to `s` carries: where the next record is to start, or 0 after the last (R335). -/
def State.nextOffset (s : State) (count : BitVec 32) (e : List Byte) : Nat :=
  if s.nrec.toNat + 1 = count.toNat then 0 else s.wpos + 9 + e.length

section
variable {s : State} {n : BitVec 32} {t : FrameType} {e : List Byte}

theorem State.appendRecord_len (hp : s.wpos = s.ctr.len) : (s.appendRecord n t e).ctr.len = s.wpos + 9 + e.length := by
  show max s.ctr.len (s.wpos + (recordBytes _ t e).length) = _
  rw [recordBytes_length]
  omega

/-- The record stands in CTR from WPOS on. -/
theorem State.appendRecord_byteAt (hp : s.wpos = s.ctr.len) {k : Nat} (hk : k < 9 + e.length) :
    (s.appendRecord n t e).ctr.byteAt (s.wpos + k) = (recordBytes (s.nextOffset n e) t e)[k]? := by
  show (s.ctr.write s.wpos (recordBytes (s.nextOffset n e) t e)).byteAt (s.wpos + k) = _
  rw [Memory.byteAt_write _ _ _ _ hp.le, recordBytes_length, if_pos (by omega), Nat.add_sub_cancel_left]

theorem State.appendRecord_byteAt_before (hp : s.wpos = s.ctr.len) {a : Nat} (ha : a < s.wpos) :
    (s.appendRecord n t e).ctr.byteAt a = s.ctr.byteAt a := by
  show (s.ctr.write s.wpos _).byteAt a = _
  rw [Memory.byteAt_write _ _ _ _ hp.le, if_neg (by omega)]

/-- An active writer is not complete, so after the record it is active or complete as the record was the last or not. -/
theorem State.appendRecord_flags (hc : s.ControlOk) (hw : s.wact = true) :
    (s.appendRecord n t e).wact = decide (s.nrec.toNat + 1 ≠ n.toNat) ∧
    (s.appendRecord n t e).wdone = decide (s.nrec.toNat + 1 = n.toNat) := by
  obtain ⟨-, hd, -⟩ := hc.writer hw
  by_cases hlast : s.nrec.toNat + 1 = n.toNat <;> simp [State.appendRecord, hlast, hw, hd]

end

/-! ### CW.REC (R335) -/

section
variable {s : State}

theorem exec_cwRec_inactive (hw : s.wact = false) : exec .cwRec s = .next (s.enterFault ⟨.writer, 8, 0⟩) := by
  rw [exec_eq_retire, body, bodyCwRec, if_pos hw, retire_error]

theorem exec_cwRec_uninit (hw : ¬ s.wact = false)
    (h : ∀ e t i, s.enc = some e → s.ftype = some t → s.fidx = some i → False) :
    exec .cwRec s = .next (s.enterFault ⟨.uninit, 8, 0⟩) := by
  rw [exec_eq_retire, body, bodyCwRec, if_neg hw]
  split
  next e t i he ht hi => exact (h e t i he ht hi).elim
  next => rfl

variable {e : List Byte} {t : FrameType} {i : BitVec 32} (hw : ¬ s.wact = false) (he : s.enc = some e)
  (ht : s.ftype = some t) (hi : s.fidx = some i)
include hw he ht hi

theorem exec_cwRec_order (h : i ≠ s.nrec) : exec .cwRec s = .next (s.enterFault ⟨.order, 8, 0⟩) := by
  rw [exec_eq_retire, body, bodyCwRec, if_neg hw, he, ht, hi]
  simp only [if_pos h, retire_error]

variable (hord : ¬ i ≠ s.nrec)
include hord

theorem exec_cwRec_ftypeRule (h : t ≠ ftypeOf s.nrec.toNat) :
    exec .cwRec s = .next (s.enterFault ⟨.ftypeRule, 8, 0⟩) := by
  rw [exec_eq_retire, body, bodyCwRec, if_neg hw, he, ht, hi]
  simp only [if_neg hord, if_pos h, retire_error]

variable (hty : ¬ t ≠ ftypeOf s.nrec.toNat)
include hty

theorem exec_cwRec_writer (h : s.wpos ≠ s.ctr.len) : exec .cwRec s = .next (s.enterFault ⟨.writer, 8, 0⟩) := by
  rw [exec_eq_retire, body, bodyCwRec, if_neg hw, he, ht, hi]
  simp only [if_neg hord, if_neg hty, if_pos h, retire_error]

variable (hp : ¬ s.wpos ≠ s.ctr.len)
include hp

theorem exec_cwRec_ctrWr (h : s.ioA = false) : exec .cwRec s = .next (s.enterFault ⟨.ctrWr, 8, s.wpos⟩) := by
  rw [exec_eq_retire, body, bodyCwRec, if_neg hw, he, ht, hi]
  simp only [if_neg hord, if_neg hty, if_neg hp, if_pos h, retire_error]

theorem exec_cwRec_of {n : BitVec 32} (hn : s.frameCount = some n) (hio : ¬ s.ioA = false) :
    exec .cwRec s = .next { s.appendRecord n t e with cp := s.cp + 1 } := by
  rw [exec_eq_retire, body, bodyCwRec, if_neg hw, he, ht, hi, hn]
  simp only [if_neg hord, if_neg hty, if_neg hp, if_neg hio, retire_ok]

end

/-- Settles O54, check by check in the order of R335. -/
theorem cwRecAppendsRecord : Obligations.CwRecAppendsRecord := by
  intro s hc
  split
  next hw => exact exec_cwRec_inactive hw
  next hw =>
    have hact : s.wact = true := by simpa using hw
    split
    next e t i n he ht hi hn =>
      rw [show (if s.nrec.toNat % 32 = 0 then FrameType.key else .delta) = ftypeOf s.nrec.toNat from rfl]
      split
      next h => exact exec_cwRec_order hw he ht hi h
      next hord =>
        split
        next h => exact exec_cwRec_ftypeRule hw he ht hi hord h
        next hty =>
          split
          next h => exact exec_cwRec_writer hw he ht hi hord hty h
          next hp =>
            split
            next h => exact exec_cwRec_ctrWr hw he ht hi hord hty hp h
            next hio =>
              have hend : s.wpos = s.ctr.len := not_not.mp hp
              obtain ⟨-, -, -, n', hn', hlt⟩ := hc.writer hact
              obtain rfl : n' = n := Option.some.inj (hn'.symm.trans hn)
              obtain ⟨hwact, hwdone⟩ := State.appendRecord_flags (n := n') (t := t) (e := e) hc hact
              refine ⟨_, exec_cwRec_of hw he ht hi hord hty hp hn hio, ?_, toNat_add_one_of_lt hlt,
                State.appendRecord_len hend, fun a => State.appendRecord_byteAt_before hend, fun k hk => ?_, ?_,
                fun k hk => ?_⟩
              · rw [← hwact, ← hwdone]
                rfl
              · exact (State.appendRecord_byteAt hend (by omega)).trans (recordBytes_next _ t e hk)
              · exact (State.appendRecord_byteAt hend (by omega)).trans (recordBytes_type _ t e)
              · rw [Nat.add_assoc]
                exact (State.appendRecord_byteAt hend (by omega)).trans (recordBytes_payload _ t e k)
    next hsome => exact exec_cwRec_uninit hw hsome
    next => trivial

end Machine

end Sys2Proof

/-! The container reader (46_container.md R340 to R353) and the record round trip (R360). What CTR holds is read as lists of
bytes and as little-endian numbers, and both are said byte by byte here. CR.NEXT and CR.SEEK meet a record's link by the
one function of R343. -/

namespace Sys2Proof

/-! ### Little-endian numbers read back (00_scope.md R11) -/

theorem leNat_lt (bs : List Byte) : leNat bs < 256 ^ bs.length := by
  induction bs with
  | nil => exact Nat.one_pos
  | cons b bs ih =>
    have hb : b.toNat < 256 := b.isLt
    rw [leNat, List.length_cons, Nat.pow_succ']
    omega

theorem leBytes_leNat (bs : List Byte) : leBytes bs.length (leNat bs) = bs := by
  induction bs with
  | nil => rfl
  | cons b bs ih =>
    have hb : b.toNat < 256 := b.isLt
    rw [leNat, List.length_cons, leBytes, show (b.toNat + 256 * leNat bs) / 256 = leNat bs by omega, ih]
    congr 1
    apply BitVec.eq_of_toNat_eq
    rw [BitVec.toNat_ofNat]
    omega

namespace Machine

/-! ### Bytes and numbers of a file (20_memory.md R86) -/

theorem Memory.get_of_byteAt {m : Memory} {a : Nat} {b : Byte} (h : m.byteAt a = some b) : m.get a = b := by
  unfold Memory.byteAt at h
  split at h
  · exact Option.some.inj h
  · cases h

theorem Memory.leAt_lt (m : Memory) (a n : Nat) : m.leAt a n < 256 ^ n := by
  simpa [Memory.leAt] using leNat_lt (m.read a n)

theorem Memory.leBytes_leAt (m : Memory) (a n : Nat) : leBytes n (m.leAt a n) = m.read a n := by
  simpa [Memory.leAt] using leBytes_leNat (m.read a n)

section
variable {m : Memory} (h : m.wf)
include h

theorem Memory.read_eq_map (a n : Nat) : m.read a n = (List.range n).map fun k => m.get (a + k) := by
  apply List.ext_getElem?
  intro k
  by_cases hk : k < n
  · rw [Memory.read_getElem m a n k h hk]
    simp [hk]
  · rw [List.getElem?_eq_none (by simp; omega), List.getElem?_eq_none (by simp; omega)]

theorem Memory.read_eq_of_byteAt {a : Nat} {bs : List Byte} (hbs : ∀ k, k < bs.length → m.byteAt (a + k) = bs[k]?) :
    m.read a bs.length = bs := by
  apply List.ext_getElem?
  intro k
  by_cases hk : k < bs.length
  · have hb := (hbs k hk).trans (List.getElem?_eq_getElem hk)
    rw [Memory.read_getElem m a _ k h hk, Memory.get_of_byteAt hb, List.getElem?_eq_getElem hk]
  · rw [List.getElem?_eq_none (by simp; omega), List.getElem?_eq_none (by omega)]

/-- Byte `k` of a little-endian number, read into a word that holds it. -/
theorem Memory.extract_leAt {a n k w : Nat} (hk : k < n) (hw : 8 * n ≤ w) :
    (BitVec.ofNat w (m.leAt a n)).extractLsb' (8 * k) 8 = m.get (a + k) := by
  have hbyte := leBytes_getElem?_extract (m.leAt a n) hk hw
  rw [Memory.leBytes_leAt, Memory.read_getElem m a n k h hk] at hbyte
  exact (Option.some.inj hbyte).symm

theorem Memory.leAt_two_eq_iff {a v : Nat} (hv : v < 65536) :
    m.leAt a 2 = v ↔ m.get a = BitVec.ofNat 8 v ∧ m.get (a + 1) = BitVec.ofNat 8 (v / 256) := by
  have hbytes : m.read a 2 = [m.get a, m.get (a + 1)] := Memory.read_eq_map h a 2
  constructor
  · rintro rfl
    have hle := Memory.leBytes_leAt m a 2
    rw [hbytes] at hle
    simpa [leBytes, eq_comm] using hle
  · rintro ⟨h0, h1⟩
    rw [Memory.leAt, hbytes, h0, h1]
    exact (leNat_leBytes 2 v).trans (Nat.mod_eq_of_lt hv)

/-- The magic bytes of a container (20_memory.md R90). -/
theorem Memory.read_magic_iff :
    m.read 0 3 = Config.magic ↔ m.get 0 = 0x53 ∧ m.get 1 = 0x4D ∧ m.get 2 = 0x50 := by
  rw [show m.read 0 3 = [m.get 0, m.get 1, m.get 2] from Memory.read_eq_map h 0 3]
  simp [Config.magic]

/-- The dimensions of a container (R90). -/
theorem Memory.dims_iff : (m.leAt 3 2 = Config.cifX ∧ m.leAt 5 2 = Config.cifY) ↔
    m.get 3 = 0x60 ∧ m.get 4 = 0x01 ∧ m.get 5 = 0x20 ∧ m.get 6 = 0x01 := by
  rw [Memory.leAt_two_eq_iff h (by decide), Memory.leAt_two_eq_iff h (by decide), and_assoc]
  rfl

end

/-! ### CR.OPEN (R340) -/

section
variable {s : State}

theorem exec_crOpen_writer (h : s.wact = true) : exec .crOpen s = .next (s.enterFault ⟨.writer, 9, 0⟩) := by
  rw [exec_eq_retire, body, bodyCrOpen]
  simp only [if_pos h, retire_error]

variable (hw : ¬ s.wact = true)
include hw

theorem exec_crOpen_ctrRd (h : s.ioA = false) : exec .crOpen s = .next (s.enterFault ⟨.ctrRd, 9, 0⟩) := by
  rw [exec_eq_retire, body, bodyCrOpen]
  simp only [if_neg hw, if_pos h, retire_error]

variable (hio : ¬ s.ioA = false)
include hio

theorem exec_crOpen_truncHdr (h : s.ctr.len < Config.fileHdr) :
    exec .crOpen s = .next (s.enterFault ⟨.truncHdr, 9, s.ctr.len⟩) := by
  rw [exec_eq_retire, body, bodyCrOpen]
  simp only [if_neg hw, if_neg hio, if_pos h, retire_error]

variable (hlen : ¬ s.ctr.len < Config.fileHdr)
include hlen

theorem exec_crOpen_magic (h : s.ctr.read 0 3 ≠ Config.magic) :
    exec .crOpen s = .next (s.enterFault ⟨.magic, 9, 0⟩) := by
  rw [exec_eq_retire, body, bodyCrOpen]
  simp only [if_neg hw, if_neg hio, if_neg hlen, if_pos h, retire_error]

variable (hmagic : ¬ s.ctr.read 0 3 ≠ Config.magic)
include hmagic

theorem exec_crOpen_dims (h : s.ctr.leAt 3 2 ≠ Config.cifX ∨ s.ctr.leAt 5 2 ≠ Config.cifY) :
    exec .crOpen s = .next (s.enterFault ⟨.dims, 9, 3⟩) := by
  rw [exec_eq_retire, body, bodyCrOpen]
  simp only [if_neg hw, if_neg hio, if_neg hlen, if_neg hmagic, if_pos h, retire_error]

variable (hdims : ¬ (s.ctr.leAt 3 2 ≠ Config.cifX ∨ s.ctr.leAt 5 2 ≠ Config.cifY)) {q n : BitVec 32}
  (hq : q = BitVec.ofNat 32 (s.ctr.leAt 11 4)) (hn : n = BitVec.ofNat 32 (s.ctr.leAt 7 4))
include hdims hq

theorem exec_crOpen_range (h : q.toInt < 1 ∨ 100 < q.toInt) : exec .crOpen s = .next (s.enterFault ⟨.range, 9, 11⟩) := by
  rw [exec_eq_retire, body, bodyCrOpen]
  simp only [if_neg hw, if_neg hio, if_neg hlen, if_neg hmagic, if_neg hdims, ← hq, if_pos h, retire_error]

variable (hrange : ¬ (q.toInt < 1 ∨ 100 < q.toInt))
include hrange hn

theorem exec_crOpen_truncRec (h : 0 < n.toNat ∧ s.ctr.len < 24) :
    exec .crOpen s = .next (s.enterFault ⟨.truncRec, 9, 15⟩) := by
  rw [exec_eq_retire, body, bodyCrOpen]
  simp only [if_neg hw, if_neg hio, if_neg hlen, if_neg hmagic, if_neg hdims, ← hq, ← hn, if_neg hrange, if_pos h,
    retire_error]

theorem exec_crOpen_of (h : ¬ (0 < n.toNat ∧ s.ctr.len < 24)) :
    exec .crOpen s = .next { s.openReader q n with cp := s.cp + 1 } := by
  rw [exec_eq_retire, body, bodyCrOpen]
  simp only [if_neg hw, if_neg hio, if_neg hlen, if_neg hmagic, if_neg hdims, ← hq, ← hn, if_neg hrange, if_neg h,
    retire_ok]

end

/-- Settles O55, check by check in the order of R340. -/
theorem crOpenReadsHeader : Obligations.CrOpenReadsHeader := by
  intro s hwf
  split
  next h => exact exec_crOpen_writer h
  next hw =>
    split
    next h => exact exec_crOpen_ctrRd hw h
    next hio =>
      split
      next h => exact exec_crOpen_truncHdr hw hio h
      next hlen =>
        split
        next h => exact exec_crOpen_magic hw hio hlen (mt (Memory.read_magic_iff hwf).mp h)
        next h =>
          have hmagic := not_not.mpr ((Memory.read_magic_iff hwf).mpr (not_not.mp h))
          split
          next h => exact exec_crOpen_dims hw hio hlen hmagic (not_and_or.mp (mt (Memory.dims_iff hwf).mp h))
          next h =>
            have hdims := mt not_and_or.mpr (not_not.mpr ((Memory.dims_iff hwf).mpr (not_not.mp h)))
            refine ⟨_, _, fun k hk => Memory.extract_leAt hwf hk le_rfl, fun k hk => Memory.extract_leAt hwf hk le_rfl, ?_⟩
            split
            next h => exact exec_crOpen_range hw hio hlen hmagic hdims rfl h
            next hrange =>
              split
              next h => exact exec_crOpen_truncRec hw hio hlen hmagic hdims rfl rfl hrange h
              next h =>
                rw [exec_crOpen_of hw hio hlen hmagic hdims rfl rfl hrange h]
                simp only [State.openReader, Nat.pos_iff_ne_zero, ite_not]

/-! ### A record's link (R343) -/

section
variable {m : Memory} {count p k : Nat}

theorem linkOf_count (h : m.leAt p 8 = 0 ∧ k + 1 ≠ count ∨ m.leAt p 8 ≠ 0 ∧ k + 1 = count) :
    linkOf m count p k = .error .count := by
  rw [linkOf]
  rcases h with ⟨h0, hk⟩ | ⟨h0, hk⟩
  · simp only [if_pos h0, if_neg hk]
  · simp only [if_neg h0, if_pos hk]

variable (hcount : ¬ (m.leAt p 8 = 0 ∧ k + 1 ≠ count ∨ m.leAt p 8 ≠ 0 ∧ k + 1 = count))
include hcount

theorem linkOf_linkBack (h : m.leAt p 8 ≠ 0 ∧ m.leAt p 8 < p + Config.recPrefix) :
    linkOf m count p k = .error .linkBack := by
  obtain ⟨h0, hback⟩ := h
  have hk : k + 1 ≠ count := fun hk => hcount (.inr ⟨h0, hk⟩)
  rw [linkOf]
  simp only [if_neg h0, if_neg hk, if_pos hback]

variable (hback : ¬ (m.leAt p 8 ≠ 0 ∧ m.leAt p 8 < p + Config.recPrefix))
include hback

theorem linkOf_linkOob (h : m.leAt p 8 ≠ 0 ∧ m.len < m.leAt p 8 + Config.recPrefix) :
    linkOf m count p k = .error .linkOob := by
  obtain ⟨h0, hoob⟩ := h
  have hk : k + 1 ≠ count := fun hk => hcount (.inr ⟨h0, hk⟩)
  rw [linkOf]
  simp only [if_neg h0, if_neg hk, if_neg fun hlt => hback ⟨h0, hlt⟩, if_pos hoob]

/-- A link that passes every check: the record ends at the next one, or the last one with the file. -/
theorem linkOf_of (hoob : ¬ (m.leAt p 8 ≠ 0 ∧ m.len < m.leAt p 8 + Config.recPrefix)) :
    linkOf m count p k = .ok (m.leAt p 8, if m.leAt p 8 = 0 then m.len else m.leAt p 8) := by
  rw [linkOf]
  by_cases h0 : m.leAt p 8 = 0
  · have hk : k + 1 = count := by_contra fun hk => hcount (.inl ⟨h0, hk⟩)
    simp only [h0, if_true, if_pos hk]
  · have hk : k + 1 ≠ count := fun hk => hcount (.inr ⟨h0, hk⟩)
    simp only [if_neg h0, if_neg hk, if_neg fun hlt => hback ⟨h0, hlt⟩, if_neg fun hlt => hoob ⟨h0, hlt⟩]

end

/-- A record ends inside the file. -/
theorem linkOf_stop_le {m : Memory} {count p k next stop : Nat} (h : linkOf m count p k = .ok (next, stop)) :
    stop ≤ m.len := by
  obtain ⟨-, ⟨-, -, rfl⟩ | ⟨-, -, -, hoob, rfl⟩⟩ := linkOf_ok h
  · exact le_rfl
  · omega

/-! ### CR.NEXT (R345) -/

theorem frameTypeOf?_eq_none {b : Byte} : frameTypeOf? b = none ↔ b ≠ 0 ∧ b ≠ 1 := by
  rw [frameTypeOf?]
  split
  next h0 => simp [h0]
  next h0 =>
    split
    next h1 => simp [h1]
    next h1 => exact iff_of_true rfl ⟨h0, h1⟩

theorem frameTypeOf?_eq_some {b : Byte} {t : FrameType} : frameTypeOf? b = some t ↔ b = if t = .key then 0 else 1 := by
  rw [frameTypeOf?]
  split
  next h0 => cases t <;> simp [h0]
  next h0 =>
    split
    next h1 => cases t <;> simp [h1]
    next h1 => exact iff_of_false (by simp) (by cases t; exacts [h0, h1])

/-- The type byte that the frame rule asks for (41_temporal.md R180, 20_memory.md R90). -/
theorem typeByte_ftypeOf (i : Nat) : (if ftypeOf i = .key then 0 else 1 : Byte) = if i % 32 = 0 then 0 else 1 := by
  unfold ftypeOf
  split <;> rfl

section
variable {s : State}

theorem exec_crNext_reader (h : s.ropen = false ∨ s.eos = true) :
    exec .crNext s = .next (s.enterFault ⟨.reader, 9, 0⟩) := by
  rw [exec_eq_retire, body, bodyCrNext, if_pos h, retire_error]

variable (hr : ¬ (s.ropen = false ∨ s.eos = true))
include hr

theorem exec_crNext_ctrRd (h : s.ioA = false) : exec .crNext s = .next (s.enterFault ⟨.ctrRd, 9, s.rpos⟩) := by
  rw [exec_eq_retire, body, bodyCrNext, if_neg hr, if_pos h, retire_error]

variable (hio : ¬ s.ioA = false)
include hio

theorem exec_crNext_truncRec (h : s.ctr.len < s.rpos + Config.recPrefix) :
    exec .crNext s = .next (s.enterFault ⟨.truncRec, 9, s.rpos⟩) := by
  rw [exec_eq_retire, body, bodyCrNext, if_neg hr, if_neg hio, if_pos h, retire_error]

variable (hp : ¬ s.ctr.len < s.rpos + Config.recPrefix) {n : BitVec 32} (hn : s.frameCount = some n)
include hp hn

theorem exec_crNext_link {c : Cause} (h : linkOf s.ctr n.toNat s.rpos s.rnum.toNat = .error c) :
    exec .crNext s = .next (s.enterFault ⟨c, 9, s.rpos⟩) := by
  rw [exec_eq_retire, body, bodyCrNext, if_neg hr, if_neg hio, if_neg hp, hn]
  simp only [h, retire_error]

variable {next stop : Nat} (hl : linkOf s.ctr n.toNat s.rpos s.rnum.toNat = .ok (next, stop))
include hl

theorem exec_crNext_payloadSize (h : Config.encCap < stop - s.rpos - Config.recPrefix) :
    exec .crNext s = .next (s.enterFault ⟨.payloadSize, 9, s.rpos⟩) := by
  rw [exec_eq_retire, body, bodyCrNext, if_neg hr, if_neg hio, if_neg hp, hn]
  simp only [hl, if_pos h, retire_error]

variable (hsize : ¬ Config.encCap < stop - s.rpos - Config.recPrefix)
include hsize

theorem exec_crNext_ftype (h : frameTypeOf? (s.ctr.get (s.rpos + 8)) = none) :
    exec .crNext s = .next (s.enterFault ⟨.ftype, 9, s.rpos + 8⟩) := by
  rw [exec_eq_retire, body, bodyCrNext, if_neg hr, if_neg hio, if_neg hp, hn]
  simp only [hl, if_neg hsize, h, retire_error]

variable {t : FrameType} (ht : frameTypeOf? (s.ctr.get (s.rpos + 8)) = some t)
include ht

theorem exec_crNext_ftypeRule (h : t ≠ ftypeOf s.rnum.toNat) :
    exec .crNext s = .next (s.enterFault ⟨.ftypeRule, 9, s.rpos + 8⟩) := by
  rw [exec_eq_retire, body, bodyCrNext, if_neg hr, if_neg hio, if_neg hp, hn]
  simp only [hl, if_neg hsize, ht, if_pos h, retire_error]

theorem exec_crNext_of (h : ¬ t ≠ ftypeOf s.rnum.toNat) :
    exec .crNext s = .next { s.takeRecord t next stop with cp := s.cp + 1 } := by
  rw [exec_eq_retire, body, bodyCrNext, if_neg hr, if_neg hio, if_neg hp, hn]
  simp only [hl, if_neg hsize, ht, if_neg h, retire_ok]

end

/-- Settles O56: the eight bytes at RPOS are a number below `2^64`, and the checks go in the order of R345 and R343. -/
theorem crNextReadsRecord : Obligations.CrNextReadsRecord := by
  intro s hwf hc
  by_cases hr : s.ropen = false ∨ s.eos = true
  · rw [if_pos hr]
    exact exec_crNext_reader hr
  rw [if_neg hr]
  by_cases hio : s.ioA = false
  · rw [if_pos hio]
    exact exec_crNext_ctrRd hr hio
  rw [if_neg hio]
  by_cases hp : s.ctr.len < s.rpos + 9
  · rw [if_pos hp]
    exact exec_crNext_truncRec hr hio hp
  rw [if_neg hp]
  obtain ⟨hopen, heos⟩ : s.ropen = true ∧ s.eos = false := by simpa using hr
  obtain ⟨-, n, hn, -⟩ := hc.reader hopen
  have hval : (BitVec.ofNat 64 (s.ctr.leAt s.rpos 8)).toNat = s.ctr.leAt s.rpos 8 :=
    Nat.mod_eq_of_lt (Memory.leAt_lt s.ctr s.rpos 8)
  have hzero : BitVec.ofNat 64 (s.ctr.leAt s.rpos 8) = 0 ↔ s.ctr.leAt s.rpos 8 = 0 := by
    rw [← BitVec.toNat_inj, hval]
    rfl
  refine ⟨n, BitVec.ofNat 64 (s.ctr.leAt s.rpos 8), hn, fun k hk => Memory.extract_leAt hwf hk le_rfl, ?_⟩
  simp only [ne_eq, hzero, hval]
  by_cases hcount : s.ctr.leAt s.rpos 8 = 0 ∧ s.rnum.toNat + 1 ≠ n.toNat ∨
      s.ctr.leAt s.rpos 8 ≠ 0 ∧ s.rnum.toNat + 1 = n.toNat
  · rw [if_pos hcount]
    exact exec_crNext_link hr hio hp hn (linkOf_count hcount)
  rw [if_neg hcount]
  by_cases hback : s.ctr.leAt s.rpos 8 ≠ 0 ∧ s.ctr.leAt s.rpos 8 < s.rpos + 9
  · rw [if_pos hback]
    exact exec_crNext_link hr hio hp hn (linkOf_linkBack hcount hback)
  rw [if_neg hback]
  by_cases hoob : s.ctr.leAt s.rpos 8 ≠ 0 ∧ s.ctr.len < s.ctr.leAt s.rpos 8 + 9
  · rw [if_pos hoob]
    exact exec_crNext_link hr hio hp hn (linkOf_linkOob hcount hback hoob)
  rw [if_neg hoob]
  have hl := linkOf_of hcount hback hoob
  refine ⟨_, rfl, ?_⟩
  generalize (if s.ctr.leAt s.rpos 8 = 0 then s.ctr.len else s.ctr.leAt s.rpos 8) = stop at hl ⊢
  by_cases hsize : 570368 < stop - s.rpos - 9
  · rw [if_pos hsize]
    exact exec_crNext_payloadSize hr hio hp hn hl hsize
  rw [if_neg hsize]
  by_cases hbyte : s.ctr.get (s.rpos + 8) ≠ 0 ∧ s.ctr.get (s.rpos + 8) ≠ 1
  · rw [if_pos hbyte]
    exact exec_crNext_ftype hr hio hp hn hl hsize (frameTypeOf?_eq_none.mpr hbyte)
  rw [if_neg hbyte, ← typeByte_ftypeOf]
  obtain ⟨t, ht⟩ := Option.ne_none_iff_exists'.mp (mt frameTypeOf?_eq_none.mp hbyte)
  by_cases hrule : s.ctr.get (s.rpos + 8) = if ftypeOf s.rnum.toNat = .key then 0 else 1
  · obtain rfl : ftypeOf s.rnum.toNat = t := Option.some.inj ((frameTypeOf?_eq_some.mpr hrule).symm.trans ht)
    rw [if_neg (not_not.mpr hrule)]
    refine ⟨_, s.ctr.read (s.rpos + 9) (stop - s.rpos - 9), exec_crNext_of hr hio hp hn hl hsize ht (not_not.mpr rfl), ?_,
      Memory.read_length _ _ _, fun k hk => ?_⟩
    · rw [show decide (s.ctr.leAt s.rpos 8 = 0) = if s.ctr.leAt s.rpos 8 = 0 then true else s.eos by simp [heos]]
      rfl
    · have hstop := linkOf_stop_le hl
      rw [Memory.read_length] at hk
      exact Memory.read_byteAt _ _ _ _ hwf hk (by omega)
  · rw [if_pos hrule]
    exact exec_crNext_ftypeRule hr hio hp hn hl hsize ht fun hty => hrule (hty ▸ frameTypeOf?_eq_some.mp ht)

/-! ### CR.SEEK (R353) -/

section
variable {m : Memory} {count p : Nat} {idx : List Nat} (hp : idx.getLast? = some p)
include hp

theorem walkIndex_truncRec (todo : Nat) (h : m.len < p + Config.recPrefix) :
    walkIndex m count (todo + 1) idx = .error ⟨.truncRec, 9, p⟩ := by
  rw [walkIndex, hp]
  simp only [if_pos h]

variable (todo : Nat) (hin : p + Config.recPrefix ≤ m.len)
include hin

theorem walkIndex_link {c : Cause} (h : linkOf m count p (idx.length - 1) = .error c) :
    walkIndex m count (todo + 1) idx = .error ⟨c, 9, p⟩ := by
  rw [walkIndex, hp]
  simp only [if_neg (Nat.not_lt.mpr hin), h]

theorem walkIndex_succ {next stop : Nat} (h : linkOf m count p (idx.length - 1) = .ok (next, stop)) :
    walkIndex m count (todo + 1) idx = walkIndex m count todo (idx ++ [next]) := by
  rw [walkIndex, hp]
  simp only [if_neg (Nat.not_lt.mpr hin), h]

end

/-- A walk that finds the valid links of `chain` goes on from its end. -/
theorem walkIndex_chain {m : Memory} {count : Nat} {chain : List Nat} (todo j d : Nat) (hj : 1 ≤ j)
    (hd : j + d = chain.length)
    (hlinks : ∀ k p q, j ≤ k + 1 → chain[k]? = some p → chain[k + 1]? = some q →
      p + Config.recPrefix ≤ m.len ∧ ∃ stop, linkOf m count p k = .ok (q, stop)) :
    walkIndex m count (d + todo) (chain.take j) = walkIndex m count todo chain := by
  induction d generalizing j with
  | zero => rw [Nat.zero_add, List.take_of_length_le (by omega)]
  | succ d ih =>
    obtain ⟨k, rfl⟩ := Nat.exists_eq_add_of_le' hj
    have hk : chain[k]? = some chain[k] := List.getElem?_eq_getElem (by omega)
    have hk1 : chain[k + 1]? = some chain[k + 1] := List.getElem?_eq_getElem (by omega)
    obtain ⟨hin, stop, hl⟩ := hlinks k _ _ le_rfl hk hk1
    have hlen : (chain.take (k + 1)).length = k + 1 := List.length_take_of_le (by omega)
    have hlast : (chain.take (k + 1)).getLast? = some chain[k] := by
      rw [List.getLast?_eq_getElem?, hlen, Nat.add_sub_cancel, List.getElem?_take_of_lt (Nat.lt_succ_self k), hk]
    calc walkIndex m count (d + 1 + todo) (chain.take (k + 1))
      _ = walkIndex m count (d + todo + 1) (chain.take (k + 1)) := by rw [Nat.add_right_comm]
      _ = walkIndex m count (d + todo) (chain.take (k + 1) ++ [chain[k + 1]]) :=
        walkIndex_succ hlast _ hin (by rwa [hlen, Nat.add_sub_cancel])
      _ = walkIndex m count (d + todo) (chain.take (k + 1 + 1)) := by rw [List.take_concat_get']
      _ = walkIndex m count todo chain :=
        ih (k + 2) (by omega) (by omega) fun i p q hi => hlinks i p q (by omega)

section
variable {n : BitVec 32} {s : State}

theorem exec_crSeek_reader (h : s.ropen = false) : exec (.crSeek n) s = .next (s.enterFault ⟨.reader, 9, 0⟩) := by
  rw [exec_eq_retire, body, bodyCrSeek, if_pos h, retire_error]

variable (hr : ¬ s.ropen = false) {count : BitVec 32} (hc : s.frameCount = some count)
include hr hc

theorem exec_crSeek_operand (h : count.toNat ≤ n.toNat) :
    exec (.crSeek n) s = .next (s.enterFault ⟨.operand, 9, 0⟩) := by
  rw [exec_eq_retire, body, bodyCrSeek, if_neg hr, hc]
  simp only [if_pos h, retire_error, operandTrap]

variable (hlt : ¬ count.toNat ≤ n.toNat)
include hlt

theorem exec_crSeek_ctrRd {p : Nat} (h : s.idx.length ≤ n.toNat ∧ s.ioA = false) (hp : s.idx.getLast? = some p) :
    exec (.crSeek n) s = .next (s.enterFault ⟨.ctrRd, 9, p⟩) := by
  rw [exec_eq_retire, body, bodyCrSeek, if_neg hr, hc]
  simp only [if_neg hlt, if_pos h, hp, retire_error]

variable (hio : ¬ (s.idx.length ≤ n.toNat ∧ s.ioA = false))
include hio

theorem exec_crSeek_error {e : Trap} (h : walkIndex s.ctr count.toNat (n.toNat + 1 - s.idx.length) s.idx = .error e) :
    exec (.crSeek n) s = .next (s.enterFault e) := by
  rw [exec_eq_retire, body, bodyCrSeek, if_neg hr, hc]
  simp only [if_neg hlt, if_neg hio, h, retire_error]

theorem exec_crSeek_of {idx : List Nat} {p : Nat}
    (h : walkIndex s.ctr count.toNat (n.toNat + 1 - s.idx.length) s.idx = .ok idx) (hp : idx[n.toNat]? = some p) :
    exec (.crSeek n) s = .next { s with idx := idx, rpos := p, rnum := n, eos := false, cp := s.cp + 1 } := by
  rw [exec_eq_retire, body, bodyCrSeek, if_neg hr, hc]
  simp only [if_neg hlt, if_neg hio, h, retire_ok, List.getD_eq_getElem?_getD, hp, Option.getD_some]

end

/-- Settles O57: the walk follows `chain` to its end, which is record `n` or a record whose link is not valid. -/
theorem crSeekPositionsReader : Obligations.CrSeekPositionsReader := by
  intro n s hcontrol
  by_cases hr : s.ropen = false
  · rw [if_pos hr]
    exact exec_crSeek_reader hr
  rw [if_neg hr]
  obtain ⟨-, count, hc, -, hpos, -⟩ := hcontrol.reader (by simpa using hr)
  refine ⟨count, hc, ?_⟩
  by_cases hlt : count.toNat ≤ n.toNat
  · rw [if_pos hlt]
    exact exec_crSeek_operand hr hc hlt
  rw [if_neg hlt]
  by_cases hknown : n.toNat < s.idx.length
  · rw [dif_pos hknown]
    refine exec_crSeek_of hr hc hlt (fun h => absurd h.1 (by omega)) ?_ (List.getElem?_eq_getElem hknown)
    rw [show n.toNat + 1 - s.idx.length = 0 by omega]
    rfl
  rw [dif_neg hknown]
  have hne : s.idx ≠ [] := List.ne_nil_of_length_pos (hpos (by omega))
  refine ⟨_, List.getLast?_eq_some_getLast hne, ?_⟩
  by_cases hioA : s.ioA = false
  · rw [if_pos hioA]
    exact exec_crSeek_ctrRd hr hc hlt ⟨by omega, hioA⟩ (List.getLast?_eq_some_getLast hne)
  rw [if_neg hioA]
  intro chain htake hlen hlinks
  have hio : ¬ (s.idx.length ≤ n.toNat ∧ s.ioA = false) := fun h => hioA h.2
  have hwalk : ∀ todo, walkIndex s.ctr count.toNat (chain.length - s.idx.length + todo) s.idx =
      walkIndex s.ctr count.toNat todo chain := fun todo => by
    have h := walkIndex_chain todo s.idx.length _ (hpos (by omega)) (Nat.add_sub_of_le hlen) hlinks
    rwa [htake] at h
  have hlast : chain.getLast? = some _ :=
    List.getLast?_eq_some_getLast (List.ne_nil_of_length_pos (lt_of_lt_of_le (hpos (by omega)) hlen))
  constructor
  · intro hend
    refine ⟨_, hlast, exec_crSeek_of hr hc hlt hio ?_ ?_⟩
    · rw [← hend]
      exact hwalk 0
    · rw [← hlast, List.getLast?_eq_getElem?, hend, Nat.add_sub_cancel]
  · intro hshort
    have hmore : n.toNat + 1 - s.idx.length = chain.length - s.idx.length + (n.toNat - chain.length + 1) := by omega
    refine ⟨_, hlast, fun hout => ?_, fun c hin hlink => ?_⟩
    · refine exec_crSeek_error hr hc hlt hio ?_
      rw [hmore, hwalk]
      exact walkIndex_truncRec hlast _ hout
    · refine exec_crSeek_error hr hc hlt hio ?_
      rw [hmore, hwalk]
      exact walkIndex_link hlast _ hin hlink

/-! ### A record read back (R360) -/

/-- The bytes of a record stand in the file at `p`. -/
def Memory.HoldsRecord (m : Memory) (p next : Nat) (t : FrameType) (e : List Byte) : Prop :=
  ∀ k, k < 9 + e.length → m.byteAt (p + k) = (recordBytes next t e)[k]?

theorem State.appendRecord_holdsRecord {s : State} (hp : s.wpos = s.ctr.len) (n : BitVec 32) (t : FrameType)
    (e : List Byte) : (s.appendRecord n t e).ctr.HoldsRecord s.wpos (s.nextOffset n e) t e :=
  fun _ hk => State.appendRecord_byteAt hp hk

namespace Memory.HoldsRecord

variable {m : Memory} {p next : Nat} {t : FrameType} {e : List Byte} (h : m.HoldsRecord p next t e)
include h

theorem leAt_eq (hwf : m.wf) (hnext : next < 2 ^ 64) : m.leAt p 8 = next := by
  have hread : m.read p (leBytes 8 next).length = leBytes 8 next := Memory.read_eq_of_byteAt hwf fun k hk => by
    rw [leBytes_length] at hk
    rw [h k (by omega), recordBytes_next _ _ _ hk, leBytes_getElem?_extract next hk le_rfl]
  rw [leBytes_length] at hread
  rw [Memory.leAt, hread, leNat_leBytes]
  exact Nat.mod_eq_of_lt hnext

theorem frameType : frameTypeOf? (m.get (p + 8)) = some t :=
  frameTypeOf?_eq_some.mpr (Memory.get_of_byteAt ((h 8 (by omega)).trans (recordBytes_type next t e)))

theorem payload (hwf : m.wf) : m.read (p + 9) e.length = e :=
  Memory.read_eq_of_byteAt hwf fun k hk => by
    rw [Nat.add_assoc, h (9 + k) (by omega), recordBytes_payload]

end Memory.HoldsRecord

/-- A command that left FAULT clear retired. -/
theorem body_ok_of_exec {i : Instr} {s t : State} (h : exec i s = .next t) (hf : t.fault = false) :
    ∃ u, body s.ioA s.ioB i s = .ok u ∧ t = { u with cp := s.cp + 1 } := by
  rw [exec_eq_retire] at h
  rcases retire_cases h with hok | ⟨e, -, rfl⟩
  · exact hok
  · rw [State.enterFault_fault] at hf
    cases hf

/-- A link at a record appended by the writer passes every check of the reader, in a file that ends with the last record
and goes on with the next record's fixed fields after another. -/
theorem linkOf_holdsRecord {m : Memory} {s : State} {n : BitVec 32} {t : FrameType} {e : List Byte} (hwf : m.wf)
    (h : m.HoldsRecord s.wpos (s.nextOffset n e) t e) (hfits : s.wpos + 9 + e.length < 2 ^ 64)
    (hlast : s.nrec.toNat + 1 = n.toNat → m.len = s.wpos + 9 + e.length)
    (hmore : s.nrec.toNat + 1 ≠ n.toNat → s.wpos + 9 + e.length + 9 ≤ m.len) :
    linkOf m n.toNat s.wpos s.nrec.toNat = .ok (s.nextOffset n e, s.wpos + 9 + e.length) := by
  by_cases hk : s.nrec.toNat + 1 = n.toNat
  · have hoff : s.nextOffset n e = 0 := if_pos hk
    rw [hoff] at h ⊢
    rw [linkOf]
    simp only [h.leAt_eq hwf (by decide), if_true, if_pos hk, hlast hk]
  · have hoff : s.nextOffset n e = s.wpos + 9 + e.length := if_neg hk
    rw [hoff] at h ⊢
    have hinside := hmore hk
    rw [linkOf]
    simp only [h.leAt_eq hwf hfits, if_neg hk]
    rw [if_neg (by omega), if_neg (show ¬ s.wpos + 9 + e.length < s.wpos + 9 by omega),
      if_neg (show ¬ m.len < s.wpos + 9 + e.length + 9 by omega)]

/-- Settles O58: the link that the reader checks is the offset that the writer stored, and the record ends where the
writer's next one starts, or with the file. -/
theorem containerRecordRoundTrip : Obligations.ContainerRecordRoundTrip := by
  intro s t u hfiles hshapes hcontrol hf hexec htf hfits hufiles hucontrol hopen heos hio hrpos hrnum hcount hagree hend
  obtain ⟨_, hok, rfl⟩ := body_ok_of_exec hexec htf
  obtain ⟨e, ty, n, hw, he, ht, hi, hty, hp, -, hn, rfl⟩ := bodyCwRec_ok hok
  obtain ⟨-, -, -, n', hn', hlt⟩ := hcontrol.writer hw
  obtain rfl : n' = n := Option.some.inj (hn'.symm.trans hn)
  have hcap : e.length ≤ 570368 := hshapes.enc e he
  have hlen : (s.appendRecord n' ty e).ctr.len = s.wpos + 9 + e.length := State.appendRecord_len hp
  obtain ⟨-, hdone⟩ := State.appendRecord_flags (n := n') (t := ty) (e := e) hcontrol hw
  simp only [hlen, hdone, decide_eq_true_eq] at hagree hend
  have hrec : u.ctr.HoldsRecord s.wpos (s.nextOffset n' e) ty e := fun k hk =>
    (hagree _ (by omega)).trans (State.appendRecord_byteAt hp hk)
  have hl : linkOf u.ctr n'.toNat u.rpos u.rnum.toNat = .ok (s.nextOffset n' e, s.wpos + 9 + e.length) := by
    rw [hrpos, hrnum]
    exact linkOf_holdsRecord hufiles.ctr hrec (by omega) (fun h => by rwa [if_pos h] at hend)
      (fun h => by rwa [if_neg h] at hend)
  have hin := linkOf_stop_le hl
  have hnext := exec_crNext_of (by simp [hopen, heos]) (by simp [hio]) (show ¬ u.ctr.len < u.rpos + 9 by omega)
    (hcount.trans hn) hl (show ¬ 570368 < s.wpos + 9 + e.length - u.rpos - 9 by omega) (hrpos ▸ hrec.frameType)
    (not_not.mpr (hrnum ▸ hty))
  refine ⟨_, hnext, rfl, ?_, ht.symm, ?_, ?_, ?_, ?_⟩
  · rw [State.takeRecord_enc, he, hrpos, show s.wpos + 9 + e.length - s.wpos - 9 = e.length by omega,
      hrec.payload hufiles.ctr]
  · rw [State.takeRecord_fidx, hi, hrnum]
  · simp only [hdone, decide_eq_true_eq]
    rfl
  · simp only [State.takeRecord_eos, heos, hdone, State.nextOffset]
    by_cases hk : s.nrec.toNat + 1 = n'.toNat <;> simp [hk]
  · rw [State.takeRecord_rnum, hrnum]
    exact toNat_add_one_of_lt hlt

end Machine

end Sys2Proof

/-! One step and the system commands (47_system.md R380 to R384, R400 to R402). What a step does is said once per kind of
transaction, and the statements about any number of transactions are inductions over these steps. -/

namespace Sys2Proof.Machine

/-! ### The transactions of the host (R380, R400, R402) -/

/-- A descriptor of a command runs it, with the `io_ok` inputs presented with it (R380). -/
theorem step_of_decode_ok {s : State} {d : Desc} {a b : Bool} {rest : List HostEvent} {i : Instr}
    (hp : s.port = .command d a b :: rest) (hf : s.fault = false) (hd : decode d = .ok i) :
    step s = exec i { s with port := rest, ioA := a, ioB := b } := by
  simp [step, State.takeTurn, hp, State.acceptCommand, hf, hd]

/-- While FAULT = 1 a descriptor is dropped (R380). -/
theorem step_command_of_fault {s : State} {d : Desc} {a b : Bool} {rest : List HostEvent}
    (hp : s.port = .command d a b :: rest) (hf : s.fault = true) : step s = .next { s with port := rest } := by
  simp [step, State.takeTurn, hp, State.acceptCommand, hf]

theorem step_idle {s : State} (hp : s.port = []) : step s = .next s := by
  simp [step, State.takeTurn, hp]

theorem step_supplyRaw {s : State} {bytes : List Byte} {rest : List HostEvent} (hp : s.port = .supplyRaw bytes :: rest) :
    step s = .next { s with port := rest, raw := Memory.ofBytes bytes } := by
  simp [step, State.takeTurn, hp]

theorem step_supplyCtr {s : State} {bytes : List Byte} {rest : List HostEvent} (hp : s.port = .supplyCtr bytes :: rest) :
    step s = .next { s with port := rest, ctr := Memory.ofBytes bytes } := by
  simp [step, State.takeTurn, hp]

/-- Settles O6: the decoder reads a presented table word back, for it is the encoding of its command. -/
theorem stepRunsDecodedCommand : Obligations.StepRunsDecodedCommand := by
  refine ⟨fun s d a b rest i hp hf hd => step_of_decode_ok hp hf hd, fun s i hf => ?_⟩
  have hword : BitVec.ofNat 128 ((encode i).toNat % 2 ^ 128) = encode i := by
    rw [Nat.mod_eq_of_lt (encode i).isLt, BitVec.ofNat_toNat, BitVec.setWidth_eq]
  exact step_of_decode_ok rfl hf (by rw [hword]; exact decode_encode i)

/-- Settles O9: the step puts the supplied bytes in the place of the file. -/
theorem hostReplacesAFile : Obligations.HostReplacesAFile := by
  intro s bytes rest
  constructor
  · intro hp
    exact ⟨_, step_supplyRaw hp, rfl, Memory.ofBytes_wf _, rfl, Memory.byteAt_ofBytes _⟩
  · intro hp
    exact ⟨_, step_supplyCtr hp, rfl, Memory.ofBytes_wf _, rfl, Memory.byteAt_ofBytes _⟩

/-! ### Sticky FAULT (R380, R442) -/

/-- `t` is `s` after `n` transactions that changed nothing in the block, and a file only where the host replaced it. -/
structure State.Held (n : Nat) (s t : State) : Prop where
  same : t = { s with port := s.port.drop n, raw := t.raw, ctr := t.ctr }
  raw : (∀ bytes, HostEvent.supplyRaw bytes ∉ s.port.take n) → t.raw = s.raw
  ctr : (∀ bytes, HostEvent.supplyCtr bytes ∉ s.port.take n) → t.ctr = s.ctr

theorem State.Held.refl (s : State) : s.Held 0 s := ⟨rfl, fun _ => rfl, fun _ => rfl⟩

theorem mem_take_succ {α : Type} {l : List α} {n : Nat} {a : α} :
    a ∈ l.take (n + 1) ↔ a ∈ l.take 1 ∨ a ∈ (l.drop 1).take n := by
  rw [Nat.add_comm, List.take_add, List.mem_append]

/-- One transaction and then `n` more. -/
theorem State.Held.trans {n : Nat} {s t u : State} (hst : s.Held 1 t) (htu : t.Held n u) : s.Held (n + 1) u := by
  have hport : t.port = s.port.drop 1 := congrArg State.port hst.same
  refine ⟨?_, fun h => ?_, fun h => ?_⟩
  · have hu := htu.same
    rw [hport, List.drop_drop, Nat.add_comm, hst.same] at hu
    exact hu
  · rw [htu.raw fun bytes hb => h bytes (mem_take_succ.mpr (.inr (hport ▸ hb))),
      hst.raw fun bytes hb => h bytes (mem_take_succ.mpr (.inl hb))]
  · rw [htu.ctr fun bytes hb => h bytes (mem_take_succ.mpr (.inr (hport ▸ hb))),
      hst.ctr fun bytes hb => h bytes (mem_take_succ.mpr (.inl hb))]

/-- While FAULT = 1 every transaction but `rst_n` leaves the block alone. -/
theorem step_held {s : State} (hf : s.fault = true) (hnr : ∀ e ∈ s.port.take 1, e ≠ .resetPulse) :
    ∃ t, step s = .next t ∧ s.Held 1 t := by
  cases hp : s.port with
  | nil => exact ⟨s, step_idle hp, by rw [hp, List.drop_nil, ← hp], fun _ => rfl, fun _ => rfl⟩
  | cons e rest =>
    cases e with
    | command d a b =>
      exact ⟨_, step_command_of_fault hp hf, by simp [hp], fun _ => rfl, fun _ => rfl⟩
    | resetPulse => exact (hnr .resetPulse (by simp [hp]) rfl).elim
    | supplyRaw bytes =>
      exact ⟨_, step_supplyRaw hp, by simp [hp], fun h => (h bytes (by simp [hp])).elim, fun _ => rfl⟩
    | supplyCtr bytes =>
      exact ⟨_, step_supplyCtr hp, by simp [hp], fun _ => rfl, fun h => (h bytes (by simp [hp])).elim⟩

theorem run_succ_of_step {s t : State} (n : Nat) (h : step s = .next t) :
    Host.Core.run core (n + 1) s = Host.Core.run core n t := by
  simp only [Host.Core.run, show core.step s = .next t from h]

/-- While FAULT = 1 the block holds its state through any number of transactions without `rst_n`. -/
theorem run_held (n : Nat) {s : State} (hf : s.fault = true) (hnr : ∀ e ∈ s.port.take n, e ≠ .resetPulse) :
    ∃ t : State, Host.Core.run core n s = .next t ∧ s.Held n t := by
  induction n generalizing s with
  | zero => exact ⟨s, rfl, State.Held.refl s⟩
  | succ n ih =>
    obtain ⟨t, hstep, hst⟩ := step_held hf fun e he => hnr e (mem_take_succ.mpr (.inl he))
    have hport : t.port = s.port.drop 1 := congrArg State.port hst.same
    obtain ⟨u, hrun, htu⟩ := ih ((congrArg State.fault hst.same).trans hf) fun e he =>
      hnr e (mem_take_succ.mpr (.inr (hport ▸ he)))
    exact ⟨u, (run_succ_of_step n hstep).trans hrun, hst.trans htu⟩

/-- Settles O7, by induction on the number of transactions. -/
theorem faultIsSticky : Obligations.FaultIsSticky := by
  intro n s hf hnr
  obtain ⟨t, hrun, hst⟩ := run_held n hf hnr
  exact ⟨t, hrun, hst.same, hst.raw, hst.ctr⟩

/-! ### The status read port (R401, 10_state.md R36, R37) -/

theorem testBit_bitsValue (bs : List Bool) (k : Nat) : (bitsValue bs).testBit k = bs.getD k false := by
  induction bs generalizing k with
  | nil => simp [bitsValue]
  | cons b bs ih =>
    cases k with
    | zero => cases b <;> simp [bitsValue]
    | succ k =>
      have hhalf : (b.toNat + 2 * bitsValue bs) / 2 = bitsValue bs := by cases b <;> simp; omega
      rw [bitsValue, Nat.testBit_succ, hhalf, ih, List.getD_cons_succ]

/-- The bits of STATUS at the port are its flags, and 0 beyond them. -/
theorem State.statusRead_status (s : State) (k : Nat) : (s.statusRead 0).getLsbD k = s.statusBits.getD k false := by
  rw [State.statusRead, State.statusValue, State.statusWord, BitVec.getLsbD_ofNat, BitVec.toNat_ofNat,
    Nat.testBit_mod_two_pow, testBit_bitsValue]
  by_cases hk : k < 12
  · simp [hk, show k < 64 by omega]
  · simp [hk, List.getElem?_eq_none (show s.statusBits.length ≤ k from Nat.le_of_not_lt hk)]

/-- A register that can hold NONE, at the port. -/
theorem ofNat_orZero {w : Nat} (o : Option (BitVec w)) :
    BitVec.ofNat 64 (orZero (o.map BitVec.toNat)) = (o.getD 0).setWidth 64 := by
  cases o <;> simp [orZero]

/-- Settles O17: the flags bit by bit, then every other register by its number. -/
theorem statusPortReadsRegisters : Obligations.StatusPortReadsRegisters := by
  intro s
  refine ⟨fun n hn => ?_, s.statusRead_status 0, s.statusRead_status 1, s.statusRead_status 2, s.statusRead_status 3,
    s.statusRead_status 4, s.statusRead_status 5, s.statusRead_status 6, s.statusRead_status 7, s.statusRead_status 8,
    s.statusRead_status 9, s.statusRead_status 10, s.statusRead_status 11, fun k hk => ?_,
    BitVec.ofNat_toNat _ _, rfl, rfl, rfl, ofNat_orZero _, rfl, rfl, ofNat_orZero _, ofNat_orZero _, ?_, ofNat_orZero _,
    BitVec.ofNat_toNat _ _, rfl, rfl, BitVec.ofNat_toNat _ _, rfl, BitVec.ofNat_toNat _ _, ?_, BitVec.ofNat_toNat _ _, ?_,
    rfl, rfl⟩
  · have : s.statusValue n = 0 := by
      unfold State.statusValue
      split <;> omega
    rw [State.statusRead, this]
    rfl
  · rw [State.statusRead_status, List.getD_eq_getElem?_getD, List.getElem?_eq_none (show s.statusBits.length ≤ k from hk),
      Option.getD_none]
  · simp only [State.statusRead, State.statusValue]
    rcases s.ftype with - | - | - <;> rfl
  · simp only [State.statusRead, State.statusValue, State.encLen]
    rcases s.enc with - | e <;> rfl
  · simp only [State.statusRead, State.statusValue]
    rcases s.bch with - | - | - | - <;> rfl

/-! ### NOP, RST, SETQ, SETN (R381 to R384) -/

/-- Settles O18. -/
theorem nopRetires : Obligations.NopRetires := fun _ => rfl

/-- RST keeps what is not the block's own, after the magic of an unfinished container is zeroed (R382). -/
theorem exec_rst (s : State) : exec .rst s = .next { s.clearAll with
    ctr := if s.wact then s.ctr.write 0 [0, 0, 0] else s.ctr, cp := s.cp + 1 } := by
  rw [exec_eq_retire, body, bodyRst, State.spoilMagic_eq]
  rfl

/-- Settles O19. -/
theorem rstResetsAllButFiles : Obligations.RstResetsAllButFiles := by
  refine fun s => ⟨_, exec_rst s, rfl, fun hw => if_neg (by simp [hw]), fun hw => ?_⟩
  simp only [if_pos hw]
  refine ⟨rfl, fun a => ?_⟩
  rw [Memory.byteAt_write _ _ _ _ (Nat.zero_le _)]
  match a with
  | 0 | 1 | 2 => rfl
  | a + 3 => rw [if_neg (by simp), if_neg (by omega)]

/-- Settles O20: the range is checked before the writer. -/
theorem setqSetsQuality : Obligations.SetqSetsQuality := by
  intro q s
  rw [exec_eq_retire, body, bodySetq]
  split
  next => rw [retire_error]
  next =>
    split
    next => rw [retire_error]
    next => exact ⟨_, retire_ok _ _, rfl, rfl, rfl⟩

/-- Settles O21. -/
theorem setnSetsFrameCount : Obligations.SetnSetsFrameCount := by
  intro n s
  rw [exec_eq_retire, body, bodySetn]
  split
  next => rw [retire_error]
  next => rw [retire_ok]

/-! ### Frame I/O (R386, R387) -/

section
variable {f : BitVec 32} {s : State}

theorem exec_frLd_rawRd (hio : s.ioA = false) : exec (.frLd f) s = .next (s.enterFault ⟨.rawRd, 1, frameOffset f⟩) := by
  rw [exec_eq_retire, body, bodyFrLd, if_pos hio, retire_error]

theorem exec_frLd_rawShort (hio : ¬ s.ioA = false) (h : s.raw.len < frameOffset f + Config.frameBytes) :
    exec (.frLd f) s = .next (s.enterFault ⟨.rawShort, 1, frameOffset f⟩) := by
  rw [exec_eq_retire, body, bodyFrLd, if_neg hio, if_pos h, retire_error]

theorem exec_frLd_of (hio : ¬ s.ioA = false) (h : ¬ s.raw.len < frameOffset f + Config.frameBytes) :
    exec (.frLd f) s = .next { s with
      rgb := some (pixelsOf (s.raw.read (frameOffset f) Config.frameBytes)), fidx := some f, cp := s.cp + 1 } := by
  rw [exec_eq_retire, body, bodyFrLd, if_neg hio, if_neg h, retire_ok]

theorem exec_frSt_uninit (hg : s.rgb = none) : exec (.frSt f) s = .next (s.enterFault (uninitTrap 1)) := by
  rw [exec_eq_retire, body, bodyFrSt, hg, retire_error]

variable {g : Frame} (hg : s.rgb = some g)
include hg

theorem exec_frSt_order (h : s.raw.len < frameOffset f) :
    exec (.frSt f) s = .next (s.enterFault ⟨.order, 1, frameOffset f⟩) := by
  rw [exec_eq_retire, body, bodyFrSt, hg]
  simp only [if_pos h, retire_error]

theorem exec_frSt_rawWr (h : ¬ s.raw.len < frameOffset f) (hio : s.ioA = false) :
    exec (.frSt f) s = .next (s.enterFault ⟨.rawWr, 1, frameOffset f⟩) := by
  rw [exec_eq_retire, body, bodyFrSt, hg]
  simp only [if_neg h, if_pos hio, retire_error]

theorem exec_frSt_of (h : ¬ s.raw.len < frameOffset f) (hio : ¬ s.ioA = false) :
    exec (.frSt f) s = .next { s with raw := s.raw.write (frameOffset f) (Frame.bytes g), cp := s.cp + 1 } := by
  rw [exec_eq_retire, body, bodyFrSt, hg]
  simp only [if_neg h, if_neg hio, retire_ok]

end

/-- The bytes of a slot make a frame with these bytes (20_memory.md R81). -/
theorem bytes_pixelsOf_frame {bs : List Byte} (h : bs.length = Config.frameBytes) : Frame.bytes (pixelsOf bs) = bs :=
  bytes_pixelsOf Config.framePixels bs h

/-- A frame of the right size has as many bytes as a slot of RAW (R81). -/
theorem Frame.bytes_length_of_frame {g : Frame} (hg : g.length = Config.framePixels) :
    (Frame.bytes g).length = Config.frameBytes := by
  rw [Frame.bytes_length, hg]
  rfl

/-- The frame read at an offset of a file has the file's bytes as its samples (20_memory.md R81, R86). -/
theorem sample_pixelsOf_read {m : Memory} {a : Nat} (hm : m.wf) (ha : a + Config.frameBytes ≤ m.len) {y x : Nat} (ch : Chan)
    (hy : y < 288) (hx : x < 352) :
    Frame.sample (pixelsOf (m.read a Config.frameBytes)) y x ch = m.byteAt (a + sampleOffset y x ch) := by
  rw [← Frame.bytes_sampleOffset, bytes_pixelsOf_frame (Memory.read_length _ _ _),
    Memory.read_byteAt _ _ _ _ hm (sampleOffset_lt ch hy hx) ha]

/-- Settles O22. -/
theorem frLdLoadsFrame : Obligations.FrLdLoadsFrame := by
  intro f s hwf
  split
  next hio => exact exec_frLd_rawRd hio
  next hio =>
    split
    next hshort => exact exec_frLd_rawShort hio hshort
    next hlen =>
      exact ⟨_, _, exec_frLd_of hio hlen, rfl, pixelsOf_frame_length (Memory.read_length _ _ _),
        fun y x ch hy hx => sample_pixelsOf_read hwf (Nat.le_of_not_lt hlen) ch hy hx⟩

/-- Settles O23: the write covers exactly the slot, and a frame has as many bytes as a slot. -/
theorem frStStoresFrame : Obligations.FrStStoresFrame := by
  intro f s hs
  split
  next hg => exact exec_frSt_uninit hg
  next g hg =>
    have hbytes : (Frame.bytes g).length = 304128 := Frame.bytes_length_of_frame (hs.rgb g hg)
    split
    next horder => exact exec_frSt_order hg horder
    next horder =>
      split
      next hio => exact exec_frSt_rawWr hg horder hio
      next hio =>
        have hwrite := Memory.byteAt_write s.raw (f.toNat * 304128) (Frame.bytes g)
        rw [hbytes] at hwrite
        refine ⟨_, exec_frSt_of hg horder hio, rfl, ?_, fun y x ch hy hx => ?_, fun a ha => ?_⟩
        · exact congrArg (fun n => max s.raw.len (f.toNat * 304128 + n)) hbytes
        · have hlt : sampleOffset y x ch < 304128 := sampleOffset_lt ch hy hx
          rw [← Frame.bytes_sampleOffset]
          refine (hwrite _ (Nat.le_of_not_lt horder)).trans ?_
          rw [if_pos (by omega), Nat.add_sub_cancel_left]
        · exact (hwrite a (Nat.le_of_not_lt horder)).trans (if_neg (by omega))

end Sys2Proof.Machine

/-! A whole-frame command and its unit commands issued one by one (47_system.md R390 to R392). Issuing adds two things to
what the expansion computes: CP counts every unit command, and the `io_ok` line is that of the last one. No unit command
of the two expansions reads either, so the states of the two runs differ in nothing else, and both runs end at the same
unit command with the same fault. -/

namespace Sys2Proof

/-- The unit commands of the two expansions (47_system.md R390, R391). -/
def Instr.InFrame : Instr → Prop
  | .frLd _ | .frSt _ | .cscFwd | .cscInv | .tpFwd | .tpInv | .blkLd _ | .blkSt _ | .blkPut _ | .blkGet _ | .fdct | .idct
  | .quant | .dequant | .payLen _ | .hufCnt | .hufBld | .hufHdr | .hufPack | .hufLdh | .hufUnp | .cwRec | .crNext => True
  | _ => False

/-- STAGE of their faults, `OPC[7:4]`, is the number of a unit that is not the system's (60_exceptions.md R421). -/
theorem Instr.InFrame.unit_range {i : Instr} (hi : i.InFrame) : 1 ≤ i.opc.toNat / 16 ∧ i.opc.toNat / 16 ≤ 9 := by
  cases i with
  | frLd _ | frSt _ | cscFwd | cscInv | tpFwd | tpInv | blkLd _ | blkSt _ | blkPut _ | blkGet _ | fdct | idct | quant
  | dequant | payLen _ | hufCnt | hufBld | hufHdr | hufPack | hufLdh | hufUnp | cwRec | crNext => simp [Instr.opc]
  | _ => exact hi.elim

namespace Machine

/-! ### What issuing adds -/

/-- The state with the given CP and `io_ok` line. -/
@[reducible] def State.issuedAt (s : State) (cp : Nat) (io : Bool) : State := { s with cp := cp, ioA := io }

section
variable (s : State) (cp : Nat) (io : Bool)

@[simp] theorem State.blkValues_issuedAt : (s.issuedAt cp io).blkValues = s.blkValues := rfl
@[simp] theorem State.wrkBlock_issuedAt : (s.issuedAt cp io).wrkBlock = s.wrkBlock := rfl
@[simp] theorem State.payBlock_issuedAt : (s.issuedAt cp io).payBlock = s.payBlock := rfl
@[simp] theorem State.quantOperands_issuedAt : (s.issuedAt cp io).quantOperands = s.quantOperands := rfl
@[simp] theorem State.prevFor_issuedAt : (s.issuedAt cp io).prevFor = s.prevFor := rfl
@[simp] theorem State.payload_issuedAt : (s.issuedAt cp io).payload = s.payload := rfl

end

/-- A command that ends in `r` ends in `r'` when it is issued with the given CP and `io_ok` line: in the same state, or in
the same fault of unit `n`. -/
inductive IssuesAs (n cp : Nat) (io : Bool) : Except Trap State → Except Trap State → Prop
  | ok (t : State) : IssuesAs n cp io (.ok t) (.ok (t.issuedAt cp io))
  | error {e : Trap} (h : e.stage = n) : IssuesAs n cp io (.error e) (.error e)

theorem IssuesAs.ite {n cp : Nat} {io : Bool} {c : Prop} [Decidable c] {r₁ r₁' r₂ r₂' : Except Trap State}
    (h₁ : IssuesAs n cp io r₁ r₁') (h₂ : IssuesAs n cp io r₂ r₂') :
    IssuesAs n cp io (if c then r₁ else r₂) (if c then r₁' else r₂') := by
  split
  · exact h₁
  · exact h₂

theorem IssuesAs.inv {n cp : Nat} {io : Bool} {r r' : Except Trap State} (h : IssuesAs n cp io r r') :
    (∃ t, r = .ok t ∧ r' = .ok (t.issuedAt cp io)) ∨ ∃ e, r = .error e ∧ r' = .error e ∧ e.stage = n := by
  cases h with
  | ok t => exact .inl ⟨t, rfl, rfl⟩
  | error h => exact .inr ⟨_, rfl, rfl, h⟩

/-- The unit commands of the expansions neither read nor change CP and the `io_ok` line of the state. -/
theorem body_issuesAs {i : Instr} (hi : i.InFrame) (io io₁ io₂ : Bool) (s : State) (cp : Nat) (a : Bool) :
    IssuesAs (i.opc.toNat / 16) cp a (body io io₁ i s) (body io io₂ i (s.issuedAt cp a)) := by
  cases i with
  | frLd f =>
    simp only [body, bodyFrLd, Instr.opc]
    exact .ite (.error rfl) (.ite (.error rfl) (.ok _))
  | frSt slot =>
    simp only [body, bodyFrSt, Instr.opc]
    split
    next => exact .error rfl
    next => exact .ite (.error rfl) (.ite (.error rfl) (.ok _))
  | cscFwd =>
    simp only [body, bodyCscFwd]
    split
    next => exact .error rfl
    next => exact .ok _
  | cscInv =>
    simp only [body, bodyCscInv]
    split
    next => exact .error rfl
    next => exact .ok _
  | tpFwd =>
    simp only [body, bodyTpFwd, State.prevFor_issuedAt]
    split
    next =>
      split
      next => exact .ok _
      next =>
        split
        next => exact .error rfl
        next => exact .ok _
    next => exact .error rfl
  | tpInv =>
    simp only [body, bodyTpInv, State.prevFor_issuedAt]
    split
    next =>
      refine .ite (.error rfl) ?_
      split
      next => exact .ok _
      next =>
        split
        next => exact .error rfl
        next => exact .ok _
    next => exact .error rfl
  | blkLd k =>
    simp only [body, bodyBlkLd, Instr.opc, State.wrkBlock_issuedAt]
    refine .ite (.error rfl) ?_
    split
    next => exact .error rfl
    next => exact .ok _
  | blkSt k =>
    simp only [body, bodyBlkSt, Instr.opc, State.blkValues_issuedAt]
    refine .ite (.error rfl) ?_
    split
    next => exact .ite (.error rfl) (.ite (.error rfl) (.ok _))
    next => exact .error rfl
  | blkPut k =>
    simp only [body, bodyBlkPut, Instr.opc, State.blkValues_issuedAt]
    refine .ite (.error rfl) (.ite (.error rfl) ?_)
    split
    next =>
      refine .ite (.error rfl) ?_
      split
      next => exact .error rfl
      next => exact .ok _
    next => exact .error rfl
  | blkGet k =>
    simp only [body, bodyBlkGet, Instr.opc, State.payBlock_issuedAt]
    refine .ite (.error rfl) (.ite (.error rfl) ?_)
    split
    next => exact .error rfl
    next => exact .ok _
  | fdct =>
    simp only [body, bodyFdct, State.blkValues_issuedAt]
    split
    next => exact .error rfl
    next => exact .ok _
  | idct =>
    simp only [body, bodyIdct, State.blkValues_issuedAt]
    split
    next => exact .error rfl
    next => exact .ok _
  | quant =>
    simp only [body, bodyQuant, State.quantOperands_issuedAt]
    split
    next => exact .error rfl
    next => exact .ite (.error rfl) (.ok _)
  | dequant =>
    simp only [body, bodyDequant, State.quantOperands_issuedAt]
    split
    next => exact .error rfl
    next => exact .ok _
  | payLen n =>
    simp only [body, bodyPayLen, Instr.opc]
    exact .ite (.ok _) (.error rfl)
  | hufCnt =>
    simp only [body, bodyHufCnt, State.payload_issuedAt]
    split
    next => exact .error rfl
    next => exact .ok _
  | hufBld =>
    simp only [body, bodyHufBld]
    split
    next => exact .error rfl
    next =>
      split
      next => exact .error rfl
      next => exact .ok _
  | hufHdr =>
    simp only [body, bodyHufHdr]
    split
    next => exact .error rfl
    next => exact .ok _
  | hufPack =>
    simp only [body, bodyHufPack, State.payload_issuedAt]
    split
    next => exact .ite (.error rfl) (.ite (.ok _) (.ok _))
    next => exact .error rfl
  | hufLdh =>
    simp only [body, bodyHufLdh]
    split
    next => exact .error rfl
    next => exact .ite (.ok _) (.ite (.error rfl) (.ite (.error rfl) (.ok _)))
  | hufUnp =>
    simp only [body, bodyHufUnp]
    split
    next =>
      split
      next => exact .error rfl
      next => exact .ok _
    next => exact .error rfl
  | cwRec =>
    simp only [body, bodyCwRec]
    refine .ite (.error rfl) ?_
    split
    next =>
      refine .ite (.error rfl) (.ite (.error rfl) (.ite (.error rfl) (.ite (.error rfl) ?_)))
      split
      next => exact .error rfl
      next => exact .ok _
    next => exact .error rfl
  | crNext =>
    simp only [body, bodyCrNext]
    refine .ite (.error rfl) (.ite (.error rfl) (.ite (.error rfl) ?_))
    split
    next => exact .error rfl
    next =>
      split
      next => exact .error rfl
      next =>
        refine .ite (.error rfl) ?_
        split
        next => exact .error rfl
        next => exact .ite (.error rfl) (.ok _)
  | _ => exact hi.elim

/-! ### A chain of unit commands -/

/-- The effect or the fault of unit commands one after the other, each with its `io_ok`. -/
def runUnits (us : List (Instr × Bool)) (s : State) : Except Trap State := us.foldlM (fun s u => body u.2 u.2 u.1 s) s

@[simp] theorem runUnits_nil (s : State) : runUnits [] s = pure s := rfl

theorem runUnits_cons (u : Instr × Bool) (us : List (Instr × Bool)) (s : State) :
    runUnits (u :: us) s = body u.2 u.2 u.1 s >>= fun t => runUnits us t := rfl

theorem runUnits_append (us vs : List (Instr × Bool)) (s : State) :
    runUnits (us ++ vs) s = runUnits us s >>= fun t => runUnits vs t :=
  List.foldlM_append

theorem runUnits_flatMap (units : Nat → List (Instr × Bool)) (xs : List Nat) (s : State) :
    runUnits (xs.flatMap units) s = xs.foldlM (fun s i => runUnits (units i) s) s := by
  induction xs generalizing s with
  | nil => rfl
  | cons x xs ih =>
    rw [List.flatMap_cons, runUnits_append, List.foldlM_cons]
    exact bind_congr ih

theorem runUnits_encodeUnits (s : State) (i : Nat) : runUnits (encodeUnits i) s = encodeBlock s i := by
  simp only [encodeUnits, runUnits_cons, runUnits_nil, encodeBlock, body, bind_pure]

theorem runUnits_decodeUnits (s : State) (i : Nat) : runUnits (decodeUnits i) s = decodeBlock s i := by
  simp only [decodeUnits, runUnits_cons, runUnits_nil, decodeBlock, body, bind_pure]

/-- ENC.FRAME is the chain of its unit commands (R390). -/
theorem bodyEncFrame_eq_runUnits (io1 io2 : Bool) (f : BitVec 32) (s : State) :
    bodyEncFrame io1 io2 f s = runUnits (encFrameUnits f io1 io2) s := by
  simp only [encFrameUnits, runUnits_append, runUnits_cons, runUnits_nil, runUnits_flatMap, runUnits_encodeUnits,
    bodyEncFrame, body, bind_assoc, bind_pure]

/-- DEC.FRAME is the chain of its unit commands (R391). -/
theorem bodyDecFrame_eq_runUnits (io1 io2 : Bool) (slot : BitVec 32) (s : State) :
    bodyDecFrame io1 io2 slot s = runUnits (decFrameUnits slot io1 io2) s := by
  simp only [decFrameUnits, runUnits_append, runUnits_cons, runUnits_nil, runUnits_flatMap, runUnits_decodeUnits,
    bodyDecFrame, body, bind_assoc, bind_pure]

/-- A unit command issued: it retires in the state its effect gives, or it faults with its trap. -/
theorem issue_cases {i : Instr} (hi : i.InFrame) {s : State} (hf : s.fault = false) (cp : Nat) (a io : Bool) :
    (∃ t, body io io i s = .ok t ∧ t.fault = false ∧ (s.issuedAt cp a).issue i io = .ok (t.issuedAt (cp + 1) io)) ∨
    ∃ e, body io io i s = .error e ∧ e.stage = i.opc.toNat / 16 ∧
      (s.issuedAt cp a).issue i io = .error ((s.issuedAt cp io).enterFault e) := by
  have hexec : exec i (s.issuedAt cp io) = retire (s.issuedAt cp io) (body io s.ioB i (s.issuedAt cp io)) :=
    exec_eq_retire i (s.issuedAt cp io)
  rw [State.issue, show { s.issuedAt cp a with ioA := io } = s.issuedAt cp io from rfl, hexec]
  rcases (body_issuesAs hi io io s.ioB s cp io).inv with ⟨t, ht, ht'⟩ | ⟨e, he, he', hstage⟩
  · obtain ⟨htf, -⟩ := body_preserves_running s.port s.ioA s.ioB io io i s t ⟨hf, rfl, rfl, rfl⟩ ht
    refine .inl ⟨t, ht, htf, ?_⟩
    rw [ht', retire_ok]
    exact if_neg (by simp [htf])
  · refine .inr ⟨e, he, hstage, ?_⟩
    rw [he', retire_error]
    exact if_pos (State.enterFault_fault _ _)

/-- Unit commands issued one after the other: they all retire, in the state their chain gives but for CP and the `io_ok`
line, or one of them faults with the chain's trap. -/
theorem issueAll_cases {us : List (Instr × Bool)} (hus : ∀ u ∈ us, u.1.InFrame) {s : State} (hf : s.fault = false) (cp : Nat)
    (a : Bool) :
    (∃ t io, runUnits us s = .ok t ∧ (s.issuedAt cp a).issueAll us = .ok (t.issuedAt (cp + us.length) io)) ∨
    ∃ e v, runUnits us s = .error e ∧ (s.issuedAt cp a).issueAll us = .error v ∧ v.err = e.errWord ∧ v.errOff = e.off ∧
      1 ≤ e.stage ∧ e.stage ≤ 9 := by
  induction us generalizing s cp a with
  | nil => exact .inl ⟨s, a, rfl, rfl⟩
  | cons u us ih =>
    have hu := hus u List.mem_cons_self
    rcases issue_cases hu hf cp a u.2 with ⟨t, ht, htf, hissue⟩ | ⟨e, he, hstage, hissue⟩
    · rw [runUnits_cons, ht, State.issueAll, hissue, List.length_cons, Nat.add_comm us.length, ← Nat.add_assoc]
      exact ih (fun v hv => hus v (List.mem_cons_of_mem _ hv)) htf (cp + 1) u.2
    · rw [runUnits_cons, he, State.issueAll, hissue]
      refine .inr ⟨e, _, rfl, rfl, State.enterFault_err _ _, State.enterFault_errOff _ _, ?_⟩
      rw [hstage]
      exact hu.unit_range

/-- What R390 to R392 say of a command that is the chain `us` of unit commands. -/
def IsExpansion (i : Instr) (us : List (Instr × Bool)) (s : State) : Prop :=
  (∀ u, s.issueAll us = .ok u → u.cp = s.cp + us.length ∧ exec i s = .next { u with cp := s.cp + 1, ioA := s.ioA }) ∧
  ∀ v, s.issueAll us = .error v → ∃ e : Trap, exec i s = .next (s.enterFault e) ∧ e.errWord = v.err ∧ e.off = v.errOff ∧
    1 ≤ e.stage ∧ e.stage ≤ 9

theorem isExpansion_of_body {i : Instr} {us : List (Instr × Bool)} {s : State} (hus : ∀ u ∈ us, u.1.InFrame)
    (hf : s.fault = false) (hbody : body s.ioA s.ioB i s = runUnits us s) : IsExpansion i us s := by
  rw [IsExpansion, exec_eq_retire]
  have hkeep := body_preserves_running s.port s.ioA s.ioB s.ioA s.ioB i s
  rw [hbody] at hkeep ⊢
  rcases issueAll_cases hus hf s.cp s.ioA with ⟨t, io, ht, hall⟩ | ⟨e, v, he, hall, herr, hoff, hstage⟩
  · obtain ⟨-, -, hio, -⟩ := hkeep t ⟨hf, rfl, rfl, rfl⟩ ht
    refine ⟨fun u hu => ?_, fun v hv => (by cases hall.symm.trans hv)⟩
    obtain rfl := Except.ok.inj (hall.symm.trans hu)
    refine ⟨rfl, ?_⟩
    rw [ht, retire_ok, ← hio]
  · refine ⟨fun u hu => (by cases hall.symm.trans hu), fun v' hv => ?_⟩
    obtain rfl := Except.error.inj (hall.symm.trans hv)
    exact ⟨e, by rw [he, retire_error], herr.symm, hoff.symm, hstage⟩

/-! ### The units of the two commands (R390, R391) -/

theorem inFrame_of_mem_encFrameUnits {f : BitVec 32} {io1 io2 : Bool} {u : Instr × Bool} (h : u ∈ encFrameUnits f io1 io2) :
    u.1.InFrame := by
  simp only [encFrameUnits, encodeUnits, List.mem_append, List.mem_cons, List.not_mem_nil, or_false, List.mem_flatMap] at h
  rcases h with ((rfl | rfl | rfl | rfl) | ⟨_, -, rfl | rfl | rfl | rfl⟩) | rfl | rfl | rfl | rfl | rfl <;> trivial

theorem inFrame_of_mem_decFrameUnits {slot : BitVec 32} {io1 io2 : Bool} {u : Instr × Bool}
    (h : u ∈ decFrameUnits slot io1 io2) : u.1.InFrame := by
  simp only [decFrameUnits, decodeUnits, List.mem_append, List.mem_cons, List.not_mem_nil, or_false, List.mem_flatMap] at h
  rcases h with ((rfl | rfl | rfl | rfl) | ⟨_, -, rfl | rfl | rfl | rfl⟩) | rfl | rfl | rfl <;> trivial

theorem units_of_blocks_length {units : Nat → List (Instr × Bool)} (h : ∀ i, (units i).length = 4) (n : Nat) :
    ((List.range n).flatMap units).length = n * 4 := by
  simp [List.length_flatMap, h]

theorem encFrameUnits_length (f : BitVec 32) (io1 io2 : Bool) : (encFrameUnits f io1 io2).length = 19017 := by
  rw [encFrameUnits, List.length_append, List.length_append, units_of_blocks_length (units := encodeUnits) fun _ => rfl]
  simp only [List.length_cons, List.length_nil, Config.numBlocks]

theorem decFrameUnits_length (slot : BitVec 32) (io1 io2 : Bool) : (decFrameUnits slot io1 io2).length = 19015 := by
  rw [decFrameUnits, List.length_append, List.length_append, units_of_blocks_length (units := decodeUnits) fun _ => rfl]
  simp only [List.length_cons, List.length_nil, Config.numBlocks]

theorem encFrame_isExpansion (f : BitVec 32) {s : State} (hf : s.fault = false) :
    IsExpansion (.encFrame f) (encFrameUnits f s.ioA s.ioB) s :=
  isExpansion_of_body (fun _ => inFrame_of_mem_encFrameUnits) hf (bodyEncFrame_eq_runUnits _ _ _ _)

theorem decFrame_isExpansion (slot : BitVec 32) {s : State} (hf : s.fault = false) :
    IsExpansion (.decFrame slot) (decFrameUnits slot s.ioA s.ioB) s :=
  isExpansion_of_body (fun _ => inFrame_of_mem_decFrameUnits) hf (bodyDecFrame_eq_runUnits _ _ _ _)

end Machine

end Sys2Proof

/-! When the whole-frame commands complete, and in what state (47_system.md R390, R391): each unit command's checks hold in
the state that the ones before it leave. The 4752 rounds of a loop are one step here, `encodeLoop_of` and `decodeLoop_of`
say what they do. -/

namespace Sys2Proof.Machine

theorem bind_of_ok {r : Except Trap State} {t : State} {k : State → Except Trap State} {r' : Except Trap State}
    (h : r = .ok t) (hk : k t = r') : (r >>= k) = r' := by
  rw [h]
  exact hk

/-! ### Frames -/

/-- A predicted or reconstructed frame has the size of a frame (41_temporal.md R183, R186). -/
theorem State.predicted_length {s : State} {op : Byte → Byte → Byte} {i : BitVec 32} {w c : Frame} (hs : s.ShapesOk)
    (hw : w.length = Config.framePixels) (h : s.predicted op i w = some c) : c.length = Config.framePixels := by
  unfold State.predicted at h
  split at h
  next => rwa [← Option.some.inj h]
  next =>
    obtain ⟨p, hp, rfl⟩ := Option.map_eq_some_iff.mp h
    obtain ⟨hprev, -⟩ := State.prevFor_eq_some.mp hp
    rw [List.length_zipWith, hw, hs.prev p hprev, Nat.min_self]

theorem State.frameIn_length (s : State) (f : BitVec 32) : (s.frameIn f).length = Config.framePixels := by
  rw [State.frameIn, List.length_map]
  exact pixelsOf_frame_length (Memory.read_length _ _ _)

/-- WRK after a frame is put into it holds the frame's samples and nothing else. -/
theorem get_bufOfFrame_of_length {w : Frame} (hw : w.length = Config.framePixels) (k : Nat) :
    (bufOfFrame w).get k = (Frame.bytes w)[k]? := by
  by_cases hk : k < Config.frameBytes
  · exact get_bufOfFrame w hk
  · rw [Buf.get, if_neg hk, List.getElem?_eq_none]
    rw [Frame.bytes_length_of_frame hw]
    exact Nat.le_of_not_lt hk

/-! ### ENC.FRAME (R390) -/

/-- CW.REC's effect while the writer is active (46_container.md R335). -/
theorem State.appendRecord_of_wact {s : State} (hw : s.wact = true) (n : BitVec 32) (t : FrameType) (e : List Byte) :
    s.appendRecord n t e = { s with
      ctr := s.ctr.write s.wpos (recordBytes (if s.nrec.toNat + 1 = n.toNat then 0 else s.wpos + 9 + e.length) t e)
      wpos := s.wpos + 9 + e.length, nrec := s.nrec + 1, wact := decide (s.nrec.toNat + 1 ≠ n.toNat)
      wdone := s.wdone || decide (s.nrec.toNat + 1 = n.toNat) } := by
  by_cases h : s.nrec.toNat + 1 = n.toNat <;> simp [State.appendRecord, h, hw]

/-- The state before ENC.FRAME's loop: frame `f` is read and converted, its key or difference frame `w` is in WRK. -/
def State.toCode (s : State) (f : BitVec 32) (w : Frame) : State :=
  { s with
    rgb := some (pixelsOf (s.raw.read (frameOffset f) Config.frameBytes)), fidx := some f, cur := some (s.frameIn f)
    wrk := bufOfFrame w, ftype := some (ftypeOf f.toNat), prev := some (s.frameIn f), prevIdx := some f
    payLen := BitVec.ofNat 32 Config.frameBytes, pay := .nil, freq := none, lens := none, hdr := none }

/-- The state after ENC.FRAME's loop at quality `q`, with PAY what the loop made of it. -/
def State.afterCoding (s : State) (q : BitVec 32) (w : Frame) (pay : Buf) : State :=
  { s with
    blk := Mat.mapElems (fun v : Byte => some (F64.ofNat v.toNat)) (codedBlock q (Frame.bytes w) 4751), bch := some .cr
    bidx := 4751, pay := pay }

/-- The state before CW.REC, with the entropy tables of the payload `bs` and its compressed form. -/
def State.toRecord (s : State) (bs : List Byte) (l : List (BitVec 4)) : State :=
  { s with
    freq := some (countBytes bs), lens := some l, hdr := some (hdrOf l), enc := some (packedPayload l (hdrOf l) bs) }

section
variable {f q n : BitVec 32} {s : State} {w : Frame}

/-- ENC.FRAME up to CW.REC. -/
theorem bodyEncFrame_of {l : List (BitVec 4)} (hs : s.ShapesOk) (hraw : frameOffset f + Config.frameBytes ≤ s.raw.len)
    (hq : s.quality = some q) (hn : s.frameCount = some n) (hw : s.predicted dpcmFwd f (s.frameIn f) = some w)
    (hact : s.wact = true) (hrec : s.nrec = f) (hpos : s.wpos = s.ctr.len)
    (hl : buildLens (countBytes (codedPayload q w)) = some l) :
    ∃ pay, (∀ k, pay.get k = (codedPayload q w)[k]?) ∧ bodyEncFrame true true f s =
      .ok ((((s.toCode f w).afterCoding q w pay).toRecord (codedPayload q w) l).appendRecord n (ftypeOf f.toNat)
        (packedPayload l (hdrOf l) (codedPayload q w))) := by
  have hwlen := s.predicted_length hs (s.frameIn_length f) hw
  obtain ⟨pay, hloop, hpay⟩ := encodeLoop_of (z := s.toCode f w) (w := w) hq rfl (Frame.bytes_length_of_frame hwlen)
    (fun k _ => get_bufOfFrame_of_length hwlen k) rfl rfl rfl
  have hbs : ((s.toCode f w).afterCoding q w pay).payload = some (codedPayload q w) :=
    State.payload_eq_some.mpr ⟨codedPayload_length q w, fun k _ => hpay k⟩
  have hne : (BitVec.ofNat 32 Config.frameBytes).toNat ≠ 0 := by decide
  subst hrec
  exact ⟨pay, hpay,
    bind_of_ok (bodyFrLd_of hraw) <| bind_of_ok (bodyCscFwd_of rfl) <| bind_of_ok (bodyTpFwd_of rfl rfl hw) <|
    bind_of_ok (bodyPayLen_of (by decide)) <| bind_of_ok hloop <| bind_of_ok (bodyHufCnt_of hbs) <|
    bind_of_ok (bodyHufBld_of rfl hl) <| bind_of_ok (bodyHufHdr_of rfl) <|
    bind_of_ok (bodyHufPack_of hbs rfl rfl (fun _ => lenOf_pos_of_mem hl) hne) <|
    bodyCwRec_of hact rfl rfl rfl rfl hpos hn⟩

end

theorem exec_encFrame_of_ok {f : BitVec 32} {s t : State} (hioA : s.ioA = true) (hioB : s.ioB = true)
    (h : bodyEncFrame true true f s = .ok t) : exec (.encFrame f) s = .next { t with cp := s.cp + 1 } := by
  rw [exec_eq_retire, body, hioA, hioB, h, retire_ok]

/-- Settles O59: the command is the chain of its unit commands, and under the conditions every one of them retires. -/
theorem encFrameIsItsExpansion : Obligations.EncFrameIsItsExpansion := by
  refine ⟨fun f s hf => ?_, fun f q n s w hs hioA hioB hraw hq hn hw hact hrec hpos hdepth => ?_⟩
  · have h := encFrame_isExpansion f hf
    rwa [IsExpansion, encFrameUnits_length] at h
  · obtain ⟨l, hl⟩ := Option.ne_none_iff_exists'.mp
      (mt buildLens_eq_none.mp fun ⟨p, hp, hdeep⟩ => absurd (hdepth p hp) (Nat.not_le.mpr hdeep))
    obtain ⟨pay, hpay, hbody⟩ := bodyEncFrame_of hs hraw hq hn hw hact hrec hpos hl
    have hwlen := s.predicted_length hs (s.frameIn_length f) hw
    have henc : (packedPayload l (hdrOf l) (codedPayload q w)).length =
        128 + (packBits (payloadBits (canon l) (codedPayload q w))).length := by
      rw [packedPayload, List.length_append, hdrOf_length]
    have happend := State.appendRecord_of_wact (s := ((s.toCode f w).afterCoding q w pay).toRecord (codedPayload q w) l) hact n
      (ftypeOf f.toNat) (packedPayload l (hdrOf l) (codedPayload q w))
    rw [henc] at happend
    subst hrec
    exact ⟨_, l, _, exec_encFrame_of_ok hioA hioB (hbody.trans (congrArg Except.ok happend)), hl, rfl, rfl,
      get_bufOfFrame_of_length hwlen, hpay, fun r c => Mat.elem_mapElems _ _ r c⟩

/-! ### DEC.FRAME (R391) -/

/-- The state after CR.NEXT took a record with the payload `e` and the link `next` (46_container.md R345). -/
def State.withRecord (s : State) (e : List Byte) (next : Nat) : State :=
  { s with
    enc := some e, ftype := some (ftypeOf s.rnum.toNat), fidx := some s.rnum, rnum := s.rnum + 1, rpos := next
    eos := decide (next = 0), idx := if next ≠ 0 ∧ s.rnum.toNat + 1 = s.idx.length then s.idx ++ [next] else s.idx }

/-- The state before DEC.FRAME's loop: the record's payload is decoded to `out`. -/
def State.toDecode (s : State) (e out : List Byte) (next : Nat) : State :=
  { s.withRecord e next with
    payLen := BitVec.ofNat 32 Config.frameBytes, pay := Buf.setFrom .nil 0 out, freq := none, lens := none, hdr := none }

/-- The state after DEC.FRAME's loop at quality `q`, with WRK what the loop made of it. -/
def State.afterDecoding (s : State) (q : BitVec 32) (out : List Byte) (wrk : Buf) : State :=
  { s with blk := Mat.mapElems some (decodedBlock q out 4751), bch := some .cr, bidx := 4751, wrk := wrk }

/-- CR.NEXT's effect while the stream is not at its end (R345). -/
theorem State.takeRecord_of_not_eos {s : State} (he : s.eos = false) (next stop : Nat) :
    s.takeRecord (ftypeOf s.rnum.toNat) next stop =
      s.withRecord (s.ctr.read (s.rpos + Config.recPrefix) (stop - s.rpos - Config.recPrefix)) next := by
  by_cases h : next = 0 <;> simp [State.takeRecord, State.withRecord, h, he]

/-- WRK that holds every sample of every block is whole (42_segment.md R201). -/
theorem Buf.full_of_blocks {t : Buf} {v : Nat → Fin 8 → Fin 8 → Byte}
    (h : ∀ i r c, i < Config.numBlocks → t.get (blockOffset i r c) = some (v i r c)) : t.full Config.frameBytes = true := by
  refine (Buf.full_iff _ _).mpr fun k hk => ?_
  obtain ⟨i, r, c, hi, rfl⟩ := wrkIndex_onto k hk
  rw [wrkIndex_eq_blockOffset, h i r c hi]
  rfl

/-- A frame can be reconstructed when PREV holds the frame before a delta frame (41_temporal.md R186). -/
theorem State.exists_predicted {s : State} {i : BitVec 32} (op : Byte → Byte → Byte) (w : Frame)
    (h : i.toNat % 32 ≠ 0 → (s.prevFor i).isSome = true) : ∃ c, s.predicted op i w = some c := by
  by_cases hkey : i.toNat % 32 = 0
  · exact ⟨w, by rw [State.predicted, ftypeOf_of_mod_eq hkey]⟩
  · obtain ⟨p, hp⟩ := Option.isSome_iff_exists.mp (h hkey)
    exact ⟨_, by rw [State.predicted, ftypeOf_of_mod_ne hkey, hp]; rfl⟩

section
variable {slot q n : BitVec 32} {s : State} {next stop : Nat} {e out : List Byte}

/-- CR.NEXT on a record that passes its checks. -/
theorem bodyCrNext_withRecord (hopen : s.ropen = true) (heos : s.eos = false) (hin : s.rpos + 9 ≤ s.ctr.len)
    (hn : s.frameCount = some n) (hlink : linkOf s.ctr n.toNat s.rpos s.rnum.toNat = .ok (next, stop))
    (htype : s.ctr.get (s.rpos + 8) = if s.rnum.toNat % 32 = 0 then 0 else 1)
    (he : e = s.ctr.read (s.rpos + 9) (stop - s.rpos - 9)) (hcap : e.length ≤ 570368) :
    bodyCrNext true s = .ok (s.withRecord e next) := by
  have hlen : e.length = stop - s.rpos - 9 := by rw [he, Memory.read_length]
  rw [bodyCrNext_of hopen heos hin hn hlink (hlen ▸ hcap)
    (frameTypeOf?_eq_some.mpr (htype.trans (typeByte_ftypeOf _).symm)) rfl, State.takeRecord_of_not_eos heos, he]

/-- DEC.FRAME on a record whose payload decodes to `out`. -/
theorem bodyDecFrame_of (hnext : bodyCrNext true s = .ok (s.withRecord e next))
    (hq : s.quality = some q) (hlen : Config.hdrBytes ≤ e.length)
    (hkraft : kraftSum (unhdr (e.take Config.hdrBytes)) ≤ 2 ^ Config.maxLen) (hout : out.length = Config.frameBytes)
    (hdec : decodeSymbols (canon (unhdr (e.take Config.hdrBytes))) out.length (bitsOfBytes (e.drop Config.hdrBytes)) = .ok out)
    (hprev : s.rnum.toNat % 32 ≠ 0 → (s.prevFor s.rnum).isSome = true) (hslot : frameOffset slot ≤ s.raw.len) :
    ∃ wrk c, (∀ i r k, i < 4752 → wrk.get (blockOffset i r k) = some (pix (Mat.elem (decodedBlock q out i) r k))) ∧
      wrk.full Config.frameBytes = true ∧ s.predicted dpcmInv s.rnum (pixelsOf (wrk.bytes Config.frameBytes)) = some c ∧
      bodyDecFrame true true slot s = .ok { ((s.toDecode e out next).afterDecoding q out wrk).acceptFrame c s.rnum with
        rgb := some (c.map yuvToRgb), raw := s.raw.write (frameOffset slot) (Frame.bytes (c.map yuvToRgb)) } := by
  have hpayLen : (BitVec.ofNat 32 Config.frameBytes).toNat = out.length := by rw [hout]; decide
  rw [← hpayLen] at hdec
  obtain ⟨wrk, hloop, hwrk⟩ := decodeLoop_of (z := s.toDecode e out next) (b := out) hq rfl hout fun k hk => by
    rw [← hout] at hk
    exact (Buf.get_setFrom_zero .nil hout.le k).trans (if_pos hk)
  have hfull := Buf.full_of_blocks hwrk
  obtain ⟨c, hc⟩ := State.exists_predicted dpcmInv (pixelsOf (wrk.bytes Config.frameBytes)) hprev
  exact ⟨wrk, c, hwrk, hfull, hc,
    bind_of_ok hnext <| bind_of_ok (bodyPayLen_of (by decide)) <| bind_of_ok (bodyHufLdh_of rfl hlen hkraft) <|
    bind_of_ok (bodyHufUnp_of rfl rfl hdec) <| bind_of_ok hloop <| bind_of_ok (bodyTpInv_of rfl rfl hfull hc) <|
    bind_of_ok (bodyCscInv_of rfl) <| bodyFrSt_of rfl hslot⟩

end

theorem exec_decFrame_of_ok {slot : BitVec 32} {s t : State} (hioA : s.ioA = true) (hioB : s.ioB = true)
    (h : bodyDecFrame true true slot s = .ok t) : exec (.decFrame slot) s = .next { t with cp := s.cp + 1 } := by
  rw [exec_eq_retire, body, hioA, hioB, h, retire_ok]

/-- Settles O60: likewise, with the record's bits the codes of `out`. -/
theorem decFrameIsItsExpansion : Obligations.DecFrameIsItsExpansion := by
  refine ⟨fun slot s hf => ?_, ?_⟩
  · have h := decFrame_isExpansion slot hf
    rwa [IsExpansion, decFrameUnits_length] at h
  · intro slot q n s next stop l e out rest hs hioA hioB hopen heos hin hq hn hlink htype he hlen hcap hl hkraft hbits hout
      hpos hprev hslot
    have hl256 : l.length = 256 := by rw [hl, unhdr_length, List.length_take, Nat.min_eq_left hlen]
    have hdec := decodeSymbols_ok hl256 hkraft hpos rest
    rw [← hbits] at hdec
    subst hl
    have hnext := bodyCrNext_withRecord hopen heos hin hn hlink htype he hcap
    obtain ⟨wrk, c, hwrk, hfull, hc, hbody⟩ := bodyDecFrame_of hnext hq hlen hkraft hout hdec hprev hslot
    refine ⟨_, pixelsOf (wrk.bytes Config.frameBytes), c, exec_decFrame_of_ok hioA hioB hbody, pixelsOf_frame_length (Buf.bytes_length _ _), hc,
      fun i r k hi => ?_, rfl, fun k => ?_⟩
    · rw [bytes_pixelsOf_frame (Buf.bytes_length _ _),
        Buf.bytes_getElem _ _ _ hfull (blockOffset_lt r k hi), hwrk i r k hi]
    · refine (Buf.get_setFrom_zero .nil hout.le k).trans ?_
      split
      next => rfl
      next hk => rw [Buf.get_nil, List.getElem?_eq_none (Nat.le_of_not_lt hk)]

end Sys2Proof.Machine

/-! Every command retires or takes fault entry, and what fault entry leaves (60_exceptions.md R421 to R428, R440, R441). -/

namespace Sys2Proof.Machine

/-! ### Retiring or faulting (R440, R441) -/

/-- A command answers by its body: an effect retires with FAULT and the inputs as they were, a trap takes fault entry
from the state before the command. -/
theorem exec_retires_or_faults (i : Instr) {s : State} (hf : s.fault = false) :
    ∃ t, exec i s = .next t ∧
      ((t.fault = false ∧ t.cp = s.cp + 1 ∧ t.port = s.port ∧ t.ioA = s.ioA ∧ t.ioB = s.ioB) ∨
        ∃ e : Trap, t = s.enterFault e) := by
  rw [exec_eq_retire]
  cases hb : body s.ioA s.ioB i s with
  | ok u =>
    obtain ⟨hfault, hport, hioA, hioB⟩ :=
      body_preserves_running s.port s.ioA s.ioB _ _ i s u ⟨hf, rfl, rfl, rfl⟩ hb
    exact ⟨_, retire_ok s u, .inl ⟨hfault, rfl, hport, hioA, hioB⟩⟩
  | error e => exact ⟨_, retire_error s e, .inr ⟨e, rfl⟩⟩

/-! ### The files after fault entry (R440, 93_implementation_defined.md U6) -/

/-- Zeroing the magic: the first three bytes are 0, also where the file was shorter. -/
theorem Memory.byteAt_write_magic_zero (m : Memory) (a : Nat) :
    (m.write 0 [0, 0, 0]).byteAt a = if a < 3 then some 0 else m.byteAt a := by
  rw [Memory.byteAt_write _ _ _ _ (Nat.zero_le _)]
  match a with
  | 0 | 1 | 2 => rfl
  | a + 3 => rw [if_neg (by simp), if_neg (by omega)]

theorem State.faultRaw_of_ne (s : State) {e : Trap} (h : e.cause ≠ .rawWr) : s.faultRaw e = s.raw := if_neg h

/-- Unless the write of CTR failed, fault entry changes CTR only by zeroing the magic of an unfinished container. -/
theorem State.faultCtr_of_ne (s : State) {e : Trap} (h : e.cause ≠ .ctrWr) :
    s.faultCtr e = if s.wact then s.ctr.write 0 [0, 0, 0] else s.ctr := by
  rw [State.faultCtr, if_neg h]

/-! ### The obligation -/

/-- Settles O10: a command's body says whether it retires, and `State.enterFault_eq` is all that fault entry does. -/
theorem faultEntryIsPrecise : Obligations.FaultEntryIsPrecise := by
  refine ⟨fun i s hf => exec_retires_or_faults i hf, fun s e => ⟨s.enterFault e, rfl, ?frame, ?raw, ?idle, ?active⟩, ?codes⟩
  case frame =>
    rw [State.enterFault_raw, State.enterFault_ctr, State.enterFault_freeCount]
    exact State.enterFault_eq s e
  case raw => exact fun h => (State.enterFault_raw s e).trans (State.faultRaw_of_ne s h)
  case idle =>
    intro h hw
    rw [State.enterFault_ctr, State.faultCtr_of_ne s h, if_neg (by simp [hw])]
  case active =>
    intro h hw
    rw [State.enterFault_ctr, State.faultCtr_of_ne s h, if_pos hw]
    exact ⟨rfl, Memory.byteAt_write_magic_zero s.ctr⟩
  case codes => intro c; cases c <;> rfl

end Sys2Proof.Machine
